-- ==== Sys2Proof/Word.lean ====
section
/-! DEFINITION. The word types of HZC and their plainest arithmetic (00_scope.md R7, R8, R10). -/

namespace Sys2Proof

/-- One byte of IN or OUT, and one symbol: 8 bits, 0 to 255 (00_scope.md R7, R15). -/
abbrev Byte := BitVec 8

/-- One register of the REG space: 32 bits, unsigned (00_scope.md R7, R8). -/
abbrev Word := BitVec 32

/-- A code, a path or a bit stream: a finite list of bits, the first bit first (00_scope.md R9). -/
abbrev Bits := List Bool

/-- `ceil8(n)` = ⌈n/8⌉ (00_scope.md R10). -/
def ceil8 (n : Nat) : Nat := (n + 7) / 8

/-- The 256 symbols in increasing order, the range of every `for s in 0..255` (00_scope.md R7, R10). -/
def allSymbols : List Byte := (List.range 256).map (BitVec.ofNat 8)

end Sys2Proof
end

