-- ==== Sys2Proof/Machine/Types.lean ====
section
/-! DEFINITION. The data types State is made of: error kinds, valid bits, tree and trie nodes, buffers, and the host's
bus accesses. -/

namespace Sys2Proof.Machine

/-- The error kinds of STATUS.ERRCODE (60_exceptions.md R320), in code order 0 to 7. Codes 8 to 15 are never written
(93_implementation_defined.md X2), so they have no constructor. -/
inductive ErrKind where
  /-- 0: success. -/
  | none
  /-- 1: IO_ERROR (R321, R322). -/
  | ioError
  /-- 2: CORRUPT_HEADER (R323). -/
  | corruptHeader
  /-- 3: CORRUPT_PAYLOAD (R324). -/
  | corruptPayload
  /-- 4: TRUNCATED_INPUT (R325). -/
  | truncatedInput
  /-- 5: UNKNOWN_SYMBOL (R326). -/
  | unknownSymbol
  /-- 6: ILLEGAL_COMMAND (R327). -/
  | illegalCommand
  /-- 7: SEQUENCE_ERROR (R328). -/
  | sequenceError
deriving DecidableEq, Repr, Inhabited

/-- The six valid bits STATUS[13:8] (10_state.md R34), also used as a set of them (kill and gen sets,
40_command_model.md R154). -/
structure ValidBits where
  /-- FT_V, STATUS[8]. -/
  ft : Bool
  /-- TREE_V, STATUS[9]. -/
  tree : Bool
  /-- CT_V, STATUS[10]. -/
  ct : Bool
  /-- HS_V, STATUS[11]. -/
  hs : Bool
  /-- HD_V, STATUS[12]. -/
  hd : Bool
  /-- TRIE_V, STATUS[13]. -/
  trie : Bool
deriving DecidableEq, Repr

/-- A node of the encoder tree (10_state.md R47). -/
inductive Node where
  | leaf (sym : Byte) (freq : Word) (key : BitVec 9)
  | internal (freq : Word) (key : BitVec 9) (left right : Node)
deriving DecidableEq, Repr, Inhabited

/-- A node record of the decoder trie (10_state.md R51); a child is an index into the pool TN. -/
structure TrieNode where
  c0 : Option Nat
  c1 : Option Nat
  sym : Option Byte
deriving DecidableEq, Repr, Inhabited

/-- A byte buffer, IN or OUT (10_state.md R52). `cells` lists the bytes that have a defined value, offsets strictly
rising; every other byte holds an unspecified value, and `epoch` is the draw those values come from (assumption 4). -/
structure Memory where
  epoch : Nat
  cells : List Host.Cell
deriving DecidableEq, Repr

/-- The two byte spaces (20_memory.md R80). -/
inductive Space where
  | inSpace
  | outSpace
deriving DecidableEq, Repr

/-- The registers and table windows of the register map (10_state.md R54). -/
inductive Reg where
  | id | ctrl | cmd | status | inLen | outLen | nsym | vbc | hdrLen | dnent | dvbc | payOff | inCapR | outCapR
  | freq (s : Byte) | rank (s : Byte) | clen (s : Byte) | codew (s : Byte) (w : Nat)
  | dclen (s : Byte) | dcodew (s : Byte) (w : Nat)
  /-- A reserved offset (R44). -/
  | reserved
deriving DecidableEq, Repr

/-- One access of the host, or the reset input (00_scope.md R13; 20_memory.md R86 to R88; 30_encoding.md R130;
70_reset_and_hazards.md R360). A REG offset has 15 bits, the whole space 0x0000 to 0x7FFF. -/
inductive HostEvent where
  /-- The reset input (R360). -/
  | reset
  /-- Read of `bits` bits at a REG offset. -/
  | regRead (off : BitVec 15) (bits : Nat)
  /-- Write of `bits` bits of `v` at a REG offset. -/
  | regWrite (off : BitVec 15) (bits : Nat) (v : Word)
  /-- Byte read of IN (`rdin i`). -/
  | inRead (i : Nat)
  /-- Byte write of IN (`wrin i, v`). -/
  | inWrite (i : Nat) (v : Byte)
  /-- Byte read of OUT (`rdout i`). -/
  | outRead (i : Nat)
  /-- Byte write of OUT, which HZC ignores (R88). -/
  | outWrite (i : Nat) (v : Byte)
  /-- The pseudo-instruction `wait` (R131): read STATUS again and again until its bit 0 is 0. -/
  | wait
deriving DecidableEq, Repr

/-- The value one host read returned. -/
inductive Reply where
  | word (v : Word)
  | byte (v : Byte)
deriving DecidableEq, Repr

/-- Names of the fields a free value can stand in (93_implementation_defined.md U4, U5, U7, U8, U11). -/
inductive Slot where
  | opl | freq (s : Byte) | rank (s : Byte) | nsym | code (s : Byte) | vbc | hdrLen | outLen
  | dcode (s : Byte) | dnent | dvbc | payOff | lost | validFt | validTree | validCt | validHs | validHd | validTrie | busRead
deriving DecidableEq, Repr

end Sys2Proof.Machine
end

