-- ==== Sys2Proof/Syntax.lean ====
section
/-! DEFINITION. The command set HZC-CMD version 1: one constructor per row of spec/opcode_table.json. -/

namespace Sys2Proof

/-- The twelve commands (30_encoding.md R111), in opcode order. No command has an operand field: all operands are
implicit (R110, R113), so no constructor has an argument. Every other 32-bit word is illegal (R112) and is no `Instr`. -/
inductive Instr where
  /-- NOP, 0x0 (40_command_model.md R157). -/
  | nop
  /-- CLEAR, 0x1 (40_command_model.md R158). -/
  | clear
  /-- FCOUNT, 0x2 (41_frequency_counter.md R171). -/
  | fcount
  /-- TBUILD, 0x3 (42_tree_builder.md R181). -/
  | tbuild
  /-- CGEN, 0x4 (43_code_table_generator.md R201). -/
  | cgen
  /-- HSER, 0x5 (44_artifact_serializer.md R216). -/
  | hser
  /-- PACK, 0x6 (45_bit_packer.md R251). -/
  | pack
  /-- HDESER, 0x7 (44_artifact_serializer.md R231). -/
  | hdeser
  /-- TRECON, 0x8 (46_tree_reconstructor.md R266). -/
  | trecon
  /-- UNPACK, 0x9 (47_bit_unpacker.md R281). -/
  | unpack
  /-- COMPRESS, 0xA (48_composite.md R300). -/
  | compress
  /-- DECOMPRESS, 0xB (48_composite.md R305). -/
  | decompress
deriving DecidableEq, Repr

end Sys2Proof
end

