-- ==== Sys2Proof/WellFormed.lean ====
section
/-! DEFINITION. Well-formedness of what the machine is given or holds: command words, instructions, codes, trees, tries. -/

namespace Sys2Proof

/-- The MBZ field w[31:4] is zero (30_encoding.md R110). -/
def wordMbzOk (w : Word) : Bool := w.extractLsb' 4 28 == 0#28

/-- The OP field w[3:0] is one of the twelve opcodes (30_encoding.md R111, R112). -/
def wordOpOk (w : Word) : Bool := decide ((w.extractLsb' 0 4).toNat < 12)

/-- A command word outside these is illegal (30_encoding.md R112). -/
def wordWf (w : Word) : Bool := wordMbzOk w && wordOpOk w

/-- Every command is well formed: none has an operand to check (30_encoding.md R110, R113). -/
def Instr.wf : Instr → Bool
  | .nop | .clear | .fcount | .tbuild | .cgen | .hser | .pack | .hdeser | .trecon | .unpack | .compress | .decompress => true

namespace Machine

/-- A code fits its 8-bit length (00_scope.md R7, 10_state.md R48). -/
def codeWf (c : Bits) : Bool := decide (c.length ≤ 255)

/-- The most edges from a node down to a leaf. -/
def nodeDepth : Node → Nat
  | .leaf _ _ _ => 0
  | .internal _ _ l r => max (nodeDepth l) (nodeDepth r) + 1

/-- How many nodes a tree has, leaves and internal ones. -/
def nodeCount : Node → Nat
  | .leaf _ _ _ => 1
  | .internal _ _ l r => nodeCount l + nodeCount r + 1

/-- A tree of at most 511 nodes, 256 leaves and 255 internal nodes, whose every path is a code of at most 255 bits
(00_scope.md R7, 42_tree_builder.md R185 (a), (e)). -/
def nodeWf (n : Node) : Bool := decide (nodeCount n ≤ 511) && decide (nodeDepth n ≤ 255)

/-- A child index lies in the pool. -/
def childWf (size : Nat) : Option Nat → Bool
  | Option.none => true
  | some n => decide (n < size)

/-- A trie node's children lie in the pool, and a node with a symbol has no child (10_state.md R51). -/
def trieNodeWf (size : Nat) (n : TrieNode) : Bool :=
  childWf size n.c0 && childWf size n.c1 && (n.sym.isNone || (n.c0.isNone && n.c1.isNone))

/-- A trie pool: 1 to 65281 nodes, each well formed (10_state.md R51). -/
def trieWf (t : List TrieNode) : Bool :=
  decide (1 ≤ t.length) && decide (t.length ≤ 65281) && t.all (trieNodeWf t.length)

end Machine

end Sys2Proof
end

