-- ==== Sys2Proof/Decode.lean ====
section
/-! DEFINITION. Decoding and encoding of command words (30_encoding.md R110 to R112) and the opcode latch
(40_command_model.md R151). A command word is the 32-bit data of a CMD write: it lies in no memory, so it has no byte
order (20_memory.md R98; assumption 16). -/

namespace Sys2Proof

/-- Why a word is no command (30_encoding.md R112). -/
inductive DecodeError where
  /-- A bit of MBZ, w[31:4], is set. -/
  | mbzSet
  /-- The opcode is reserved, 0xC to 0xF. -/
  | reservedOp
deriving DecidableEq, Repr

/-- The command with opcode `op` (30_encoding.md R111). -/
def decodeOp (op : BitVec 4) : Except DecodeError Instr :=
  match op.toNat with
  | 0x0 => .ok .nop
  | 0x1 => .ok .clear
  | 0x2 => .ok .fcount
  | 0x3 => .ok .tbuild
  | 0x4 => .ok .cgen
  | 0x5 => .ok .hser
  | 0x6 => .ok .pack
  | 0x7 => .ok .hdeser
  | 0x8 => .ok .trecon
  | 0x9 => .ok .unpack
  | 0xA => .ok .compress
  | 0xB => .ok .decompress
  | _ => .error .reservedOp

/-- The command a 32-bit word encodes, or why it is illegal (30_encoding.md R111, R112). -/
def decode (w : Word) : Except DecodeError Instr :=
  if w.extractLsb' 4 28 = 0#28 then decodeOp (w.extractLsb' 0 4) else .error .mbzSet

/-- The OPL value an accepted word latches: its OP field, or the illegal 0xF when an MBZ bit is set
(40_command_model.md R151). -/
def latchOp (w : Word) : BitVec 4 :=
  if w.extractLsb' 4 28 = 0#28 then w.extractLsb' 0 4 else 0xF#4

/-- The opcode of a command (30_encoding.md R111). -/
def opcode : Instr → BitVec 4
  | .nop => 0x0
  | .clear => 0x1
  | .fcount => 0x2
  | .tbuild => 0x3
  | .cgen => 0x4
  | .hser => 0x5
  | .pack => 0x6
  | .hdeser => 0x7
  | .trecon => 0x8
  | .unpack => 0x9
  | .compress => 0xA
  | .decompress => 0xB

/-- The word of a command: its opcode in bits 3:0 and zero in MBZ (30_encoding.md R110). -/
def encode (i : Instr) : Word := (0#28) ++ (opcode i)

/-- The command the decoder reads from a word given as its number; a command is exactly 32 bits (30_encoding.md R110). -/
def decodeTableWord (nbits w : Nat) : Option Instr :=
  if nbits ≤ 32 ∧ w < 2 ^ 32 then
    match decode (BitVec.ofNat 32 w) with
    | .ok i => some i
    | .error _ => none
  else none

end Sys2Proof
end

