-- ==== Sys2Proof/Config.lean ====
section
/-! DEFINITION. What an implementation or a platform fixes (the parameters of 00_scope.md R6 and 20_memory.md R92), and the
free values of 93_implementation_defined.md. Each is an opaque constant with no body: nothing can prove a value of it. -/

namespace Sys2Proof.Config

open Sys2Proof.Machine

/-- DESIGN CHOICE, safe (assumption 1): any number; `inCap` maps it onto the range R6 gives IN_CAP. -/
opaque inCapSeed : Nat

/-- DESIGN CHOICE, safe (assumption 1): any number; `outCap` maps it onto the range of OUT_CAP. -/
opaque outCapSeed : Nat

/-- The parameter IN_CAP, any value with 1 ≤ IN_CAP ≤ 2^29 − 1 (00_scope.md R6). -/
def inCap : Nat := 1 + inCapSeed % (2 ^ 29 - 1)

/-- The parameter OUT_CAP, any value with OUT_CAP ≥ 6 that the 32-bit register OUT_CAP_R can report (00_scope.md R6,
10_state.md R41). DEDUCED, safe (assumption 1): the upper bound 2^32 − 1. -/
def outCap : Nat := 6 + outCapSeed % (2 ^ 32 - 6)

/-- The parameter REG_BASE, open (20_memory.md R92; 93_implementation_defined.md U13; assumption 18). -/
opaque regBase : Nat

/-- The parameter IN_BASE, open (R92; U13). -/
opaque inBase : Nat

/-- The parameter OUT_BASE, open (R92; U13). -/
opaque outBase : Nat

/-- Free bits for one field at one draw (U4, U5, U7, U8, U11). DESIGN CHOICE, safe (assumption 11). -/
opaque freeBits (w : Nat) (draw : Nat) (slot : Slot) : BitVec w

/-- A free code of the encoder or decoder table (U4). -/
opaque freeCode (draw : Nat) (slot : Slot) : Bits

/-- A free encoder tree, before `freeTree` keeps it well formed (U4, U8, U9). -/
opaque freeNode (draw : Nat) : Node

/-- A free decoder trie pool, before `freeTrie` keeps it well formed (U4, U8, U9). -/
opaque freePool (draw : Nat) : List TrieNode

/-- The unspecified byte at an offset of IN or OUT, one value per byte and draw (U2, U3, U6, U10). -/
opaque freeByte (sp : Space) (draw : Nat) (off : Nat) : Byte

/-- The outcome code of a command whose input the host changed while it ran (U11, 70_reset_and_hazards.md R370). -/
opaque freeErr (draw : Nat) : ErrKind

/-- How many host accesses come between accept and completion: any finite number (U1, U14, 40_command_model.md R153). -/
opaque latency (draw : Nat) : Nat

end Sys2Proof.Config
end

