-- ==== Sys2Proof/Machine/Table.lean ====
section
/-! DEFINITION. Tables of 256 entries, indexed by a symbol (10_state.md R46, R48, R50). -/

namespace Sys2Proof.Machine

/-- A table with one entry per symbol. -/
abbrev Table (α : Type) := Vector α 256

/-- `T[s]`. -/
def Table.read {α : Type} (t : Table α) (s : Byte) : α := t[s.toNat]'s.isLt

/-- `T[s] <- a` (00_scope.md R10). -/
def Table.write {α : Type} (t : Table α) (s : Byte) (a : α) : Table α := t.set s.toNat a s.isLt

/-- `for s in 0..255: T[s] <- a`. -/
def Table.fill {α : Type} (a : α) : Table α := Vector.replicate 256 a

/-- `for s in 0..255: T[s] <- f s`. -/
def Table.tabulate {α : Type} (f : Byte → α) : Table α := Vector.ofFn fun i => f (BitVec.ofFin i)

end Sys2Proof.Machine
end

