-- ==== Sys2Proof/Machine/Free.lean ====
section
/-! DEFINITION. Free values of the larger fields, each kept to the limits its type has in the spec. -/

namespace Sys2Proof.Machine

/-- An unspecified FREQ table (40_command_model.md R155 (d)). -/
def freeFreq (d : Nat) : Table Word := Table.tabulate fun s => Config.freeBits 32 d (.freq s)

/-- An unspecified RANK table. -/
def freeRank (d : Nat) : Table Byte := Table.tabulate fun s => Config.freeBits 8 d (.rank s)

/-- An unspecified CODE table; a code has at most 255 bits (10_state.md R48). -/
def freeCodes (d : Nat) : Table Bits := Table.tabulate fun s => (Config.freeCode d (.code s)).take 255

/-- An unspecified DCODE table; a code has at most 255 bits (10_state.md R50). -/
def freeDcodes (d : Nat) : Table Bits := Table.tabulate fun s => (Config.freeCode d (.dcode s)).take 255

/-- An unspecified TREE: any well-formed value of its type (93_implementation_defined.md U4, U8, U9; assumption 3). -/
def freeTree (d : Nat) : Node :=
  if nodeWf (Config.freeNode d) then Config.freeNode d else .leaf 0 0 0

/-- An unspecified TRIE: any well-formed value of its type (93_implementation_defined.md U4, U8, U9; assumption 3). -/
def freeTrie (d : Nat) : List TrieNode :=
  if trieWf (Config.freePool d) then Config.freePool d else [⟨none, none, none⟩]

/-- One unspecified bit. -/
def freeBit (d : Nat) (slot : Slot) : Bool := Config.freeBits 1 d slot == 1#1

/-- Unspecified valid bits (70_reset_and_hazards.md R370). -/
def freeValid (d : Nat) : ValidBits :=
  ⟨freeBit d .validFt, freeBit d .validTree, freeBit d .validCt, freeBit d .validHs, freeBit d .validHd, freeBit d .validTrie⟩

end Sys2Proof.Machine
end

