-- ==== Sys2Proof/Machine/State.lean ====
section
/-! DEFINITION. State: every piece of state the spec gives HZC (10_state.md), the host's pending accesses, and the state
after reset (70_reset_and_hazards.md R360). -/

namespace Sys2Proof.Machine

/-- The state of one HZC block and its host. Each field's docstring names its rule; the last five are the model's own. -/
structure State where
  /-- IN_CAP_R, the parameter IN_CAP (10_state.md R41). -/
  inCapR : Word
  /-- OUT_CAP_R, the parameter OUT_CAP (R41). -/
  outCapR : Word
  /-- CTRL.IE (R32). -/
  ie : Bool
  /-- STATUS.BUSY (R34). -/
  busy : Bool
  /-- STATUS.DONE (R34). -/
  done : Bool
  /-- STATUS.LOST (R34). -/
  lost : Bool
  /-- STATUS.ERRCODE (R34); STATUS.ERR is computed from it. -/
  errcode : ErrKind
  /-- STATUS[13:8], the valid bits (R34). -/
  valid : ValidBits
  /-- OPL, the latched opcode (R45). -/
  opl : BitVec 4
  /-- IN_LEN (R35). -/
  inLen : Word
  /-- OUT_LEN (R36). -/
  outLen : Word
  /-- NSYM[8:0] (R37). -/
  nsym : BitVec 9
  /-- VBC (R38). -/
  vbc : Word
  /-- HDR_LEN (R39). -/
  hdrLen : Word
  /-- DNENT[8:0] (R40). -/
  dnent : BitVec 9
  /-- DVBC (R40). -/
  dvbc : Word
  /-- PAY_OFF (R40). -/
  payOff : Word
  /-- FREQ (R46). -/
  freq : Table Word
  /-- RANK (R46). -/
  rank : Table Byte
  /-- CODE (R48); CLEN[s] is its length. -/
  code : Table Bits
  /-- TREE, the encoder tree's ROOT (R47). -/
  tree : Node
  /-- DCODE (R50); DCLEN[s] is its length. -/
  dcode : Table Bits
  /-- TRIE, the pool TN; TNC is its length (R51). -/
  trie : List TrieNode
  /-- The IN buffer (R52). -/
  inBuf : Memory
  /-- The OUT buffer (R52). -/
  outBuf : Memory
  /-- The model's: host accesses still to come before the command in progress completes (40_command_model.md R153). -/
  latency : Nat
  /-- The model's: the host broke the duty of 70_reset_and_hazards.md R370 during the command in progress. -/
  tainted : Bool
  /-- The model's: the host's accesses not yet performed, in its program order (20_memory.md R94). -/
  host : List HostEvent
  /-- The model's: what host reads returned, newest first. -/
  reads : List Reply
  /-- The model's: the number of the next draw of a free value. -/
  draws : Nat
deriving DecidableEq, Repr

/-- Why the machine stops with a fault. HZC has none: "The command set has no undefined behaviour" (00_scope.md R14), and an
error ends a command, not the machine (60_exceptions.md R334). So nothing raises a fault, which is safe: no step stops. -/
inductive Fault
deriving DecidableEq, Repr

/-- Why a step has no meaning. -/
inductive Refusal where
  /-- Raised only by an arm of `exec` for a command that has no meaning yet; every command has one, so no step raises it.
  Safe: the machine would stop where the hardware goes on. -/
  | notModelled (mnemonic : String)
deriving DecidableEq, Repr

/-- The state right after reset, its unspecified elements (OPL, TREE, TRIE, IN, OUT) drawn with number `d`
(70_reset_and_hazards.md R360). -/
def State.resetAt (d : Nat) : State where
  inCapR := BitVec.ofNat 32 Config.inCap
  outCapR := BitVec.ofNat 32 Config.outCap
  ie := false
  busy := false
  done := false
  lost := false
  errcode := .none
  valid := ⟨false, false, false, false, false, false⟩
  opl := Config.freeBits 4 d .opl
  inLen := 0
  outLen := 0
  nsym := 0
  vbc := 0
  hdrLen := 0
  dnent := 0
  dvbc := 0
  payOff := 0
  freq := Table.fill 0
  rank := Table.fill 0
  code := Table.fill []
  tree := freeTree d
  dcode := Table.fill []
  trie := freeTrie d
  inBuf := ⟨d, []⟩
  outBuf := ⟨d, []⟩
  latency := 0
  tainted := false
  host := []
  reads := []
  draws := d + 1

/-- The machine right after reset (70_reset_and_hazards.md R360, R362): idle, every register and table zero, nothing in the
buffers, no host access pending. -/
def State.reset : State := State.resetAt 0

end Sys2Proof.Machine
end

