-- ==== Sys2Proof/Machine/Flags.lean ====
section
/-! DEFINITION. STATUS: its word, its error codes, ERR and the interrupt line, and the valid bits with every command's kill
and gen set (10_state.md R34, 40_command_model.md R154, 60_exceptions.md R320, R331). -/

namespace Sys2Proof.Machine

/-- The code of an error kind (60_exceptions.md R320). -/
def errCode : ErrKind → BitVec 4
  | .none => 0
  | .ioError => 1
  | .corruptHeader => 2
  | .corruptPayload => 3
  | .truncatedInput => 4
  | .unknownSymbol => 5
  | .illegalCommand => 6
  | .sequenceError => 7

/-- STATUS.ERR: 1 exactly when ERRCODE ≠ 0 (10_state.md R34, 60_exceptions.md R320). -/
def errBit (s : State) : Bool := errCode s.errcode != 0

/-- The interrupt output IRQ = DONE ∧ IE (60_exceptions.md R331). -/
def irq (s : State) : Bool := s.done && s.ie

/-- A Bool as one bit. -/
def bit (b : Bool) : BitVec 1 := BitVec.ofBool b

/-- The valid bits as STATUS[13:8] (10_state.md R34). -/
def validField (v : ValidBits) : BitVec 6 :=
  bit v.trie ++ bit v.hd ++ bit v.hs ++ bit v.ct ++ bit v.tree ++ bit v.ft

/-- STATUS[7:0]: ERRCODE, LOST, ERR, DONE, BUSY (10_state.md R34). -/
def statusLow (s : State) : BitVec 8 :=
  errCode s.errcode ++ bit s.lost ++ bit (errBit s) ++ bit s.done ++ bit s.busy

/-- The STATUS word with `v` in the valid field; bits 31:14 read 0 (10_state.md R34). -/
def statusWith (s : State) (v : BitVec 6) : Word := (0#18) ++ v ++ statusLow s

/-- The STATUS word (10_state.md R34). -/
def statusWord (s : State) : Word := statusWith s (validField s.valid)

/-- V \ K on sets of valid bits (40_command_model.md R154). -/
def ValidBits.diff (v k : ValidBits) : ValidBits :=
  ⟨v.ft && !k.ft, v.tree && !k.tree, v.ct && !k.ct, v.hs && !k.hs, v.hd && !k.hd, v.trie && !k.trie⟩

/-- V ∪ G on sets of valid bits (40_command_model.md R154). -/
def ValidBits.union (v g : ValidBits) : ValidBits :=
  ⟨v.ft || g.ft, v.tree || g.tree, v.ct || g.ct, v.hs || g.hs, v.hd || g.hd, v.trie || g.trie⟩

/-- The empty set of valid bits. -/
def ValidBits.empty : ValidBits := ⟨false, false, false, false, false, false⟩

/-- The kill set K of 40_command_model.md R154. A composite applies the rows of its stages, so its own row is the set its
stages can kill (48_composite.md R299); DECOMPRESS clears HS_V itself (R305). -/
def killSet : Instr → ValidBits
  | .nop => ValidBits.empty
  | .clear => ⟨true, true, true, true, true, true⟩
  | .fcount => ⟨true, true, true, true, false, false⟩
  | .tbuild => ⟨false, true, true, true, false, false⟩
  | .cgen => ⟨false, false, true, true, false, false⟩
  | .hser => ⟨false, false, false, true, false, false⟩
  | .pack => ⟨false, false, false, true, false, false⟩
  | .hdeser => ⟨false, false, false, false, true, true⟩
  | .trecon => ⟨false, false, false, false, false, true⟩
  | .unpack => ⟨false, false, false, true, false, false⟩
  | .compress => ⟨true, true, true, true, false, false⟩
  | .decompress => ⟨false, false, false, true, true, true⟩

/-- The gen set G of 40_command_model.md R154; a composite's is the set its stages leave set on success, TREE_V apart
(48_composite.md R300, R305). -/
def genSet : Instr → ValidBits
  | .nop => ValidBits.empty
  | .clear => ValidBits.empty
  | .fcount => ⟨true, false, false, false, false, false⟩
  | .tbuild => ⟨false, true, false, false, false, false⟩
  | .cgen => ⟨false, false, true, false, false, false⟩
  | .hser => ⟨false, false, false, true, false, false⟩
  | .pack => ⟨false, false, false, true, false, false⟩
  | .hdeser => ⟨false, false, false, false, true, false⟩
  | .trecon => ⟨false, false, false, false, false, true⟩
  | .unpack => ValidBits.empty
  | .compress => ⟨true, false, true, true, false, false⟩
  | .decompress => ⟨false, false, false, false, true, true⟩

end Sys2Proof.Machine
end

