-- ==== Sys2Proof/Machine/Operands.lean ====
section
/-! DEFINITION. The implicit operands of the commands and the primitives that read them: bytes of IN, big-endian fields,
MSB-first bit lists, code lengths and code windows (00_scope.md R10, 20_memory.md R81 to R85, 30_encoding.md R113). -/

namespace Sys2Proof.Machine

/-- The defined byte at an offset of a list of cells, if it is listed. -/
def lookupCell : List Host.Cell → Nat → Option Byte
  | [], _ => none
  | (a, v) :: rest, i => if a = i then some v else lookupCell rest i

/-- The byte at an offset: the listed one, or the unspecified byte of the buffer's epoch
(93_implementation_defined.md U10, U2, U3; assumption 4). -/
def Memory.read (sp : Space) (m : Memory) (i : Nat) : Byte :=
  match lookupCell m.cells i with
  | some v => v
  | none => Config.freeByte sp m.epoch i

/-- IN_CAP, as the engine uses it (00_scope.md R6). -/
def inCap (s : State) : Nat := s.inCapR.toNat

/-- OUT_CAP, as the engine uses it (00_scope.md R6). -/
def outCap (s : State) : Nat := s.outCapR.toNat

/-- `IN[i]` (20_memory.md R81). -/
def inByte (s : State) (i : Nat) : Byte := s.inBuf.read .inSpace i

/-- `OUT[i]` (20_memory.md R82). -/
def outByte (s : State) (i : Nat) : Byte := s.outBuf.read .outSpace i

/-- IN[0..IN_LEN−1], the byte sequence a command takes as input (20_memory.md R81). -/
def inputBytes (s : State) : List Byte := (List.range s.inLen.toNat).map (inByte s)

/-- `rd_be16(i)` (20_memory.md R85). -/
def rdBe16 (s : State) (i : Nat) : Nat := (inByte s i).toNat * 2 ^ 8 + (inByte s (i + 1)).toNat

/-- `rd_be32(i)` (20_memory.md R85). -/
def rdBe32 (s : State) (i : Nat) : Nat :=
  (inByte s i).toNat * 2 ^ 24 + (inByte s (i + 1)).toNat * 2 ^ 16 + (inByte s (i + 2)).toNat * 2 ^ 8 +
    (inByte s (i + 3)).toNat

/-- `be16(v)` (20_memory.md R85). -/
def be16 (v : Nat) : List Byte := [BitVec.ofNat 8 (v / 2 ^ 8), BitVec.ofNat 8 v]

/-- `be32(v)` (20_memory.md R85). -/
def be32 (v : Nat) : List Byte :=
  [BitVec.ofNat 8 (v / 2 ^ 24), BitVec.ofNat 8 (v / 2 ^ 16), BitVec.ofNat 8 (v / 2 ^ 8), BitVec.ofNat 8 v]

/-- `bit_msb(i0, k)`: bit k of the bit string stored MSB-first in IN from offset i0 (20_memory.md R84). -/
def bitMsb (s : State) (i0 k : Nat) : Bool := (inByte s (i0 + k / 8)).getLsbD (7 - k % 8)

/-- The value of `n` bits of a list from position `i0`, the first most significant, positions beyond the list reading 0. -/
def msbValue (p : Bits) (i0 n : Nat) : Nat :=
  ((List.range n).map fun k => if p.getD (i0 + k) false then 2 ^ (n - 1 - k) else 0).sum

/-- `pack_msb(p)` (20_memory.md R84). -/
def packMsb (p : Bits) : List Byte :=
  (List.range (ceil8 p.length)).map fun j => BitVec.ofNat 8 (msbValue p (8 * j) 8)

/-- CLEN[s], the length of CODE[s] (10_state.md R48; assumption 12). -/
def clen (s : State) (b : Byte) : Byte := BitVec.ofNat 8 (s.code.read b).length

/-- DCLEN[s], the length of DCODE[s] (10_state.md R50; assumption 12). -/
def dclen (s : State) (b : Byte) : Byte := BitVec.ofNat 8 (s.dcode.read b).length

/-- CLEN[s] > 0, or DCLEN[s] > 0 for the decoder's table: the symbol has a code, which is then non-empty
(10_state.md R48, R50; assumption 12). -/
def hasCode (t : Table Bits) (b : Byte) : Bool := !(t.read b).isEmpty

/-- CODEW[s][w], the window word on CODE[s] (10_state.md R49). -/
def codeWord (s : State) (b : Byte) (w : Nat) : Word := BitVec.ofNat 32 (msbValue (s.code.read b) (32 * w) 32)

/-- DCODEW[s][w], the window word on DCODE[s] (10_state.md R50). -/
def dcodeWord (s : State) (b : Byte) (w : Nat) : Word := BitVec.ofNat 32 (msbValue (s.dcode.read b) (32 * w) 32)

/-- Node n of the trie pool TN; an index outside the pool, which no rule produces, has no child and no symbol
(10_state.md R51; assumption 20). -/
def trieNode (t : List TrieNode) (n : Nat) : TrieNode := t.getD n ⟨none, none, none⟩

/-- The child `c_b`: c0 when b = 0, c1 when b = 1 (46_tree_reconstructor.md R265, R266). -/
def trieChild (n : TrieNode) (b : Bool) : Option Nat := if b then n.c1 else n.c0

end Sys2Proof.Machine
end

