-- ==== Sys2Proof/Machine/Ops.lean ====
section
/-! DEFINITION. The operations every command shares: buffers, accept and completion (40_command_model.md R151, R152), and
taking an error (R155, 60_exceptions.md R329), which is what HZC has in place of taking an exception (R334). There is no
return from one: the host's next accept clears it (R335). -/

namespace Sys2Proof.Machine

/-! ### Buffers -/

/-- `v` stored at offset `i`, offsets kept strictly rising. -/
def insertCell (i : Nat) (v : Byte) : List Host.Cell → List Host.Cell
  | [] => [(i, v)]
  | (a, x) :: rest =>
    if i < a then (i, v) :: (a, x) :: rest
    else if i = a then (i, v) :: rest
    else (a, x) :: insertCell i v rest

/-- A byte store (00_scope.md R10). -/
def Memory.write (m : Memory) (i : Nat) (v : Byte) : Memory := { m with cells := insertCell i v m.cells }

/-- The bytes `bs` at offsets i, i+1, … -/
def cellsFrom (i : Nat) : List Byte → List Host.Cell
  | [] => []
  | b :: bs => (i, b) :: cellsFrom (i + 1) bs

/-- Every offset is at least `lo`, and offsets strictly rise. -/
def risingFrom (lo : Nat) : List Host.Cell → Bool
  | [] => true
  | (a, _) :: rest => decide (lo ≤ a) && risingFrom (a + 1) rest

/-- The canonical form of a buffer: its defined bytes are listed by strictly rising offset. A byte that is not listed has no
listed value, so no entry can repeat what it reads as (assumption 4). -/
def Memory.wf (m : Memory) : Bool := risingFrom 0 m.cells

/-- `for j in 0..|bs|−1: OUT[j] <- bs[j]` then `OUT_LEN <- |bs|`, the end of every successful OUT-writer (20_memory.md R82).
Bytes at offsets ≥ OUT_LEN become unspecified (40_command_model.md R155; assumption 6). -/
def writeOut (bs : List Byte) (s : State) : State :=
  { s with
    outBuf := ⟨s.draws, cellsFrom 0 bs⟩
    outLen := BitVec.ofNat 32 bs.length
    draws := s.draws + 1 }

/-- `OUT_LEN <- 0` and every byte of OUT unspecified (40_command_model.md R155 (c); assumption 6). -/
def loseOutput (s : State) : State :=
  { s with outBuf := ⟨s.draws, []⟩, outLen := 0, draws := s.draws + 1 }

/-! ### The write set of a failed command -/

/-- FREQ, RANK and NSYM unspecified, drawn with number `d`. -/
def spoilCounts (d : Nat) (s : State) : State :=
  { s with freq := freeFreq d, rank := freeRank d, nsym := Config.freeBits 9 d .nsym }

/-- TREE unspecified. -/
def spoilTree (d : Nat) (s : State) : State := { s with tree := freeTree d }

/-- CLEN, CODE and VBC unspecified. -/
def spoilCodes (d : Nat) (s : State) : State := { s with code := freeCodes d, vbc := Config.freeBits 32 d .vbc }

/-- HDR_LEN unspecified. -/
def spoilHdrLen (d : Nat) (s : State) : State := { s with hdrLen := Config.freeBits 32 d .hdrLen }

/-- DCLEN, DCODE, DNENT, DVBC and PAY_OFF unspecified. -/
def spoilHeader (d : Nat) (s : State) : State :=
  { s with
    dcode := freeDcodes d
    dnent := Config.freeBits 9 d .dnent
    dvbc := Config.freeBits 32 d .dvbc
    payOff := Config.freeBits 32 d .payOff }

/-- TRIE unspecified. -/
def spoilTrie (d : Nat) (s : State) : State := { s with trie := freeTrie d }

/-- LOST and the valid bits unspecified. -/
def spoilStatus (d : Nat) (s : State) : State := { s with lost := freeBit d .lost, valid := freeValid d }

/-- The next draw taken. -/
def draw (s : State) : State := { s with draws := s.draws + 1 }

/-- Every register and table of a command's write set (30_encoding.md R113), other than STATUS, OUT and OUT_LEN, made
unspecified (40_command_model.md R155 (d)). The rows of CLEAR and of the composites matter only to `breach`. -/
def spoil (i : Instr) (s : State) : State :=
  let d := s.draws
  match i with
  | .nop => draw s
  | .clear => draw (spoilTrie d (spoilHeader d (spoilHdrLen d (spoilCodes d (spoilTree d (spoilCounts d s))))))
  | .fcount => draw (spoilCounts d s)
  | .tbuild => draw (spoilTree d s)
  | .cgen => draw (spoilCodes d s)
  | .hser => draw (spoilHdrLen d s)
  | .pack => draw s
  | .hdeser => draw (spoilHeader d s)
  | .trecon => draw (spoilTrie d s)
  | .unpack => draw s
  | .compress => draw (spoilHdrLen d (spoilCodes d (spoilTree d (spoilCounts d s))))
  | .decompress => draw (spoilTrie d (spoilHeader d s))

/-! ### Stages and errors -/

/-- What a command or stage comes to: an error kind (NONE on success) and the state it leaves, STATUS completion apart. -/
structure Verdict where
  err : ErrKind
  st : State
deriving DecidableEq, Repr

/-- Run one command or stage: `r` is its pseudocode's result on `s`, a state or the error it raises. On success the valid bits
become (V \ K) ∪ G; on an error nothing of the result is kept, the write set is unspecified and the valid bits become V \ K
(40_command_model.md R154, R155 (b), (d), (e)). -/
def runStage (i : Instr) (s : State) (r : Except ErrKind State) : Verdict :=
  match r with
  | .ok t => ⟨.none, { t with valid := (s.valid.diff (killSet i)).union (genSet i) }⟩
  | .error e => ⟨e, { spoil i s with valid := s.valid.diff (killSet i) }⟩

/-- The next stage of a composite, on the state the stages before it left; the first error ends the composite
(48_composite.md R299). -/
def Verdict.andThen (v : Verdict) (f : State → Verdict) : Verdict :=
  if v.err = .none then f v.st else v

/-- The error outcome of an OUT-writer (40_command_model.md R155 (c)). -/
def closeOutWriter (v : Verdict) : Verdict :=
  if v.err = .none then v else ⟨v.err, loseOutput v.st⟩

/-! ### Accept and completion -/

/-- Accept of word `w`, completion to come after `lat` more host accesses (40_command_model.md R151; assumption 8). -/
def acceptWith (s : State) (w : Word) (lat : Nat) : State :=
  { s with opl := latchOp w, busy := true, done := false, errcode := .none, latency := lat, tainted := false }

/-- The outcome of a command (none: an illegal word) whose input the host changed while it ran: any outcome code, and OUT,
OUT_LEN and its write set unspecified, STATUS's LOST and valid bits among it, since every command writes STATUS
(70_reset_and_hazards.md R370, 30_encoding.md R113, 93_implementation_defined.md U11; assumption 10). -/
def breach (c : Option Instr) (s : State) : Verdict :=
  let d := s.draws
  let t := match c with
    | some i => spoil i s
    | none => s
  ⟨Config.freeErr d, { spoilStatus d (loseOutput t) with outLen := Config.freeBits 32 d .outLen, draws := d + 2 }⟩

/-- Completion of command `c` (none: an illegal word), whose rule on `s` gives `v` (40_command_model.md R152):
ERRCODE, BUSY <- 0, DONE <- 1. -/
def complete (c : Option Instr) (s : State) (v : Verdict) : State :=
  let v := if s.tainted then breach c s else v
  { v.st with errcode := v.err, busy := false, done := true, latency := 0, tainted := false }

end Sys2Proof.Machine
end

