-- ==== Sys2Proof/Machine/ArtifactSerializer.lean ====
section
/-! DEFINITION. ArtifactSerializer: HSER and HDESER (44_artifact_serializer.md), over the layout HZC-ART version 1
(30_encoding.md R120, R121). -/

namespace Sys2Proof.Machine

/-! ### Serialize -/

/-- The entry of symbol `b` with code `c` (30_encoding.md R121). -/
def entryBytes (b : Byte) (c : Bits) : List Byte := [b, BitVec.ofNat 8 c.length] ++ packMsb c

/-- The symbols with a code, in increasing order (44_artifact_serializer.md R216, 30_encoding.md R124). -/
def codedSymbols (s : State) : List Byte := allSymbols.filter (hasCode s.code)

/-- The header of the code table CLEN and CODE with valid-bit count VBC (44_artifact_serializer.md R216, 30_encoding.md R120). -/
def headerBytes (s : State) : List Byte :=
  be16 (codedSymbols s).length ++ ((codedSymbols s).flatMap fun b => entryBytes b (s.code.read b)) ++ be32 s.vbc.toNat

/-- The pseudocode of HSER (44_artifact_serializer.md R216). -/
def runHser (s : State) : Except ErrKind State :=
  if s.valid.ct = false then .error .sequenceError
  else
    let h := headerBytes s
    if outCap s < h.length then .error .ioError
    else .ok { writeOut h s with hdrLen := BitVec.ofNat 32 h.length }

/-- HSER as a stage (44_artifact_serializer.md R216, 48_composite.md R299). -/
def stageHser (s : State) : Verdict := runStage .hser s (runHser s)

/-- HSER (44_artifact_serializer.md R216), an OUT-writer. -/
def execHser (s : State) : Host.Outcome State Fault Refusal :=
  .next (complete (some .hser) s (closeOutWriter (stageHser s)))

/-! ### Deserialize -/

/-- Bits 0 to n−1 of the bit string in IN from offset `p` (44_artifact_serializer.md R231). -/
def readCode (s : State) (p n : Nat) : Bits := (List.range n).map (bitMsb s p)

/-- HDESER's loop over `k` more entries from offset `p`: the table so far grows by each, and the offset after the last is
returned (44_artifact_serializer.md R231). -/
def parseEntries (s : State) : Nat → Nat → Table Bits → Except ErrKind (Nat × Table Bits)
  | 0, p, t => .ok (p, t)
  | k + 1, p, t =>
    if s.inLen.toNat < p + 2 then .error .corruptHeader
    else
      let b := inByte s p
      let n := (inByte s (p + 1)).toNat
      if n = 0 then .error .corruptHeader
      else if s.inLen.toNat < p + 2 + ceil8 n then .error .corruptHeader
      else if hasCode t b then .error .corruptHeader
      else parseEntries s k (p + 2 + ceil8 n) (t.write b (readCode s (p + 2) n))

/-- HDESER after the entries: the valid-bit count at offset `p`, and the payload size checks
(44_artifact_serializer.md R231, 90_conflicts.md C3). -/
def parseTail (s : State) (e p : Nat) (t : Table Bits) : Except ErrKind State :=
  if s.inLen.toNat < p + 4 then .error .corruptHeader
  else
    let v := rdBe32 s p
    if s.inLen.toNat - (p + 4) < ceil8 v then .error .truncatedInput
    else if ceil8 v < s.inLen.toNat - (p + 4) then .error .corruptHeader
    else
      .ok { s with
            dcode := t
            dnent := BitVec.ofNat 9 e
            dvbc := BitVec.ofNat 32 v
            payOff := BitVec.ofNat 32 (p + 4) }

/-- The pseudocode of HDESER (44_artifact_serializer.md R231). -/
def runHdeser (s : State) : Except ErrKind State :=
  if inCap s < s.inLen.toNat then .error .ioError
  else if s.inLen.toNat < 2 then .error .corruptHeader
  else
    let e := rdBe16 s 0
    if 256 < e then .error .corruptHeader
    else
      match parseEntries s e 2 (Table.fill []) with
      | .error k => .error k
      | .ok (p, t) => parseTail s e p t

/-- HDESER as a stage (44_artifact_serializer.md R231, 48_composite.md R299). -/
def stageHdeser (s : State) : Verdict := runStage .hdeser s (runHdeser s)

/-- HDESER (44_artifact_serializer.md R231). -/
def execHdeser (s : State) : Host.Outcome State Fault Refusal := .next (complete (some .hdeser) s (stageHdeser s))

end Sys2Proof.Machine
end

