-- ==== Sys2Proof/Machine/BitPacker.lean ====
section
/-! DEFINITION. BitPacker: PACK (45_bit_packer.md). -/

namespace Sys2Proof.Machine

/-- PACK's loop over the input bytes left, with the bits so far: each byte's code is appended, unless it has none or the
payload so far does not fit (45_bit_packer.md R251). -/
def packLoop (s : State) : List Byte → Bits → Except ErrKind Bits
  | [], bits => .ok bits
  | b :: bs, bits =>
    if ¬ hasCode s.code b then .error .unknownSymbol
    else if outCap s < s.hdrLen.toNat + ceil8 (bits ++ s.code.read b).length then .error .ioError
    else packLoop s bs (bits ++ s.code.read b)

/-- OUT[0..HDR_LEN−1], which PACK does not change (45_bit_packer.md R251). -/
def keptHeader (s : State) : List Byte := (List.range s.hdrLen.toNat).map (outByte s)

/-- The pseudocode of PACK, its tests in the order of 45_bit_packer.md R251. DEDUCED (assumption 22): the whole result is
checked against OUT_CAP before it is written (20_memory.md R82, 60_exceptions.md R322), which the loop has done already unless
the input is empty. -/
def runPack (s : State) : Except ErrKind State :=
  if ¬ (s.valid.ct = true ∧ s.valid.hs = true) then .error .sequenceError
  else if inCap s < s.inLen.toNat then .error .ioError
  else
    match packLoop s (inputBytes s) [] with
    | .error k => .error k
    | .ok bits =>
      if bits.length ≠ s.vbc.toNat then .error .sequenceError
      else if outCap s < s.hdrLen.toNat + ceil8 bits.length then .error .ioError
      else .ok (writeOut (keptHeader s ++ packMsb bits) s)

/-- PACK as a stage (45_bit_packer.md R251, 48_composite.md R299). -/
def stagePack (s : State) : Verdict := runStage .pack s (runPack s)

/-- PACK (45_bit_packer.md R251), an OUT-writer. -/
def execPack (s : State) : Host.Outcome State Fault Refusal :=
  .next (complete (some .pack) s (closeOutWriter (stagePack s)))

end Sys2Proof.Machine
end

