-- ==== Sys2Proof/Machine/BitUnpacker.lean ====
section
/-! DEFINITION. BitUnpacker: UNPACK (47_bit_unpacker.md). -/

namespace Sys2Proof.Machine

/-- UNPACK's loop: `r` payload bits are left, the next is bit `k`, the walk stands at node `n`, and `out` is decoded so far.
It ends with the node it stands at and the whole output (47_bit_unpacker.md R281). -/
def unpackLoop (s : State) : Nat → Nat → Nat → List Byte → Except ErrKind (Nat × List Byte)
  | 0, _, n, out => .ok (n, out)
  | r + 1, k, n, out =>
    if s.inLen.toNat ≤ s.payOff.toNat + k / 8 then .error .truncatedInput
    else
      match trieChild (trieNode s.trie n) (bitMsb s s.payOff.toNat k) with
      | none => .error .corruptPayload
      | some m =>
        match (trieNode s.trie m).sym with
        | none => unpackLoop s r (k + 1) m out
        | some b =>
          if out.length = outCap s then .error .ioError
          else unpackLoop s r (k + 1) 0 (out ++ [b])

/-- The pseudocode of UNPACK (47_bit_unpacker.md R281). -/
def runUnpack (s : State) : Except ErrKind State :=
  if s.valid.trie = false then .error .sequenceError
  else if inCap s < s.inLen.toNat then .error .ioError
  else
    match unpackLoop s s.dvbc.toNat 0 0 [] with
    | .error k => .error k
    | .ok (n, out) => if n ≠ 0 then .error .corruptPayload else .ok (writeOut out s)

/-- UNPACK as a stage (47_bit_unpacker.md R281, 48_composite.md R299). -/
def stageUnpack (s : State) : Verdict := runStage .unpack s (runUnpack s)

/-- UNPACK (47_bit_unpacker.md R281), an OUT-writer. -/
def execUnpack (s : State) : Host.Outcome State Fault Refusal :=
  .next (complete (some .unpack) s (closeOutWriter (stageUnpack s)))

end Sys2Proof.Machine
end

