-- ==== Sys2Proof/Machine/CodeTableGenerator.lean ====
section
/-! DEFINITION. CodeTableGenerator: CGEN (43_code_table_generator.md). -/

namespace Sys2Proof.Machine

/-- `walk(node, p)`: each leaf's code is the path to it, bit 0 to the left and 1 to the right
(43_code_table_generator.md R200, R201). A symbol at several leaves, which no rule makes, has the rightmost's path
(assumption 25). -/
def walk : Node → Bits → Table Bits → Table Bits
  | .leaf b _ _, p, t => t.write b p
  | .internal _ _ l r, p, t => walk r (p ++ [true]) (walk l (p ++ [false]) t)

/-- The code table of a tree; a lone leaf gets the one-bit code "0" (43_code_table_generator.md R201, R202). -/
def codesOf : Node → Table Bits
  | .leaf b _ _ => (Table.fill []).write b [false]
  | .internal f k l r => walk (.internal f k l r) [] (Table.fill [])

/-- Σ FREQ[s] · CLEN[s] over the symbols, exact (43_code_table_generator.md R201). -/
def weightedLength (freq : Table Word) (code : Table Bits) : Nat :=
  (allSymbols.map fun b => (freq.read b).toNat * (code.read b).length).sum

/-- CGEN's end, once its code table is known: VBC, or IO_ERROR when it needs more than 32 bits
(43_code_table_generator.md R201, R203). -/
def setCodes (s : State) (code : Table Bits) : Except ErrKind State :=
  if 2 ^ 32 - 1 < weightedLength s.freq code then .error .ioError
  else .ok { s with code := code, vbc := BitVec.ofNat 32 (weightedLength s.freq code) }

/-- The pseudocode of CGEN: mode TREE under TREE_V, else mode EMPTY under FT_V with NSYM = 0
(43_code_table_generator.md R201). -/
def runCgen (s : State) : Except ErrKind State :=
  if s.valid.tree = true then setCodes s (codesOf s.tree)
  else if s.valid.ft = true ∧ s.nsym = 0 then setCodes s (Table.fill [])
  else .error .sequenceError

/-- CGEN as a stage (43_code_table_generator.md R201, 48_composite.md R299). -/
def stageCgen (s : State) : Verdict := runStage .cgen s (runCgen s)

/-- CGEN (43_code_table_generator.md R201). -/
def execCgen (s : State) : Host.Outcome State Fault Refusal := .next (complete (some .cgen) s (stageCgen s))

end Sys2Proof.Machine
end

