-- ==== Sys2Proof/Machine/FrequencyCounter.lean ====
section
/-! DEFINITION. FrequencyCounter: FCOUNT (41_frequency_counter.md). -/

namespace Sys2Proof.Machine

/-- The tables FCOUNT fills, and its local n (41_frequency_counter.md R171). -/
structure Counts where
  freq : Table Word
  rank : Table Byte
  n : Nat
deriving DecidableEq, Repr

/-- One pass of FCOUNT's loop body: a new symbol gets the next rank, then every symbol's count rises by one
(41_frequency_counter.md R171). -/
def countByte (c : Counts) (b : Byte) : Counts :=
  if c.freq.read b = 0 then
    ⟨c.freq.write b (c.freq.read b + 1), c.rank.write b (BitVec.ofNat 8 c.n), c.n + 1⟩
  else ⟨c.freq.write b (c.freq.read b + 1), c.rank, c.n⟩

/-- FCOUNT's loop over the input, from cleared tables (41_frequency_counter.md R171). -/
def countAll (bs : List Byte) : Counts := bs.foldl countByte ⟨Table.fill 0, Table.fill 0, 0⟩

/-- The pseudocode of FCOUNT (41_frequency_counter.md R171). -/
def runFcount (s : State) : Except ErrKind State :=
  if inCap s < s.inLen.toNat then .error .ioError
  else
    let c := countAll (inputBytes s)
    .ok { s with freq := c.freq, rank := c.rank, nsym := BitVec.ofNat 9 c.n }

/-- FCOUNT as a stage (41_frequency_counter.md R171, 48_composite.md R299). -/
def stageFcount (s : State) : Verdict := runStage .fcount s (runFcount s)

/-- FCOUNT (41_frequency_counter.md R171). -/
def execFcount (s : State) : Host.Outcome State Fault Refusal := .next (complete (some .fcount) s (stageFcount s))

end Sys2Proof.Machine
end

