-- ==== Sys2Proof/Machine/TreeBuilder.lean ====
section
/-! DEFINITION. TreeBuilder: TBUILD (42_tree_builder.md). -/

namespace Sys2Proof.Machine

/-- The frequency of a node (10_state.md R47). -/
def nodeFreq : Node → Word
  | .leaf _ f _ => f
  | .internal f _ _ _ => f

/-- The key of a node (10_state.md R47). -/
def nodeKey : Node → BitVec 9
  | .leaf _ _ k => k
  | .internal _ k _ _ => k

/-- x ≺ y: the lower frequency first, then the lower key (42_tree_builder.md R180). -/
def nodeBefore (x y : Node) : Bool :=
  decide (nodeFreq x < nodeFreq y) || (nodeFreq x == nodeFreq y && decide (nodeKey x < nodeKey y))

/-- The ≺-least of `x` and the nodes of a list, and all the others (42_tree_builder.md R181). It is unique where ranks are
distinct (R180); elsewhere it is the first of them (assumption 25). -/
def extractLeast (x : Node) : List Node → Node × List Node
  | [] => (x, [])
  | y :: ys =>
    if nodeBefore y x then ((extractLeast y ys).1, x :: (extractLeast y ys).2)
    else ((extractLeast x ys).1, y :: (extractLeast x ys).2)

/-- The node of merge `j`: the first removed on the left, the second on the right (42_tree_builder.md R181, R183).
The sum is taken on 32 bits, where it never overflows (R181; assumption 13). -/
def mergeNodes (j : Nat) (x y : Node) : Node :=
  .internal (nodeFreq x + nodeFreq y) (BitVec.ofNat 9 (256 + j)) x y

/-- TBUILD's loop: while two nodes are left, remove the two ≺-least and add their merge; `fuel` bounds the merges
(42_tree_builder.md R181, R182). -/
def mergeAll : Nat → Nat → List Node → Option Node
  | _, _, [] => none
  | 0, _, x :: _ => some x
  | fuel + 1, j, x :: xs =>
    match (extractLeast x xs).2 with
    | [] => some (extractLeast x xs).1
    | y :: ys =>
      mergeAll fuel (j + 1) (mergeNodes j (extractLeast x xs).1 (extractLeast y ys).1 :: (extractLeast y ys).2)

/-- Q at the start: one leaf per counted symbol (42_tree_builder.md R181). -/
def countedLeaves (s : State) : List Node :=
  (allSymbols.filter fun b => s.freq.read b != 0).map fun b =>
    .leaf b (s.freq.read b) ((s.rank.read b).setWidth 9)

/-- The pseudocode of TBUILD (42_tree_builder.md R181). NSYM ≥ 1 with no counted symbol, which no rule produces, leaves no
node to be ROOT: TREE is then unspecified (assumption 14). -/
def runTbuild (s : State) : Except ErrKind State :=
  if ¬ (s.valid.ft = true ∧ 1 ≤ s.nsym.toNat) then .error .sequenceError
  else
    match mergeAll (countedLeaves s).length 0 (countedLeaves s) with
    | some root => .ok { s with tree := root }
    | none => .ok { s with tree := freeTree s.draws, draws := s.draws + 1 }

/-- TBUILD as a stage (42_tree_builder.md R181, 48_composite.md R299). -/
def stageTbuild (s : State) : Verdict := runStage .tbuild s (runTbuild s)

/-- TBUILD (42_tree_builder.md R181). -/
def execTbuild (s : State) : Host.Outcome State Fault Refusal := .next (complete (some .tbuild) s (stageTbuild s))

end Sys2Proof.Machine
end

