-- ==== Sys2Proof/Machine/TreeReconstructor.lean ====
section
/-! DEFINITION. TreeReconstructor: TRECON (46_tree_reconstructor.md). -/

namespace Sys2Proof.Machine

/-- A node with no child and no symbol (46_tree_reconstructor.md R266). -/
def emptyTrieNode : TrieNode := ⟨none, none, none⟩

/-- `TN[n].c_b <- m` (46_tree_reconstructor.md R266). -/
def setChild (n : TrieNode) (b : Bool) (m : Nat) : TrieNode :=
  if b then { n with c1 := some m } else { n with c0 := some m }

/-- Insert symbol `b` along its code's bits still to walk, from node `n` (46_tree_reconstructor.md R266). -/
def insertCode (b : Byte) : Bits → Nat → List TrieNode → Except ErrKind (List TrieNode)
  | [], n, t =>
    if (trieNode t n).sym ≠ none ∨ (trieNode t n).c0 ≠ none ∨ (trieNode t n).c1 ≠ none then .error .corruptHeader
    else .ok (t.set n { trieNode t n with sym := some b })
  | x :: xs, n, t =>
    if (trieNode t n).sym ≠ none then .error .corruptHeader
    else
      match trieChild (trieNode t n) x with
      | some m => insertCode b xs m t
      | none => insertCode b xs t.length (t.set n (setChild (trieNode t n) x t.length) ++ [emptyTrieNode])

/-- TRECON's loop over the symbols left: those with a decoded code are inserted (46_tree_reconstructor.md R266). -/
def insertAll (dcode : Table Bits) : List Byte → List TrieNode → Except ErrKind (List TrieNode)
  | [], t => .ok t
  | b :: bs, t =>
    if ¬ hasCode dcode b then insertAll dcode bs t
    else
      match insertCode b (dcode.read b) 0 t with
      | .error k => .error k
      | .ok t' => insertAll dcode bs t'

/-- The pseudocode of TRECON (46_tree_reconstructor.md R266). -/
def runTrecon (s : State) : Except ErrKind State :=
  if s.valid.hd = false then .error .sequenceError
  else
    match insertAll s.dcode allSymbols [emptyTrieNode] with
    | .error k => .error k
    | .ok t => .ok { s with trie := t }

/-- TRECON as a stage (46_tree_reconstructor.md R266, 48_composite.md R299). -/
def stageTrecon (s : State) : Verdict := runStage .trecon s (runTrecon s)

/-- TRECON (46_tree_reconstructor.md R266). -/
def execTrecon (s : State) : Host.Outcome State Fault Refusal := .next (complete (some .trecon) s (stageTrecon s))

end Sys2Proof.Machine
end

