-- ==== Sys2Proof/Machine/Composite.lean ====
section
/-! DEFINITION. The composite commands COMPRESS and DECOMPRESS (48_composite.md R299, R300, R305). -/

namespace Sys2Proof.Machine

/-- `if NSYM ≥ 1: stage(TBUILD)` (48_composite.md R300, R302). -/
def stageTbuildUnlessEmpty (s : State) : Verdict := if 1 ≤ s.nsym.toNat then stageTbuild s else ⟨.none, s⟩

/-- The stages of COMPRESS in sequence (48_composite.md R299, R300). -/
def compressStages (s : State) : Verdict :=
  ((((stageFcount s).andThen stageTbuildUnlessEmpty).andThen stageCgen).andThen stageHser).andThen stagePack

/-- COMPRESS (48_composite.md R300), an OUT-writer. -/
def execCompress (s : State) : Host.Outcome State Fault Refusal :=
  .next (complete (some .compress) s (closeOutWriter (compressStages s)))

/-- `HS_V <- 0` (48_composite.md R305). -/
def clearHs (s : State) : State := { s with valid := { s.valid with hs := false } }

/-- The stages of DECOMPRESS in sequence (48_composite.md R299, R305). -/
def decompressStages (s : State) : Verdict :=
  ((stageHdeser (clearHs s)).andThen stageTrecon).andThen stageUnpack

/-- DECOMPRESS (48_composite.md R305), an OUT-writer. -/
def execDecompress (s : State) : Host.Outcome State Fault Refusal :=
  .next (complete (some .decompress) s (closeOutWriter (decompressStages s)))

end Sys2Proof.Machine
end

