-- ==== Sys2Proof/Machine/System.lean ====
section
/-! DEFINITION. NOP, CLEAR and illegal words (40_command_model.md R157 to R159). -/

namespace Sys2Proof.Machine

/-- NOP: `skip` (40_command_model.md R157). -/
def execNop (s : State) : Host.Outcome State Fault Refusal := .next (complete (some .nop) s ⟨.none, s⟩)

/-- The pseudocode of CLEAR (40_command_model.md R158): every table and register but IN_LEN and CTRL to its reset value, LOST
cleared, TREE and TRIE unspecified. -/
def clearState (s : State) : State :=
  { s with
    freq := Table.fill 0
    rank := Table.fill 0
    code := Table.fill []
    dcode := Table.fill []
    nsym := 0
    vbc := 0
    hdrLen := 0
    dnent := 0
    dvbc := 0
    payOff := 0
    outLen := 0
    lost := false
    tree := freeTree s.draws
    trie := freeTrie s.draws
    draws := s.draws + 1 }

/-- CLEAR, the soft reset (40_command_model.md R158). -/
def execClear (s : State) : Host.Outcome State Fault Refusal :=
  .next (complete (some .clear) s (runStage .clear s (.ok (clearState s))))

/-- Completion of an illegal word: ILLEGAL_COMMAND, and nothing else changes (40_command_model.md R159). -/
def completeIllegal (s : State) : State := complete none s ⟨.illegalCommand, s⟩

end Sys2Proof.Machine
end

