-- ==== Sys2Proof/Machine/HostPort.lean ====
section
/-! DEFINITION. The host's side of HZC: the register port, the IN and OUT ports, and the reset input (10_state.md R42 to R54,
20_memory.md R86 to R91, 70_reset_and_hazards.md R360 to R371). -/

namespace Sys2Proof.Machine

/-- ID (10_state.md R31). -/
def idValue : Word := 0x48460101

/-- The register or window word at an aligned REG offset (10_state.md R54). -/
def regAt (off : BitVec 15) : Reg :=
  let o := off.toNat
  let sym := fun (base stride : Nat) => BitVec.ofNat 8 ((o - base) / stride)
  let win := fun (base : Nat) => (o - base) % 32 / 4
  if o < 0x400 then
    match o with
    | 0x000 => .id
    | 0x004 => .ctrl
    | 0x008 => .cmd
    | 0x00C => .status
    | 0x010 => .inLen
    | 0x014 => .outLen
    | 0x018 => .nsym
    | 0x01C => .vbc
    | 0x020 => .hdrLen
    | 0x024 => .dnent
    | 0x028 => .dvbc
    | 0x02C => .payOff
    | 0x030 => .inCapR
    | 0x034 => .outCapR
    | _ => .reserved
  else if o < 0x800 then .freq (sym 0x400 4)
  else if o < 0xC00 then .rank (sym 0x800 4)
  else if o < 0x1000 then .clen (sym 0xC00 4)
  else if o < 0x3000 then .codew (sym 0x1000 32) (win 0x1000)
  else if o < 0x3400 then .dclen (sym 0x3000 4)
  else if o < 0x4000 then .reserved
  else if o < 0x6000 then .dcodew (sym 0x4000 32) (win 0x4000)
  else .reserved

/-- The value a register holds (10_state.md R31 to R54); CMD and reserved offsets read 0 (R33, R44). -/
def regValue (s : State) : Reg → Word
  | .id => idValue
  | .ctrl => (0#31) ++ bit s.ie
  | .cmd => 0
  | .status => statusWord s
  | .inLen => s.inLen
  | .outLen => s.outLen
  | .nsym => s.nsym.setWidth 32
  | .vbc => s.vbc
  | .hdrLen => s.hdrLen
  | .dnent => s.dnent.setWidth 32
  | .dvbc => s.dvbc
  | .payOff => s.payOff
  | .inCapR => s.inCapR
  | .outCapR => s.outCapR
  | .freq b => s.freq.read b
  | .rank b => (s.rank.read b).setWidth 32
  | .clen b => (clen s b).setWidth 32
  | .codew b w => codeWord s b w
  | .dclen b => (dclen s b).setWidth 32
  | .dcodew b w => dcodeWord s b w
  | .reserved => 0

/-- What an aligned read returns while BUSY = 1: the value of ID, CTRL, IN_LEN, IN_CAP_R, OUT_CAP_R and of reserved offsets,
STATUS with its valid bits unspecified, and an unspecified value for every other register and window
(10_state.md R42, R44, 70_reset_and_hazards.md R371; assumption 7). -/
def regValueBusy (s : State) : Reg → Word
  | .id => regValue s .id
  | .ctrl => regValue s .ctrl
  | .inLen => regValue s .inLen
  | .inCapR => regValue s .inCapR
  | .outCapR => regValue s .outCapR
  | .reserved => regValue s .reserved
  | .status => statusWith s (Config.freeBits 6 s.draws .busRead)
  | .cmd | .outLen | .nsym | .vbc | .hdrLen | .dnent | .dvbc | .payOff => Config.freeBits 32 s.draws .busRead
  | .freq _ | .rank _ | .clen _ | .codew _ _ | .dclen _ | .dcodew _ _ => Config.freeBits 32 s.draws .busRead

/-- A register access HZC performs: an aligned 32-bit word (20_memory.md R86). -/
def aligned32 (off : BitVec 15) (bits : Nat) : Bool := bits == 32 && off.toNat % 4 == 0

/-- The value a register read returns (20_memory.md R86, 10_state.md R42). -/
def regReadValue (s : State) (off : BitVec 15) (bits : Nat) : Word :=
  if aligned32 off bits then
    if s.busy then regValueBusy s (regAt off) else regValue s (regAt off)
  else Config.freeBits 32 s.draws .busRead

/-- A host read: what it returned is logged, and a draw is used for what it may have left unspecified. Nothing else changes
(10_state.md R43, 20_memory.md R91). -/
def logRead (r : Reply) (s : State) : State := { s with reads := r :: s.reads, draws := s.draws + 1 }

/-- The value a read of IN returns (20_memory.md R87, R89). -/
def inReadValue (s : State) (i : Nat) : Byte :=
  if s.busy then Config.freeByte .inSpace s.draws i else if i < inCap s then inByte s i else 0

/-- The value a read of OUT returns (20_memory.md R88, R89). -/
def outReadValue (s : State) (i : Nat) : Byte :=
  if s.busy then Config.freeByte .outSpace s.draws i else if i < outCap s then outByte s i else 0

/-- Accept of a CMD write, completion to come after a free finite number of host accesses (40_command_model.md R151, R153;
assumption 8). -/
def accept (s : State) (w : Word) : State :=
  acceptWith { s with draws := s.draws + 1 } w (Config.latency s.draws)

/-- A CMD write: accepted when idle, dropped with LOST set when busy (40_command_model.md R151, R156). -/
def writeCmd (s : State) (w : Word) : State := if s.busy then { s with lost := true } else accept s w

/-- A STATUS write: writing 1 to bit 1 clears DONE, to bit 3 LOST (10_state.md R34). -/
def writeStatus (s : State) (v : Word) : State :=
  { s with done := s.done && !v.getLsbD 1, lost := s.lost && !v.getLsbD 3 }

/-- The host's duty not to write IN or IN_LEN while BUSY = 1: breaking it leaves the command in progress without a defined
outcome (70_reset_and_hazards.md R370; assumption 10). -/
def breakDuty (s : State) : State := if s.busy then { s with tainted := true } else s

/-- An aligned 32-bit register write (10_state.md R32 to R35, R44; read-only and reserved registers ignore it). -/
def writeReg (s : State) (v : Word) : Reg → State
  | .ctrl => { s with ie := v.getLsbD 0 }
  | .cmd => writeCmd s v
  | .status => writeStatus s v
  | .inLen => breakDuty { s with inLen := v }
  | .id | .outLen | .nsym | .vbc | .hdrLen | .dnent | .dvbc | .payOff | .inCapR | .outCapR => s
  | .freq _ | .rank _ | .clen _ | .codew _ _ | .dclen _ | .dcodew _ _ => s
  | .reserved => s

/-- A host write of IN: stored below IN_CAP, ignored beyond (20_memory.md R87), and a breach of duty while BUSY = 1
(70_reset_and_hazards.md R370). -/
def writeIn (s : State) (i : Nat) (v : Byte) : State :=
  breakDuty (if i < inCap s then { s with inBuf := s.inBuf.write i v } else s)

/-- The reset input: every state element of the block to its reset value, its unspecified ones drawn afresh, a command in
progress abandoned. The parameters stay, and so do the host's own accesses (70_reset_and_hazards.md R360, R361;
assumption 15). -/
def hostReset (s : State) : State :=
  { State.resetAt s.draws with inCapR := s.inCapR, outCapR := s.outCapR, host := s.host, reads := s.reads }

/-- The effect of one host access (70_reset_and_hazards.md R371). -/
def hostAccess (e : HostEvent) (s : State) : State :=
  match e with
  | .reset => hostReset s
  | .regRead off bits => logRead (.word (regReadValue s off bits)) s
  | .regWrite off bits v => if aligned32 off bits then writeReg s v (regAt off) else s
  | .inRead i => logRead (.byte (inReadValue s i)) s
  | .inWrite i v => writeIn s i v
  | .outRead i => logRead (.byte (outReadValue s i)) s
  | .outWrite _ _ => s
  | .wait => logRead (.word (regReadValue s 0x00C 32)) s

/-- The accesses left once `e` is done: `wait` stays until its STATUS read shows BUSY = 0 (30_encoding.md R131). -/
def remaining (e : HostEvent) (busy : Bool) (rest : List HostEvent) : List HostEvent :=
  match e with
  | .wait => if busy then .wait :: rest else rest
  | .reset | .regRead _ _ | .regWrite _ _ _ | .inRead _ | .inWrite _ _ | .outRead _ | .outWrite _ _ => rest

/-- The host's next access `e`, with `rest` to follow (00_scope.md R13, 20_memory.md R94). While a command is in progress it
uses up one access of the delay before completion. -/
def hostStep (e : HostEvent) (rest : List HostEvent) (s : State) : State :=
  hostAccess e { s with host := remaining e s.busy rest, latency := s.latency - 1 }

end Sys2Proof.Machine
end

