-- ==== Sys2Proof/Machine/Step.lean ====
section
/-! DEFINITION. step: one step of the engine or of the host (00_scope.md R13, 40_command_model.md R152). -/

namespace Sys2Proof.Machine

/-- The engine's one step: the completion of the latched command OPL, an illegal one among them (40_command_model.md R152,
R159). -/
def engineStep (s : State) : Host.Outcome State Fault Refusal :=
  match decodeOp s.opl with
  | .ok i => exec i s
  | .error _ => .next (completeIllegal s)

/-- One step. While a command is in progress it completes once its delay is used up or the host has nothing left to do, and
until then the host's next access is performed. While idle, the host's next access is performed, and with none pending the
block stays idle (40_command_model.md R152, R153, 70_reset_and_hazards.md R362). -/
def step (s : State) : Host.Outcome State Fault Refusal :=
  match s.busy, s.host with
  | true, [] => engineStep s
  | true, e :: rest => if s.latency = 0 then engineStep s else .next (hostStep e rest s)
  | false, [] => .next s
  | false, e :: rest => .next (hostStep e rest s)

/-- `s` with the word `w` accepted from CMD and its completion due, so that the very next step runs it. HZC fetches no
instruction (10_state.md R30): the pair BUSY and OPL is where the engine finds its command (assumption 9). -/
def State.withFetchWord (s : State) (nbits w : Nat) : State :=
  acceptWith s (BitVec.ofNat 32 (w % 2 ^ nbits)) 0

end Sys2Proof.Machine
end

