-- ==== Sys2Proof/Machine/HostProgram.lean ====
section
/-! DEFINITION. The host-program notation as lists of host accesses (30_encoding.md R130, R131), and where the platform
places the three spaces (20_memory.md R92). -/

namespace Sys2Proof.Machine

/-- `wr REG, v`: an aligned 32-bit register write (30_encoding.md R130). -/
def wr (off : BitVec 15) (v : Word) : List HostEvent := [.regWrite off 32 v]

/-- `rd REG`: an aligned 32-bit register read (30_encoding.md R130). -/
def rd (off : BitVec 15) : List HostEvent := [.regRead off 32]

/-- `cmd OP` (30_encoding.md R131). -/
def cmd (i : Instr) : List HostEvent := wr 0x008 (encode i)

/-- `run OP` is `cmd OP` then `wait` (30_encoding.md R131). -/
def run (i : Instr) : List HostEvent := cmd i ++ [.wait]

/-- The `wrin` accesses of `load`, from offset `i` (30_encoding.md R131). -/
def wrinFrom (i : Nat) : List Byte → List HostEvent
  | [] => []
  | b :: bs => .inWrite i b :: wrinFrom (i + 1) bs

/-- `load b0, …, b(n−1)`: the bytes to IN from offset 0, then IN_LEN (30_encoding.md R131). -/
def load (bs : List Byte) : List HostEvent := wrinFrom 0 bs ++ wr 0x010 (BitVec.ofNat 32 bs.length)

/-- `dump n` (30_encoding.md R131). -/
def dump (n : Nat) : List HostEvent := (List.range n).map .outRead

/-- The host's address of a REG offset (20_memory.md R92). -/
def regAddress (off : BitVec 15) : Nat := Config.regBase + off.toNat

/-- The host's address of an IN or OUT offset (20_memory.md R92). -/
def bufAddress : Space → Nat → Nat
  | .inSpace, i => Config.inBase + i
  | .outSpace, i => Config.outBase + i

end Sys2Proof.Machine
end

