-- ==== Sys2Proof/Safety.lean ====
section
/-! DEFINITION. What counts as a safe state or run, in the terms the claims use: the invariants of State, the meaning of the
valid bits, what a command keeps, and the spec's own notions of merges, leaf paths, prefix-freeness, artifacts and tries. -/

namespace Sys2Proof.Machine

/-! ### The host's duty and the parameters -/

/-- The host kept its duty during the command in progress (70_reset_and_hazards.md R370). -/
def dutiful (s : State) : Prop := s.tainted = false

/-- The parameters lie in the ranges of 00_scope.md R6. -/
def capsOk (s : State) : Prop := 1 ≤ inCap s ∧ inCap s ≤ 2 ^ 29 - 1 ∧ 6 ≤ outCap s

/-- A command has completed with outcome `k` (40_command_model.md R152). -/
def finished (t : State) (k : ErrKind) : Prop := t.busy = false ∧ t.done = true ∧ t.errcode = k

/-- OUT[0..OUT_LEN−1] (10_state.md R36). -/
def outBytes (s : State) : List Byte := (List.range s.outLen.toNat).map (outByte s)

/-! ### What a command keeps (30_encoding.md R113, 40_command_model.md R155 (e)) -/

/-- Parameters, CTRL, OPL, IN_LEN, every byte of IN and the host's accesses are unchanged. -/
def keepsInputSide (s t : State) : Prop :=
  t.inCapR = s.inCapR ∧ t.outCapR = s.outCapR ∧ t.ie = s.ie ∧ t.opl = s.opl ∧ t.inLen = s.inLen ∧ t.host = s.host ∧
    t.reads = s.reads ∧ ∀ a, inByte t a = inByte s a

/-- FREQ, RANK and NSYM are unchanged. -/
def keepsCounts (s t : State) : Prop := t.freq = s.freq ∧ t.rank = s.rank ∧ t.nsym = s.nsym

/-- TREE is unchanged. -/
def keepsTree (s t : State) : Prop := t.tree = s.tree

/-- CLEN, CODE and VBC are unchanged. -/
def keepsCodes (s t : State) : Prop := t.code = s.code ∧ t.vbc = s.vbc

/-- HDR_LEN is unchanged. -/
def keepsHdrLen (s t : State) : Prop := t.hdrLen = s.hdrLen

/-- DCLEN, DCODE, DNENT, DVBC and PAY_OFF are unchanged. -/
def keepsHeader (s t : State) : Prop :=
  t.dcode = s.dcode ∧ t.dnent = s.dnent ∧ t.dvbc = s.dvbc ∧ t.payOff = s.payOff

/-- TRIE is unchanged. -/
def keepsTrie (s t : State) : Prop := t.trie = s.trie

/-- OUT_LEN and every byte of OUT are unchanged. -/
def keepsOut (s t : State) : Prop := t.outLen = s.outLen ∧ ∀ a, outByte t a = outByte s a

/-- STATUS.LOST is unchanged. -/
def keepsLost (s t : State) : Prop := t.lost = s.lost

/-- The encoder's valid bits FT_V, TREE_V, CT_V and HS_V are unchanged. -/
def keepsEncoderBits (s t : State) : Prop :=
  t.valid.ft = s.valid.ft ∧ t.valid.tree = s.valid.tree ∧ t.valid.ct = s.valid.ct ∧ t.valid.hs = s.valid.hs

/-- The decoder's valid bits HD_V and TRIE_V are unchanged. -/
def keepsDecoderBits (s t : State) : Prop := t.valid.hd = s.valid.hd ∧ t.valid.trie = s.valid.trie

/-! ### The encoder tree -/

/-- Q at the start of TBUILD: exactly one leaf per counted symbol (42_tree_builder.md R181). -/
def leavesOf (s : State) (q : List Node) : Prop :=
  q.Nodup ∧ ∀ n, n ∈ q ↔ ∃ b, s.freq.read b ≠ 0 ∧ n = .leaf b (s.freq.read b) ((s.rank.read b).setWidth 9)

/-- Ranks of counted symbols are pairwise distinct (41_frequency_counter.md R172 (c)). -/
def ranksDistinct (s : State) : Prop :=
  ∀ x y, s.freq.read x ≠ 0 → s.freq.read y ≠ 0 → s.rank.read x = s.rank.read y → x = y

/-- The merge rule of 42_tree_builder.md R180, R181, R183, from merge number `j` on the nodes `q` to ROOT: while two nodes
are left, the ≺-least `x` and the ≺-least of the others `y` become Internal(x.freq + y.freq, 256 + j, x, y). -/
inductive MergesTo : Nat → List Node → Node → Prop
  | root (j : Nat) (n : Node) : MergesTo j [n] n
  | merge (j : Nat) (q rest : List Node) (x y root : Node)
      (split : q.Perm (x :: y :: rest))
      (leastX : ∀ z ∈ y :: rest, nodeFreq x < nodeFreq z ∨ nodeFreq x = nodeFreq z ∧ nodeKey x < nodeKey z)
      (leastY : ∀ z ∈ rest, nodeFreq y < nodeFreq z ∨ nodeFreq y = nodeFreq z ∧ nodeKey y < nodeKey z)
      (next : MergesTo (j + 1) (.internal (nodeFreq x + nodeFreq y) (BitVec.ofNat 9 (256 + j)) x y :: rest) root) :
      MergesTo j q root

/-- The leaves of a tree, left to right. -/
def nodeLeaves : Node → List Node
  | .leaf b f k => [.leaf b f k]
  | .internal _ _ l r => nodeLeaves l ++ nodeLeaves r

/-- How many internal nodes a tree has. -/
def internalCount : Node → Nat
  | .leaf _ _ _ => 0
  | .internal _ _ l r => internalCount l + internalCount r + 1

/-- The symbol at the end of a path, left on 0 and right on 1 (43_code_table_generator.md R200). -/
def leafAt : Node → Bits → Option Byte
  | .leaf b _ _, [] => some b
  | .leaf _ _ _, _ :: _ => none
  | .internal _ _ _ _, [] => none
  | .internal _ _ l r, x :: xs => if x then leafAt r xs else leafAt l xs

/-- The code table of a tree: each leaf's symbol has the path to it, a lone leaf's "0", and no other symbol has a code
(43_code_table_generator.md R200, R202). -/
def codesOfTree (n : Node) (c : Table Bits) : Prop :=
  match n with
  | .leaf b _ _ => ∀ x, c.read x = if x = b then [false] else []
  | .internal _ _ _ _ => ∀ x p, p ≠ [] → (c.read x = p ↔ leafAt n p = some x)

/-- The symbols at a tree's leaves. -/
def nodeSymbols : Node → List Byte
  | .leaf b _ _ => [b]
  | .internal _ _ l r => nodeSymbols l ++ nodeSymbols r

/-! ### Codes, artifacts and tries -/

/-- No code of the table is a prefix of another, nor equal to another (30_encoding.md R122 (d)). -/
def prefixFree (t : Table Bits) : Prop :=
  ∀ x y, x ≠ y → t.read x ≠ [] → t.read y ≠ [] → ¬ (t.read x).IsPrefix (t.read y)

/-- The bits of a byte list, most significant bit first (20_memory.md R84). -/
def byteBits (q : List Byte) : Bits := q.flatMap fun x => (List.range 8).map fun k => x.getLsbD (7 - k)

/-- One entry of an artifact's header: symbol, code length and code bytes, padding bits as they come
(30_encoding.md R121, R123). -/
structure Entry where
  sym : Byte
  len : Nat
  bytes : List Byte
deriving DecidableEq, Repr

/-- The code of an entry: the first `len` bits of its code bytes (44_artifact_serializer.md R231). -/
def entryCode (e : Entry) : Bits := (byteBits e.bytes).take e.len

/-- Entries that meet 30_encoding.md R122 (a) to (c): lengths 1 to 255, code bytes that match them, distinct symbols. -/
def entriesOk (es : List Entry) : Prop :=
  (∀ e ∈ es, 1 ≤ e.len ∧ e.len ≤ 255 ∧ e.bytes.length = ceil8 e.len) ∧ (es.map Entry.sym).Nodup

/-- The header bytes of entries `es` and valid-bit count `v` (30_encoding.md R120, R121). -/
def artifactHeader (es : List Entry) (v : Nat) : List Byte :=
  be16 es.length ++ (es.flatMap fun e => e.sym :: BitVec.ofNat 8 e.len :: e.bytes) ++ be32 v

/-- The header of the encoder's code table and VBC: entries in increasing symbol order (30_encoding.md R120, R121, R124). -/
def encoderHeader (s : State) : List Byte :=
  let coded := allSymbols.filter fun b => !(s.code.read b).isEmpty
  be16 coded.length ++
    (coded.flatMap fun b => b :: BitVec.ofNat 8 (s.code.read b).length :: packMsb (s.code.read b)) ++ be32 s.vbc.toNat

/-- OUT and its registers hold the artifact of the bytes `xs`: the header of the code table and VBC in `t`, then the codes of
`xs` packed (48_composite.md R304). -/
def holdsArtifact (xs : List Byte) (t : State) : Prop :=
  outBytes t = encoderHeader t ++ packMsb (xs.flatMap t.code.read) ∧ t.hdrLen.toNat = (encoderHeader t).length ∧
    t.outLen.toNat = t.hdrLen.toNat + ceil8 t.vbc.toNat ∧ t.vbc.toNat = (xs.flatMap t.code.read).length

/-- The node a path leads to in a trie pool from node `n` (46_tree_reconstructor.md R265). -/
def trieWalk (t : List TrieNode) (n : Nat) : Bits → Option Nat
  | [] => some n
  | x :: xs =>
    match trieChild (trieNode t n) x with
    | none => none
    | some m => trieWalk t m xs

/-- The symbol a path from the root leads to (47_bit_unpacker.md R281). -/
def trieSymbol (t : List TrieNode) (p : Bits) : Option Byte :=
  match trieWalk t 0 p with
  | none => none
  | some n => (trieNode t n).sym

/-- The trie holds exactly the codes of the table (46_tree_reconstructor.md R266). -/
def trieHolds (t : List TrieNode) (c : Table Bits) : Prop :=
  ∀ p b, trieSymbol t p = some b ↔ p ≠ [] ∧ c.read b = p

/-! ### Composites (48_composite.md R299) -/

/-- A composite's state `t` after its stage ended in the error state `x`: `x` itself, but with OUT_LEN = 0 and OUT unspecified
(40_command_model.md R155 (c)); the number of the model's next draw apart. -/
def failedAs (x t : State) : Prop :=
  ∃ m d, t = { x with outLen := 0, outBuf := m, draws := d }

/-- `t` is what stage commands leave from `s`, run one after the other as commands of their own: each on the state the one
before it left, up to the first that fails (48_composite.md R299). -/
def runStages : List Instr → State → State → Prop
  | [], s, t => t = s
  | i :: rest, s, t =>
    ∃ u, exec i s = .next u ∧ (u.errcode = .none → runStages rest u t) ∧ (u.errcode ≠ .none → failedAs u t)

/-- The stages that make the code table once FCOUNT has left `a`: TBUILD unless NSYM = 0, then CGEN (48_composite.md R300,
R302). -/
def tableStages (a : State) : List Instr := if a.nsym = 0 then [.cgen] else [.tbuild, .cgen]

/-! ### Invariants -/

/-- A buffer in canonical form whose defined bytes lie below its capacity, drawn before the next draw. -/
def bufferOk (m : Memory) (cap draws : Nat) : Prop :=
  m.wf = true ∧ (∀ c ∈ m.cells, c.1 < cap) ∧ m.epoch < draws

/-- Every code of a table fits its 8-bit length (10_state.md R48, R50). -/
def codesOk (t : Table Bits) : Prop := ∀ b, codeWf (t.read b) = true

/-- The invariant of the machine: what every step keeps, whatever the host does, a broken duty included. It holds of the model:
that free trees, tries and codes are well formed (assumptions 3, 12), the buffers' canonical form (assumption 4), and that an
idle block waits for nothing (assumptions 8, 10) are its choices. -/
structure Inv (s : State) : Prop where
  caps : capsOk s
  inBuf : bufferOk s.inBuf (inCap s) s.draws
  outBuf : bufferOk s.outBuf (outCap s) s.draws
  code : codesOk s.code
  dcode : codesOk s.dcode
  tree : nodeWf s.tree = true
  trie : trieWf s.trie = true
  /-- 40_command_model.md R151: accept clears DONE and ERRCODE, and only completion sets them. -/
  running : s.busy = true → s.done = false ∧ s.errcode = .none
  idle : s.busy = false → s.tainted = false ∧ s.latency = 0

/-- The valid bits mean what 10_state.md R34 says they do, and come in the pipeline's order (40_command_model.md R154); and
OUT_LEN is within OUT_CAP (10_state.md R36). A host that keeps its duty never leaves it (70_reset_and_hazards.md R370). -/
structure Current (s : State) : Prop where
  outLen : s.outLen.toNat ≤ outCap s
  ftCounts : s.valid.ft = true → s.nsym.toNat = (allSymbols.filter fun b => s.freq.read b != 0).length ∧ ranksDistinct s
  treeNeedsFt : s.valid.tree = true → s.valid.ft = true
  treeMerged : s.valid.tree = true → ∀ q, leavesOf s q → MergesTo 0 q s.tree
  ctNeedsFt : s.valid.ct = true → s.valid.ft = true
  /-- 43_code_table_generator.md R204 (a). -/
  ctCoded : s.valid.ct = true → ∀ b, s.freq.read b ≠ 0 ↔ s.code.read b ≠ []
  ctVbc : s.valid.ct = true →
    s.vbc.toNat = (allSymbols.map fun b => (s.freq.read b).toNat * (s.code.read b).length).sum
  ctPrefixFree : s.valid.ct = true → prefixFree s.code
  /-- The code table is that of the current tree (10_state.md R34, 43_code_table_generator.md R200). -/
  ctTree : s.valid.ct = true → s.valid.tree = true → codesOfTree s.tree s.code
  /-- With no tree it is the empty table of an empty input (43_code_table_generator.md R201). -/
  ctEmpty : s.valid.ct = true → s.valid.tree = false → s.nsym = 0
  hsNeedsCt : s.valid.hs = true → s.valid.ct = true
  hsHeader : s.valid.hs = true → (List.range s.hdrLen.toNat).map (outByte s) = encoderHeader s
  trieNeedsHd : s.valid.trie = true → s.valid.hd = true
  trieCodes : s.valid.trie = true → trieHolds s.trie s.dcode ∧ prefixFree s.dcode

end Sys2Proof.Machine
end

