-- ==== Sys2Proof/Certificates/Slice0/Obligations.lean ====
section
/-! DEFINITION. The statements for the provers, from the numbered rules of spec/. OBLIGATIONS.json lists them with their
rules. A statement about a free value (Config.free…) holds for every value of it. -/

open Sys2Proof Sys2Proof.Machine

/-! ### Encoding, accept, completion (30_encoding.md, 40_command_model.md) -/

/-- A word w is the command with w[3:0] = OP and w[31:4] = 0, and decoding an encoded command gives it back (R110, R111). Every
other word is illegal: one with an MBZ bit set, or with OP in 0xC..0xF (R112). -/
def Obligations.DecodeAndEncodeAgree : Prop :=
  (∀ i : Instr, i.wf = true → decode (encode i) = .ok i) ∧
  (∀ (w : Word) (i : Instr), decode w = .ok i ↔ w.extractLsb' 0 4 = opcode i ∧ w.extractLsb' 4 28 = 0#28) ∧
  (∀ (w : Word) (i : Instr), decode w = .ok i → encode i = w) ∧
  (∀ w : Word,
    (decode w = .error .mbzSet ↔ w.extractLsb' 4 28 ≠ 0#28) ∧
    (decode w = .error .reservedOp ↔ w.extractLsb' 4 28 = 0#28 ∧ 12 ≤ (w.extractLsb' 0 4).toNat))

/-- The words of the opcode map decode to their commands, and 0x10 and 0xC to none (R111, R112). -/
def Obligations.TableWordsDecode : Prop :=
  decode 0x00000000 = .ok .nop ∧ decode 0x00000001 = .ok .clear ∧ decode 0x00000002 = .ok .fcount ∧
  decode 0x00000003 = .ok .tbuild ∧ decode 0x00000004 = .ok .cgen ∧ decode 0x00000005 = .ok .hser ∧
  decode 0x00000006 = .ok .pack ∧ decode 0x00000007 = .ok .hdeser ∧ decode 0x00000008 = .ok .trecon ∧
  decode 0x00000009 = .ok .unpack ∧ decode 0x0000000A = .ok .compress ∧ decode 0x0000000B = .ok .decompress ∧
  decode 0x00000010 = .error .mbzSet ∧ decode 0x0000000C = .error .reservedOp

/-- A step of a busy block whose delay is used up, or whose host has nothing left to do, is exec of the latched command; and a
word accepted by withFetchWord is run by the very next step (R151, R152). The delay and the list of host accesses are the
model's (assumptions 8, 9). -/
def Obligations.StepRunsTheLatchedCommand : Prop :=
  (∀ (s : State) (i : Instr), s.busy = true → (s.host = [] ∨ s.latency = 0) → decodeOp s.opl = .ok i → i.wf = true →
    step s = exec i s) ∧
  (∀ (s : State) (w : Word) (i : Instr), decode w = .ok i → i.wf = true →
    step (s.withFetchWord 32 w.toNat) = exec i (acceptWith s w 0))

/-- Otherwise a step is the host's next access, and with none pending an idle block stays as it is: the engine never starts a
command on its own (R13, R152, R362). The order is the model's (assumptions 8, 9). -/
def Obligations.StepRunsTheHostsNextAccess : Prop :=
  ∀ s : State,
    (s.busy = false → s.host = [] → step s = .next s) ∧
    (∀ e rest, s.host = e :: rest → (s.busy = false ∨ s.latency ≠ 0) → step s = .next (hostStep e rest s))

/-- Accept: a CMD write while BUSY = 0 latches OPL, sets BUSY, clears DONE and ERRCODE, and changes no other state (R151); the
delay it draws and the host's list are the model's (assumption 8). -/
def Obligations.IdleCmdWriteAccepts : Prop :=
  ∀ (s : State) (w : Word) (rest : List HostEvent), s.busy = false → s.host = .regWrite 0x008 32 w :: rest →
    ∃ lat, step s = .next { s with
      opl := if w.extractLsb' 4 28 = 0#28 then w.extractLsb' 0 4 else 0xF#4
      busy := true
      done := false
      errcode := .none
      latency := lat
      tainted := false
      host := rest
      draws := s.draws + 1 }

/-- A CMD write while BUSY = 1 is dropped: it sets LOST and changes nothing else, OPL included; the command in progress then
does what it would have done. LOST stays 1 until the host writes 1 to STATUS[3], or until reset or CLEAR; accept does not clear
it (R156). -/
def Obligations.BusyCmdWriteIsLost : Prop :=
  (∀ (s : State) (w : Word), s.busy = true → hostAccess (.regWrite 0x008 32 w) s = { s with lost := true }) ∧
  (∀ (i : Instr) (s t : State), dutiful s → i ≠ .clear → exec i s = .next t →
    exec i { s with lost := true } = .next { t with lost := true }) ∧
  (∀ s t : State, dutiful s → step s = .next t → s.lost = true → t.lost = false →
    (∃ e, s.host.head? = some e ∧ (e = .reset ∨ ∃ v : Word, e = .regWrite 0x00C 32 v ∧ v.getLsbD 3 = true)) ∨
      s.busy = true ∧ decodeOp s.opl = .ok .clear)

/-- DONE stays 1 until the next accept, a write of 1 to STATUS[1], or reset; ERRCODE keeps its value until the next accept, or
until reset, and no STATUS write changes it (R160). While idle the valid bits change at reset only; while a command is in
progress neither ERRCODE, nor a valid bit, nor OPL changes before it completes (R34). -/
def Obligations.DoneAndErrcodeStayUntilTheirRules : Prop :=
  (∀ s t : State, step s = .next t →
    (s.done = true → t.done = false →
      ∃ e, s.host.head? = some e ∧
        (e = .reset ∨ (s.busy = false ∧ ∃ w, e = .regWrite 0x008 32 w) ∨
          ∃ v : Word, e = .regWrite 0x00C 32 v ∧ v.getLsbD 1 = true)) ∧
    (s.busy = false → t.errcode ≠ s.errcode →
      ∃ e, s.host.head? = some e ∧ (e = .reset ∨ ∃ w, e = .regWrite 0x008 32 w)) ∧
    (s.busy = false → t.valid ≠ s.valid → s.host.head? = some .reset) ∧
    (s.busy = true → t.busy = true → t.errcode = s.errcode ∧ t.valid = s.valid ∧ t.opl = s.opl)) ∧
  (∀ (s : State) (v : Word), (hostAccess (.regWrite 0x00C 32 v) s).errcode = s.errcode)

/-- An illegal word completes with ILLEGAL_COMMAND and every register, table, valid bit and buffer keeps its value (R159). -/
def Obligations.IllegalCommandCompletes : Prop :=
  ∀ (s : State) (w : Word) (e : DecodeError), decode w = .error e →
    step (s.withFetchWord 32 w.toNat) =
      .next { s with opl := latchOp w, errcode := .illegalCommand, busy := false, done := true, latency := 0,
                     tainted := false }

/-- Every accepted command ends within as many steps as the delay the model drew for it, plus one (R153); and unless the host
resets the block meanwhile, which abandons the command (R361), it completes: BUSY = 0 and DONE = 1. That bound is the model's
(assumption 8), and so is it that a command whose input the host changed completes too (assumption 10). -/
def Obligations.AcceptedCommandCompletes : Prop :=
  (∀ s : State, s.busy = true →
    ∃ k t, 1 ≤ k ∧ k ≤ s.latency + 1 ∧ Sys2Proof.core.run k s = .next t ∧ t.busy = false) ∧
  (∀ s : State, s.busy = true → .reset ∉ s.host.take s.latency →
    ∃ k t, 1 ≤ k ∧ k ≤ s.latency + 1 ∧ Sys2Proof.core.run k s = .next t ∧ t.busy = false ∧ t.done = true)

/-- Completion of any command in any state clears BUSY and sets DONE, and IN, IN_LEN, CTRL and the parameters keep their values
(R152, R155 (e)). Of a command whose input the host changed while it ran the spec promises nothing (R370): that it completes and
keeps them too is the model's choice (assumption 10). -/
def Obligations.EveryCommandCompletes : Prop :=
  ∀ (i : Instr) (s : State), ∃ t, exec i s = .next t ∧ t.busy = false ∧ t.done = true ∧ keepsInputSide s t

/-- The valid bits at completion, row by row of R154's table: K is cleared in every outcome, and G is set on success (`ok`). The
bits a composite leaves on success are those of R300 and R305; on an error they are its failed stage's
(CompositesRunTheirStages). -/
def Obligations.ValidBitsFollowKillAndGen : Prop :=
  ∀ (i : Instr) (s t : State), dutiful s → exec i s = .next t →
    let v := s.valid
    let ok := decide (t.errcode = .none)
    match i with
    | .nop => t.valid = v
    | .clear => t.valid = ⟨false, false, false, false, false, false⟩
    | .fcount => t.valid = ⟨ok, false, false, false, v.hd, v.trie⟩
    | .tbuild => t.valid = ⟨v.ft, ok, false, false, v.hd, v.trie⟩
    | .cgen => t.valid = ⟨v.ft, v.tree, ok, false, v.hd, v.trie⟩
    | .hser => t.valid = ⟨v.ft, v.tree, v.ct, ok, v.hd, v.trie⟩
    | .pack => t.valid = ⟨v.ft, v.tree, v.ct, ok, v.hd, v.trie⟩
    | .hdeser => t.valid = ⟨v.ft, v.tree, v.ct, v.hs, ok, false⟩
    | .trecon => t.valid = ⟨v.ft, v.tree, v.ct, v.hs, v.hd, ok⟩
    | .unpack => t.valid = ⟨v.ft, v.tree, v.ct, false, v.hd, v.trie⟩
    | .compress =>
      t.errcode = .none → t.valid = ⟨true, decide (1 ≤ t.nsym.toNat), true, true, v.hd, v.trie⟩
    | .decompress => t.errcode = .none → t.valid = ⟨v.ft, v.tree, v.ct, false, true, true⟩

/-- An OUT-writer that fails leaves OUT_LEN = 0, with HS_V cleared (R155 (c), R154, R36). -/
def Obligations.FailedOutWriterLosesOutput : Prop :=
  ∀ (i : Instr) (s t : State), dutiful s → i ∈ [.hser, .pack, .unpack, .compress, .decompress] →
    exec i s = .next t → t.errcode ≠ .none → t.outLen = 0 ∧ t.valid.hs = false

/-- Which command raises which error kinds (R320): the table's last column, so COMPRESS raises IO_ERROR only (R301) and
DECOMPRESS no SEQUENCE_ERROR (R306). -/
def Obligations.ErrorKindsPerCommand : Prop :=
  ∀ (i : Instr) (s t : State), dutiful s → capsOk s → exec i s = .next t →
    t.errcode ∈ (match i with
      | .nop => [ErrKind.none]
      | .clear => [.none]
      | .fcount => [.none, .ioError]
      | .tbuild => [.none, .sequenceError]
      | .cgen => [.none, .ioError, .sequenceError]
      | .hser => [.none, .ioError, .sequenceError]
      | .pack => [.none, .ioError, .unknownSymbol, .sequenceError]
      | .hdeser => [.none, .ioError, .corruptHeader, .truncatedInput]
      | .trecon => [.none, .corruptHeader, .sequenceError]
      | .unpack => [.none, .ioError, .corruptPayload, .truncatedInput, .sequenceError]
      | .compress => [.none, .ioError]
      | .decompress => [.none, .ioError, .corruptHeader, .corruptPayload, .truncatedInput])

/-- A stage command whose precondition on the valid bits fails completes with SEQUENCE_ERROR, and only its kill set applies
(R154, R328); such is every one of them right after reset (R363). -/
def Obligations.FailedPreconditionIsSequenceError : Prop :=
  ∀ s : State, dutiful s →
    let v := s.valid
    (¬ (v.ft = true ∧ 1 ≤ s.nsym.toNat) →
      ∃ t, exec .tbuild s = .next t ∧ finished t .sequenceError ∧ t.valid = ⟨v.ft, false, false, false, v.hd, v.trie⟩) ∧
    (v.tree = false → ¬ (v.ft = true ∧ s.nsym = 0) →
      ∃ t, exec .cgen s = .next t ∧ finished t .sequenceError ∧ t.valid = ⟨v.ft, v.tree, false, false, v.hd, v.trie⟩) ∧
    (v.ct = false →
      ∃ t, exec .hser s = .next t ∧ finished t .sequenceError ∧ t.valid = ⟨v.ft, v.tree, v.ct, false, v.hd, v.trie⟩) ∧
    (¬ (v.ct = true ∧ v.hs = true) →
      ∃ t, exec .pack s = .next t ∧ finished t .sequenceError ∧ t.valid = ⟨v.ft, v.tree, v.ct, false, v.hd, v.trie⟩) ∧
    (v.hd = false →
      ∃ t, exec .trecon s = .next t ∧ finished t .sequenceError ∧ t.valid = ⟨v.ft, v.tree, v.ct, v.hs, v.hd, false⟩) ∧
    (v.trie = false →
      ∃ t, exec .unpack s = .next t ∧ finished t .sequenceError ∧ t.valid = ⟨v.ft, v.tree, v.ct, false, v.hd, v.trie⟩)

/-- IN_LEN > IN_CAP is an IO_ERROR, tested before any byte of IN is read (R321, R35). -/
def Obligations.OverlongInputIsIoError : Prop :=
  ∀ (i : Instr) (s : State), dutiful s → inCap s < s.inLen.toNat →
    (i = .fcount ∨ i = .hdeser ∨ i = .compress ∨ i = .decompress ∨
      i = .pack ∧ s.valid.ct = true ∧ s.valid.hs = true ∨ i = .unpack ∧ s.valid.trie = true) →
    ∃ t, exec i s = .next t ∧ finished t .ioError

/-! ### NOP and CLEAR -/

/-- NOP changes no state except the BUSY, DONE and ERRCODE fields of STATUS; it raises the IRQ if CTRL.IE = 1, and from reset
leaves STATUS = 0x00000002 (R157). -/
def Obligations.NopChangesOnlyStatus : Prop :=
  ∀ s : State, dutiful s →
    ∃ t, exec .nop s = .next t ∧
      t = { s with errcode := .none, busy := false, done := true, latency := 0, tainted := false } ∧ irq t = s.ie ∧
      (s.valid = ValidBits.empty → s.lost = false → statusWord t = 0x00000002)

/-- CLEAR sets every table, register and valid bit to its reset value and clears LOST; IN, IN_LEN, CTRL and the bytes of OUT are
not changed, and STATUS reads 0x00000002 (R158). -/
def Obligations.ClearResetsTheEngine : Prop :=
  ∀ s : State, dutiful s →
    ∃ t, exec .clear s = .next t ∧ finished t .none ∧ statusWord t = 0x00000002 ∧ keepsInputSide s t ∧
      (∀ a, outByte t a = outByte s a) ∧
      (∀ b, t.freq.read b = 0 ∧ t.rank.read b = 0 ∧ t.code.read b = [] ∧ clen t b = 0 ∧ t.dcode.read b = [] ∧
        dclen t b = 0) ∧
      t.nsym = 0 ∧ t.vbc = 0 ∧ t.hdrLen = 0 ∧ t.dnent = 0 ∧ t.dvbc = 0 ∧ t.payOff = 0 ∧ t.outLen = 0 ∧
      t.lost = false ∧ t.valid = ValidBits.empty

/-! ### FrequencyCounter -/

/-- FCOUNT on an input that fits counts every symbol of IN[0..IN_LEN−1] and gives each counted one the number of distinct
symbols that first occur before it (R170, R171). -/
def Obligations.FcountCountsAndRanks : Prop :=
  ∀ s : State, dutiful s → s.inLen.toNat ≤ inCap s →
    ∃ t, exec .fcount s = .next t ∧ finished t .none ∧
      (∀ b, (t.freq.read b).toNat = (inputBytes s).count b) ∧
      t.nsym.toNat = (inputBytes s).dedup.length ∧
      (∀ b, b ∈ inputBytes s →
        (t.rank.read b).toNat = ((inputBytes s).takeWhile fun x => x != b).dedup.length) ∧
      (∀ b, b ∉ inputBytes s → t.rank.read b = 0) ∧
      t.valid = ⟨true, false, false, false, s.valid.hd, s.valid.trie⟩

/-- After a successful FCOUNT: Σ FREQ = IN_LEN; NSYM is the number of counted symbols, at most 256; their ranks are exactly
0..NSYM−1, pairwise distinct; and rank order is the order of first offsets (R172). -/
def Obligations.FcountLaws : Prop :=
  ∀ s t : State, dutiful s → exec .fcount s = .next t → t.errcode = .none →
    (allSymbols.map fun b => (t.freq.read b).toNat).sum = t.inLen.toNat ∧
    t.nsym.toNat = (allSymbols.filter fun b => t.freq.read b != 0).length ∧ t.nsym.toNat ≤ 256 ∧
    (∀ k, (∃ b, t.freq.read b ≠ 0 ∧ (t.rank.read b).toNat = k) ↔ k < t.nsym.toNat) ∧ ranksDistinct t ∧
    (∀ x y, t.freq.read x ≠ 0 → t.freq.read y ≠ 0 →
      ((t.rank.read x).toNat < (t.rank.read y).toNat ↔ (inputBytes s).idxOf x < (inputBytes s).idxOf y))

/-- FCOUNT is a function of IN[0..IN_LEN−1] alone (R173). -/
def Obligations.FcountIsAFunctionOfItsInput : Prop :=
  ∀ s u t v : State, dutiful s → dutiful u → inputBytes s = inputBytes u → exec .fcount s = .next t →
    exec .fcount u = .next v → t.errcode = .none → v.errcode = .none →
    t.freq = v.freq ∧ t.rank = v.rank ∧ t.nsym = v.nsym

/-! ### TreeBuilder -/

/-- TBUILD on a counted input leaves the tree of the merge rule: the two ≺-least nodes, the first removed on the left
(R180, R181, R183). -/
def Obligations.TbuildFollowsTheMergeRule : Prop :=
  ∀ s : State, dutiful s → s.valid.ft = true → 1 ≤ s.nsym.toNat → ranksDistinct s → (∃ b, s.freq.read b ≠ 0) →
    ∃ t, exec .tbuild s = .next t ∧ finished t .none ∧ (∀ q, leavesOf s q → MergesTo 0 q t.tree) ∧
      t.valid = ⟨true, true, false, false, s.valid.hd, s.valid.trie⟩

/-- After a successful TBUILD with NSYM = n, on the counts of the last FCOUNT: n leaves, n − 1 internal nodes, 2n − 1 ≤ 511
nodes; the leaves are exactly the counted symbols, each once; ROOT.freq = IN_LEN at the time of that FCOUNT; every leaf's depth
is at most n − 1 ≤ 255 (R185). That an internal node has exactly two children is the shape of the type Node. -/
def Obligations.TbuildTreeShape : Prop :=
  ∀ s t w u : State, dutiful s → exec .fcount s = .next t → t.errcode = .none → dutiful w → w.freq = t.freq →
    w.rank = t.rank → w.nsym = t.nsym → exec .tbuild w = .next u → u.errcode = .none →
    (nodeLeaves u.tree).length = w.nsym.toNat ∧ internalCount u.tree = w.nsym.toNat - 1 ∧
    (nodeLeaves u.tree).length + internalCount u.tree = 2 * w.nsym.toNat - 1 ∧ 2 * w.nsym.toNat - 1 ≤ 511 ∧
    (nodeSymbols u.tree).Nodup ∧ (∀ b, b ∈ nodeSymbols u.tree ↔ w.freq.read b ≠ 0) ∧
    (nodeFreq u.tree).toNat = s.inLen.toNat ∧ nodeDepth u.tree ≤ w.nsym.toNat - 1 ∧ w.nsym.toNat - 1 ≤ 255

/-- TREE is a function of the pairs (FREQ[s], RANK[s]) for counted s (R186). -/
def Obligations.TbuildIsDeterministic : Prop :=
  ∀ s u t v : State, dutiful s → dutiful u → (∃ b, s.freq.read b ≠ 0) → s.freq = u.freq →
    (∀ b, s.freq.read b ≠ 0 → s.rank.read b = u.rank.read b) →
    exec .tbuild s = .next t → exec .tbuild u = .next v → t.errcode = .none → v.errcode = .none → t.tree = v.tree

/-! ### CodeTableGenerator -/

/-- CGEN gives each leaf's symbol the path to it (a lone leaf "0") and VBC = Σ FREQ·CLEN when that fits 32 bits; with no tree,
FT_V and NSYM = 0 it leaves an empty code table with VBC = 0 (R200, R201, R202). -/
def Obligations.CgenGivesEachLeafItsPath : Prop :=
  (∀ s : State, dutiful s → s.valid.tree = true → (nodeSymbols s.tree).Nodup →
    weightedLength s.freq (codesOf s.tree) ≤ 2 ^ 32 - 1 →
    ∃ t, exec .cgen s = .next t ∧ finished t .none ∧
      codesOfTree s.tree t.code ∧
      t.vbc.toNat = (allSymbols.map fun b => (s.freq.read b).toNat * (t.code.read b).length).sum ∧
      t.valid = ⟨s.valid.ft, true, true, false, s.valid.hd, s.valid.trie⟩) ∧
  (∀ s : State, dutiful s → s.valid.tree = false → s.valid.ft = true → s.nsym = 0 →
    ∃ t, exec .cgen s = .next t ∧ finished t .none ∧ (∀ x, t.code.read x = []) ∧ t.vbc = 0 ∧
      t.valid = ⟨true, false, true, false, s.valid.hd, s.valid.trie⟩)

/-- After a successful FCOUNT, TBUILD and CGEN: exactly the counted symbols have codes, of 1 to 255 bits, pairwise
prefix-free; with two or more symbols Σ 2^(−CLEN) = 1 (here times 2^255); with one symbol its code is "0"; VBC is the number
of bits of the input's codes. With an empty input and no TBUILD, no symbol has a code and VBC = 0 (R204). -/
def Obligations.CgenLaws : Prop :=
  (∀ s t u v : State, dutiful s → exec .fcount s = .next t → t.errcode = .none →
    exec .tbuild t = .next u → u.errcode = .none → exec .cgen u = .next v → v.errcode = .none →
    (∀ b, 0 < (clen v b).toNat ↔ v.freq.read b ≠ 0) ∧
    (∀ b, v.freq.read b ≠ 0 → 1 ≤ (v.code.read b).length ∧ (v.code.read b).length ≤ 255) ∧
    prefixFree v.code ∧
    (2 ≤ v.nsym.toNat →
      ((allSymbols.filter fun b => v.freq.read b != 0).map fun b => 2 ^ (255 - (v.code.read b).length)).sum = 2 ^ 255) ∧
    (v.nsym.toNat = 1 → ∀ b, v.freq.read b ≠ 0 → v.code.read b = [false]) ∧
    v.vbc.toNat = ((inputBytes s).flatMap v.code.read).length) ∧
  (∀ s t v : State, dutiful s → exec .fcount s = .next t → t.errcode = .none → t.nsym = 0 →
    exec .cgen t = .next v → v.errcode = .none → (∀ b, v.code.read b = []) ∧ v.vbc = 0)

/-! ### ArtifactSerializer -/

/-- HSER writes the header of R120 for CLEN, CODE and VBC when it fits in OUT_CAP bytes; HDR_LEN and OUT_LEN are its length,
6 + Σ (2 + ceil8(CLEN)); when it does not fit the outcome is IO_ERROR (R216, R120, R121, R322). -/
def Obligations.HserWritesTheHeader : Prop :=
  ∀ s : State, dutiful s → s.valid.ct = true →
    ((encoderHeader s).length ≤ outCap s →
      ∃ t, exec .hser s = .next t ∧ finished t .none ∧ outBytes t = encoderHeader s ∧
        t.hdrLen.toNat = (encoderHeader s).length ∧ t.outLen = t.hdrLen ∧
        (encoderHeader s).length =
          6 + ((allSymbols.filter fun b => !(s.code.read b).isEmpty).map fun b => 2 + ceil8 (s.code.read b).length).sum ∧
        t.valid = ⟨s.valid.ft, s.valid.tree, true, true, s.valid.hd, s.valid.trie⟩) ∧
    (outCap s < (encoderHeader s).length → ∃ t, exec .hser s = .next t ∧ finished t .ioError)

/-- HDESER reads an artifact of R120 to R122 (a), (b), (c), (e): DNENT, DVBC, PAY_OFF and every decoded code, the padding bits
of the code bytes not read, symbols without an entry left without a code (R231, R123, R124). -/
def Obligations.HdeserReadsTheLayout : Prop :=
  ∀ (s : State) (es : List Entry) (v : Nat) (pay : List Byte), dutiful s → s.inLen.toNat ≤ inCap s → entriesOk es →
    v < 2 ^ 32 → pay.length = ceil8 v → inputBytes s = artifactHeader es v ++ pay →
    ∃ t, exec .hdeser s = .next t ∧ finished t .none ∧ t.dnent.toNat = es.length ∧ t.dvbc.toNat = v ∧
      t.payOff.toNat = (artifactHeader es v).length ∧ (∀ e ∈ es, t.dcode.read e.sym = entryCode e) ∧
      (∀ b, b ∉ es.map Entry.sym → t.dcode.read b = []) ∧
      t.valid = ⟨s.valid.ft, s.valid.tree, s.valid.ct, s.valid.hs, true, false⟩

/-- HDESER's errors on an input within IN_CAP. A payload shorter than ceil8(V) is TRUNCATED_INPUT (R231, R325), and excess bytes
after it are CORRUPT_HEADER (R323 (h)). So are: fewer than 2 bytes (a), an entry count over 256 (b), and, after `es` whole
entries of the `n` announced, a cut symbol and length byte (c), a length byte 0 (d), cut code bytes (e), a symbol seen before (f);
and, after all of them, a cut valid-bit count (g). -/
def Obligations.HdeserJudgesThePayloadSize : Prop :=
  (∀ (s : State) (es : List Entry) (v : Nat) (pay : List Byte), dutiful s → s.inLen.toNat ≤ inCap s → entriesOk es →
    v < 2 ^ 32 → inputBytes s = artifactHeader es v ++ pay →
    (pay.length < ceil8 v → ∃ t, exec .hdeser s = .next t ∧ finished t .truncatedInput) ∧
    (ceil8 v < pay.length → ∃ t, exec .hdeser s = .next t ∧ finished t .corruptHeader)) ∧
  (∀ s : State, dutiful s → s.inLen.toNat ≤ inCap s →
    (s.inLen.toNat < 2 ∨ 2 ≤ s.inLen.toNat ∧ 256 < rdBe16 s 0) →
    ∃ t, exec .hdeser s = .next t ∧ finished t .corruptHeader) ∧
  (∀ (s : State) (n : Nat) (es : List Entry) (rest : List Byte), dutiful s → s.inLen.toNat ≤ inCap s → n ≤ 256 →
    entriesOk es →
    inputBytes s = be16 n ++ (es.flatMap fun e => e.sym :: BitVec.ofNat 8 e.len :: e.bytes) ++ rest →
    (es.length < n ∧ rest.length < 2 ∨
      es.length < n ∧ (∃ b post, rest = b :: 0 :: post) ∨
      es.length < n ∧ (∃ b l post, rest = b :: l :: post ∧ post.length < ceil8 l.toNat) ∨
      es.length < n ∧ (∃ b l post, rest = b :: l :: post ∧ b ∈ es.map Entry.sym) ∨
      es.length = n ∧ rest.length < 4) →
    ∃ t, exec .hdeser s = .next t ∧ finished t .corruptHeader)

/-- After a successful HDESER the artifact in IN meets R122 (a), (b), (c), (e), the registers and tables are those of its
fields, and IN_LEN = PAY_OFF + ceil8(DVBC) (R232). -/
def Obligations.HdeserSuccessMeansWellFormed : Prop :=
  ∀ s t : State, dutiful s → exec .hdeser s = .next t → t.errcode = .none →
    t.inLen.toNat = t.payOff.toNat + ceil8 t.dvbc.toNat ∧
    ∃ es pay, inputBytes s = artifactHeader es t.dvbc.toNat ++ pay ∧ entriesOk es ∧ es.length ≤ 256 ∧
      pay.length = ceil8 t.dvbc.toNat ∧ t.payOff.toNat = (artifactHeader es t.dvbc.toNat).length ∧
      t.dnent.toNat = es.length ∧ ∀ e ∈ es, t.dcode.read e.sym = entryCode e

/-- HDESER inverts HSER and PACK: on the artifact of a successful PACK it succeeds with DCODE = CODE, DNENT = NSYM,
DVBC = VBC and PAY_OFF = HDR_LEN (R233). The invariants are the premise that rules out states no run reaches. -/
def Obligations.HdeserInvertsHserAndPack : Prop :=
  ∀ s t u : State, Inv s → Current s → dutiful s → exec .pack s = .next t → t.errcode = .none → dutiful u →
    inputBytes u = outBytes t → u.inLen.toNat ≤ inCap u →
    ∃ v, exec .hdeser u = .next v ∧ finished v .none ∧ v.dcode = t.code ∧ v.dnent.toNat = t.nsym.toNat ∧
      v.dvbc = t.vbc ∧ v.payOff = t.hdrLen

/-! ### BitPacker -/

/-- PACK writes the input's codes, MSB first and zero padded, right after the header, which it leaves as it is; exactly
ceil8(VBC) payload bytes (R251, R253). -/
def Obligations.PackWritesThePayload : Prop :=
  ∀ s : State, dutiful s → s.valid.ct = true → s.valid.hs = true → s.inLen.toNat ≤ inCap s →
    (∀ b ∈ inputBytes s, s.code.read b ≠ []) →
    ((inputBytes s).flatMap s.code.read).length = s.vbc.toNat →
    s.hdrLen.toNat + ceil8 s.vbc.toNat ≤ outCap s →
    ∃ t, exec .pack s = .next t ∧ finished t .none ∧ t.outLen.toNat = s.hdrLen.toNat + ceil8 s.vbc.toNat ∧
      (∀ a, a < s.hdrLen.toNat → outByte t a = outByte s a) ∧
      (∀ k, k < 8 * ceil8 s.vbc.toNat →
        (outByte t (s.hdrLen.toNat + k / 8)).getLsbD (7 - k % 8) =
          ((inputBytes s).flatMap s.code.read).getD k false) ∧
      t.valid = s.valid

/-- PACK's errors while it scans the input, by input byte (R251, R330): UNKNOWN_SYMBOL at the first byte with no code, when what
precedes it fits (R326); IO_ERROR at the first coded byte with which HDR_LEN + ceil8(bits so far) > OUT_CAP (R322); and, with
every byte coded and fitting, SEQUENCE_ERROR when the bit count differs from VBC (R328). -/
def Obligations.PackRejectsAChangedInput : Prop :=
  ∀ s : State, dutiful s → s.valid.ct = true → s.valid.hs = true → s.inLen.toNat ≤ inCap s →
    (∀ pre b post, inputBytes s = pre ++ b :: post → (∀ x ∈ pre, s.code.read x ≠ []) →
      (pre ≠ [] → s.hdrLen.toNat + ceil8 (pre.flatMap s.code.read).length ≤ outCap s) → s.code.read b = [] →
      ∃ t, exec .pack s = .next t ∧ finished t .unknownSymbol) ∧
    (∀ pre b post, inputBytes s = pre ++ b :: post → (∀ x ∈ pre ++ [b], s.code.read x ≠ []) →
      outCap s < s.hdrLen.toNat + ceil8 ((pre ++ [b]).flatMap s.code.read).length →
      ∃ t, exec .pack s = .next t ∧ finished t .ioError) ∧
    ((∀ x ∈ inputBytes s, s.code.read x ≠ []) →
      (inputBytes s ≠ [] → s.hdrLen.toNat + ceil8 ((inputBytes s).flatMap s.code.read).length ≤ outCap s) →
      ((inputBytes s).flatMap s.code.read).length ≠ s.vbc.toNat →
      ∃ t, exec .pack s = .next t ∧ finished t .sequenceError)

/-! ### TreeReconstructor -/

/-- TRECON succeeds exactly when the decoded codes are pairwise prefix-free, and raises CORRUPT_HEADER otherwise (R267). -/
def Obligations.TreconAcceptsExactlyPrefixFree : Prop :=
  ∀ s : State, dutiful s → s.valid.hd = true →
    ∃ t, exec .trecon s = .next t ∧
      (prefixFree s.dcode → finished t .none) ∧ (¬ prefixFree s.dcode → finished t .corruptHeader)

/-- The trie TRECON builds leads along each code to a node with its symbol, and along no other path to a symbol (R265,
R266). -/
def Obligations.TreconTrieHoldsTheCodes : Prop :=
  ∀ s : State, dutiful s → s.valid.hd = true → prefixFree s.dcode →
    ∃ t, exec .trecon s = .next t ∧ finished t .none ∧ trieHolds t.trie s.dcode ∧
      t.valid = ⟨s.valid.ft, s.valid.tree, s.valid.ct, s.valid.hs, true, true⟩

/-! ### BitUnpacker -/

/-- Decoding is unique: on a payload whose DVBC bits are c(x0) ++ c(x1) ++ … for a prefix-free code c that the trie holds,
UNPACK emits exactly x0, x1, … (R281, R283). -/
def Obligations.UnpackDecodesACodeStream : Prop :=
  ∀ (s : State) (c : Table Bits) (xs : List Byte), dutiful s → s.valid.trie = true → s.inLen.toNat ≤ inCap s →
    prefixFree c → trieHolds s.trie c → (∀ x ∈ xs, c.read x ≠ []) →
    s.payOff.toNat + ceil8 s.dvbc.toNat ≤ s.inLen.toNat →
    (List.range s.dvbc.toNat).map (bitMsb s s.payOff.toNat) = xs.flatMap c.read → xs.length ≤ outCap s →
    ∃ t, exec .unpack s = .next t ∧ finished t .none ∧ outBytes t = xs ∧ t.outLen.toNat = xs.length ∧
      t.valid = ⟨s.valid.ft, s.valid.tree, s.valid.ct, false, s.valid.hd, true⟩

/-- After any UNPACK, OUT_LEN ≤ OUT_CAP and OUT_LEN ≤ DVBC (R284). -/
def Obligations.UnpackBoundsItsOutput : Prop :=
  ∀ s t : State, dutiful s → exec .unpack s = .next t →
    t.outLen.toNat ≤ outCap t ∧ t.outLen.toNat ≤ t.dvbc.toNat

/-- UNPACK's payload errors, after a run of whole codes: TRUNCATED_INPUT at the first bit no byte holds, CORRUPT_PAYLOAD at a bit
with no child and when the valid-bit count ends inside a code, IO_ERROR when a symbol would not fit (R281, R324, R325,
R322). -/
def Obligations.UnpackRejectsBadPayloads : Prop :=
  ∀ (s : State) (c : Table Bits) (xs : List Byte) (p : Bits), dutiful s → s.valid.trie = true →
    s.inLen.toNat ≤ inCap s → prefixFree c → trieHolds s.trie c → (∀ x ∈ xs, c.read x ≠ []) → xs.length ≤ outCap s →
    (∀ q, q.IsPrefix p → trieSymbol s.trie q = none) →
    (List.range (xs.flatMap c.read ++ p).length).map (bitMsb s s.payOff.toNat) = xs.flatMap c.read ++ p →
    (s.payOff.toNat + ((xs.flatMap c.read ++ p).length + 7) / 8 ≤ s.inLen.toNat) →
    (∀ n, trieWalk s.trie 0 p = some n →
      (s.dvbc.toNat = (xs.flatMap c.read ++ p).length → n ≠ 0 →
        ∃ t, exec .unpack s = .next t ∧ finished t .corruptPayload) ∧
      ((xs.flatMap c.read ++ p).length < s.dvbc.toNat →
        s.inLen.toNat ≤ s.payOff.toNat + (xs.flatMap c.read ++ p).length / 8 →
        ∃ t, exec .unpack s = .next t ∧ finished t .truncatedInput) ∧
      ((xs.flatMap c.read ++ p).length < s.dvbc.toNat →
        s.payOff.toNat + (xs.flatMap c.read ++ p).length / 8 < s.inLen.toNat →
        trieChild (trieNode s.trie n) (bitMsb s s.payOff.toNat (xs.flatMap c.read ++ p).length) = none →
        ∃ t, exec .unpack s = .next t ∧ finished t .corruptPayload) ∧
      (∀ m, (xs.flatMap c.read ++ p).length < s.dvbc.toNat →
        s.payOff.toNat + (xs.flatMap c.read ++ p).length / 8 < s.inLen.toNat →
        trieChild (trieNode s.trie n) (bitMsb s s.payOff.toNat (xs.flatMap c.read ++ p).length) = some m →
        (trieNode s.trie m).sym ≠ none → xs.length = outCap s →
        ∃ t, exec .unpack s = .next t ∧ finished t .ioError))

/-! ### Composites and end-to-end laws -/

/-- A composite is its stages, run one after the other as commands of their own: if all succeed it leaves the state the last of
them leaves, and else that of the first that fails, its error and its valid bits V \ K included, the results of the stages before
it kept, but with OUT_LEN = 0 (R299, R300, R302, R305, R330, R155). COMPRESS runs FCOUNT first and skips TBUILD when NSYM = 0;
DECOMPRESS clears HS_V first. -/
def Obligations.CompositesRunTheirStages : Prop :=
  ∀ s : State, dutiful s →
    (∃ a t, exec .fcount s = .next a ∧ exec .compress s = .next t ∧
      (a.errcode = .none → runStages (tableStages a ++ [.hser, .pack]) a t) ∧ (a.errcode ≠ .none → failedAs a t)) ∧
    (∃ t, exec .decompress s = .next t ∧
      runStages [.hdeser, .trecon, .unpack] { s with valid := { s.valid with hs := false } } t)

/-- COMPRESS of an empty input succeeds for every OUT_CAP ≥ 6 with the six zero bytes, HDR_LEN = 6 and VBC = 0; from reset
STATUS is 0x00000D02 (R303, R126). -/
def Obligations.CompressOfEmptyInput : Prop :=
  ∀ s : State, dutiful s → s.inLen = 0 → 6 ≤ outCap s →
    ∃ t, exec .compress s = .next t ∧ finished t .none ∧ outBytes t = [0, 0, 0, 0, 0, 0] ∧ t.outLen = 6 ∧
      t.hdrLen = 6 ∧ t.vbc = 0 ∧ t.valid = ⟨true, false, true, true, s.valid.hd, s.valid.trie⟩ ∧
      (s.valid = ValidBits.empty → s.lost = false → statusWord t = 0x00000D02)

/-- A successful COMPRESS leaves H ++ P: the header of its code table, then the input's codes packed. COMPRESS succeeds exactly
when IN_LEN ≤ IN_CAP and HDR_LEN + ceil8(VBC) ≤ OUT_CAP, where HDR_LEN and VBC are those of the code table that FCOUNT, TBUILD
(if NSYM ≥ 1) and CGEN leave, which all succeed (R304); otherwise the error is IO_ERROR. The parameters are in R6's ranges
(R203). -/
def Obligations.CompressWritesTheArtifact : Prop :=
  (∀ s t : State, dutiful s → exec .compress s = .next t → t.errcode = .none → holdsArtifact (inputBytes s) t) ∧
  (∀ s : State, dutiful s → inCap s < s.inLen.toNat → ∃ t, exec .compress s = .next t ∧ finished t .ioError) ∧
  (∀ s : State, dutiful s → capsOk s → s.inLen.toNat ≤ inCap s →
    ∃ a c t, exec .fcount s = .next a ∧ a.errcode = .none ∧ runStages (tableStages a) a c ∧ c.errcode = .none ∧
      c.vbc.toNat ≤ 8 * s.inLen.toNat ∧ exec .compress s = .next t ∧
      ((encoderHeader c).length + ceil8 c.vbc.toNat ≤ outCap s →
        finished t .none ∧ holdsArtifact (inputBytes s) t ∧ t.code = c.code ∧ t.vbc = c.vbc ∧ prefixFree t.code ∧
          ∀ b ∈ inputBytes s, t.code.read b ≠ []) ∧
      (outCap s < (encoderHeader c).length + ceil8 c.vbc.toNat → finished t .ioError))

/-- DECOMPRESS of a well-formed artifact (R122) whose payload is the codes of xs gives xs back when it fits (R305, R283). -/
def Obligations.DecompressDecodesAnArtifact : Prop :=
  ∀ (s : State) (es : List Entry) (c : Table Bits) (xs : List Byte) (v : Nat) (pay : List Byte), dutiful s →
    s.inLen.toNat ≤ inCap s → entriesOk es → (∀ e ∈ es, c.read e.sym = entryCode e) →
    (∀ b, b ∉ es.map Entry.sym → c.read b = []) → prefixFree c → (∀ x ∈ xs, x ∈ es.map Entry.sym) →
    v = (xs.flatMap c.read).length → v < 2 ^ 32 → pay.length = ceil8 v → (byteBits pay).take v = xs.flatMap c.read →
    inputBytes s = artifactHeader es v ++ pay → xs.length ≤ outCap s →
    ∃ t, exec .decompress s = .next t ∧ finished t .none ∧ outBytes t = xs ∧ t.outLen.toNat = xs.length ∧
      t.valid = ⟨s.valid.ft, s.valid.tree, s.valid.ct, false, true, true⟩

/-- The round trip: DECOMPRESS of the artifact a successful COMPRESS left returns the input (R307). -/
def Obligations.RoundTripReturnsTheInput : Prop :=
  ∀ s t u : State, dutiful s → exec .compress s = .next t → t.errcode = .none → dutiful u →
    inputBytes u = outBytes t → u.inLen.toNat ≤ inCap u → s.inLen.toNat ≤ outCap u →
    ∃ v, exec .decompress u = .next v ∧ finished v .none ∧ outBytes v = inputBytes s ∧
      v.outLen.toNat = s.inLen.toNat

/-- A proper prefix of an artifact of COMPRESS is rejected: TRUNCATED_INPUT when it holds the whole header, CORRUPT_HEADER when
it does not, the empty artifact's prefixes among them (R308). -/
def Obligations.CutArtifactsAreRejected : Prop :=
  ∀ s t u : State, dutiful s → exec .compress s = .next t → t.errcode = .none →
    dutiful u → u.inLen.toNat ≤ inCap u → u.inLen.toNat < t.outLen.toNat →
    inputBytes u = (outBytes t).take u.inLen.toNat →
    (t.hdrLen.toNat ≤ u.inLen.toNat → ∃ v, exec .decompress u = .next v ∧ finished v .truncatedInput) ∧
    (u.inLen.toNat < t.hdrLen.toNat → ∃ v, exec .decompress u = .next v ∧ finished v .corruptHeader)

/-- COMPRESS and DECOMPRESS are functions of IN[0..IN_LEN−1] and the parameters: two runs on equal inputs agree on the outcome,
OUT_LEN and the composite's own valid bits, and, on success, on OUT[0..OUT_LEN−1] and on every register and table the composite
writes, TREE when NSYM ≥ 1 (with NSYM = 0 COMPRESS builds none) (R309). -/
def Obligations.CompositesAreFunctionsOfTheirInput : Prop :=
  ∀ s u t v : State, dutiful s → dutiful u → s.inLen = u.inLen → inputBytes s = inputBytes u →
    s.inCapR = u.inCapR → s.outCapR = u.outCapR →
    (exec .compress s = .next t → exec .compress u = .next v →
      t.errcode = v.errcode ∧ t.outLen = v.outLen ∧ t.valid.ft = v.valid.ft ∧ t.valid.tree = v.valid.tree ∧
      t.valid.ct = v.valid.ct ∧ t.valid.hs = v.valid.hs ∧
      (t.errcode = .none → outBytes t = outBytes v ∧ t.freq = v.freq ∧ t.rank = v.rank ∧ t.nsym = v.nsym ∧
        (1 ≤ t.nsym.toNat → t.tree = v.tree) ∧ t.code = v.code ∧ t.vbc = v.vbc ∧ t.hdrLen = v.hdrLen)) ∧
    (exec .decompress s = .next t → exec .decompress u = .next v →
      t.errcode = v.errcode ∧ t.outLen = v.outLen ∧ t.valid.hs = v.valid.hs ∧ t.valid.hd = v.valid.hd ∧
      t.valid.trie = v.valid.trie ∧
      (t.errcode = .none → outBytes t = outBytes v ∧ t.dcode = v.dcode ∧ t.dnent = v.dnent ∧ t.dvbc = v.dvbc ∧
        t.payOff = v.payOff ∧ t.trie = v.trie))

/-! ### Frames (30_encoding.md R113) -/

/-- What FCOUNT, TBUILD and CGEN leave unchanged, whatever their outcome: all but their own tables and FT_V, TREE_V, CT_V,
HS_V; every byte of IN and OUT (R113, R155 (e)). -/
def Obligations.EncoderStagesFrame : Prop :=
  ∀ (i : Instr) (s t : State), dutiful s → i ∈ [.fcount, .tbuild, .cgen] → exec i s = .next t →
    keepsInputSide s t ∧ keepsOut s t ∧ keepsLost s t ∧ keepsHdrLen s t ∧ keepsHeader s t ∧ keepsTrie s t ∧
    keepsDecoderBits s t ∧ (i ≠ .fcount → keepsCounts s t) ∧ (i ≠ .tbuild → keepsTree s t) ∧
    (i ≠ .cgen → keepsCodes s t)

/-- What HDESER and TRECON leave unchanged: all but their own registers and tables and HD_V, TRIE_V; every byte of IN and OUT
(R113, R155 (e)). -/
def Obligations.DecoderStagesFrame : Prop :=
  ∀ (i : Instr) (s t : State), dutiful s → i ∈ [.hdeser, .trecon] → exec i s = .next t →
    keepsInputSide s t ∧ keepsOut s t ∧ keepsLost s t ∧ keepsCounts s t ∧ keepsTree s t ∧ keepsCodes s t ∧
    keepsHdrLen s t ∧ keepsEncoderBits s t ∧ (i ≠ .hdeser → keepsHeader s t ∧ t.valid.hd = s.valid.hd) ∧
    (i ≠ .trecon → keepsTrie s t)

/-- What HSER, PACK and UNPACK leave unchanged: every table, every register but OUT_LEN and HSER's HDR_LEN, every valid bit but
HS_V, every byte of IN; a successful PACK keeps OUT[0..HDR_LEN−1] (R113, R155 (e), R251). OUT bytes at OUT_LEN and beyond are
unspecified after any of them (R155), so nothing is promised of them. -/
def Obligations.OutWritersFrame : Prop :=
  ∀ (i : Instr) (s t : State), dutiful s → i ∈ [.hser, .pack, .unpack] → exec i s = .next t →
    keepsInputSide s t ∧ keepsLost s t ∧ keepsCounts s t ∧ keepsTree s t ∧ keepsCodes s t ∧ keepsHeader s t ∧
    keepsTrie s t ∧ keepsDecoderBits s t ∧ t.valid.ft = s.valid.ft ∧ t.valid.tree = s.valid.tree ∧
    t.valid.ct = s.valid.ct ∧ (i ≠ .hser → keepsHdrLen s t) ∧
    (i = .pack → t.errcode = .none → ∀ a, a < s.hdrLen.toNat → outByte t a = outByte s a)

/-- What the composites leave unchanged: COMPRESS the decoder's registers, tables and valid bits, DECOMPRESS the encoder's, but
for HS_V; both IN, IN_LEN, CTRL and LOST (R299, R300, R305, R113). -/
def Obligations.CompositesFrame : Prop :=
  ∀ s t : State, dutiful s →
    (exec .compress s = .next t →
      keepsInputSide s t ∧ keepsLost s t ∧ keepsHeader s t ∧ keepsTrie s t ∧ keepsDecoderBits s t) ∧
    (exec .decompress s = .next t →
      keepsInputSide s t ∧ keepsLost s t ∧ keepsCounts s t ∧ keepsTree s t ∧ keepsCodes s t ∧ keepsHdrLen s t ∧
      t.valid.ft = s.valid.ft ∧ t.valid.tree = s.valid.tree ∧ t.valid.ct = s.valid.ct ∧ t.valid.hs = false)

/-! ### Invariants -/

/-- Every step keeps the invariant, whatever the host does: parameters in range (R6), buffers canonical and within their
capacities, codes of at most 255 bits (R48, R50), a tree of at most 511 nodes and a trie of at most 65281, both well
formed (R7, R47, R51), DONE and ERRCODE clear while BUSY (R151).
Its reach is the model's choice: that free values are well formed (assumptions 3, 12), the buffers' canonical form (4), that an
idle block waits for nothing and is not marked (8, 10), and all of it after a broken duty (10), where R370 promises nothing. -/
def Obligations.StepKeepsTheInvariant : Prop :=
  ∀ s t : State, Inv s → step s = .next t → Inv t

/-- Reset meets both invariants. -/
def Obligations.ResetMeetsTheInvariants : Prop := Inv State.reset ∧ Current State.reset

/-- Every step of a machine whose host keeps its duty keeps the meaning R34 gives the valid bits: FT_V, the counts and ranks;
TREE_V, a tree of the merge rule on them; CT_V, the prefix-free code table of the current tree, or the empty one of an empty
input, with its VBC; HS_V, the header in OUT (R217); TRIE_V, a trie of the parsed header; their pipeline order (R154); and
OUT_LEN ≤ OUT_CAP (R36). -/
def Obligations.StepKeepsTheMeaningOfTheValidBits : Prop :=
  ∀ s t : State, dutiful s → Inv s → Current s → step s = .next t → Current t

/-! ### Reset and the host's ports -/

/-- Reset gives every state element of the block the value R360 states, from whatever state, a command in progress included
(R360, R361); the parameters stay. -/
def Obligations.ResetGivesTheResetValues : Prop :=
  ∀ (s : State) (rest : List HostEvent), s.host = .reset :: rest → (s.busy = false ∨ s.latency ≠ 0) →
    ∃ t, step s = .next t ∧ statusWord t = 0 ∧ regReadValue t 0x004 32 = 0 ∧ irq t = false ∧ t.inLen = 0 ∧ t.outLen = 0 ∧
      t.nsym = 0 ∧ t.vbc = 0 ∧ t.hdrLen = 0 ∧ t.dnent = 0 ∧ t.dvbc = 0 ∧ t.payOff = 0 ∧ t.inCapR = s.inCapR ∧
      t.outCapR = s.outCapR ∧ regReadValue t 0x000 32 = 0x48460101 ∧
      (∀ b, t.freq.read b = 0 ∧ t.rank.read b = 0 ∧ clen t b = 0 ∧ t.code.read b = [] ∧ dclen t b = 0 ∧
        t.dcode.read b = []) ∧
      (∀ b w, codeWord t b w = 0 ∧ dcodeWord t b w = 0)

/-- An aligned 32-bit read while BUSY = 0 returns the register at its offset of the map (R54, R86); CLEN and DCLEN are the lengths
of CODE and DCODE (R48, R50), which every state the invariant admits keeps to 8 bits (elsewhere modulo 256, assumption 12). -/
def Obligations.RegisterMapReads : Prop :=
  ∀ s : State, s.busy = false →
    regReadValue s 0x000 32 = 0x48460101 ∧ regReadValue s 0x004 32 = (if s.ie then 1 else 0) ∧
    regReadValue s 0x008 32 = 0 ∧ regReadValue s 0x00C 32 = statusWord s ∧ regReadValue s 0x010 32 = s.inLen ∧
    regReadValue s 0x014 32 = s.outLen ∧ regReadValue s 0x018 32 = s.nsym.setWidth 32 ∧
    regReadValue s 0x01C 32 = s.vbc ∧ regReadValue s 0x020 32 = s.hdrLen ∧
    regReadValue s 0x024 32 = s.dnent.setWidth 32 ∧ regReadValue s 0x028 32 = s.dvbc ∧
    regReadValue s 0x02C 32 = s.payOff ∧ regReadValue s 0x030 32 = s.inCapR ∧ regReadValue s 0x034 32 = s.outCapR ∧
    (∀ b : Byte,
      regReadValue s (BitVec.ofNat 15 (0x400 + 4 * b.toNat)) 32 = s.freq.read b ∧
      regReadValue s (BitVec.ofNat 15 (0x800 + 4 * b.toNat)) 32 = (s.rank.read b).setWidth 32 ∧
      (regReadValue s (BitVec.ofNat 15 (0xC00 + 4 * b.toNat)) 32).toNat = (s.code.read b).length % 256 ∧
      (codesOk s.code →
        (regReadValue s (BitVec.ofNat 15 (0xC00 + 4 * b.toNat)) 32).toNat = (s.code.read b).length) ∧
      (regReadValue s (BitVec.ofNat 15 (0x3000 + 4 * b.toNat)) 32).toNat = (s.dcode.read b).length % 256 ∧
      (codesOk s.dcode →
        (regReadValue s (BitVec.ofNat 15 (0x3000 + 4 * b.toNat)) 32).toNat = (s.dcode.read b).length) ∧
      ∀ w, w < 8 →
        regReadValue s (BitVec.ofNat 15 (0x1000 + 32 * b.toNat + 4 * w)) 32 = codeWord s b w ∧
        regReadValue s (BitVec.ofNat 15 (0x4000 + 32 * b.toNat + 4 * w)) 32 = dcodeWord s b w) ∧
    (∀ off : BitVec 15, off.toNat % 4 = 0 →
      (0x038 ≤ off.toNat ∧ off.toNat ≤ 0x3FC ∨ 0x3400 ≤ off.toNat ∧ off.toNat ≤ 0x3FFC ∨ 0x6000 ≤ off.toNat) →
      regReadValue s off 32 = 0)

/-- STATUS has its fields where R34 puts them, ERRCODE with R320's numbers, ERR is (ERRCODE ≠ 0), and IRQ is DONE ∧ IE, so that it stands at IE when a
command completes, whether it succeeded or failed (R34, R320, R331). That a command whose input the host changed completes so
too is the model's choice (assumption 10). -/
def Obligations.StatusFieldsAndIrq : Prop :=
  (∀ s : State,
    (statusWord s).getLsbD 0 = s.busy ∧ (statusWord s).getLsbD 1 = s.done ∧
    ((statusWord s).getLsbD 2 = true ↔ s.errcode ≠ .none) ∧ (statusWord s).getLsbD 3 = s.lost ∧
    (statusWord s).extractLsb' 4 4 = (match s.errcode with
      | .none => 0#4
      | .ioError => 1#4
      | .corruptHeader => 2#4
      | .corruptPayload => 3#4
      | .truncatedInput => 4#4
      | .unknownSymbol => 5#4
      | .illegalCommand => 6#4
      | .sequenceError => 7#4) ∧
    (statusWord s).getLsbD 8 = s.valid.ft ∧
    (statusWord s).getLsbD 9 = s.valid.tree ∧ (statusWord s).getLsbD 10 = s.valid.ct ∧
    (statusWord s).getLsbD 11 = s.valid.hs ∧ (statusWord s).getLsbD 12 = s.valid.hd ∧
    (statusWord s).getLsbD 13 = s.valid.trie ∧ (statusWord s).extractLsb' 14 18 = 0#18 ∧
    irq s = ((statusWord s).getLsbD 1 && (regReadValue s 0x004 32).getLsbD 0)) ∧
  (∀ (i : Instr) (s t : State), exec i s = .next t → irq t = s.ie)

/-- While BUSY = 1 the registers R42 names return their values, and STATUS its bits 7:0; no register read, at any time, changes
any state of the block (R42, R43). -/
def Obligations.RegisterReadsWhileBusy : Prop :=
  (∀ s : State, s.busy = true →
    regReadValue s 0x000 32 = 0x48460101 ∧ regReadValue s 0x004 32 = (if s.ie then 1 else 0) ∧
    (regReadValue s 0x00C 32).extractLsb' 0 8 = (statusWord s).extractLsb' 0 8 ∧ regReadValue s 0x010 32 = s.inLen ∧
    regReadValue s 0x030 32 = s.inCapR ∧ regReadValue s 0x034 32 = s.outCapR) ∧
  (∀ (s : State) (off : BitVec 15) (bits : Nat),
    hostAccess (.regRead off bits) s =
      { s with reads := .word (regReadValue s off bits) :: s.reads, draws := s.draws + 1 })

/-- Register writes: CTRL takes bit 0; IN_LEN takes the word; STATUS clears DONE and LOST where a 1 is written; read-only
registers, reserved offsets, and accesses that are not aligned 32-bit words change nothing (R32, R34, R35, R44, R54, R86). -/
def Obligations.RegisterWritesTakeTheirEffect : Prop :=
  ∀ (s : State) (v : Word),
    hostAccess (.regWrite 0x004 32 v) s = { s with ie := v.getLsbD 0 } ∧
    (s.busy = false → hostAccess (.regWrite 0x010 32 v) s = { s with inLen := v }) ∧
    hostAccess (.regWrite 0x00C 32 v) s =
      { s with done := s.done && !v.getLsbD 1, lost := s.lost && !v.getLsbD 3 } ∧
    (∀ (off : BitVec 15) (bits : Nat), (bits ≠ 32 ∨ off.toNat % 4 ≠ 0) → hostAccess (.regWrite off bits v) s = s) ∧
    (∀ off : BitVec 15, off.toNat % 4 = 0 → off ∉ [0x004#15, 0x008#15, 0x00C#15, 0x010#15] →
      hostAccess (.regWrite off 32 v) s = s)

/-- The IN and OUT ports while BUSY = 0: a write of IN below IN_CAP stores its byte and changes no other byte and no register, and
a read returns the byte; at IN_CAP or OUT_CAP and beyond a read gives 0x00 and a write is ignored (R87, R88). At any time, BUSY = 1
included, a read of IN or OUT changes no state of the block (R91), and a write of OUT is ignored (R88, R371). The log of reads and
the draw number are the model's (assumptions 11, 19); IN writes while BUSY = 1 are BrokenDutyStillCompletes's. -/
def Obligations.BufferPortsReadAndWrite : Prop :=
  (∀ (s : State) (i : Nat) (v : Byte), s.busy = false →
    (i < inCap s →
      ∃ m, hostAccess (.inWrite i v) s = { s with inBuf := m } ∧
        ∀ j, inByte (hostAccess (.inWrite i v) s) j = if j = i then v else inByte s j) ∧
    (inCap s ≤ i → hostAccess (.inWrite i v) s = s) ∧
    hostAccess (.inRead i) s =
      { s with reads := .byte (if i < inCap s then inByte s i else 0) :: s.reads, draws := s.draws + 1 } ∧
    hostAccess (.outRead i) s =
      { s with reads := .byte (if i < outCap s then outByte s i else 0) :: s.reads, draws := s.draws + 1 }) ∧
  (∀ (s : State) (i : Nat) (v : Byte),
    hostAccess (.outWrite i v) s = s ∧
    (∃ x, hostAccess (.inRead i) s = { s with reads := .byte x :: s.reads, draws := s.draws + 1 }) ∧
    (∃ x, hostAccess (.outRead i) s = { s with reads := .byte x :: s.reads, draws := s.draws + 1 }))

/-- CODEW[s][w] at REG offset 0x1000 + 32·s + 4·w shows code bits 32w to 32w + 31, the first at the most significant position,
bits beyond the code reading 0; and DCODEW at 0x4000 + 32·s + 4·w the same of DCODE (R49, R50). -/
def Obligations.CodeWindowsShowTheCode : Prop :=
  ∀ (s : State) (b : Byte) (w k : Nat), s.busy = false → w < 8 → k < 32 →
    (regReadValue s (BitVec.ofNat 15 (0x1000 + 32 * b.toNat + 4 * w)) 32).getLsbD (31 - k) =
      (s.code.read b).getD (32 * w + k) false ∧
    (regReadValue s (BitVec.ofNat 15 (0x4000 + 32 * b.toNat + 4 * w)) 32).getLsbD (31 - k) =
      (s.dcode.read b).getD (32 * w + k) false

/-- pack_msb has ceil8(|p|) bytes and puts bit i at position 7 − (i mod 8) of byte i div 8, zero padded, and bit_msb reads bit k
there (R84); be16 and be32 are the bytes of a number, the most significant first, and rd_be16 and rd_be32 read them back
(R85). -/
def Obligations.BitAndByteOrder : Prop :=
  (∀ (p : Bits) (k : Nat),
    (packMsb p).length = ceil8 p.length ∧
    ((packMsb p).getD (k / 8) 0).getLsbD (7 - k % 8) = p.getD k false) ∧
  (∀ (s : State) (p : Bits) (i k : Nat), k < p.length →
    (∀ j, j < ceil8 p.length → inByte s (i + j) = (packMsb p).getD j 0) → bitMsb s i k = p.getD k false) ∧
  (∀ v : Nat, v < 2 ^ 16 → (be16 v).map BitVec.toNat = [v / 2 ^ 8, v % 2 ^ 8]) ∧
  (∀ v : Nat, v < 2 ^ 32 →
    (be32 v).map BitVec.toNat = [v / 2 ^ 24, v / 2 ^ 16 % 2 ^ 8, v / 2 ^ 8 % 2 ^ 8, v % 2 ^ 8]) ∧
  (∀ (s : State) (i : Nat),
    rdBe16 s i = (inByte s i).toNat * 2 ^ 8 + (inByte s (i + 1)).toNat ∧
    rdBe32 s i = (inByte s i).toNat * 2 ^ 24 + (inByte s (i + 1)).toNat * 2 ^ 16 + (inByte s (i + 2)).toNat * 2 ^ 8 +
      (inByte s (i + 3)).toNat) ∧
  (∀ (s : State) (i v : Nat), v < 2 ^ 16 → (∀ j, j < 2 → inByte s (i + j) = (be16 v).getD j 0) → rdBe16 s i = v) ∧
  (∀ (s : State) (i v : Nat), v < 2 ^ 32 → (∀ j, j < 4 → inByte s (i + j) = (be32 v).getD j 0) → rdBe32 s i = v)

/-- A host that writes IN_LEN or IN while BUSY = 1 breaks its duty (R370), and the model admits the access (assumption 10): the
write takes its effect (a write of IN at IN_CAP and beyond has none) and marks the command. Whatever a marked command leaves in
its write set, OUT and OUT_LEN, it completes, with the free outcome; IN, IN_LEN, CTRL, OPL and the parameters are kept, and so is
every register and table outside its write set (R113). -/
def Obligations.BrokenDutyStillCompletes : Prop :=
  (∀ (s : State) (v : Word), s.busy = true →
    hostAccess (.regWrite 0x010 32 v) s = { s with inLen := v, tainted := true }) ∧
  (∀ (s : State) (a : Nat) (v : Byte), s.busy = true →
    (a < inCap s →
      ∃ m, hostAccess (.inWrite a v) s = { s with inBuf := m, tainted := true } ∧
        ∀ j, inByte (hostAccess (.inWrite a v) s) j = if j = a then v else inByte s j) ∧
    (inCap s ≤ a → hostAccess (.inWrite a v) s = { s with tainted := true })) ∧
  (∀ (i : Instr) (s : State), s.tainted = true →
    ∃ t, exec i s = .next t ∧ finished t (Config.freeErr s.draws) ∧ t.tainted = false ∧ keepsInputSide s t ∧
      (i ∉ [.clear, .fcount, .compress] → keepsCounts s t) ∧ (i ∉ [.clear, .tbuild, .compress] → keepsTree s t) ∧
      (i ∉ [.clear, .cgen, .compress] → keepsCodes s t) ∧ (i ∉ [.clear, .hser, .compress] → keepsHdrLen s t) ∧
      (i ∉ [.clear, .hdeser, .decompress] → keepsHeader s t) ∧ (i ∉ [.clear, .trecon, .decompress] → keepsTrie s t))
end

