-- ==== Sys2Proof/Laws/State.lean ====
section
/-! SUPPORT. One lemma per field and named update of State, each true by rfl, so that no later proof unfolds a record update. -/

namespace Sys2Proof.Machine

/-! ### draw -/

@[simp] theorem draw_inCapR (s : State) : (draw s).inCapR = s.inCapR := rfl
@[simp] theorem draw_outCapR (s : State) : (draw s).outCapR = s.outCapR := rfl
@[simp] theorem draw_ie (s : State) : (draw s).ie = s.ie := rfl
@[simp] theorem draw_busy (s : State) : (draw s).busy = s.busy := rfl
@[simp] theorem draw_done (s : State) : (draw s).done = s.done := rfl
@[simp] theorem draw_lost (s : State) : (draw s).lost = s.lost := rfl
@[simp] theorem draw_errcode (s : State) : (draw s).errcode = s.errcode := rfl
@[simp] theorem draw_valid (s : State) : (draw s).valid = s.valid := rfl
@[simp] theorem draw_opl (s : State) : (draw s).opl = s.opl := rfl
@[simp] theorem draw_inLen (s : State) : (draw s).inLen = s.inLen := rfl
@[simp] theorem draw_outLen (s : State) : (draw s).outLen = s.outLen := rfl
@[simp] theorem draw_nsym (s : State) : (draw s).nsym = s.nsym := rfl
@[simp] theorem draw_vbc (s : State) : (draw s).vbc = s.vbc := rfl
@[simp] theorem draw_hdrLen (s : State) : (draw s).hdrLen = s.hdrLen := rfl
@[simp] theorem draw_dnent (s : State) : (draw s).dnent = s.dnent := rfl
@[simp] theorem draw_dvbc (s : State) : (draw s).dvbc = s.dvbc := rfl
@[simp] theorem draw_payOff (s : State) : (draw s).payOff = s.payOff := rfl
@[simp] theorem draw_freq (s : State) : (draw s).freq = s.freq := rfl
@[simp] theorem draw_rank (s : State) : (draw s).rank = s.rank := rfl
@[simp] theorem draw_code (s : State) : (draw s).code = s.code := rfl
@[simp] theorem draw_tree (s : State) : (draw s).tree = s.tree := rfl
@[simp] theorem draw_dcode (s : State) : (draw s).dcode = s.dcode := rfl
@[simp] theorem draw_trie (s : State) : (draw s).trie = s.trie := rfl
@[simp] theorem draw_inBuf (s : State) : (draw s).inBuf = s.inBuf := rfl
@[simp] theorem draw_outBuf (s : State) : (draw s).outBuf = s.outBuf := rfl
@[simp] theorem draw_latency (s : State) : (draw s).latency = s.latency := rfl
@[simp] theorem draw_tainted (s : State) : (draw s).tainted = s.tainted := rfl
@[simp] theorem draw_host (s : State) : (draw s).host = s.host := rfl
@[simp] theorem draw_reads (s : State) : (draw s).reads = s.reads := rfl
@[simp] theorem draw_draws (s : State) : (draw s).draws = s.draws + 1 := rfl

/-! ### spoilCounts -/

@[simp] theorem spoilCounts_inCapR (d : Nat) (s : State) : (spoilCounts d s).inCapR = s.inCapR := rfl
@[simp] theorem spoilCounts_outCapR (d : Nat) (s : State) : (spoilCounts d s).outCapR = s.outCapR := rfl
@[simp] theorem spoilCounts_ie (d : Nat) (s : State) : (spoilCounts d s).ie = s.ie := rfl
@[simp] theorem spoilCounts_busy (d : Nat) (s : State) : (spoilCounts d s).busy = s.busy := rfl
@[simp] theorem spoilCounts_done (d : Nat) (s : State) : (spoilCounts d s).done = s.done := rfl
@[simp] theorem spoilCounts_lost (d : Nat) (s : State) : (spoilCounts d s).lost = s.lost := rfl
@[simp] theorem spoilCounts_errcode (d : Nat) (s : State) : (spoilCounts d s).errcode = s.errcode := rfl
@[simp] theorem spoilCounts_valid (d : Nat) (s : State) : (spoilCounts d s).valid = s.valid := rfl
@[simp] theorem spoilCounts_opl (d : Nat) (s : State) : (spoilCounts d s).opl = s.opl := rfl
@[simp] theorem spoilCounts_inLen (d : Nat) (s : State) : (spoilCounts d s).inLen = s.inLen := rfl
@[simp] theorem spoilCounts_outLen (d : Nat) (s : State) : (spoilCounts d s).outLen = s.outLen := rfl
@[simp] theorem spoilCounts_nsym (d : Nat) (s : State) : (spoilCounts d s).nsym = Config.freeBits 9 d .nsym := rfl
@[simp] theorem spoilCounts_vbc (d : Nat) (s : State) : (spoilCounts d s).vbc = s.vbc := rfl
@[simp] theorem spoilCounts_hdrLen (d : Nat) (s : State) : (spoilCounts d s).hdrLen = s.hdrLen := rfl
@[simp] theorem spoilCounts_dnent (d : Nat) (s : State) : (spoilCounts d s).dnent = s.dnent := rfl
@[simp] theorem spoilCounts_dvbc (d : Nat) (s : State) : (spoilCounts d s).dvbc = s.dvbc := rfl
@[simp] theorem spoilCounts_payOff (d : Nat) (s : State) : (spoilCounts d s).payOff = s.payOff := rfl
@[simp] theorem spoilCounts_freq (d : Nat) (s : State) : (spoilCounts d s).freq = freeFreq d := rfl
@[simp] theorem spoilCounts_rank (d : Nat) (s : State) : (spoilCounts d s).rank = freeRank d := rfl
@[simp] theorem spoilCounts_code (d : Nat) (s : State) : (spoilCounts d s).code = s.code := rfl
@[simp] theorem spoilCounts_tree (d : Nat) (s : State) : (spoilCounts d s).tree = s.tree := rfl
@[simp] theorem spoilCounts_dcode (d : Nat) (s : State) : (spoilCounts d s).dcode = s.dcode := rfl
@[simp] theorem spoilCounts_trie (d : Nat) (s : State) : (spoilCounts d s).trie = s.trie := rfl
@[simp] theorem spoilCounts_inBuf (d : Nat) (s : State) : (spoilCounts d s).inBuf = s.inBuf := rfl
@[simp] theorem spoilCounts_outBuf (d : Nat) (s : State) : (spoilCounts d s).outBuf = s.outBuf := rfl
@[simp] theorem spoilCounts_latency (d : Nat) (s : State) : (spoilCounts d s).latency = s.latency := rfl
@[simp] theorem spoilCounts_tainted (d : Nat) (s : State) : (spoilCounts d s).tainted = s.tainted := rfl
@[simp] theorem spoilCounts_host (d : Nat) (s : State) : (spoilCounts d s).host = s.host := rfl
@[simp] theorem spoilCounts_reads (d : Nat) (s : State) : (spoilCounts d s).reads = s.reads := rfl
@[simp] theorem spoilCounts_draws (d : Nat) (s : State) : (spoilCounts d s).draws = s.draws := rfl

/-! ### spoilTree -/

@[simp] theorem spoilTree_inCapR (d : Nat) (s : State) : (spoilTree d s).inCapR = s.inCapR := rfl
@[simp] theorem spoilTree_outCapR (d : Nat) (s : State) : (spoilTree d s).outCapR = s.outCapR := rfl
@[simp] theorem spoilTree_ie (d : Nat) (s : State) : (spoilTree d s).ie = s.ie := rfl
@[simp] theorem spoilTree_busy (d : Nat) (s : State) : (spoilTree d s).busy = s.busy := rfl
@[simp] theorem spoilTree_done (d : Nat) (s : State) : (spoilTree d s).done = s.done := rfl
@[simp] theorem spoilTree_lost (d : Nat) (s : State) : (spoilTree d s).lost = s.lost := rfl
@[simp] theorem spoilTree_errcode (d : Nat) (s : State) : (spoilTree d s).errcode = s.errcode := rfl
@[simp] theorem spoilTree_valid (d : Nat) (s : State) : (spoilTree d s).valid = s.valid := rfl
@[simp] theorem spoilTree_opl (d : Nat) (s : State) : (spoilTree d s).opl = s.opl := rfl
@[simp] theorem spoilTree_inLen (d : Nat) (s : State) : (spoilTree d s).inLen = s.inLen := rfl
@[simp] theorem spoilTree_outLen (d : Nat) (s : State) : (spoilTree d s).outLen = s.outLen := rfl
@[simp] theorem spoilTree_nsym (d : Nat) (s : State) : (spoilTree d s).nsym = s.nsym := rfl
@[simp] theorem spoilTree_vbc (d : Nat) (s : State) : (spoilTree d s).vbc = s.vbc := rfl
@[simp] theorem spoilTree_hdrLen (d : Nat) (s : State) : (spoilTree d s).hdrLen = s.hdrLen := rfl
@[simp] theorem spoilTree_dnent (d : Nat) (s : State) : (spoilTree d s).dnent = s.dnent := rfl
@[simp] theorem spoilTree_dvbc (d : Nat) (s : State) : (spoilTree d s).dvbc = s.dvbc := rfl
@[simp] theorem spoilTree_payOff (d : Nat) (s : State) : (spoilTree d s).payOff = s.payOff := rfl
@[simp] theorem spoilTree_freq (d : Nat) (s : State) : (spoilTree d s).freq = s.freq := rfl
@[simp] theorem spoilTree_rank (d : Nat) (s : State) : (spoilTree d s).rank = s.rank := rfl
@[simp] theorem spoilTree_code (d : Nat) (s : State) : (spoilTree d s).code = s.code := rfl
@[simp] theorem spoilTree_tree (d : Nat) (s : State) : (spoilTree d s).tree = freeTree d := rfl
@[simp] theorem spoilTree_dcode (d : Nat) (s : State) : (spoilTree d s).dcode = s.dcode := rfl
@[simp] theorem spoilTree_trie (d : Nat) (s : State) : (spoilTree d s).trie = s.trie := rfl
@[simp] theorem spoilTree_inBuf (d : Nat) (s : State) : (spoilTree d s).inBuf = s.inBuf := rfl
@[simp] theorem spoilTree_outBuf (d : Nat) (s : State) : (spoilTree d s).outBuf = s.outBuf := rfl
@[simp] theorem spoilTree_latency (d : Nat) (s : State) : (spoilTree d s).latency = s.latency := rfl
@[simp] theorem spoilTree_tainted (d : Nat) (s : State) : (spoilTree d s).tainted = s.tainted := rfl
@[simp] theorem spoilTree_host (d : Nat) (s : State) : (spoilTree d s).host = s.host := rfl
@[simp] theorem spoilTree_reads (d : Nat) (s : State) : (spoilTree d s).reads = s.reads := rfl
@[simp] theorem spoilTree_draws (d : Nat) (s : State) : (spoilTree d s).draws = s.draws := rfl

/-! ### spoilCodes -/

@[simp] theorem spoilCodes_inCapR (d : Nat) (s : State) : (spoilCodes d s).inCapR = s.inCapR := rfl
@[simp] theorem spoilCodes_outCapR (d : Nat) (s : State) : (spoilCodes d s).outCapR = s.outCapR := rfl
@[simp] theorem spoilCodes_ie (d : Nat) (s : State) : (spoilCodes d s).ie = s.ie := rfl
@[simp] theorem spoilCodes_busy (d : Nat) (s : State) : (spoilCodes d s).busy = s.busy := rfl
@[simp] theorem spoilCodes_done (d : Nat) (s : State) : (spoilCodes d s).done = s.done := rfl
@[simp] theorem spoilCodes_lost (d : Nat) (s : State) : (spoilCodes d s).lost = s.lost := rfl
@[simp] theorem spoilCodes_errcode (d : Nat) (s : State) : (spoilCodes d s).errcode = s.errcode := rfl
@[simp] theorem spoilCodes_valid (d : Nat) (s : State) : (spoilCodes d s).valid = s.valid := rfl
@[simp] theorem spoilCodes_opl (d : Nat) (s : State) : (spoilCodes d s).opl = s.opl := rfl
@[simp] theorem spoilCodes_inLen (d : Nat) (s : State) : (spoilCodes d s).inLen = s.inLen := rfl
@[simp] theorem spoilCodes_outLen (d : Nat) (s : State) : (spoilCodes d s).outLen = s.outLen := rfl
@[simp] theorem spoilCodes_nsym (d : Nat) (s : State) : (spoilCodes d s).nsym = s.nsym := rfl
@[simp] theorem spoilCodes_vbc (d : Nat) (s : State) : (spoilCodes d s).vbc = Config.freeBits 32 d .vbc := rfl
@[simp] theorem spoilCodes_hdrLen (d : Nat) (s : State) : (spoilCodes d s).hdrLen = s.hdrLen := rfl
@[simp] theorem spoilCodes_dnent (d : Nat) (s : State) : (spoilCodes d s).dnent = s.dnent := rfl
@[simp] theorem spoilCodes_dvbc (d : Nat) (s : State) : (spoilCodes d s).dvbc = s.dvbc := rfl
@[simp] theorem spoilCodes_payOff (d : Nat) (s : State) : (spoilCodes d s).payOff = s.payOff := rfl
@[simp] theorem spoilCodes_freq (d : Nat) (s : State) : (spoilCodes d s).freq = s.freq := rfl
@[simp] theorem spoilCodes_rank (d : Nat) (s : State) : (spoilCodes d s).rank = s.rank := rfl
@[simp] theorem spoilCodes_code (d : Nat) (s : State) : (spoilCodes d s).code = freeCodes d := rfl
@[simp] theorem spoilCodes_tree (d : Nat) (s : State) : (spoilCodes d s).tree = s.tree := rfl
@[simp] theorem spoilCodes_dcode (d : Nat) (s : State) : (spoilCodes d s).dcode = s.dcode := rfl
@[simp] theorem spoilCodes_trie (d : Nat) (s : State) : (spoilCodes d s).trie = s.trie := rfl
@[simp] theorem spoilCodes_inBuf (d : Nat) (s : State) : (spoilCodes d s).inBuf = s.inBuf := rfl
@[simp] theorem spoilCodes_outBuf (d : Nat) (s : State) : (spoilCodes d s).outBuf = s.outBuf := rfl
@[simp] theorem spoilCodes_latency (d : Nat) (s : State) : (spoilCodes d s).latency = s.latency := rfl
@[simp] theorem spoilCodes_tainted (d : Nat) (s : State) : (spoilCodes d s).tainted = s.tainted := rfl
@[simp] theorem spoilCodes_host (d : Nat) (s : State) : (spoilCodes d s).host = s.host := rfl
@[simp] theorem spoilCodes_reads (d : Nat) (s : State) : (spoilCodes d s).reads = s.reads := rfl
@[simp] theorem spoilCodes_draws (d : Nat) (s : State) : (spoilCodes d s).draws = s.draws := rfl

/-! ### spoilHdrLen -/

@[simp] theorem spoilHdrLen_inCapR (d : Nat) (s : State) : (spoilHdrLen d s).inCapR = s.inCapR := rfl
@[simp] theorem spoilHdrLen_outCapR (d : Nat) (s : State) : (spoilHdrLen d s).outCapR = s.outCapR := rfl
@[simp] theorem spoilHdrLen_ie (d : Nat) (s : State) : (spoilHdrLen d s).ie = s.ie := rfl
@[simp] theorem spoilHdrLen_busy (d : Nat) (s : State) : (spoilHdrLen d s).busy = s.busy := rfl
@[simp] theorem spoilHdrLen_done (d : Nat) (s : State) : (spoilHdrLen d s).done = s.done := rfl
@[simp] theorem spoilHdrLen_lost (d : Nat) (s : State) : (spoilHdrLen d s).lost = s.lost := rfl
@[simp] theorem spoilHdrLen_errcode (d : Nat) (s : State) : (spoilHdrLen d s).errcode = s.errcode := rfl
@[simp] theorem spoilHdrLen_valid (d : Nat) (s : State) : (spoilHdrLen d s).valid = s.valid := rfl
@[simp] theorem spoilHdrLen_opl (d : Nat) (s : State) : (spoilHdrLen d s).opl = s.opl := rfl
@[simp] theorem spoilHdrLen_inLen (d : Nat) (s : State) : (spoilHdrLen d s).inLen = s.inLen := rfl
@[simp] theorem spoilHdrLen_outLen (d : Nat) (s : State) : (spoilHdrLen d s).outLen = s.outLen := rfl
@[simp] theorem spoilHdrLen_nsym (d : Nat) (s : State) : (spoilHdrLen d s).nsym = s.nsym := rfl
@[simp] theorem spoilHdrLen_vbc (d : Nat) (s : State) : (spoilHdrLen d s).vbc = s.vbc := rfl
@[simp] theorem spoilHdrLen_hdrLen (d : Nat) (s : State) : (spoilHdrLen d s).hdrLen = Config.freeBits 32 d .hdrLen := rfl
@[simp] theorem spoilHdrLen_dnent (d : Nat) (s : State) : (spoilHdrLen d s).dnent = s.dnent := rfl
@[simp] theorem spoilHdrLen_dvbc (d : Nat) (s : State) : (spoilHdrLen d s).dvbc = s.dvbc := rfl
@[simp] theorem spoilHdrLen_payOff (d : Nat) (s : State) : (spoilHdrLen d s).payOff = s.payOff := rfl
@[simp] theorem spoilHdrLen_freq (d : Nat) (s : State) : (spoilHdrLen d s).freq = s.freq := rfl
@[simp] theorem spoilHdrLen_rank (d : Nat) (s : State) : (spoilHdrLen d s).rank = s.rank := rfl
@[simp] theorem spoilHdrLen_code (d : Nat) (s : State) : (spoilHdrLen d s).code = s.code := rfl
@[simp] theorem spoilHdrLen_tree (d : Nat) (s : State) : (spoilHdrLen d s).tree = s.tree := rfl
@[simp] theorem spoilHdrLen_dcode (d : Nat) (s : State) : (spoilHdrLen d s).dcode = s.dcode := rfl
@[simp] theorem spoilHdrLen_trie (d : Nat) (s : State) : (spoilHdrLen d s).trie = s.trie := rfl
@[simp] theorem spoilHdrLen_inBuf (d : Nat) (s : State) : (spoilHdrLen d s).inBuf = s.inBuf := rfl
@[simp] theorem spoilHdrLen_outBuf (d : Nat) (s : State) : (spoilHdrLen d s).outBuf = s.outBuf := rfl
@[simp] theorem spoilHdrLen_latency (d : Nat) (s : State) : (spoilHdrLen d s).latency = s.latency := rfl
@[simp] theorem spoilHdrLen_tainted (d : Nat) (s : State) : (spoilHdrLen d s).tainted = s.tainted := rfl
@[simp] theorem spoilHdrLen_host (d : Nat) (s : State) : (spoilHdrLen d s).host = s.host := rfl
@[simp] theorem spoilHdrLen_reads (d : Nat) (s : State) : (spoilHdrLen d s).reads = s.reads := rfl
@[simp] theorem spoilHdrLen_draws (d : Nat) (s : State) : (spoilHdrLen d s).draws = s.draws := rfl

/-! ### spoilHeader -/

@[simp] theorem spoilHeader_inCapR (d : Nat) (s : State) : (spoilHeader d s).inCapR = s.inCapR := rfl
@[simp] theorem spoilHeader_outCapR (d : Nat) (s : State) : (spoilHeader d s).outCapR = s.outCapR := rfl
@[simp] theorem spoilHeader_ie (d : Nat) (s : State) : (spoilHeader d s).ie = s.ie := rfl
@[simp] theorem spoilHeader_busy (d : Nat) (s : State) : (spoilHeader d s).busy = s.busy := rfl
@[simp] theorem spoilHeader_done (d : Nat) (s : State) : (spoilHeader d s).done = s.done := rfl
@[simp] theorem spoilHeader_lost (d : Nat) (s : State) : (spoilHeader d s).lost = s.lost := rfl
@[simp] theorem spoilHeader_errcode (d : Nat) (s : State) : (spoilHeader d s).errcode = s.errcode := rfl
@[simp] theorem spoilHeader_valid (d : Nat) (s : State) : (spoilHeader d s).valid = s.valid := rfl
@[simp] theorem spoilHeader_opl (d : Nat) (s : State) : (spoilHeader d s).opl = s.opl := rfl
@[simp] theorem spoilHeader_inLen (d : Nat) (s : State) : (spoilHeader d s).inLen = s.inLen := rfl
@[simp] theorem spoilHeader_outLen (d : Nat) (s : State) : (spoilHeader d s).outLen = s.outLen := rfl
@[simp] theorem spoilHeader_nsym (d : Nat) (s : State) : (spoilHeader d s).nsym = s.nsym := rfl
@[simp] theorem spoilHeader_vbc (d : Nat) (s : State) : (spoilHeader d s).vbc = s.vbc := rfl
@[simp] theorem spoilHeader_hdrLen (d : Nat) (s : State) : (spoilHeader d s).hdrLen = s.hdrLen := rfl
@[simp] theorem spoilHeader_dnent (d : Nat) (s : State) : (spoilHeader d s).dnent = Config.freeBits 9 d .dnent := rfl
@[simp] theorem spoilHeader_dvbc (d : Nat) (s : State) : (spoilHeader d s).dvbc = Config.freeBits 32 d .dvbc := rfl
@[simp] theorem spoilHeader_payOff (d : Nat) (s : State) : (spoilHeader d s).payOff = Config.freeBits 32 d .payOff := rfl
@[simp] theorem spoilHeader_freq (d : Nat) (s : State) : (spoilHeader d s).freq = s.freq := rfl
@[simp] theorem spoilHeader_rank (d : Nat) (s : State) : (spoilHeader d s).rank = s.rank := rfl
@[simp] theorem spoilHeader_code (d : Nat) (s : State) : (spoilHeader d s).code = s.code := rfl
@[simp] theorem spoilHeader_tree (d : Nat) (s : State) : (spoilHeader d s).tree = s.tree := rfl
@[simp] theorem spoilHeader_dcode (d : Nat) (s : State) : (spoilHeader d s).dcode = freeDcodes d := rfl
@[simp] theorem spoilHeader_trie (d : Nat) (s : State) : (spoilHeader d s).trie = s.trie := rfl
@[simp] theorem spoilHeader_inBuf (d : Nat) (s : State) : (spoilHeader d s).inBuf = s.inBuf := rfl
@[simp] theorem spoilHeader_outBuf (d : Nat) (s : State) : (spoilHeader d s).outBuf = s.outBuf := rfl
@[simp] theorem spoilHeader_latency (d : Nat) (s : State) : (spoilHeader d s).latency = s.latency := rfl
@[simp] theorem spoilHeader_tainted (d : Nat) (s : State) : (spoilHeader d s).tainted = s.tainted := rfl
@[simp] theorem spoilHeader_host (d : Nat) (s : State) : (spoilHeader d s).host = s.host := rfl
@[simp] theorem spoilHeader_reads (d : Nat) (s : State) : (spoilHeader d s).reads = s.reads := rfl
@[simp] theorem spoilHeader_draws (d : Nat) (s : State) : (spoilHeader d s).draws = s.draws := rfl

/-! ### spoilTrie -/

@[simp] theorem spoilTrie_inCapR (d : Nat) (s : State) : (spoilTrie d s).inCapR = s.inCapR := rfl
@[simp] theorem spoilTrie_outCapR (d : Nat) (s : State) : (spoilTrie d s).outCapR = s.outCapR := rfl
@[simp] theorem spoilTrie_ie (d : Nat) (s : State) : (spoilTrie d s).ie = s.ie := rfl
@[simp] theorem spoilTrie_busy (d : Nat) (s : State) : (spoilTrie d s).busy = s.busy := rfl
@[simp] theorem spoilTrie_done (d : Nat) (s : State) : (spoilTrie d s).done = s.done := rfl
@[simp] theorem spoilTrie_lost (d : Nat) (s : State) : (spoilTrie d s).lost = s.lost := rfl
@[simp] theorem spoilTrie_errcode (d : Nat) (s : State) : (spoilTrie d s).errcode = s.errcode := rfl
@[simp] theorem spoilTrie_valid (d : Nat) (s : State) : (spoilTrie d s).valid = s.valid := rfl
@[simp] theorem spoilTrie_opl (d : Nat) (s : State) : (spoilTrie d s).opl = s.opl := rfl
@[simp] theorem spoilTrie_inLen (d : Nat) (s : State) : (spoilTrie d s).inLen = s.inLen := rfl
@[simp] theorem spoilTrie_outLen (d : Nat) (s : State) : (spoilTrie d s).outLen = s.outLen := rfl
@[simp] theorem spoilTrie_nsym (d : Nat) (s : State) : (spoilTrie d s).nsym = s.nsym := rfl
@[simp] theorem spoilTrie_vbc (d : Nat) (s : State) : (spoilTrie d s).vbc = s.vbc := rfl
@[simp] theorem spoilTrie_hdrLen (d : Nat) (s : State) : (spoilTrie d s).hdrLen = s.hdrLen := rfl
@[simp] theorem spoilTrie_dnent (d : Nat) (s : State) : (spoilTrie d s).dnent = s.dnent := rfl
@[simp] theorem spoilTrie_dvbc (d : Nat) (s : State) : (spoilTrie d s).dvbc = s.dvbc := rfl
@[simp] theorem spoilTrie_payOff (d : Nat) (s : State) : (spoilTrie d s).payOff = s.payOff := rfl
@[simp] theorem spoilTrie_freq (d : Nat) (s : State) : (spoilTrie d s).freq = s.freq := rfl
@[simp] theorem spoilTrie_rank (d : Nat) (s : State) : (spoilTrie d s).rank = s.rank := rfl
@[simp] theorem spoilTrie_code (d : Nat) (s : State) : (spoilTrie d s).code = s.code := rfl
@[simp] theorem spoilTrie_tree (d : Nat) (s : State) : (spoilTrie d s).tree = s.tree := rfl
@[simp] theorem spoilTrie_dcode (d : Nat) (s : State) : (spoilTrie d s).dcode = s.dcode := rfl
@[simp] theorem spoilTrie_trie (d : Nat) (s : State) : (spoilTrie d s).trie = freeTrie d := rfl
@[simp] theorem spoilTrie_inBuf (d : Nat) (s : State) : (spoilTrie d s).inBuf = s.inBuf := rfl
@[simp] theorem spoilTrie_outBuf (d : Nat) (s : State) : (spoilTrie d s).outBuf = s.outBuf := rfl
@[simp] theorem spoilTrie_latency (d : Nat) (s : State) : (spoilTrie d s).latency = s.latency := rfl
@[simp] theorem spoilTrie_tainted (d : Nat) (s : State) : (spoilTrie d s).tainted = s.tainted := rfl
@[simp] theorem spoilTrie_host (d : Nat) (s : State) : (spoilTrie d s).host = s.host := rfl
@[simp] theorem spoilTrie_reads (d : Nat) (s : State) : (spoilTrie d s).reads = s.reads := rfl
@[simp] theorem spoilTrie_draws (d : Nat) (s : State) : (spoilTrie d s).draws = s.draws := rfl

/-! ### spoilStatus -/

@[simp] theorem spoilStatus_inCapR (d : Nat) (s : State) : (spoilStatus d s).inCapR = s.inCapR := rfl
@[simp] theorem spoilStatus_outCapR (d : Nat) (s : State) : (spoilStatus d s).outCapR = s.outCapR := rfl
@[simp] theorem spoilStatus_ie (d : Nat) (s : State) : (spoilStatus d s).ie = s.ie := rfl
@[simp] theorem spoilStatus_busy (d : Nat) (s : State) : (spoilStatus d s).busy = s.busy := rfl
@[simp] theorem spoilStatus_done (d : Nat) (s : State) : (spoilStatus d s).done = s.done := rfl
@[simp] theorem spoilStatus_lost (d : Nat) (s : State) : (spoilStatus d s).lost = freeBit d .lost := rfl
@[simp] theorem spoilStatus_errcode (d : Nat) (s : State) : (spoilStatus d s).errcode = s.errcode := rfl
@[simp] theorem spoilStatus_valid (d : Nat) (s : State) : (spoilStatus d s).valid = freeValid d := rfl
@[simp] theorem spoilStatus_opl (d : Nat) (s : State) : (spoilStatus d s).opl = s.opl := rfl
@[simp] theorem spoilStatus_inLen (d : Nat) (s : State) : (spoilStatus d s).inLen = s.inLen := rfl
@[simp] theorem spoilStatus_outLen (d : Nat) (s : State) : (spoilStatus d s).outLen = s.outLen := rfl
@[simp] theorem spoilStatus_nsym (d : Nat) (s : State) : (spoilStatus d s).nsym = s.nsym := rfl
@[simp] theorem spoilStatus_vbc (d : Nat) (s : State) : (spoilStatus d s).vbc = s.vbc := rfl
@[simp] theorem spoilStatus_hdrLen (d : Nat) (s : State) : (spoilStatus d s).hdrLen = s.hdrLen := rfl
@[simp] theorem spoilStatus_dnent (d : Nat) (s : State) : (spoilStatus d s).dnent = s.dnent := rfl
@[simp] theorem spoilStatus_dvbc (d : Nat) (s : State) : (spoilStatus d s).dvbc = s.dvbc := rfl
@[simp] theorem spoilStatus_payOff (d : Nat) (s : State) : (spoilStatus d s).payOff = s.payOff := rfl
@[simp] theorem spoilStatus_freq (d : Nat) (s : State) : (spoilStatus d s).freq = s.freq := rfl
@[simp] theorem spoilStatus_rank (d : Nat) (s : State) : (spoilStatus d s).rank = s.rank := rfl
@[simp] theorem spoilStatus_code (d : Nat) (s : State) : (spoilStatus d s).code = s.code := rfl
@[simp] theorem spoilStatus_tree (d : Nat) (s : State) : (spoilStatus d s).tree = s.tree := rfl
@[simp] theorem spoilStatus_dcode (d : Nat) (s : State) : (spoilStatus d s).dcode = s.dcode := rfl
@[simp] theorem spoilStatus_trie (d : Nat) (s : State) : (spoilStatus d s).trie = s.trie := rfl
@[simp] theorem spoilStatus_inBuf (d : Nat) (s : State) : (spoilStatus d s).inBuf = s.inBuf := rfl
@[simp] theorem spoilStatus_outBuf (d : Nat) (s : State) : (spoilStatus d s).outBuf = s.outBuf := rfl
@[simp] theorem spoilStatus_latency (d : Nat) (s : State) : (spoilStatus d s).latency = s.latency := rfl
@[simp] theorem spoilStatus_tainted (d : Nat) (s : State) : (spoilStatus d s).tainted = s.tainted := rfl
@[simp] theorem spoilStatus_host (d : Nat) (s : State) : (spoilStatus d s).host = s.host := rfl
@[simp] theorem spoilStatus_reads (d : Nat) (s : State) : (spoilStatus d s).reads = s.reads := rfl
@[simp] theorem spoilStatus_draws (d : Nat) (s : State) : (spoilStatus d s).draws = s.draws := rfl

/-! ### loseOutput -/

@[simp] theorem loseOutput_inCapR (s : State) : (loseOutput s).inCapR = s.inCapR := rfl
@[simp] theorem loseOutput_outCapR (s : State) : (loseOutput s).outCapR = s.outCapR := rfl
@[simp] theorem loseOutput_ie (s : State) : (loseOutput s).ie = s.ie := rfl
@[simp] theorem loseOutput_busy (s : State) : (loseOutput s).busy = s.busy := rfl
@[simp] theorem loseOutput_done (s : State) : (loseOutput s).done = s.done := rfl
@[simp] theorem loseOutput_lost (s : State) : (loseOutput s).lost = s.lost := rfl
@[simp] theorem loseOutput_errcode (s : State) : (loseOutput s).errcode = s.errcode := rfl
@[simp] theorem loseOutput_valid (s : State) : (loseOutput s).valid = s.valid := rfl
@[simp] theorem loseOutput_opl (s : State) : (loseOutput s).opl = s.opl := rfl
@[simp] theorem loseOutput_inLen (s : State) : (loseOutput s).inLen = s.inLen := rfl
@[simp] theorem loseOutput_outLen (s : State) : (loseOutput s).outLen = 0 := rfl
@[simp] theorem loseOutput_nsym (s : State) : (loseOutput s).nsym = s.nsym := rfl
@[simp] theorem loseOutput_vbc (s : State) : (loseOutput s).vbc = s.vbc := rfl
@[simp] theorem loseOutput_hdrLen (s : State) : (loseOutput s).hdrLen = s.hdrLen := rfl
@[simp] theorem loseOutput_dnent (s : State) : (loseOutput s).dnent = s.dnent := rfl
@[simp] theorem loseOutput_dvbc (s : State) : (loseOutput s).dvbc = s.dvbc := rfl
@[simp] theorem loseOutput_payOff (s : State) : (loseOutput s).payOff = s.payOff := rfl
@[simp] theorem loseOutput_freq (s : State) : (loseOutput s).freq = s.freq := rfl
@[simp] theorem loseOutput_rank (s : State) : (loseOutput s).rank = s.rank := rfl
@[simp] theorem loseOutput_code (s : State) : (loseOutput s).code = s.code := rfl
@[simp] theorem loseOutput_tree (s : State) : (loseOutput s).tree = s.tree := rfl
@[simp] theorem loseOutput_dcode (s : State) : (loseOutput s).dcode = s.dcode := rfl
@[simp] theorem loseOutput_trie (s : State) : (loseOutput s).trie = s.trie := rfl
@[simp] theorem loseOutput_inBuf (s : State) : (loseOutput s).inBuf = s.inBuf := rfl
@[simp] theorem loseOutput_outBuf (s : State) : (loseOutput s).outBuf = ⟨s.draws, []⟩ := rfl
@[simp] theorem loseOutput_latency (s : State) : (loseOutput s).latency = s.latency := rfl
@[simp] theorem loseOutput_tainted (s : State) : (loseOutput s).tainted = s.tainted := rfl
@[simp] theorem loseOutput_host (s : State) : (loseOutput s).host = s.host := rfl
@[simp] theorem loseOutput_reads (s : State) : (loseOutput s).reads = s.reads := rfl
@[simp] theorem loseOutput_draws (s : State) : (loseOutput s).draws = s.draws + 1 := rfl

/-! ### writeOut -/

@[simp] theorem writeOut_inCapR (bs : List Byte) (s : State) : (writeOut bs s).inCapR = s.inCapR := rfl
@[simp] theorem writeOut_outCapR (bs : List Byte) (s : State) : (writeOut bs s).outCapR = s.outCapR := rfl
@[simp] theorem writeOut_ie (bs : List Byte) (s : State) : (writeOut bs s).ie = s.ie := rfl
@[simp] theorem writeOut_busy (bs : List Byte) (s : State) : (writeOut bs s).busy = s.busy := rfl
@[simp] theorem writeOut_done (bs : List Byte) (s : State) : (writeOut bs s).done = s.done := rfl
@[simp] theorem writeOut_lost (bs : List Byte) (s : State) : (writeOut bs s).lost = s.lost := rfl
@[simp] theorem writeOut_errcode (bs : List Byte) (s : State) : (writeOut bs s).errcode = s.errcode := rfl
@[simp] theorem writeOut_valid (bs : List Byte) (s : State) : (writeOut bs s).valid = s.valid := rfl
@[simp] theorem writeOut_opl (bs : List Byte) (s : State) : (writeOut bs s).opl = s.opl := rfl
@[simp] theorem writeOut_inLen (bs : List Byte) (s : State) : (writeOut bs s).inLen = s.inLen := rfl
@[simp] theorem writeOut_outLen (bs : List Byte) (s : State) : (writeOut bs s).outLen = BitVec.ofNat 32 bs.length := rfl
@[simp] theorem writeOut_nsym (bs : List Byte) (s : State) : (writeOut bs s).nsym = s.nsym := rfl
@[simp] theorem writeOut_vbc (bs : List Byte) (s : State) : (writeOut bs s).vbc = s.vbc := rfl
@[simp] theorem writeOut_hdrLen (bs : List Byte) (s : State) : (writeOut bs s).hdrLen = s.hdrLen := rfl
@[simp] theorem writeOut_dnent (bs : List Byte) (s : State) : (writeOut bs s).dnent = s.dnent := rfl
@[simp] theorem writeOut_dvbc (bs : List Byte) (s : State) : (writeOut bs s).dvbc = s.dvbc := rfl
@[simp] theorem writeOut_payOff (bs : List Byte) (s : State) : (writeOut bs s).payOff = s.payOff := rfl
@[simp] theorem writeOut_freq (bs : List Byte) (s : State) : (writeOut bs s).freq = s.freq := rfl
@[simp] theorem writeOut_rank (bs : List Byte) (s : State) : (writeOut bs s).rank = s.rank := rfl
@[simp] theorem writeOut_code (bs : List Byte) (s : State) : (writeOut bs s).code = s.code := rfl
@[simp] theorem writeOut_tree (bs : List Byte) (s : State) : (writeOut bs s).tree = s.tree := rfl
@[simp] theorem writeOut_dcode (bs : List Byte) (s : State) : (writeOut bs s).dcode = s.dcode := rfl
@[simp] theorem writeOut_trie (bs : List Byte) (s : State) : (writeOut bs s).trie = s.trie := rfl
@[simp] theorem writeOut_inBuf (bs : List Byte) (s : State) : (writeOut bs s).inBuf = s.inBuf := rfl
@[simp] theorem writeOut_outBuf (bs : List Byte) (s : State) : (writeOut bs s).outBuf = ⟨s.draws, cellsFrom 0 bs⟩ := rfl
@[simp] theorem writeOut_latency (bs : List Byte) (s : State) : (writeOut bs s).latency = s.latency := rfl
@[simp] theorem writeOut_tainted (bs : List Byte) (s : State) : (writeOut bs s).tainted = s.tainted := rfl
@[simp] theorem writeOut_host (bs : List Byte) (s : State) : (writeOut bs s).host = s.host := rfl
@[simp] theorem writeOut_reads (bs : List Byte) (s : State) : (writeOut bs s).reads = s.reads := rfl
@[simp] theorem writeOut_draws (bs : List Byte) (s : State) : (writeOut bs s).draws = s.draws + 1 := rfl

/-! ### acceptWith -/

@[simp] theorem acceptWith_inCapR (s : State) (w : Word) (lat : Nat) : (acceptWith s w lat).inCapR = s.inCapR := rfl
@[simp] theorem acceptWith_outCapR (s : State) (w : Word) (lat : Nat) : (acceptWith s w lat).outCapR = s.outCapR := rfl
@[simp] theorem acceptWith_ie (s : State) (w : Word) (lat : Nat) : (acceptWith s w lat).ie = s.ie := rfl
@[simp] theorem acceptWith_busy (s : State) (w : Word) (lat : Nat) : (acceptWith s w lat).busy = true := rfl
@[simp] theorem acceptWith_done (s : State) (w : Word) (lat : Nat) : (acceptWith s w lat).done = false := rfl
@[simp] theorem acceptWith_lost (s : State) (w : Word) (lat : Nat) : (acceptWith s w lat).lost = s.lost := rfl
@[simp] theorem acceptWith_errcode (s : State) (w : Word) (lat : Nat) : (acceptWith s w lat).errcode = .none := rfl
@[simp] theorem acceptWith_valid (s : State) (w : Word) (lat : Nat) : (acceptWith s w lat).valid = s.valid := rfl
@[simp] theorem acceptWith_opl (s : State) (w : Word) (lat : Nat) : (acceptWith s w lat).opl = latchOp w := rfl
@[simp] theorem acceptWith_inLen (s : State) (w : Word) (lat : Nat) : (acceptWith s w lat).inLen = s.inLen := rfl
@[simp] theorem acceptWith_outLen (s : State) (w : Word) (lat : Nat) : (acceptWith s w lat).outLen = s.outLen := rfl
@[simp] theorem acceptWith_nsym (s : State) (w : Word) (lat : Nat) : (acceptWith s w lat).nsym = s.nsym := rfl
@[simp] theorem acceptWith_vbc (s : State) (w : Word) (lat : Nat) : (acceptWith s w lat).vbc = s.vbc := rfl
@[simp] theorem acceptWith_hdrLen (s : State) (w : Word) (lat : Nat) : (acceptWith s w lat).hdrLen = s.hdrLen := rfl
@[simp] theorem acceptWith_dnent (s : State) (w : Word) (lat : Nat) : (acceptWith s w lat).dnent = s.dnent := rfl
@[simp] theorem acceptWith_dvbc (s : State) (w : Word) (lat : Nat) : (acceptWith s w lat).dvbc = s.dvbc := rfl
@[simp] theorem acceptWith_payOff (s : State) (w : Word) (lat : Nat) : (acceptWith s w lat).payOff = s.payOff := rfl
@[simp] theorem acceptWith_freq (s : State) (w : Word) (lat : Nat) : (acceptWith s w lat).freq = s.freq := rfl
@[simp] theorem acceptWith_rank (s : State) (w : Word) (lat : Nat) : (acceptWith s w lat).rank = s.rank := rfl
@[simp] theorem acceptWith_code (s : State) (w : Word) (lat : Nat) : (acceptWith s w lat).code = s.code := rfl
@[simp] theorem acceptWith_tree (s : State) (w : Word) (lat : Nat) : (acceptWith s w lat).tree = s.tree := rfl
@[simp] theorem acceptWith_dcode (s : State) (w : Word) (lat : Nat) : (acceptWith s w lat).dcode = s.dcode := rfl
@[simp] theorem acceptWith_trie (s : State) (w : Word) (lat : Nat) : (acceptWith s w lat).trie = s.trie := rfl
@[simp] theorem acceptWith_inBuf (s : State) (w : Word) (lat : Nat) : (acceptWith s w lat).inBuf = s.inBuf := rfl
@[simp] theorem acceptWith_outBuf (s : State) (w : Word) (lat : Nat) : (acceptWith s w lat).outBuf = s.outBuf := rfl
@[simp] theorem acceptWith_latency (s : State) (w : Word) (lat : Nat) : (acceptWith s w lat).latency = lat := rfl
@[simp] theorem acceptWith_tainted (s : State) (w : Word) (lat : Nat) : (acceptWith s w lat).tainted = false := rfl
@[simp] theorem acceptWith_host (s : State) (w : Word) (lat : Nat) : (acceptWith s w lat).host = s.host := rfl
@[simp] theorem acceptWith_reads (s : State) (w : Word) (lat : Nat) : (acceptWith s w lat).reads = s.reads := rfl
@[simp] theorem acceptWith_draws (s : State) (w : Word) (lat : Nat) : (acceptWith s w lat).draws = s.draws := rfl

/-! ### clearHs -/

@[simp] theorem clearHs_inCapR (s : State) : (clearHs s).inCapR = s.inCapR := rfl
@[simp] theorem clearHs_outCapR (s : State) : (clearHs s).outCapR = s.outCapR := rfl
@[simp] theorem clearHs_ie (s : State) : (clearHs s).ie = s.ie := rfl
@[simp] theorem clearHs_busy (s : State) : (clearHs s).busy = s.busy := rfl
@[simp] theorem clearHs_done (s : State) : (clearHs s).done = s.done := rfl
@[simp] theorem clearHs_lost (s : State) : (clearHs s).lost = s.lost := rfl
@[simp] theorem clearHs_errcode (s : State) : (clearHs s).errcode = s.errcode := rfl
@[simp] theorem clearHs_valid (s : State) : (clearHs s).valid = ⟨s.valid.ft, s.valid.tree, s.valid.ct, false, s.valid.hd, s.valid.trie⟩ := rfl
@[simp] theorem clearHs_opl (s : State) : (clearHs s).opl = s.opl := rfl
@[simp] theorem clearHs_inLen (s : State) : (clearHs s).inLen = s.inLen := rfl
@[simp] theorem clearHs_outLen (s : State) : (clearHs s).outLen = s.outLen := rfl
@[simp] theorem clearHs_nsym (s : State) : (clearHs s).nsym = s.nsym := rfl
@[simp] theorem clearHs_vbc (s : State) : (clearHs s).vbc = s.vbc := rfl
@[simp] theorem clearHs_hdrLen (s : State) : (clearHs s).hdrLen = s.hdrLen := rfl
@[simp] theorem clearHs_dnent (s : State) : (clearHs s).dnent = s.dnent := rfl
@[simp] theorem clearHs_dvbc (s : State) : (clearHs s).dvbc = s.dvbc := rfl
@[simp] theorem clearHs_payOff (s : State) : (clearHs s).payOff = s.payOff := rfl
@[simp] theorem clearHs_freq (s : State) : (clearHs s).freq = s.freq := rfl
@[simp] theorem clearHs_rank (s : State) : (clearHs s).rank = s.rank := rfl
@[simp] theorem clearHs_code (s : State) : (clearHs s).code = s.code := rfl
@[simp] theorem clearHs_tree (s : State) : (clearHs s).tree = s.tree := rfl
@[simp] theorem clearHs_dcode (s : State) : (clearHs s).dcode = s.dcode := rfl
@[simp] theorem clearHs_trie (s : State) : (clearHs s).trie = s.trie := rfl
@[simp] theorem clearHs_inBuf (s : State) : (clearHs s).inBuf = s.inBuf := rfl
@[simp] theorem clearHs_outBuf (s : State) : (clearHs s).outBuf = s.outBuf := rfl
@[simp] theorem clearHs_latency (s : State) : (clearHs s).latency = s.latency := rfl
@[simp] theorem clearHs_tainted (s : State) : (clearHs s).tainted = s.tainted := rfl
@[simp] theorem clearHs_host (s : State) : (clearHs s).host = s.host := rfl
@[simp] theorem clearHs_reads (s : State) : (clearHs s).reads = s.reads := rfl
@[simp] theorem clearHs_draws (s : State) : (clearHs s).draws = s.draws := rfl

/-! ### logRead -/

@[simp] theorem logRead_inCapR (r : Reply) (s : State) : (logRead r s).inCapR = s.inCapR := rfl
@[simp] theorem logRead_outCapR (r : Reply) (s : State) : (logRead r s).outCapR = s.outCapR := rfl
@[simp] theorem logRead_ie (r : Reply) (s : State) : (logRead r s).ie = s.ie := rfl
@[simp] theorem logRead_busy (r : Reply) (s : State) : (logRead r s).busy = s.busy := rfl
@[simp] theorem logRead_done (r : Reply) (s : State) : (logRead r s).done = s.done := rfl
@[simp] theorem logRead_lost (r : Reply) (s : State) : (logRead r s).lost = s.lost := rfl
@[simp] theorem logRead_errcode (r : Reply) (s : State) : (logRead r s).errcode = s.errcode := rfl
@[simp] theorem logRead_valid (r : Reply) (s : State) : (logRead r s).valid = s.valid := rfl
@[simp] theorem logRead_opl (r : Reply) (s : State) : (logRead r s).opl = s.opl := rfl
@[simp] theorem logRead_inLen (r : Reply) (s : State) : (logRead r s).inLen = s.inLen := rfl
@[simp] theorem logRead_outLen (r : Reply) (s : State) : (logRead r s).outLen = s.outLen := rfl
@[simp] theorem logRead_nsym (r : Reply) (s : State) : (logRead r s).nsym = s.nsym := rfl
@[simp] theorem logRead_vbc (r : Reply) (s : State) : (logRead r s).vbc = s.vbc := rfl
@[simp] theorem logRead_hdrLen (r : Reply) (s : State) : (logRead r s).hdrLen = s.hdrLen := rfl
@[simp] theorem logRead_dnent (r : Reply) (s : State) : (logRead r s).dnent = s.dnent := rfl
@[simp] theorem logRead_dvbc (r : Reply) (s : State) : (logRead r s).dvbc = s.dvbc := rfl
@[simp] theorem logRead_payOff (r : Reply) (s : State) : (logRead r s).payOff = s.payOff := rfl
@[simp] theorem logRead_freq (r : Reply) (s : State) : (logRead r s).freq = s.freq := rfl
@[simp] theorem logRead_rank (r : Reply) (s : State) : (logRead r s).rank = s.rank := rfl
@[simp] theorem logRead_code (r : Reply) (s : State) : (logRead r s).code = s.code := rfl
@[simp] theorem logRead_tree (r : Reply) (s : State) : (logRead r s).tree = s.tree := rfl
@[simp] theorem logRead_dcode (r : Reply) (s : State) : (logRead r s).dcode = s.dcode := rfl
@[simp] theorem logRead_trie (r : Reply) (s : State) : (logRead r s).trie = s.trie := rfl
@[simp] theorem logRead_inBuf (r : Reply) (s : State) : (logRead r s).inBuf = s.inBuf := rfl
@[simp] theorem logRead_outBuf (r : Reply) (s : State) : (logRead r s).outBuf = s.outBuf := rfl
@[simp] theorem logRead_latency (r : Reply) (s : State) : (logRead r s).latency = s.latency := rfl
@[simp] theorem logRead_tainted (r : Reply) (s : State) : (logRead r s).tainted = s.tainted := rfl
@[simp] theorem logRead_host (r : Reply) (s : State) : (logRead r s).host = s.host := rfl
@[simp] theorem logRead_reads (r : Reply) (s : State) : (logRead r s).reads = r :: s.reads := rfl
@[simp] theorem logRead_draws (r : Reply) (s : State) : (logRead r s).draws = s.draws + 1 := rfl

/-! ### spoil: the fields no command's write set holds, and the draw it takes -/

@[simp] theorem spoil_inCapR (i : Instr) (s : State) : (spoil i s).inCapR = s.inCapR := by cases i <;> simp [spoil]
@[simp] theorem spoil_outCapR (i : Instr) (s : State) : (spoil i s).outCapR = s.outCapR := by cases i <;> simp [spoil]
@[simp] theorem spoil_ie (i : Instr) (s : State) : (spoil i s).ie = s.ie := by cases i <;> simp [spoil]
@[simp] theorem spoil_busy (i : Instr) (s : State) : (spoil i s).busy = s.busy := by cases i <;> simp [spoil]
@[simp] theorem spoil_done (i : Instr) (s : State) : (spoil i s).done = s.done := by cases i <;> simp [spoil]
@[simp] theorem spoil_errcode (i : Instr) (s : State) : (spoil i s).errcode = s.errcode := by cases i <;> simp [spoil]
@[simp] theorem spoil_valid (i : Instr) (s : State) : (spoil i s).valid = s.valid := by cases i <;> simp [spoil]
@[simp] theorem spoil_lost (i : Instr) (s : State) : (spoil i s).lost = s.lost := by cases i <;> simp [spoil]
@[simp] theorem spoil_opl (i : Instr) (s : State) : (spoil i s).opl = s.opl := by cases i <;> simp [spoil]
@[simp] theorem spoil_inLen (i : Instr) (s : State) : (spoil i s).inLen = s.inLen := by cases i <;> simp [spoil]
@[simp] theorem spoil_outLen (i : Instr) (s : State) : (spoil i s).outLen = s.outLen := by cases i <;> simp [spoil]
@[simp] theorem spoil_inBuf (i : Instr) (s : State) : (spoil i s).inBuf = s.inBuf := by cases i <;> simp [spoil]
@[simp] theorem spoil_outBuf (i : Instr) (s : State) : (spoil i s).outBuf = s.outBuf := by cases i <;> simp [spoil]
@[simp] theorem spoil_latency (i : Instr) (s : State) : (spoil i s).latency = s.latency := by cases i <;> simp [spoil]
@[simp] theorem spoil_tainted (i : Instr) (s : State) : (spoil i s).tainted = s.tainted := by cases i <;> simp [spoil]
@[simp] theorem spoil_host (i : Instr) (s : State) : (spoil i s).host = s.host := by cases i <;> simp [spoil]
@[simp] theorem spoil_reads (i : Instr) (s : State) : (spoil i s).reads = s.reads := by cases i <;> simp [spoil]
@[simp] theorem spoil_draws (i : Instr) (s : State) : (spoil i s).draws = s.draws + 1 := by cases i <;> simp [spoil]

end Sys2Proof.Machine
end

