-- ==== Sys2Proof/Laws/Table.lean ====
section
/-! SUPPORT. Reading a table after a write, a fill or a tabulation; the list of all symbols. -/

namespace Sys2Proof.Machine

theorem Table.read_write {α : Type} (t : Table α) (s x : Byte) (a : α) :
    (t.write s a).read x = if x = s then a else t.read x := by
  unfold Table.read Table.write
  by_cases h : x = s
  · subst h; simp
  · have hn : s.toNat ≠ x.toNat := fun e => h (BitVec.eq_of_toNat_eq e.symm)
    simp [h, Vector.getElem_set_ne, hn]

@[simp] theorem Table.read_write_self {α : Type} (t : Table α) (s : Byte) (a : α) : (t.write s a).read s = a := by
  simp [Table.read_write]

theorem Table.read_write_ne {α : Type} (t : Table α) {s x : Byte} (a : α) (h : x ≠ s) :
    (t.write s a).read x = t.read x := by simp [Table.read_write, h]

@[simp] theorem Table.read_fill {α : Type} (a : α) (x : Byte) : (Table.fill a).read x = a := by
  simp [Table.read, Table.fill]

@[simp] theorem Table.read_tabulate {α : Type} (f : Byte → α) (x : Byte) : (Table.tabulate f).read x = f x := by
  simp [Table.read, Table.tabulate]

/-- Two tables with equal entries are equal. -/
theorem Table.ext_read {α : Type} {t u : Table α} (h : ∀ b, t.read b = u.read b) : t = u := by
  apply Vector.ext
  intro i hi
  have := h (BitVec.ofNat 8 i)
  simpa [Table.read, Nat.mod_eq_of_lt hi] using this

@[simp] theorem mem_allSymbols (b : Byte) : b ∈ allSymbols :=
  List.mem_map.2 ⟨b.toNat, List.mem_range.2 b.isLt, by simp⟩

theorem nodup_allSymbols : allSymbols.Nodup := by
  refine List.Nodup.map_on ?_ List.nodup_range
  intro x hx y hy e
  have := congrArg BitVec.toNat e
  simpa [Nat.mod_eq_of_lt (List.mem_range.1 hx), Nat.mod_eq_of_lt (List.mem_range.1 hy)] using this

@[simp] theorem length_allSymbols : allSymbols.length = 256 := by simp [allSymbols]

end Sys2Proof.Machine
end

