-- ==== Sys2Proof/Laws/Ops.lean ====
section
/-! SUPPORT. What each shared operation can do: buffers, stages, errors, accept and completion. -/

namespace Sys2Proof.Machine

/-! ### Buffers -/

theorem lookupCell_insertCell (i j : Nat) (v : Byte) (cs : List Host.Cell) :
    lookupCell (insertCell i v cs) j = if j = i then some v else lookupCell cs j := by
  induction cs with
  | nil =>
    by_cases h : j = i
    · subst h; simp [insertCell, lookupCell]
    · simp [insertCell, lookupCell, h, Ne.symm h]
  | cons c cs ih =>
    obtain ⟨a, x⟩ := c
    by_cases h : j = i
    · subst h
      unfold insertCell
      split
      · simp [lookupCell]
      · split
        · simp [lookupCell]
        · simp [lookupCell, ih, show ¬ a = j by omega]
    · unfold insertCell
      split
      · simp [lookupCell, Ne.symm h]
      · split
        · subst_vars; simp [lookupCell, Ne.symm h]
        · simp [lookupCell, ih, h]

/-- A byte store: the byte at its offset, every other byte as before. -/
theorem Memory.read_write (sp : Space) (m : Memory) (i j : Nat) (v : Byte) :
    (m.write i v).read sp j = if j = i then v else m.read sp j := by
  unfold Memory.read Memory.write
  simp only [lookupCell_insertCell]
  by_cases h : j = i <;> simp [h]

theorem risingFrom_mono {lo lo' : Nat} {cs : List Host.Cell} (h : lo' ≤ lo) (hr : risingFrom lo cs = true) :
    risingFrom lo' cs = true := by
  cases cs with
  | nil => rfl
  | cons c cs => simp [risingFrom] at hr ⊢; exact ⟨by omega, hr.2⟩

theorem risingFrom_insertCell {lo i : Nat} {v : Byte} {cs : List Host.Cell} (hi : lo ≤ i)
    (h : risingFrom lo cs = true) : risingFrom lo (insertCell i v cs) = true := by
  induction cs generalizing lo with
  | nil => simp [insertCell, risingFrom, hi]
  | cons c cs ih =>
    obtain ⟨a, x⟩ := c
    simp only [risingFrom, Bool.and_eq_true, decide_eq_true_eq] at h
    unfold insertCell
    split
    · simp [risingFrom, hi, h.2]; omega
    · split
      · subst_vars; simp [risingFrom, h]
      · simp [risingFrom, h.1]; exact ih (by omega) h.2

/-- A byte store keeps the canonical form. -/
theorem Memory.wf_write {m : Memory} (i : Nat) (v : Byte) (h : m.wf = true) : (m.write i v).wf = true :=
  risingFrom_insertCell (Nat.zero_le i) h

theorem mem_insertCell {i : Nat} {v : Byte} {c : Host.Cell} {cs : List Host.Cell} (h : c ∈ insertCell i v cs) :
    c = (i, v) ∨ c ∈ cs := by
  induction cs with
  | nil => simpa [insertCell] using h
  | cons d cs ih =>
    obtain ⟨a, x⟩ := d
    unfold insertCell at h
    split at h
    · simpa using h
    · split at h
      · simp at h; rcases h with h | h <;> simp [h]
      · simp at h
        rcases h with h | h
        · simp [h]
        · rcases ih h with h | h <;> simp [h]

theorem lookupCell_cellsFrom (i j : Nat) (bs : List Byte) :
    lookupCell (cellsFrom i bs) j = if i ≤ j then bs[j - i]? else none := by
  induction bs generalizing i with
  | nil => simp [cellsFrom, lookupCell]
  | cons b bs ih =>
    simp only [cellsFrom, lookupCell, ih]
    by_cases h : i = j
    · subst h; simp
    · by_cases h2 : i ≤ j
      · have : j - i = (j - (i + 1)) + 1 := by omega
        simp [h, h2, show i + 1 ≤ j by omega, this]
      · simp [h, h2, show ¬ i + 1 ≤ j by omega]

theorem risingFrom_cellsFrom (i : Nat) (bs : List Byte) : risingFrom i (cellsFrom i bs) = true := by
  induction bs generalizing i with
  | nil => rfl
  | cons b bs ih => simp [cellsFrom, risingFrom, ih]

theorem mem_cellsFrom {i : Nat} {bs : List Byte} {c : Host.Cell} (h : c ∈ cellsFrom i bs) :
    i ≤ c.1 ∧ c.1 < i + bs.length := by
  induction bs generalizing i with
  | nil => simp [cellsFrom] at h
  | cons b bs ih =>
    simp [cellsFrom] at h
    rcases h with rfl | h
    · simp
    · have := ih h; simp; omega

/-- Below the bytes an OUT-writer stored, OUT holds them. -/
theorem outByte_writeOut (bs : List Byte) (s : State) {j : Nat} (h : j < bs.length) :
    outByte (writeOut bs s) j = bs[j] := by
  simp [outByte, Memory.read, lookupCell_cellsFrom, h]

/-- A whole result read back from OUT. -/
theorem range_outByte_writeOut (bs : List Byte) (s : State) :
    (List.range bs.length).map (outByte (writeOut bs s)) = bs := by
  apply List.ext_getElem (by simp)
  intro i h1 h2
  simp [outByte_writeOut bs s h2]

theorem outBytes_eq (s : State) (bs : List Byte) (h : s.outLen.toNat = bs.length)
    (hb : s.outBuf.cells = cellsFrom 0 bs) : outBytes s = bs := by
  apply List.ext_getElem (by simp [outBytes, h])
  intro i h1 h2
  simp [outBytes, outByte, Memory.read, hb, lookupCell_cellsFrom, h2]

/-- The input is IN_LEN bytes long. -/
@[simp] theorem length_inputBytes (s : State) : (inputBytes s).length = s.inLen.toNat := by simp [inputBytes]

/-! ### Error kinds -/

@[simp] theorem errCode_eq_zero (k : ErrKind) : errCode k = 0 ↔ k = .none := by cases k <;> decide

/-! ### Stages -/

/-- A stage's outcome: the result of its pseudocode with V \ K ∪ G, or an error with the write set unspecified and V \ K. -/
theorem runStage_cases (i : Instr) (s : State) (r : Except ErrKind State) :
    (∃ t, r = .ok t ∧
      runStage i s r = ⟨.none, { t with valid := (s.valid.diff (killSet i)).union (genSet i) }⟩) ∨
    (∃ e, r = .error e ∧ runStage i s r = ⟨e, { spoil i s with valid := s.valid.diff (killSet i) }⟩) := by
  cases r with
  | ok t => exact .inl ⟨t, rfl, rfl⟩
  | error e => exact .inr ⟨e, rfl, rfl⟩

theorem andThen_ok {v : Verdict} (f : State → Verdict) (h : v.err = .none) : v.andThen f = f v.st := by
  simp [Verdict.andThen, h]

theorem andThen_err {v : Verdict} (f : State → Verdict) (h : v.err ≠ .none) : v.andThen f = v := by
  simp [Verdict.andThen, h]

/-- A stage that succeeded hands its state to the next. -/
theorem andThen_mk_ok (s : State) (f : State → Verdict) : (⟨.none, s⟩ : Verdict).andThen f = f s := rfl

/-- A stage that failed ends the composite. -/
theorem andThen_mk_err {e : ErrKind} (s : State) (f : State → Verdict) (h : e ≠ .none) :
    (⟨e, s⟩ : Verdict).andThen f = ⟨e, s⟩ := andThen_err f h

theorem closeOutWriter_ok {v : Verdict} (h : v.err = .none) : closeOutWriter v = v := by
  simp [closeOutWriter, h]

theorem closeOutWriter_err {v : Verdict} (h : v.err ≠ .none) : closeOutWriter v = ⟨v.err, loseOutput v.st⟩ := by
  simp [closeOutWriter, h]

@[simp] theorem closeOutWriter_kind (v : Verdict) : (closeOutWriter v).err = v.err := by
  unfold closeOutWriter; split <;> rfl

/-! ### The write set -/

/-- What the unspecified write set of a command leaves as it was (30_encoding.md R113). -/
theorem spoil_frame (i : Instr) (s : State) :
    (i ∉ [.clear, .fcount, .compress] → keepsCounts s (spoil i s)) ∧
    (i ∉ [.clear, .tbuild, .compress] → keepsTree s (spoil i s)) ∧
    (i ∉ [.clear, .cgen, .compress] → keepsCodes s (spoil i s)) ∧
    (i ∉ [.clear, .hser, .compress] → keepsHdrLen s (spoil i s)) ∧
    (i ∉ [.clear, .hdeser, .decompress] → keepsHeader s (spoil i s)) ∧
    (i ∉ [.clear, .trecon, .decompress] → keepsTrie s (spoil i s)) := by
  cases i <;> simp [spoil, keepsCounts, keepsTree, keepsCodes, keepsHdrLen, keepsHeader, keepsTrie]

/-! ### Completion -/

/-- Completion of a command whose host kept its duty. -/
theorem complete_dutiful {s : State} (c : Option Instr) (v : Verdict) (h : dutiful s) :
    complete c s v =
      { v.st with errcode := v.err, busy := false, done := true, latency := 0, tainted := false } := by
  unfold dutiful at h
  simp [complete, h]

/-- Completion of a command whose host broke its duty. -/
theorem complete_tainted {s : State} (c : Option Instr) (v : Verdict) (h : s.tainted = true) :
    complete c s v =
      { (breach c s).st with errcode := (breach c s).err, busy := false, done := true, latency := 0,
                             tainted := false } := by
  simp [complete, h]

@[simp] theorem complete_busy (c : Option Instr) (s : State) (v : Verdict) : (complete c s v).busy = false := rfl
@[simp] theorem complete_done (c : Option Instr) (s : State) (v : Verdict) : (complete c s v).done = true := rfl
@[simp] theorem complete_tainted_clear (c : Option Instr) (s : State) (v : Verdict) :
    (complete c s v).tainted = false := rfl
@[simp] theorem complete_latency (c : Option Instr) (s : State) (v : Verdict) : (complete c s v).latency = 0 := rfl

end Sys2Proof.Machine
end

