-- ==== Sys2Proof/Laws/Bits.lean ====
section
/-! SUPPORT. Bit lists, their packing into bytes, and the big-endian fields (20_memory.md R84, R85; 10_state.md R49). -/

namespace Sys2Proof.Machine

/-! ### msbValue -/

theorem msbValue_succ (p : Bits) (i0 n : Nat) :
    msbValue p i0 (n + 1) = 2 * msbValue p i0 n + (p.getD (i0 + n) false).toNat := by
  unfold msbValue
  rw [List.range_succ, List.map_append, List.sum_append, ← List.sum_map_mul_left]
  congr 1
  · congr 1
    apply List.map_congr_left
    intro k hk
    have hk := List.mem_range.1 hk
    split
    · rw [show n + 1 - 1 - k = (n - 1 - k) + 1 by omega, Nat.pow_succ, Nat.mul_comm]
    · rfl
  · simp only [List.map_cons, List.map_nil, List.sum_cons, List.sum_nil]
    generalize p.getD (i0 + n) false = b
    cases b <;> simp

theorem msbValue_lt (p : Bits) (i0 n : Nat) : msbValue p i0 n < 2 ^ n := by
  induction n with
  | zero => simp [msbValue]
  | succ n ih =>
    rw [msbValue_succ, Nat.pow_succ]
    have : (p.getD (i0 + n) false).toNat ≤ 1 := Bool.toNat_le _
    omega

/-- Bit k of the field, counted from its most significant position, is bit i0 + k of the list. -/
theorem testBit_msbValue (p : Bits) (i0 n k : Nat) (h : k < n) :
    (msbValue p i0 n).testBit (n - 1 - k) = p.getD (i0 + k) false := by
  induction n with
  | zero => omega
  | succ n ih =>
    rw [msbValue_succ]
    by_cases hk : k = n
    · subst hk
      rw [show k + 1 - 1 - k = 0 by omega, Nat.testBit_zero]
      cases p.getD (i0 + k) false <;> simp [Nat.add_mod]
    · rw [show n + 1 - 1 - k = (n - 1 - k) + 1 by omega, Nat.testBit_succ]
      have : (2 * msbValue p i0 n + (p.getD (i0 + n) false).toNat) / 2 = msbValue p i0 n := by
        have : (p.getD (i0 + n) false).toNat ≤ 1 := Bool.toNat_le _
        omega
      rw [this, ih (by omega)]

theorem getLsbD_msbValue (p : Bits) (i0 n k : Nat) (h : k < n) :
    (BitVec.ofNat n (msbValue p i0 n)).getLsbD (n - 1 - k) = p.getD (i0 + k) false := by
  rw [BitVec.getLsbD_ofNat, testBit_msbValue p i0 n k h]
  simp; omega

/-- An empty code shows an all-zero window. -/
@[simp] theorem msbValue_nil (i0 n : Nat) : msbValue [] i0 n = 0 := by
  induction n with
  | zero => rfl
  | succ n ih => rw [msbValue_succ, ih]; simp

/-! ### packMsb and byteBits -/

@[simp] theorem length_packMsb (p : Bits) : (packMsb p).length = ceil8 p.length := by simp [packMsb]

theorem getD_packMsb (p : Bits) (j : Nat) (h : j < ceil8 p.length) :
    (packMsb p).getD j 0 = BitVec.ofNat 8 (msbValue p (8 * j) 8) := by
  simp [packMsb, List.getD, h]

/-- Bit k of the packed list: position 7 − (k mod 8) of byte k div 8, padding bits 0. -/
theorem getLsbD_packMsb (p : Bits) (k : Nat) :
    ((packMsb p).getD (k / 8) 0).getLsbD (7 - k % 8) = p.getD k false := by
  by_cases h : k / 8 < ceil8 p.length
  · rw [getD_packMsb p _ h]
    have := getLsbD_msbValue p (8 * (k / 8)) 8 (k % 8) (by omega)
    rw [show 8 - 1 - k % 8 = 7 - k % 8 by omega, show 8 * (k / 8) + k % 8 = k by omega] at this
    exact this
  · have h1 : (packMsb p).length ≤ k / 8 := by simp; omega
    have h2 : p.length ≤ k := by unfold ceil8 at h; omega
    rw [List.getD_eq_default _ _ h1, List.getD_eq_default _ _ h2]
    simp

@[simp] theorem length_byteBits (q : List Byte) : (byteBits q).length = 8 * q.length := by
  induction q with
  | nil => rfl
  | cons b q ih =>
    simp only [byteBits, List.flatMap_cons, List.length_append, List.length_map, List.length_range, List.length_cons] at ih ⊢
    omega

theorem getD_byteBits (q : List Byte) (k : Nat) :
    (byteBits q).getD k false = (q.getD (k / 8) 0).getLsbD (7 - k % 8) := by
  induction q generalizing k with
  | nil => simp [byteBits]
  | cons b q ih =>
    have e : byteBits (b :: q) = ((List.range 8).map fun k => b.getLsbD (7 - k)) ++ byteBits q := by simp [byteBits]
    rw [e]
    by_cases h : k < 8
    · rw [List.getD_append _ _ _ _ (by simpa using h)]
      have h0 : k / 8 = 0 := by omega
      have h1 : k % 8 = k := by omega
      simp [List.getD, h, h0, h1]
    · rw [List.getD_append_right _ _ _ _ (by simp; omega)]
      have h0 : k / 8 = (k - 8) / 8 + 1 := by omega
      have h1 : k % 8 = (k - 8) % 8 := by omega
      simp only [List.length_map, List.length_range, ih, h0, h1, List.getD_cons_succ]

/-- Two bit lists of one length with equal bits are equal. -/
theorem bits_ext {p q : Bits} (hl : p.length = q.length) (h : ∀ k, k < p.length → p.getD k false = q.getD k false) :
    p = q := by
  apply List.ext_getElem hl
  intro i h1 h2
  have := h i h1
  rwa [List.getD_eq_getElem _ _ h1, List.getD_eq_getElem _ _ h2] at this

/-- Unpacking a packed list gives it back (20_memory.md R84). -/
theorem take_byteBits_packMsb (p : Bits) : (byteBits (packMsb p)).take p.length = p := by
  have hl : p.length ≤ 8 * ceil8 p.length := by unfold ceil8; omega
  apply bits_ext
  · simp; omega
  · intro k hk
    have hk' : k < p.length := by simp at hk; omega
    have : ((byteBits (packMsb p)).take p.length).getD k false = (byteBits (packMsb p)).getD k false := by
      simp [List.getD, hk']
    rw [this, getD_byteBits, getLsbD_packMsb]

/-! ### Big-endian fields -/

@[simp] theorem length_be16 (v : Nat) : (be16 v).length = 2 := rfl
@[simp] theorem length_be32 (v : Nat) : (be32 v).length = 4 := rfl

theorem rdBe16_of_bytes (s : State) (i v : Nat) (hv : v < 2 ^ 16) (h : ∀ j, j < 2 → inByte s (i + j) = (be16 v).getD j 0) :
    rdBe16 s i = v := by
  have h0 := h 0 (by omega)
  have h1 := h 1 (by omega)
  simp only [be16, List.getD_cons_zero, List.getD_cons_succ, Nat.add_zero] at h0 h1
  simp only [rdBe16, h0, h1, BitVec.toNat_ofNat]
  omega

theorem rdBe32_of_bytes (s : State) (i v : Nat) (hv : v < 2 ^ 32) (h : ∀ j, j < 4 → inByte s (i + j) = (be32 v).getD j 0) :
    rdBe32 s i = v := by
  have h0 := h 0 (by omega)
  have h1 := h 1 (by omega)
  have h2 := h 2 (by omega)
  have h3 := h 3 (by omega)
  simp only [be32, List.getD_cons_zero, List.getD_cons_succ, Nat.add_zero] at h0 h1 h2 h3
  simp only [rdBe32, h0, h1, h2, h3, BitVec.toNat_ofNat]
  omega

/-- What `rd_be16` read, written again, is the two bytes. -/
theorem be16_rdBe16 (s : State) (i : Nat) : be16 (rdBe16 s i) = [inByte s i, inByte s (i + 1)] := by
  have h0 := (inByte s i).isLt
  have h1 := (inByte s (i + 1)).isLt
  simp only [be16, rdBe16, List.cons.injEq, and_true]
  constructor <;> apply BitVec.eq_of_toNat_eq <;> simp only [BitVec.toNat_ofNat] <;> omega

/-- What `rd_be32` read, written again, is the four bytes. -/
theorem be32_rdBe32 (s : State) (i : Nat) :
    be32 (rdBe32 s i) = [inByte s i, inByte s (i + 1), inByte s (i + 2), inByte s (i + 3)] := by
  have h0 := (inByte s i).isLt
  have h1 := (inByte s (i + 1)).isLt
  have h2 := (inByte s (i + 2)).isLt
  have h3 := (inByte s (i + 3)).isLt
  simp only [be32, rdBe32, List.cons.injEq, and_true]
  refine ⟨?_, ?_, ?_, ?_⟩ <;> apply BitVec.eq_of_toNat_eq <;> simp only [BitVec.toNat_ofNat] <;> omega

theorem rdBe16_lt (s : State) (i : Nat) : rdBe16 s i < 2 ^ 16 := by
  have h0 := (inByte s i).isLt
  have h1 := (inByte s (i + 1)).isLt
  unfold rdBe16; omega

theorem rdBe32_lt (s : State) (i : Nat) : rdBe32 s i < 2 ^ 32 := by
  have h0 := (inByte s i).isLt
  have h1 := (inByte s (i + 1)).isLt
  have h2 := (inByte s (i + 2)).isLt
  have h3 := (inByte s (i + 3)).isLt
  unfold rdBe32; omega

/-! ### The input -/

theorem getD_inputBytes (s : State) (i : Nat) (h : i < s.inLen.toNat) : (inputBytes s).getD i 0 = inByte s i := by
  simp [inputBytes, List.getD, h]

/-- A bit of a bit string held in the input. -/
theorem bitMsb_eq (s : State) (i0 k : Nat) (h : i0 + k / 8 < s.inLen.toNat) :
    bitMsb s i0 k = ((inputBytes s).getD (i0 + k / 8) 0).getLsbD (7 - k % 8) := by
  rw [getD_inputBytes s _ h]; rfl

end Sys2Proof.Machine
end

