-- ==== Sys2Proof/Laws/Counter.lean ====
section
/-! SUPPORT. What FCOUNT's loop computes: counts, distinct symbols and first-occurrence ranks (41_frequency_counter.md R171,
R172). -/

namespace Sys2Proof.Machine

/-- The number of distinct symbols of a byte list. -/
abbrev distinct (bs : List Byte) : Nat := bs.dedup.length

theorem distinct_append_one (bs : List Byte) (b : Byte) :
    distinct (bs ++ [b]) = if b ∈ bs then distinct bs else distinct bs + 1 := by
  unfold distinct
  rw [← List.card_toFinset, ← List.card_toFinset]
  have : (bs ++ [b]).toFinset = insert b bs.toFinset := by ext; simp
  rw [this]
  by_cases h : b ∈ bs
  · simp [h]
  · simp [h]

theorem distinct_le (bs : List Byte) : distinct bs ≤ 256 := by
  have h : bs.dedup.Subperm allSymbols := (List.nodup_dedup bs).subperm fun x _ => mem_allSymbols x
  simpa using h.length_le

theorem distinct_lt_of_not_mem {bs : List Byte} {b : Byte} (h : b ∉ bs) : distinct bs ≤ 255 := by
  have h1 := distinct_append_one bs b
  have h2 := distinct_le (bs ++ [b])
  simp [h] at h1
  omega

/-- The first-occurrence rank of a symbol of a byte list: how many distinct symbols come before its first occurrence. -/
def rankIn (bs : List Byte) (b : Byte) : Nat := distinct (bs.takeWhile fun x => x != b)

theorem takeWhile_ne_of_not_mem {bs : List Byte} {b : Byte} (h : b ∉ bs) : (bs.takeWhile fun x => x != b) = bs := by
  rw [List.takeWhile_eq_self_iff]
  intro x hx
  simp only [bne_iff_ne, ne_eq]
  rintro rfl; exact h hx

theorem takeWhile_ne_append {bs cs : List Byte} {b : Byte} (h : b ∈ bs) :
    ((bs ++ cs).takeWhile fun x => x != b) = bs.takeWhile fun x => x != b := by
  induction bs with
  | nil => simp at h
  | cons a bs ih =>
    by_cases hab : a = b
    · simp [hab]
    · have : b ∈ bs := by simpa [Ne.symm hab] using h
      simp [hab, ih this]

theorem countAll_append (bs : List Byte) (b : Byte) : countAll (bs ++ [b]) = countByte (countAll bs) b := by
  simp [countAll, List.foldl_append]

/-- FCOUNT's loop: every symbol's count, the number of distinct symbols, and every symbol's rank (0 for an absent one). -/
theorem countAll_spec (bs : List Byte) (hl : bs.length < 2 ^ 32) :
    (∀ b, ((countAll bs).freq.read b).toNat = bs.count b) ∧ (countAll bs).n = distinct bs ∧
    (∀ b, ((countAll bs).rank.read b).toNat = if b ∈ bs then rankIn bs b else 0) := by
  induction bs using List.reverseRecOn with
  | nil => simp [countAll, distinct]
  | append_singleton bs b ih =>
    simp only [List.length_append, List.length_singleton] at hl
    obtain ⟨hf, hn, hr⟩ := ih (by omega)
    rw [countAll_append]
    have hcount : bs.count b ≤ bs.length := List.count_le_length
    have hadd : ((countAll bs).freq.read b + 1).toNat = bs.count b + 1 := by
      rw [BitVec.toNat_add, hf]; simp; omega
    have hzero : (countAll bs).freq.read b = 0 ↔ b ∉ bs := by
      rw [← List.count_eq_zero, ← hf, ← BitVec.toNat_inj]; rfl
    have hfreq : ∀ x, (((countAll bs).freq.write b ((countAll bs).freq.read b + 1)).read x).toNat =
        (bs ++ [b]).count x := by
      intro x
      rw [Table.read_write, List.count_append, List.count_singleton]
      by_cases hx : x = b
      · subst hx; simp only [↓reduceIte, hadd, beq_self_eq_true]
      · simp [hx, Ne.symm hx, hf]
    have hd := distinct_append_one bs b
    unfold countByte
    split
    · rename_i h0
      have hb : b ∉ bs := hzero.1 h0
      refine ⟨hfreq, by simp [hd, hb, hn], ?_⟩
      intro x
      rw [Table.read_write]
      by_cases hx : x = b
      · subst hx
        have := distinct_lt_of_not_mem hb
        have htw : rankIn (bs ++ [x]) x = distinct bs := by
          unfold rankIn
          rw [List.takeWhile_append_of_pos]
          · simp
          · intro y hy; simp only [bne_iff_ne, ne_eq]; rintro rfl; exact hb hy
        simp only [↓reduceIte, BitVec.toNat_ofNat, hn, htw, List.mem_append, List.mem_singleton, or_true]
        omega
      · simp only [hx, ↓reduceIte, hr, List.mem_append, List.mem_singleton, or_false]
        by_cases hxm : x ∈ bs
        · simp [hxm, rankIn, takeWhile_ne_append hxm]
        · simp [hxm]
    · rename_i h0
      have hb : b ∈ bs := not_not.1 fun hb => h0 (hzero.2 hb)
      refine ⟨hfreq, by simp [hd, hb, hn], ?_⟩
      intro x
      simp only [hr, List.mem_append, List.mem_singleton]
      by_cases hxm : x ∈ bs
      · simp [hxm, rankIn, takeWhile_ne_append hxm]
      · have : x ≠ b := by rintro rfl; exact hxm hb
        simp [hxm, this]

/-- The ranks of the symbols of a list are below its number of distinct symbols. -/
theorem rankIn_lt {bs : List Byte} {b : Byte} (h : b ∈ bs) : rankIn bs b < distinct bs := by
  unfold rankIn distinct
  rw [← List.card_toFinset, ← List.card_toFinset]
  apply Finset.card_lt_card
  rw [Finset.ssubset_iff_of_subset]
  · refine ⟨b, by simpa using h, ?_⟩
    simp only [List.mem_toFinset]
    intro hb
    have := List.mem_takeWhile_imp hb
    simp at this
  · intro x hx
    simp only [List.mem_toFinset] at hx ⊢
    exact (List.takeWhile_sublist _).subset hx

theorem takeWhile_of_idxOf_lt {bs : List Byte} {x y : Byte} (h : bs.idxOf x < bs.idxOf y) (hx : x ∈ bs) :
    x ∈ (bs.takeWhile fun z => z != y) ∧
      ∀ z, z ∈ (bs.takeWhile fun z => z != x) → z ∈ (bs.takeWhile fun z => z != y) := by
  induction bs with
  | nil => simp at hx
  | cons a bs ih =>
    by_cases hay : a = y
    · subst hay; simp at h
    · by_cases hax : a = x
      · subst hax; simp [hay]
      · have hx' : x ∈ bs := by simpa [Ne.symm hax] using hx
        rw [List.idxOf_cons_ne _ (by simpa using hax), List.idxOf_cons_ne _ (by simpa using hay)] at h
        obtain ⟨h1, h2⟩ := ih (by omega) hx'
        refine ⟨by simp [hay, h1], ?_⟩
        intro z hz
        simp only [List.takeWhile_cons, bne_iff_ne, ne_eq, hax, not_false_eq_true, ↓reduceIte, List.mem_cons] at hz
        simp only [List.takeWhile_cons, bne_iff_ne, ne_eq, hay, not_false_eq_true, ↓reduceIte, List.mem_cons]
        exact hz.imp id (h2 z)

/-- Earlier first occurrence, smaller rank. -/
theorem rankIn_lt_of_idxOf_lt {bs : List Byte} {x y : Byte} (h : bs.idxOf x < bs.idxOf y) (hx : x ∈ bs) :
    rankIn bs x < rankIn bs y := by
  obtain ⟨h1, h2⟩ := takeWhile_of_idxOf_lt h hx
  unfold rankIn distinct
  rw [← List.card_toFinset, ← List.card_toFinset]
  apply Finset.card_lt_card
  rw [Finset.ssubset_iff_of_subset]
  · refine ⟨x, by simpa using h1, ?_⟩
    simp only [List.mem_toFinset]
    intro hb
    have := List.mem_takeWhile_imp hb
    simp at this
  · intro z hz
    simp only [List.mem_toFinset] at hz ⊢
    exact h2 z hz

/-- Rank order is the order of first occurrences (41_frequency_counter.md R172 (d)). -/
theorem rankIn_lt_iff {bs : List Byte} {x y : Byte} (hx : x ∈ bs) (hy : y ∈ bs) :
    rankIn bs x < rankIn bs y ↔ bs.idxOf x < bs.idxOf y := by
  constructor
  · intro h
    rcases lt_trichotomy (bs.idxOf x) (bs.idxOf y) with h1 | h1 | h1
    · exact h1
    · rw [List.idxOf_inj hx] at h1; subst h1; omega
    · have := rankIn_lt_of_idxOf_lt h1 hy; omega
  · intro h; exact rankIn_lt_of_idxOf_lt h hx

/-- Distinct symbols of a list have distinct ranks. -/
theorem rankIn_inj {bs : List Byte} {x y : Byte} (hx : x ∈ bs) (hy : y ∈ bs) (h : rankIn bs x = rankIn bs y) : x = y := by
  rcases lt_trichotomy (bs.idxOf x) (bs.idxOf y) with h1 | h1 | h1
  · have := rankIn_lt_of_idxOf_lt h1 hx; omega
  · exact (List.idxOf_inj hx).1 h1
  · have := rankIn_lt_of_idxOf_lt h1 hy; omega

theorem length_inputBytes_lt (s : State) : (inputBytes s).length < 2 ^ 32 := by
  rw [length_inputBytes]; exact s.inLen.isLt

end Sys2Proof.Machine
end

