-- ==== Sys2Proof/Laws/Tree.lean ====
section
/-! SUPPORT. What TBUILD's loop computes: it follows the merge rule, and its tree has exactly the leaves it started from
(42_tree_builder.md R180 to R186). -/

namespace Sys2Proof.Machine

/-! ### The order ≺ -/

theorem nodeBefore_iff (x y : Node) :
    nodeBefore x y = true ↔ (nodeFreq x).toNat < (nodeFreq y).toNat ∨
      (nodeFreq x).toNat = (nodeFreq y).toNat ∧ (nodeKey x).toNat < (nodeKey y).toNat := by
  simp [nodeBefore, BitVec.lt_def, ← BitVec.toNat_inj]

/-- The order ≺ as R180 writes it. -/
theorem nodeBefore_iff_lt {x y : Node} :
    nodeBefore x y = true ↔ nodeFreq x < nodeFreq y ∨ nodeFreq x = nodeFreq y ∧ nodeKey x < nodeKey y := by
  simp [nodeBefore]

theorem nodeBefore_trans {x y z : Node} (h1 : nodeBefore x y = true) (h2 : nodeBefore y z = true) :
    nodeBefore x z = true := by
  rw [nodeBefore_iff] at *; omega

theorem nodeBefore_of_not {x y : Node} (hk : nodeKey x ≠ nodeKey y) (h : ¬ nodeBefore y x = true) :
    nodeBefore x y = true := by
  rw [nodeBefore_iff] at *
  have : (nodeKey x).toNat ≠ (nodeKey y).toNat := fun e => hk (BitVec.eq_of_toNat_eq e)
  omega

theorem nodeBefore_asymm {x y : Node} (h1 : nodeBefore x y = true) : ¬ nodeBefore y x = true := by
  rw [nodeBefore_iff] at *; omega

/-- Taking the least node out only reorders the list. -/
theorem extractLeast_perm (x : Node) (ys : List Node) :
    (x :: ys).Perm ((extractLeast x ys).1 :: (extractLeast x ys).2) := by
  induction ys generalizing x with
  | nil => simp [extractLeast]
  | cons y ys ih =>
    unfold extractLeast
    split
    · exact ((ih y).cons x).trans (.swap ..)
    · exact ((List.Perm.swap ..).trans ((ih x).cons y)).trans (.swap ..)

theorem extractLeast_mem (x : Node) (ys : List Node) : (extractLeast x ys).1 ∈ x :: ys :=
  (extractLeast_perm x ys).mem_iff.2 (List.mem_cons_self ..)

theorem extractLeast_length (x : Node) (ys : List Node) : (extractLeast x ys).2.length = ys.length := by
  have := (extractLeast_perm x ys).length_eq
  simpa using this.symm

/-- With distinct keys, the node taken out comes before every other. -/
theorem extractLeast_least (x : Node) (ys : List Node) (hk : ((x :: ys).map nodeKey).Nodup) :
    ∀ z ∈ (extractLeast x ys).2, nodeBefore (extractLeast x ys).1 z = true := by
  induction ys generalizing x with
  | nil => simp [extractLeast]
  | cons y ys ih =>
    have hxy : nodeKey x ≠ nodeKey y := by simp at hk; exact hk.1.1
    have hky : ((y :: ys).map nodeKey).Nodup := by simp only [List.map_cons] at hk ⊢; exact (List.nodup_cons.1 hk).2
    have hkx : ((x :: ys).map nodeKey).Nodup := by
      simp at hk ⊢; exact ⟨fun z hz => hk.1.2 z hz, hk.2.2⟩
    have hle : ∀ w, (((w : Node) :: ys).map nodeKey).Nodup →
        (∀ z ∈ (extractLeast w ys).2, nodeBefore (extractLeast w ys).1 z = true) →
        (extractLeast w ys).1 = w ∨ nodeBefore (extractLeast w ys).1 w = true := by
      intro w hw hl
      have := (extractLeast_perm w ys).mem_iff.1 (List.mem_cons_self (a := w))
      rcases List.mem_cons.1 this with h | h
      · exact .inl h.symm
      · exact .inr (hl _ h)
    unfold extractLeast
    split
    · rename_i hb
      intro z hz
      rcases List.mem_cons.1 hz with rfl | hz
      · rcases hle y hky (ih y hky) with h | h
        · rw [h]; exact hb
        · exact nodeBefore_trans h hb
      · exact ih y hky z hz
    · rename_i hb
      intro z hz
      rcases List.mem_cons.1 hz with rfl | hz
      · rcases hle x hkx (ih x hkx) with h | h
        · rw [h]; exact nodeBefore_of_not hxy hb
        · exact nodeBefore_trans h (nodeBefore_of_not hxy hb)
      · exact ih x hkx z hz

/-! ### The merge rule -/

theorem MergesTo.perm {j : Nat} {q q' : List Node} {r : Node} (h : MergesTo j q r) (hp : q'.Perm q) :
    MergesTo j q' r := by
  cases h with
  | root => rw [List.perm_singleton.1 hp]; exact .root ..
  | merge _ _ rest x y _ split lx ly next => exact .merge _ _ rest x y _ (hp.trans split) lx ly next

/-- Keys distinct, all below the next merge's, and room for the merges to come. -/
def keysOk (j : Nat) (q : List Node) : Prop :=
  (q.map nodeKey).Nodup ∧ (∀ n ∈ q, (nodeKey n).toNat < 256 + j) ∧ j + q.length ≤ 257

theorem keysOk_perm {j : Nat} {q q' : List Node} (h : q.Perm q') (hk : keysOk j q) : keysOk j q' :=
  ⟨(h.map nodeKey).nodup_iff.1 hk.1, fun n hn => hk.2.1 n (h.mem_iff.2 hn), by rw [← h.length_eq]; exact hk.2.2⟩

theorem keysOk_merge {j : Nat} {x y : Node} {rest : List Node} (h : keysOk j (x :: y :: rest)) :
    keysOk (j + 1) (mergeNodes j x y :: rest) := by
  obtain ⟨hn, hlt, hlen⟩ := h
  simp only [List.length_cons] at hlen
  have hkey : (nodeKey (mergeNodes j x y)).toNat = 256 + j := by
    simp only [mergeNodes, nodeKey, BitVec.toNat_ofNat]; omega
  refine ⟨?_, ?_, by simp only [List.length_cons]; omega⟩
  · simp only [List.map_cons, List.nodup_cons, List.mem_cons] at hn ⊢
    refine ⟨?_, hn.2.2⟩
    intro hm
    obtain ⟨n, hn', he⟩ := List.mem_map.1 hm
    have := hlt n (by simp [hn'])
    rw [he, hkey] at this; omega
  · intro n hn'
    rcases List.mem_cons.1 hn' with rfl | hn'
    · omega
    · have := hlt n (by simp [hn']); omega

/-- TBUILD's loop follows the merge rule (42_tree_builder.md R181). -/
theorem mergeAll_mergesTo (fuel j : Nat) (q : List Node) (hq : q ≠ []) (hf : q.length ≤ fuel + 1) (hk : keysOk j q) :
    ∃ r, mergeAll fuel j q = some r ∧ MergesTo j q r := by
  induction fuel generalizing j q with
  | zero =>
    match q, hq with
    | [x], _ => exact ⟨x, rfl, .root ..⟩
    | _ :: _ :: _, _ => simp at hf
  | succ fuel ih =>
    match q, hq with
    | x :: xs, _ =>
      have p1 := extractLeast_perm x xs
      have l1 := extractLeast_least x xs hk.1
      have len1 := extractLeast_length x xs
      unfold mergeAll
      generalize extractLeast x xs = a at p1 l1 len1 ⊢
      obtain ⟨a, r1⟩ := a
      simp only at p1 l1 len1 ⊢
      cases r1 with
      | nil =>
        refine ⟨a, rfl, ?_⟩
        exact (MergesTo.root j a).perm p1
      | cons y ys =>
        have p2 := extractLeast_perm y ys
        have hk1 := keysOk_perm p1 hk
        have l2 := extractLeast_least y ys (List.nodup_cons.1 hk1.1).2
        have len2 := extractLeast_length y ys
        simp only
        generalize extractLeast y ys = b at p2 l2 len2 ⊢
        obtain ⟨b, r2⟩ := b
        simp only at p2 l2 len2 ⊢
        have hk2 := keysOk_perm (p2.cons a) hk1
        obtain ⟨r, hr, hm⟩ := ih (j + 1) (mergeNodes j a b :: r2) (by simp)
          (by simp at hf len1 ⊢; omega) (keysOk_merge hk2)
        refine ⟨r, hr, .merge j _ r2 a b r (p1.trans (p2.cons a)) ?_ (fun z hz => nodeBefore_iff_lt.1 (l2 z hz)) hm⟩
        intro z hz
        exact nodeBefore_iff_lt.1 (l1 z (p2.mem_iff.2 hz))

/-! ### Shape -/

theorem nodeCount_eq (n : Node) : nodeCount n = 2 * internalCount n + 1 := by
  induction n with
  | leaf => rfl
  | internal f k l r ihl ihr => simp only [nodeCount, internalCount]; omega

theorem nodeDepth_le_internalCount (n : Node) : nodeDepth n ≤ internalCount n := by
  induction n with
  | leaf => simp [nodeDepth]
  | internal f k l r ihl ihr => simp only [nodeDepth, internalCount]; omega

theorem length_nodeLeaves (n : Node) : (nodeLeaves n).length = internalCount n + 1 := by
  induction n with
  | leaf => simp [nodeLeaves, internalCount]
  | internal f k l r ihl ihr => simp only [nodeLeaves, internalCount, List.length_append]; omega

theorem nodeSymbols_eq (n : Node) :
    nodeSymbols n = (nodeLeaves n).flatMap nodeSymbols := by
  induction n with
  | leaf => simp [nodeLeaves, nodeSymbols]
  | internal f k l r ihl ihr => simp only [nodeLeaves, nodeSymbols, List.flatMap_append, ← ihl, ← ihr]

/-- Whatever the keys, the merges keep the leaves. -/
theorem mergeAll_leaves (fuel j : Nat) (q : List Node) (r : Node) (hf : q.length ≤ fuel + 1)
    (h : mergeAll fuel j q = some r) : (nodeLeaves r).Perm (q.flatMap nodeLeaves) := by
  induction fuel generalizing j q with
  | zero =>
    match q, hf, h with
    | [x], _, h => simp [mergeAll] at h; subst h; simp
  | succ fuel ih =>
    match q, h with
    | x :: xs, h =>
      have p1 := extractLeast_perm x xs
      have len1 := extractLeast_length x xs
      unfold mergeAll at h
      generalize extractLeast x xs = a at p1 len1 h
      obtain ⟨a, r1⟩ := a
      simp only at p1 len1 h
      cases r1 with
      | nil =>
        simp at h; subst h
        have := p1.flatMap_right nodeLeaves
        simpa using this.symm
      | cons y ys =>
        have p2 := extractLeast_perm y ys
        have len2 := extractLeast_length y ys
        simp only at h
        generalize extractLeast y ys = b at p2 len2 h
        obtain ⟨b, r2⟩ := b
        simp only at p2 len2 h
        have h1 := ih (j + 1) _ (by simp at hf len1 ⊢; omega) h
        have h2 := (p1.trans (p2.cons a)).flatMap_right nodeLeaves
        refine h1.trans (.trans ?_ h2.symm)
        simp [mergeNodes, nodeLeaves]

theorem mergeAll_isSome (fuel j : Nat) (q : List Node) (hq : q ≠ []) : ∃ r, mergeAll fuel j q = some r := by
  induction fuel generalizing j q with
  | zero => match q, hq with | x :: xs, _ => exact ⟨x, by cases xs <;> rfl⟩
  | succ fuel ih =>
    match q, hq with
    | x :: xs, _ =>
      unfold mergeAll
      split
      · exact ⟨_, rfl⟩
      · exact ih _ _ (by simp)

/-- The root's frequency is the sum of its leaves', on 32 bits. -/
theorem MergesTo.freq {j : Nat} {q : List Node} {r : Node} (h : MergesTo j q r) :
    (nodeFreq r).toNat % 2 ^ 32 = (q.map fun n => (nodeFreq n).toNat).sum % 2 ^ 32 := by
  induction h with
  | root j n => simp
  | merge j q rest x y root split lx ly next ih =>
    rw [ih, (split.map _).sum_eq]
    simp only [List.map_cons, List.sum_cons, nodeFreq, BitVec.toNat_add]
    omega

/-! ### The leaves TBUILD starts from -/

theorem mem_countedLeaves (s : State) (n : Node) :
    n ∈ countedLeaves s ↔
      ∃ b, s.freq.read b ≠ 0 ∧ n = .leaf b (s.freq.read b) ((s.rank.read b).setWidth 9) := by
  simp only [countedLeaves, List.mem_map, List.mem_filter, mem_allSymbols, true_and, bne_iff_ne, ne_eq]
  exact ⟨fun ⟨b, hb, e⟩ => ⟨b, hb, e.symm⟩, fun ⟨b, hb, e⟩ => ⟨b, hb, e.symm⟩⟩

theorem nodup_countedLeaves (s : State) : (countedLeaves s).Nodup := by
  unfold countedLeaves
  refine List.Nodup.map_on ?_ (nodup_allSymbols.filter _)
  intro x _ y _ h
  simpa using congrArg (fun n => match n with | .leaf b _ _ => b | .internal _ _ _ _ => 0) h

theorem leavesOf_countedLeaves (s : State) : leavesOf s (countedLeaves s) :=
  ⟨nodup_countedLeaves s, mem_countedLeaves s⟩

/-- Any list with exactly the counted leaves is a reordering of TBUILD's. -/
theorem leavesOf_perm {s : State} {q : List Node} (h : leavesOf s q) : q.Perm (countedLeaves s) :=
  (List.perm_ext_iff_of_nodup h.1 (nodup_countedLeaves s)).2 fun n => by rw [h.2, mem_countedLeaves]

theorem length_countedLeaves (s : State) :
    (countedLeaves s).length = (allSymbols.filter fun b => s.freq.read b != 0).length := by simp [countedLeaves]

theorem length_countedLeaves_le (s : State) : (countedLeaves s).length ≤ 256 := by
  rw [length_countedLeaves, ← length_allSymbols]; exact List.length_filter_le ..

theorem keysOk_countedLeaves {s : State} (h : ranksDistinct s) : keysOk 0 (countedLeaves s) := by
  refine ⟨?_, ?_, by have := length_countedLeaves_le s; omega⟩
  · unfold countedLeaves
    rw [List.map_map]
    refine List.Nodup.map_on ?_ (nodup_allSymbols.filter _)
    intro x hx y hy e
    simp only [List.mem_filter, mem_allSymbols, bne_iff_ne, ne_eq, true_and] at hx hy
    refine h x y hx hy ?_
    have := congrArg BitVec.toNat e
    simp only [Function.comp_apply, nodeKey, BitVec.toNat_setWidth] at this
    have h1 := (s.rank.read x).isLt
    have h2 := (s.rank.read y).isLt
    apply BitVec.eq_of_toNat_eq
    omega
  · intro n hn
    obtain ⟨b, _, rfl⟩ := (mem_countedLeaves s n).1 hn
    simp only [nodeKey, BitVec.toNat_setWidth]
    have := (s.rank.read b).isLt
    omega

/-- The symbols at the leaves TBUILD starts from: the counted ones, each once. -/
theorem symbols_countedLeaves (s : State) :
    (countedLeaves s).flatMap nodeSymbols = allSymbols.filter fun b => s.freq.read b != 0 := by
  simp [countedLeaves, List.flatMap_map, nodeSymbols]

theorem nodeLeaves_countedLeaves (s : State) : (countedLeaves s).flatMap nodeLeaves = countedLeaves s := by
  simp [countedLeaves, List.flatMap_map, nodeLeaves, ← List.map_eq_flatMap]

/-- The tree TBUILD builds: its leaves, symbols and size. -/
theorem built_shape {s : State} {r : Node}
    (h : mergeAll (countedLeaves s).length 0 (countedLeaves s) = some r) :
    (nodeLeaves r).Perm (countedLeaves s) ∧
    (nodeSymbols r).Perm (allSymbols.filter fun b => s.freq.read b != 0) ∧
    internalCount r + 1 = (countedLeaves s).length ∧ nodeDepth r ≤ 255 := by
  have h1 := mergeAll_leaves _ _ _ _ (Nat.le_succ _) h
  rw [nodeLeaves_countedLeaves] at h1
  have h2 : internalCount r + 1 = (countedLeaves s).length := by
    rw [← length_nodeLeaves]; exact h1.length_eq
  refine ⟨h1, ?_, h2, ?_⟩
  · rw [nodeSymbols_eq, ← symbols_countedLeaves]; exact h1.flatMap_right _
  · have := nodeDepth_le_internalCount r
    have := length_countedLeaves_le s
    omega

/-- The tree TBUILD builds is well formed (00_scope.md R7). -/
theorem built_wf {s : State} {r : Node} (h : mergeAll (countedLeaves s).length 0 (countedLeaves s) = some r) :
    nodeWf r = true := by
  obtain ⟨-, -, h1, h2⟩ := built_shape h
  have := length_countedLeaves_le s
  have := nodeCount_eq r
  simp only [nodeWf, Bool.and_eq_true, decide_eq_true_eq]
  omega

end Sys2Proof.Machine
end

