-- ==== Sys2Proof/Laws/Codes.lean ====
section
/-! SUPPORT. What CGEN's walk computes: every leaf's symbol gets the path to it, the codes are prefix-free and complete
(43_code_table_generator.md R200 to R204). -/

namespace Sys2Proof.Machine

/-- The leaves of a tree with the paths to them. -/
def leafPaths : Node → List (Byte × Bits)
  | .leaf b _ _ => [(b, [])]
  | .internal _ _ l r =>
    ((leafPaths l).map fun e => (e.1, false :: e.2)) ++ (leafPaths r).map fun e => (e.1, true :: e.2)

theorem leafAt_iff (n : Node) (p : Bits) (b : Byte) : leafAt n p = some b ↔ (b, p) ∈ leafPaths n := by
  induction n generalizing p with
  | leaf s f k => cases p <;> simp [leafAt, leafPaths, eq_comm]
  | internal f k l r ihl ihr =>
    cases p with
    | nil => simp [leafAt, leafPaths]
    | cons x xs => cases x <;> simp [leafAt, leafPaths, ihl, ihr]

theorem map_fst_leafPaths (n : Node) : (leafPaths n).map Prod.fst = nodeSymbols n := by
  induction n with
  | leaf => rfl
  | internal f k l r ihl ihr => simp [leafPaths, nodeSymbols, ← ihl, ← ihr, Function.comp_def]

theorem leafPaths_length_le {n : Node} {e : Byte × Bits} (h : e ∈ leafPaths n) : e.2.length ≤ nodeDepth n := by
  induction n generalizing e with
  | leaf => simp [leafPaths] at h; simp [h]
  | internal f k l r ihl ihr =>
    simp only [leafPaths, List.mem_append, List.mem_map] at h
    rcases h with ⟨e', he, rfl⟩ | ⟨e', he, rfl⟩
    · have := ihl he; simp only [nodeDepth, List.length_cons]; omega
    · have := ihr he; simp only [nodeDepth, List.length_cons]; omega

/-- No leaf lies on the path to another (43_code_table_generator.md R204 (c)). -/
theorem leafAt_prefix {n : Node} {p q : Bits} {x y : Byte} (hp : leafAt n p = some x) (hq : leafAt n q = some y)
    (h : p.IsPrefix q) : p = q := by
  induction n generalizing p q with
  | leaf s f k =>
    cases p <;> cases q <;> simp_all [leafAt]
  | internal f k l r ihl ihr =>
    cases p with
    | nil => simp [leafAt] at hp
    | cons a p =>
      cases q with
      | nil => simp at h
      | cons b q =>
        obtain ⟨rfl, h'⟩ := List.cons_prefix_cons.1 h
        cases a
        · simp only [leafAt, Bool.false_eq_true, ↓reduceIte] at hp hq; rw [ihl hp hq h']
        · simp only [leafAt, ↓reduceIte] at hp hq; rw [ihr hp hq h']

/-- The walk gives each symbol of the tree the path to one of its leaves, and leaves every other entry as it was. -/
theorem walk_spec (n : Node) (p : Bits) (t : Table Bits) (x : Byte) :
    (∃ q, leafAt n q = some x ∧ (walk n p t).read x = p ++ q) ∨
      x ∉ nodeSymbols n ∧ (walk n p t).read x = t.read x := by
  induction n generalizing p t with
  | leaf s f k =>
    by_cases h : x = s
    · subst h; exact .inl ⟨[], rfl, by simp [walk]⟩
    · exact .inr ⟨by simpa [nodeSymbols] using h, by simp [walk, Table.read_write, h]⟩
  | internal f k l r ihl ihr =>
    unfold walk
    rcases ihr (p ++ [true]) (walk l (p ++ [false]) t) with ⟨q, hq, e⟩ | ⟨hn, e⟩
    · exact .inl ⟨true :: q, by simpa [leafAt] using hq, by simp [e]⟩
    · rcases ihl (p ++ [false]) t with ⟨q, hq, e'⟩ | ⟨hn', e'⟩
      · exact .inl ⟨false :: q, by simpa [leafAt] using hq, by rw [e, e']; simp⟩
      · exact .inr ⟨by simp [nodeSymbols, hn, hn'], by rw [e, e']⟩

theorem mem_nodeSymbols_of_leafAt {n : Node} {p : Bits} {x : Byte} (h : leafAt n p = some x) : x ∈ nodeSymbols n := by
  rw [← map_fst_leafPaths]; exact List.mem_map.2 ⟨_, (leafAt_iff n p x).1 h, rfl⟩

/-- With distinct symbols a symbol has one path. -/
theorem leafAt_unique {n : Node} {p q : Bits} {x : Byte} (hn : (nodeSymbols n).Nodup) (hp : leafAt n p = some x)
    (hq : leafAt n q = some x) : p = q := by
  rw [leafAt_iff] at hp hq
  rw [← map_fst_leafPaths] at hn
  have := List.inj_on_of_nodup_map hn hp hq rfl
  exact congrArg Prod.snd this

/-- The code table of an internal root, on a tree with distinct symbols: a code is the path to its leaf. -/
theorem codesOf_internal {f : Word} {k : BitVec 9} {l r : Node} (hn : (nodeSymbols (.internal f k l r)).Nodup)
    (x : Byte) (p : Bits) (hp : p ≠ []) :
    (codesOf (.internal f k l r)).read x = p ↔ leafAt (.internal f k l r) p = some x := by
  unfold codesOf
  rcases walk_spec (.internal f k l r) [] (Table.fill []) x with ⟨q, hq, e⟩ | ⟨hx, e⟩
  · rw [e, List.nil_append]
    exact ⟨fun h => h ▸ hq, fun h => leafAt_unique hn hq h⟩
  · rw [e]; simp only [Table.read_fill]
    exact ⟨fun h => absurd h.symm hp, fun h => absurd (mem_nodeSymbols_of_leafAt h) hx⟩

theorem leafAt_ne_nil {f : Word} {k : BitVec 9} {l r : Node} {p : Bits} {x : Byte}
    (h : leafAt (.internal f k l r) p = some x) : p ≠ [] := by
  rintro rfl; simp [leafAt] at h

/-- A symbol has a code exactly when it is at a leaf. -/
theorem codesOf_ne_nil (n : Node) (x : Byte) : (codesOf n).read x ≠ [] ↔ x ∈ nodeSymbols n := by
  cases n with
  | leaf b f k =>
    by_cases h : x = b <;> simp [codesOf, nodeSymbols, Table.read_write, h]
  | internal f k l r =>
    unfold codesOf
    rcases walk_spec (.internal f k l r) [] (Table.fill []) x with ⟨q, hq, e⟩ | ⟨hx, e⟩
    · rw [e, List.nil_append]
      exact ⟨fun _ => mem_nodeSymbols_of_leafAt hq, fun _ => leafAt_ne_nil hq⟩
    · rw [e]; simp [hx]

/-- Codes are at most as long as the tree is deep, a lone leaf's apart. -/
theorem codesOf_length (n : Node) (x : Byte) : ((codesOf n).read x).length ≤ max 1 (nodeDepth n) := by
  cases n with
  | leaf b f k =>
    by_cases h : x = b <;> simp [codesOf, Table.read_write, h]
  | internal f k l r =>
    unfold codesOf
    rcases walk_spec (.internal f k l r) [] (Table.fill []) x with ⟨q, hq, e⟩ | ⟨hx, e⟩
    · rw [e, List.nil_append]
      have := leafPaths_length_le ((leafAt_iff _ _ _).1 hq)
      simp only at this; omega
    · rw [e]; simp

/-- The codes of a tree are pairwise prefix-free (43_code_table_generator.md R204 (c)). -/
theorem prefixFree_codesOf (n : Node) : prefixFree (codesOf n) := by
  intro x y hxy hx hy hp
  cases n with
  | leaf b f k =>
    rw [codesOf_ne_nil] at hx hy
    simp [nodeSymbols] at hx hy
    exact hxy (hx.trans hy.symm)
  | internal f k l r =>
    unfold codesOf at hx hy hp
    rcases walk_spec (.internal f k l r) [] (Table.fill []) x with ⟨p, hp', e⟩ | ⟨_, e⟩
    · rcases walk_spec (.internal f k l r) [] (Table.fill []) y with ⟨q, hq', e'⟩ | ⟨_, e'⟩
      · rw [e, e', List.nil_append, List.nil_append] at hp
        have := leafAt_prefix hp' hq' hp
        subst this
        rw [hp'] at hq'
        exact hxy (Option.some.inj hq')
      · exact hy (by rw [e']; simp)
    · exact hx (by rw [e]; simp)

theorem prefixFree_fill : prefixFree (Table.fill []) := fun x y _ hx => absurd (by simp) hx

/-- Kraft's equality for the paths of a full binary tree, times 2^D. -/
theorem kraft_leafPaths (n : Node) (D : Nat) (h : nodeDepth n ≤ D) :
    ((leafPaths n).map fun e => 2 ^ (D - e.2.length)).sum = 2 ^ D := by
  induction n generalizing D with
  | leaf => simp [leafPaths]
  | internal f k l r ihl ihr =>
    simp only [nodeDepth] at h
    obtain ⟨D, rfl⟩ : ∃ d, D = d + 1 := ⟨D - 1, by omega⟩
    have h1 := ihl D (by omega)
    have h2 := ihr D (by omega)
    simp only [leafPaths, List.map_append, List.map_map, Function.comp_def, List.length_cons, List.sum_append,
      Nat.add_sub_add_right, h1, h2]
    omega

/-- Kraft's equality for the codes of an internal root with distinct symbols (43_code_table_generator.md R204 (d)). -/
theorem kraft_codesOf {f : Word} {k : BitVec 9} {l r : Node} (hn : (nodeSymbols (.internal f k l r)).Nodup) (D : Nat)
    (h : nodeDepth (.internal f k l r) ≤ D) :
    ((nodeSymbols (.internal f k l r)).map fun b => 2 ^ (D - ((codesOf (.internal f k l r)).read b).length)).sum =
      2 ^ D := by
  rw [← kraft_leafPaths _ D h, ← map_fst_leafPaths, List.map_map]
  congr 1
  apply List.map_congr_left
  intro e he
  have hl := (leafAt_iff _ _ _).2 he
  have := (codesOf_internal hn e.1 e.2 (leafAt_ne_nil hl)).2 hl
  simp only [Function.comp_apply, this]

/-! ### The weighted length -/

theorem sum_map_ite {l : List Byte} {x : Byte} (g : Byte → Nat) (hl : l.Nodup) (hx : x ∈ l) :
    (l.map fun b => if b = x then g b else 0).sum = g x := by
  induction l with
  | nil => simp at hx
  | cons a l ih =>
    obtain ⟨ha, hl'⟩ := List.nodup_cons.1 hl
    by_cases hax : a = x
    · subst hax
      have : (l.map fun b => if b = a then g b else 0) = l.map fun _ => 0 := by
        apply List.map_congr_left
        intro b hb
        rw [if_neg]; rintro rfl; exact ha hb
      simp [this]
    · have := ih hl' (by simpa [Ne.symm hax] using hx)
      simp [hax, this]

theorem sum_count_mul_of {l : List Byte} (hl : l.Nodup) (bs : List Byte) (hbs : ∀ b ∈ bs, b ∈ l) (g : Byte → Nat) :
    (l.map fun b => bs.count b * g b).sum = (bs.map g).sum := by
  induction bs with
  | nil => simp
  | cons x bs ih =>
    have h1 : (l.map fun b => (x :: bs).count b * g b) =
        l.map fun b => (if b = x then g b else 0) + bs.count b * g b := by
      apply List.map_congr_left
      intro b _
      by_cases hb : b = x
      · rw [hb, List.count_cons_self, if_pos rfl, Nat.succ_mul, Nat.add_comm]
      · rw [List.count_cons_of_ne (Ne.symm hb), if_neg hb, Nat.zero_add]
    rw [h1, List.sum_map_add, ih fun b hb => hbs b (List.mem_cons_of_mem _ hb), List.map_cons, List.sum_cons,
      sum_map_ite g hl (hbs x List.mem_cons_self)]

/-- Σ over the symbols of count times length is the length of the concatenated codes (45_bit_packer.md R252). -/
theorem sum_count_mul (bs : List Byte) (g : Byte → Nat) :
    (allSymbols.map fun b => bs.count b * g b).sum = (bs.map g).sum :=
  sum_count_mul_of nodup_allSymbols bs (fun b _ => mem_allSymbols b) g

/-- A table with no codes needs no bits. -/
@[simp] theorem weightedLength_fill (freq : Table Word) : weightedLength freq (Table.fill []) = 0 := by
  have : ∀ l : List Byte, (l.map fun b => (freq.read b).toNat * ((Table.fill ([] : Bits)).read b).length).sum = 0 := by
    intro l
    induction l with
    | nil => rfl
    | cons b l ih => rw [List.map_cons, List.sum_cons, ih, Table.read_fill]; rfl
  exact this allSymbols

/-- Under exact counts the weighted length is the payload's. -/
theorem weightedLength_of_counts {freq : Table Word} {code : Table Bits} {bs : List Byte}
    (h : ∀ b, (freq.read b).toNat = bs.count b) : weightedLength freq code = (bs.flatMap code.read).length := by
  unfold weightedLength
  simp only [h]
  rw [sum_count_mul bs fun b => (code.read b).length, List.length_flatMap]

/-- The exact VBC a code table gives is bounded by its longest code. -/
theorem length_flatMap_le (bs : List Byte) (code : Table Bits) (m : Nat)
    (h : ∀ b, (code.read b).length ≤ m) : (bs.flatMap code.read).length ≤ m * bs.length := by
  induction bs with
  | nil => simp
  | cons b bs ih =>
    have := h b
    simp only [List.flatMap_cons, List.length_append, List.length_cons, Nat.mul_add, Nat.mul_one]
    omega

end Sys2Proof.Machine
end

