-- ==== Sys2Proof/Laws/Decode.lean ====
section
/-! SUPPORT. The opcode latch and the decoder read the same command. -/

namespace Sys2Proof

/-- The opcode decoder inverts the opcode map. -/
@[simp] theorem decodeOp_opcode (i : Instr) : decodeOp (opcode i) = .ok i := by cases i <;> rfl

/-- Only its own opcode decodes to a command. -/
theorem decodeOp_eq_ok (op : BitVec 4) (i : Instr) : decodeOp op = .ok i ↔ op = opcode i := by
  constructor
  · cases i <;> (revert op; decide)
  · rintro rfl; simp

/-- The latched opcode decodes to a command exactly when the whole word does. -/
theorem decodeOp_latchOp (w : Word) (i : Instr) : decodeOp (latchOp w) = .ok i ↔ decode w = .ok i := by
  unfold latchOp decode
  split
  · rfl
  · simp [decodeOp]

/-- A word with an illegal encoding latches an illegal opcode. -/
theorem decodeOp_latchOp_error {w : Word} {e : DecodeError} (h : decode w = .error e) :
    decodeOp (latchOp w) = .error .reservedOp := by
  revert h
  unfold latchOp decode
  split
  · rename_i hz
    intro h
    revert h
    generalize w.extractLsb' 0 4 = op
    cases e <;> (revert op; decide)
  · intro; simp [decodeOp]

end Sys2Proof
end

