-- ==== Sys2Proof/Laws/Header.lean ====
section
/-! SUPPORT. The header: what HSER writes, and what HDESER's parse makes of a whole header, a cut one and any input
(30_encoding.md R120 to R124, 44_artifact_serializer.md R216, R231). -/

namespace Sys2Proof.Machine

/-! ### Serialize -/

theorem headerBytes_eq (s : State) : headerBytes s = encoderHeader s := rfl

theorem length_encoderHeader (s : State) :
    (encoderHeader s).length =
      6 + ((allSymbols.filter fun b => !(s.code.read b).isEmpty).map fun b => 2 + ceil8 (s.code.read b).length).sum := by
  unfold encoderHeader
  simp only [List.length_append, length_be16, length_be32, List.length_flatMap, List.length_cons, length_packMsb]
  generalize allSymbols.filter _ = l
  have : (l.map fun b => ceil8 (s.code.read b).length + 1 + 1) = l.map fun b => 2 + ceil8 (s.code.read b).length := by
    apply List.map_congr_left; intro b _; omega
  rw [this]; omega

/-- Four entries' worth of bound: a header with codes of at most 255 bits has at most 8710 bytes. -/
theorem length_encoderHeader_le (s : State) (h : codesOk s.code) : (encoderHeader s).length ≤ 8710 := by
  rw [length_encoderHeader]
  have h1 : ∀ l : List Byte, (l.map fun b => 2 + ceil8 (s.code.read b).length).sum ≤ 34 * l.length := by
    intro l
    induction l with
    | nil => simp
    | cons b l ih =>
      have : (s.code.read b).length ≤ 255 := by simpa [codeWf] using h b
      have : ceil8 (s.code.read b).length ≤ 32 := by unfold ceil8; omega
      simp only [List.map_cons, List.sum_cons, List.length_cons]; omega
  have h2 := h1 (allSymbols.filter fun b => !(s.code.read b).isEmpty)
  have h3 := List.length_filter_le (fun b => !(s.code.read b).isEmpty) allSymbols
  rw [length_allSymbols] at h3
  omega

/-- The bytes of one entry. -/
def entryWord (e : Entry) : List Byte := e.sym :: BitVec.ofNat 8 e.len :: e.bytes

theorem artifactHeader_eq (es : List Entry) (v : Nat) :
    artifactHeader es v = be16 es.length ++ es.flatMap entryWord ++ be32 v := rfl

/-- The entry of a symbol of the encoder's code table. -/
def codeEntry (c : Table Bits) (b : Byte) : Entry := ⟨b, (c.read b).length, packMsb (c.read b)⟩

/-- The entries of the encoder's header. -/
def codeEntries (c : Table Bits) : List Entry := (allSymbols.filter fun b => !(c.read b).isEmpty).map (codeEntry c)

theorem encoderHeader_eq_artifactHeader (s : State) :
    encoderHeader s = artifactHeader (codeEntries s.code) s.vbc.toNat := by
  simp only [encoderHeader, artifactHeader, codeEntries, List.length_map, List.flatMap_map, codeEntry]

@[simp] theorem entryCode_codeEntry (c : Table Bits) (b : Byte) : entryCode (codeEntry c b) = c.read b :=
  take_byteBits_packMsb _

theorem mem_codeEntries {c : Table Bits} {b : Byte} : b ∈ (codeEntries c).map Entry.sym ↔ c.read b ≠ [] := by
  simp [codeEntries, codeEntry]

theorem entriesOk_codeEntries {c : Table Bits} (h : codesOk c) : entriesOk (codeEntries c) := by
  constructor
  · intro e he
    simp only [codeEntries, List.mem_map, List.mem_filter, mem_allSymbols, true_and] at he
    obtain ⟨b, hb, rfl⟩ := he
    have hb' : c.read b ≠ [] := by simpa using hb
    have : (c.read b).length ≤ 255 := by simpa [codeWf] using h b
    have := List.length_pos_iff.2 hb'
    exact ⟨by simp only [codeEntry]; omega, by simp only [codeEntry]; omega, by simp [codeEntry]⟩
  · have : (codeEntries c).map Entry.sym = allSymbols.filter fun b => !(c.read b).isEmpty := by
      simp [codeEntries, codeEntry, Function.comp_def]
    rw [this]; exact nodup_allSymbols.filter _

/-! ### Reading the input -/

/-- The input from offset `p` on. -/
abbrev inputFrom (s : State) (p : Nat) : List Byte := (inputBytes s).drop p

theorem inByte_of_inputFrom {s : State} {p j : Nat} {bs rest : List Byte} (h : inputFrom s p = bs ++ rest)
    (hj : j < bs.length) : inByte s (p + j) = bs.getD j 0 := by
  have h1 : (inputFrom s p).getD j 0 = bs.getD j 0 := by rw [h, List.getD_append _ _ _ _ hj]
  have hl : (inputFrom s p).length = bs.length + rest.length := by rw [h, List.length_append]
  simp only [inputFrom, List.length_drop, length_inputBytes] at hl
  rw [← h1, ← getD_inputBytes s (p + j) (by omega)]
  simp [inputFrom, List.getD]

theorem length_inputFrom {s : State} {p : Nat} {bs : List Byte} (h : inputFrom s p = bs) (hp : p ≤ s.inLen.toNat) :
    s.inLen.toNat = p + bs.length := by
  have := congrArg List.length h
  simp at this; omega

theorem inputFrom_add {s : State} {p : Nat} {bs rest : List Byte} (h : inputFrom s p = bs ++ rest) :
    inputFrom s (p + bs.length) = rest := by
  simp only [inputFrom, ← List.drop_drop] at h ⊢
  rw [h]; simp

theorem readCode_of_inputFrom {s : State} {p n : Nat} {bs rest : List Byte} (h : inputFrom s p = bs ++ rest)
    (hn : n ≤ 8 * bs.length) : readCode s p n = (byteBits bs).take n := by
  apply bits_ext
  · simp [readCode, hn]
  · intro k hk
    have hk' : k < n := by simpa [readCode] using hk
    have h1 : (readCode s p n).getD k false = bitMsb s p k := by simp [readCode, List.getD, hk']
    have h2 : ((byteBits bs).take n).getD k false = (byteBits bs).getD k false := by simp [List.getD, hk']
    rw [h1, h2, getD_byteBits, bitMsb, inByte_of_inputFrom h (by omega)]

/-! ### Parsing the entries -/

/-- The table after more entries. -/
def addEntries (t : Table Bits) (es : List Entry) : Table Bits := es.foldl (fun t e => t.write e.sym (entryCode e)) t

theorem addEntries_not_mem {t : Table Bits} {es : List Entry} {b : Byte} (h : b ∉ es.map Entry.sym) :
    (addEntries t es).read b = t.read b := by
  induction es generalizing t with
  | nil => rfl
  | cons e es ih =>
    simp only [List.map_cons, List.mem_cons, not_or] at h
    show (addEntries (t.write e.sym (entryCode e)) es).read b = _
    rw [ih h.2, Table.read_write_ne _ _ h.1]

theorem addEntries_mem {t : Table Bits} {es : List Entry} (hn : (es.map Entry.sym).Nodup) {e : Entry} (h : e ∈ es) :
    (addEntries t es).read e.sym = entryCode e := by
  induction es generalizing t with
  | nil => simp at h
  | cons a es ih =>
    simp only [List.map_cons, List.nodup_cons] at hn
    show (addEntries (t.write a.sym (entryCode a)) es).read e.sym = _
    rcases List.mem_cons.1 h with rfl | h
    · rw [addEntries_not_mem hn.1, Table.read_write_self]
    · exact ih hn.2 h

/-- One entry's own conditions (30_encoding.md R122 (b)). -/
def entryOk (e : Entry) : Prop := 1 ≤ e.len ∧ e.len ≤ 255 ∧ e.bytes.length = ceil8 e.len

theorem entryCode_ne_nil {e : Entry} (h : entryOk e) : entryCode e ≠ [] := by
  obtain ⟨h1, _, h3⟩ := h
  intro hn
  have := congrArg List.length hn
  simp [entryCode, h3, ceil8] at this; omega

theorem length_entryCode {e : Entry} (h : entryOk e) : (entryCode e).length = e.len := by
  obtain ⟨h1, _, h3⟩ := h
  simp only [entryCode, List.length_take, length_byteBits, h3, ceil8]; omega

theorem length_entryWord {e : Entry} (h : entryOk e) : (entryWord e).length = 2 + ceil8 e.len := by
  simp [entryWord, h.2.2]; omega

theorem hasCode_iff (t : Table Bits) (b : Byte) : hasCode t b = true ↔ t.read b ≠ [] := by
  simp [hasCode]

/-- One round of the parse, on an input that holds a whole entry. -/
theorem parseEntries_cons {s : State} {k p : Nat} {t : Table Bits} {e : Entry} {rest : List Byte} (he : entryOk e)
    (hp : p ≤ s.inLen.toNat) (h : inputFrom s p = entryWord e ++ rest) (ht : t.read e.sym = []) :
    parseEntries s (k + 1) p t = parseEntries s k (p + (entryWord e).length) (t.write e.sym (entryCode e)) := by
  have hl := length_inputFrom h hp
  rw [List.length_append] at hl
  have hlw := length_entryWord he
  have hw : (entryWord e).length = 2 + e.bytes.length := by rw [hlw, he.2.2]
  have hb : inByte s p = e.sym := by simpa [entryWord] using inByte_of_inputFrom (j := 0) h (by omega)
  have hn : inByte s (p + 1) = BitVec.ofNat 8 e.len := by simpa [entryWord] using inByte_of_inputFrom (j := 1) h (by omega)
  have hn' : (BitVec.ofNat 8 e.len).toNat = e.len := by have := he.2.1; simp; omega
  have h2 : inputFrom s (p + 2) = e.bytes ++ rest := by
    have : inputFrom s p = [e.sym, BitVec.ofNat 8 e.len] ++ (e.bytes ++ rest) := by rw [h]; rfl
    simpa using inputFrom_add this
  have hc : readCode s (p + 2) e.len = entryCode e := by
    refine readCode_of_inputFrom h2 ?_
    have := he.2.2; unfold ceil8 at this; omega
  have hnh : ¬ hasCode t e.sym = true := by rw [hasCode_iff]; simp [ht]
  have := he.1
  conv_lhs => unfold parseEntries
  simp only [hb, hn, hn', hc]
  rw [if_neg (by omega), if_neg (by omega), if_neg (by omega), if_neg hnh, hlw, Nat.add_assoc]

/-- The parse of a run of whole, good entries, with `k` more to come. -/
theorem parseEntries_more {s : State} {k p : Nat} {t : Table Bits} {es : List Entry} {rest : List Byte}
    (he : ∀ e ∈ es, entryOk e) (hn : (es.map Entry.sym).Nodup) (ht : ∀ e ∈ es, t.read e.sym = [])
    (hp : p ≤ s.inLen.toNat) (h : inputFrom s p = es.flatMap entryWord ++ rest) :
    parseEntries s (es.length + k) p t = parseEntries s k (p + (es.flatMap entryWord).length) (addEntries t es) := by
  induction es generalizing p t with
  | nil => simp [addEntries]
  | cons e es ih =>
    simp only [List.map_cons, List.nodup_cons] at hn
    rw [List.flatMap_cons, List.append_assoc] at h
    have hl := length_inputFrom h hp
    rw [List.length_append] at hl
    rw [List.length_cons, Nat.add_right_comm, parseEntries_cons (he e (by simp)) hp h (ht e (by simp)),
      ih (fun e h => he e (List.mem_cons_of_mem _ h)) hn.2 _ (by omega) (inputFrom_add h)]
    · simp only [List.flatMap_cons, List.length_append, Nat.add_assoc]; rfl
    · intro e' h'
      have : e'.sym ≠ e.sym := by
        intro hs; exact hn.1 (List.mem_map.2 ⟨e', h', hs⟩)
      rw [Table.read_write_ne _ _ this]; exact ht e' (List.mem_cons_of_mem _ h')

/-- The parse of a whole run of good entries. -/
theorem parseEntries_ok {s : State} {p : Nat} {t : Table Bits} {es : List Entry} {rest : List Byte}
    (he : ∀ e ∈ es, entryOk e) (hn : (es.map Entry.sym).Nodup) (ht : ∀ e ∈ es, t.read e.sym = [])
    (hp : p ≤ s.inLen.toNat) (h : inputFrom s p = es.flatMap entryWord ++ rest) :
    parseEntries s es.length p t = .ok (p + (es.flatMap entryWord).length, addEntries t es) :=
  parseEntries_more (k := 0) he hn ht hp h

/-- The parse of an input that ends inside the entries or inside the valid-bit count. -/
theorem parseEntries_cut {s : State} {p : Nat} {t : Table Bits} {es : List Entry} {v m : Nat}
    (he : ∀ e ∈ es, entryOk e) (hn : (es.map Entry.sym).Nodup) (ht : ∀ e ∈ es, t.read e.sym = [])
    (hp : p ≤ s.inLen.toNat) (hm : m < (es.flatMap entryWord ++ be32 v).length)
    (h : inputFrom s p = (es.flatMap entryWord ++ be32 v).take m) :
    parseEntries s es.length p t = .error .corruptHeader ∨
      ∃ p' t', parseEntries s es.length p t = .ok (p', t') ∧ s.inLen.toNat < p' + 4 := by
  induction es generalizing p t m with
  | nil =>
    refine .inr ⟨p, t, rfl, ?_⟩
    have hl := length_inputFrom h hp
    simp at hm hl; omega
  | cons e es ih =>
    have hl := length_inputFrom h hp
    have hlm : ((List.flatMap entryWord (e :: es) ++ be32 v).take m).length = m := by
      rw [List.length_take]; omega
    rw [hlm] at hl
    have hoe := he e (by simp)
    have hlw := length_entryWord hoe
    simp only [List.map_cons, List.nodup_cons] at hn
    rw [List.flatMap_cons, List.append_assoc] at h hm
    by_cases h2 : m < 2 + ceil8 e.len
    · left
      by_cases h1 : m < 2
      · simp only [List.length_cons]; unfold parseEntries; rw [if_pos (by omega)]
      · have hw : ∀ j, j < m → inByte s (p + j) = (entryWord e).getD j 0 := by
          intro j hj
          have : inputFrom s p = (entryWord e).take m ++ [] := by
            rw [h, List.take_append_of_le_length (by omega), List.append_nil]
          rw [inByte_of_inputFrom this (by rw [List.length_take]; omega)]
          simp [List.getD, hj]
        have hn1 : inByte s (p + 1) = BitVec.ofNat 8 e.len := by simpa [entryWord] using hw 1 (by omega)
        have hn' : (BitVec.ofNat 8 e.len).toNat = e.len := by have := hoe.2.1; simp; omega
        simp only [List.length_cons]; unfold parseEntries
        simp only [hn1, hn']
        rw [if_neg (by omega)]
        have := hoe.1
        rw [if_neg (by omega), if_pos (by omega)]
    · have hsplit : inputFrom s p = entryWord e ++ (es.flatMap entryWord ++ be32 v).take (m - (entryWord e).length) := by
        rw [h, List.take_append, List.take_of_length_le (l := entryWord e) (by omega)]
      rw [List.length_cons, parseEntries_cons hoe hp hsplit (ht e (by simp))]
      rw [List.length_append] at hm
      refine ih (fun e h => he e (List.mem_cons_of_mem _ h)) hn.2 ?_ (by omega) (by omega) (inputFrom_add hsplit)
      intro e' h'
      have : e'.sym ≠ e.sym := by
        intro hs; exact hn.1 (List.mem_map.2 ⟨e', h', hs⟩)
      rw [Table.read_write_ne _ _ this]; exact ht e' (List.mem_cons_of_mem _ h')

theorem take_append_drop_split {bs : List Byte} {k : Nat} (h : k ≤ bs.length) :
    ∃ xs ys, bs = xs ++ ys ∧ xs.length = k := ⟨bs.take k, bs.drop k, (List.take_append_drop k bs).symm, by simp [h]⟩

/-- What a successful parse says of the input (44_artifact_serializer.md R232). -/
theorem parseEntries_inv {s : State} {k p p' : Nat} {t t' : Table Bits} (hp : p ≤ s.inLen.toNat)
    (h : parseEntries s k p t = .ok (p', t')) :
    ∃ es rest, es.length = k ∧ inputFrom s p = es.flatMap entryWord ++ rest ∧
      p' = p + (es.flatMap entryWord).length ∧ p' ≤ s.inLen.toNat ∧ (∀ e ∈ es, entryOk e) ∧
      (es.map Entry.sym).Nodup ∧ (∀ e ∈ es, t.read e.sym = []) ∧ t' = addEntries t es := by
  induction k generalizing p t with
  | zero =>
    simp only [parseEntries, Except.ok.injEq, Prod.mk.injEq] at h
    obtain ⟨rfl, rfl⟩ := h
    exact ⟨[], inputFrom s p, rfl, rfl, rfl, hp, by simp, by simp, by simp, rfl⟩
  | succ k ih =>
    unfold parseEntries at h
    simp only at h
    split at h
    · cases h
    · split at h
      · cases h
      · split at h
        · cases h
        · split at h
          · cases h
          · rename_i h1 h2 h3 h4
            obtain ⟨es, rest, hlen, hin, hp', hle, hok, hnd, ht, htab⟩ := ih (by omega) h
            let n := (inByte s (p + 1)).toNat
            have hlr : ceil8 n ≤ (inputFrom s (p + 2)).length := by simp [n]; omega
            let bs := (inputFrom s (p + 2)).take (ceil8 n)
            let e : Entry := ⟨inByte s p, n, bs⟩
            have hoe : entryOk e := ⟨by show 1 ≤ n; omega, by have := (inByte s (p + 1)).isLt; show n ≤ 255; omega,
              by show bs.length = ceil8 n; simp only [bs]; rw [List.length_take, Nat.min_eq_left hlr]⟩
            have hsplit2 : inputFrom s (p + 2) = bs ++ inputFrom s (p + 2 + ceil8 n) := by
              show _ = (inputFrom s (p + 2)).take (ceil8 n) ++ _
              conv_lhs => rw [← List.take_append_drop (ceil8 n) (inputFrom s (p + 2))]
              simp [inputFrom]
            have hsplit : inputFrom s p = [inByte s p, inByte s (p + 1)] ++ inputFrom s (p + 2) := by
              have hlt : p + 1 < (inputBytes s).length := by simp; omega
              have e0 := getD_inputBytes s p (by omega)
              have e1 := getD_inputBytes s (p + 1) (by omega)
              rw [List.getD_eq_getElem _ _ (by omega)] at e0 e1
              show (inputBytes s).drop p = _
              rw [List.drop_eq_getElem_cons (by omega), List.drop_eq_getElem_cons (by omega), e0, e1]; rfl
            have hcode : readCode s (p + 2) n = entryCode e :=
              readCode_of_inputFrom hsplit2 (by have h8 : bs.length = ceil8 n := hoe.2.2; rw [h8]; unfold ceil8; omega)
            have hnt : t.read e.sym = [] := by
              have : ¬ t.read (inByte s p) ≠ [] := by rwa [← hasCode_iff]
              exact not_not.1 this
            have hnotin : e.sym ∉ es.map Entry.sym := by
              intro hm
              obtain ⟨e', he', hs⟩ := List.mem_map.1 hm
              have := ht e' he'
              rw [hs, Table.read_write_self] at this
              exact entryCode_ne_nil hoe (hcode ▸ this)
            refine ⟨e :: es, rest, by simp [hlen], ?_, ?_, hle, ?_, ?_, ?_, ?_⟩
            · rw [hsplit, hsplit2, hin]
              simp [entryWord, e, n]
            · rw [hp']
              have := length_entryWord hoe
              simp only [List.flatMap_cons, List.length_append, this]; simp only [e, n]; omega
            · intro e' h'; rcases List.mem_cons.1 h' with rfl | h'; exacts [hoe, hok e' h']
            · simp only [List.map_cons, List.nodup_cons]; exact ⟨hnotin, hnd⟩
            · intro e' h'
              rcases List.mem_cons.1 h' with rfl | h'
              · exact hnt
              · have := ht e' h'
                rwa [Table.read_write_ne] at this
                intro hs; exact hnotin (List.mem_map.2 ⟨e', h', hs⟩)
            · rw [htab]
              show addEntries (t.write (inByte s p) (readCode s (p + 2) n)) es = addEntries (t.write e.sym (entryCode e)) es
              rw [hcode]

/-- The only error of the entries' parse. -/
theorem parseEntries_error {s : State} {k p : Nat} {t : Table Bits} {e : ErrKind}
    (h : parseEntries s k p t = .error e) : e = .corruptHeader := by
  induction k generalizing p t with
  | zero => simp [parseEntries] at h
  | succ k ih =>
    unfold parseEntries at h
    simp only at h
    split at h
    · cases h; rfl
    · split at h
      · cases h; rfl
      · split at h
        · cases h; rfl
        · split at h
          · cases h; rfl
          · exact ih h

/-! ### HDESER -/

/-- The errors of HDESER (60_exceptions.md R320). -/
theorem runHdeser_error {s : State} {e : ErrKind} (h : runHdeser s = .error e) :
    e = .ioError ∨ e = .corruptHeader ∨ e = .truncatedInput := by
  unfold runHdeser at h
  simp only at h
  split at h
  · cases h; simp
  · split at h
    · cases h; simp
    · split at h
      · cases h; simp
      · split at h
        · cases h; rename_i hk; have := parseEntries_error hk; simp [this]
        · unfold parseTail at h
          simp only at h
          split at h
          · cases h; simp
          · split at h
            · cases h; simp
            · split at h
              · cases h; simp
              · cases h

theorem length_le_of_nodup {es : List Entry} (h : (es.map Entry.sym).Nodup) : es.length ≤ 256 := by
  have := (h.subperm (l₂ := allSymbols) fun x _ => mem_allSymbols x).length_le
  simpa using this

/-- HDESER on an artifact with a whole header: only the payload size is left to judge. -/
theorem runHdeser_header {s : State} {es : List Entry} {v : Nat} {pay : List Byte} (hc : s.inLen.toNat ≤ inCap s)
    (he : entriesOk es) (hv : v < 2 ^ 32) (h : inputBytes s = artifactHeader es v ++ pay) :
    runHdeser s =
      if pay.length < ceil8 v then .error .truncatedInput
      else if ceil8 v < pay.length then .error .corruptHeader
      else .ok { s with
            dcode := addEntries (Table.fill []) es
            dnent := BitVec.ofNat 9 es.length
            dvbc := BitVec.ofNat 32 v
            payOff := BitVec.ofNat 32 (artifactHeader es v).length } := by
  have hlen := length_le_of_nodup he.2
  have h0 : inputFrom s 0 = be16 es.length ++ (es.flatMap entryWord ++ (be32 v ++ pay)) := by
    simp [inputFrom, h, artifactHeader_eq]
  have hl := length_inputFrom h0 (Nat.zero_le _)
  simp only [List.length_append, length_be16, length_be32] at hl
  have h2 : inputFrom s 2 = es.flatMap entryWord ++ (be32 v ++ pay) := by simpa using inputFrom_add h0
  have he16 : rdBe16 s 0 = es.length :=
    rdBe16_of_bytes s 0 _ (by omega) fun j hj => inByte_of_inputFrom h0 (by simpa using hj)
  have hparse := parseEntries_ok (t := Table.fill []) he.1 he.2 (by simp) (by omega) h2
  have h3 := inputFrom_add h2
  have he32 : rdBe32 s (2 + (es.flatMap entryWord).length) = v :=
    rdBe32_of_bytes s _ _ hv fun j hj => inByte_of_inputFrom h3 (by simpa using hj)
  unfold runHdeser
  rw [if_neg (by omega), if_neg (by omega)]
  simp only [he16]
  rw [if_neg (by omega), hparse]
  simp only [parseTail, he32]
  rw [if_neg (by omega)]
  have hsub : s.inLen.toNat - (2 + (es.flatMap entryWord).length + 4) = pay.length := by omega
  have hah : (artifactHeader es v).length = 2 + (es.flatMap entryWord).length + 4 := by
    simp [artifactHeader_eq]; omega
  rw [hsub, hah]

/-- HDESER on a header that is cut. -/
theorem runHdeser_cut {s : State} {es : List Entry} {v : Nat} (hc : s.inLen.toNat ≤ inCap s)
    (he : entriesOk es) (hl : s.inLen.toNat < (artifactHeader es v).length)
    (h : inputBytes s = (artifactHeader es v).take s.inLen.toNat) :
    runHdeser s = .error .corruptHeader := by
  have hlen := length_le_of_nodup he.2
  unfold runHdeser
  rw [if_neg (by omega)]
  by_cases h2 : s.inLen.toNat < 2
  · rw [if_pos h2]
  · rw [if_neg h2]
    have h0 : inputFrom s 0 = be16 es.length ++ (es.flatMap entryWord ++ be32 v).take (s.inLen.toNat - 2) := by
      simp only [inputFrom, List.drop_zero]
      rw [h, artifactHeader_eq, List.append_assoc, List.take_append, List.take_of_length_le (l := be16 es.length) (by simp; omega)]
      simp
    have he16 : rdBe16 s 0 = es.length :=
      rdBe16_of_bytes s 0 _ (by omega) fun j hj => inByte_of_inputFrom h0 (by simpa using hj)
    simp only [he16]
    rw [if_neg (by omega)]
    have hl' : s.inLen.toNat - 2 < (es.flatMap entryWord ++ be32 v).length := by
      simp [artifactHeader_eq] at hl ⊢; omega
    rcases parseEntries_cut (s := s) (p := 2) (t := Table.fill []) he.1 he.2 (by simp) (by omega) hl' (by simpa using inputFrom_add h0)
      with hp | ⟨p', t', hp, hlt⟩
    · rw [hp]
    · rw [hp]; simp only [parseTail]; rw [if_pos hlt]

/-- What a successful HDESER says of its input (44_artifact_serializer.md R232). -/
theorem runHdeser_inv {s t : State} (h : runHdeser s = .ok t) :
    s.inLen.toNat ≤ inCap s ∧
    ∃ es v pay, inputBytes s = artifactHeader es v ++ pay ∧ entriesOk es ∧ v < 2 ^ 32 ∧ pay.length = ceil8 v ∧
      t = { s with
            dcode := addEntries (Table.fill []) es
            dnent := BitVec.ofNat 9 es.length
            dvbc := BitVec.ofNat 32 v
            payOff := BitVec.ofNat 32 (artifactHeader es v).length } := by
  unfold runHdeser at h
  simp only at h
  split at h
  · cases h
  · split at h
    · cases h
    · split at h
      · cases h
      · split at h
        · cases h
        · rename_i hcap h2 h256 p' t' hp
          refine ⟨by omega, ?_⟩
          obtain ⟨es, rest, hlen, hin, hp', hle, hok, hnd, -, htab⟩ := parseEntries_inv (by omega) hp
          unfold parseTail at h
          simp only at h
          split at h
          · cases h
          · split at h
            · cases h
            · split at h
              · cases h
              · rename_i h4 hsh hlo
                have hr := inputFrom_add hin
                have hrl := length_inputFrom hr (by omega)
                rw [hp'] at h4
                have hsplit : rest = be32 (rdBe32 s p') ++ rest.drop 4 := by
                  obtain ⟨a, b, c, d, r, rfl⟩ : ∃ a b c d r, rest = a :: b :: c :: d :: r := by
                    match rest, (show 4 ≤ rest.length by omega) with
                    | a :: b :: c :: d :: r, _ => exact ⟨a, b, c, d, r, rfl⟩
                  have hr' : inputFrom s (2 + (es.flatMap entryWord).length) = [a, b, c, d] ++ r := hr
                  rw [← hp'] at hr'
                  have b0 : inByte s p' = a := by simpa using inByte_of_inputFrom (j := 0) hr' (by simp)
                  have b1 : inByte s (p' + 1) = b := by simpa using inByte_of_inputFrom (j := 1) hr' (by simp)
                  have b2 : inByte s (p' + 2) = c := by simpa using inByte_of_inputFrom (j := 2) hr' (by simp)
                  have b3 : inByte s (p' + 3) = d := by simpa using inByte_of_inputFrom (j := 3) hr' (by simp)
                  rw [be32_rdBe32, b0, b1, b2, b3]; rfl
                have h0 : inputBytes s = be16 (rdBe16 s 0) ++ inputFrom s 2 := by
                  have e0 := getD_inputBytes s 0 (by omega)
                  have e1 := getD_inputBytes s 1 (by omega)
                  rw [be16_rdBe16, ← e0, show (0 : Nat) + 1 = 1 by rfl, ← e1]
                  simp only [inputFrom]
                  match hb : inputBytes s, (show 2 ≤ (inputBytes s).length by simp; omega) with
                  | a :: b :: r, _ => simp
                refine ⟨es, rdBe32 s p', rest.drop 4, ?_, ⟨hok, hnd⟩, rdBe32_lt s p', ?_, ?_⟩
                · rw [h0, hin, artifactHeader_eq, hlen]
                  conv_lhs => rw [hsplit]
                  simp
                · rw [List.length_drop]; rw [hp'] at hsh hlo ⊢; omega
                · cases h
                  have : (artifactHeader es (rdBe32 s p')).length = p' + 4 := by
                    rw [hp']; simp [artifactHeader_eq]; omega
                  rw [this, htab, hlen]

end Sys2Proof.Machine
end

