-- ==== Sys2Proof/Laws/Trie.lean ====
section
/-! SUPPORT. The decoder trie: what inserting codes does, and that TRECON accepts exactly the prefix-free tables
(46_tree_reconstructor.md R265 to R268). -/

namespace Sys2Proof.Machine

/-! ### Walking a pool -/

theorem trieWalk_append (t : List TrieNode) (n : Nat) (p q : Bits) :
    trieWalk t n (p ++ q) = (trieWalk t n p).bind fun m => trieWalk t m q := by
  induction p generalizing n with
  | nil => rfl
  | cons x p ih =>
    simp only [List.cons_append, trieWalk]
    cases h : trieChild (trieNode t n) x with
    | none => rfl
    | some m => exact ih m

theorem trieWalk_concat (t : List TrieNode) (n : Nat) (p : Bits) (x : Bool) :
    trieWalk t n (p ++ [x]) = (trieWalk t n p).bind fun m => trieChild (trieNode t m) x := by
  rw [trieWalk_append]
  congr 1
  funext m
  simp only [trieWalk]
  cases trieChild (trieNode t m) x <;> rfl

theorem trieWalk_prefix_ne_none {t : List TrieNode} {n : Nat} {p q : Bits} (h : p.IsPrefix q)
    (hq : trieWalk t n q ≠ none) : trieWalk t n p ≠ none := by
  obtain ⟨r, rfl⟩ := h
  rw [trieWalk_append] at hq
  intro hp; rw [hp] at hq; exact hq rfl

theorem trieSymbol_of_walk {t : List TrieNode} {p : Bits} {n : Nat} (h : trieWalk t 0 p = some n) :
    trieSymbol t p = (trieNode t n).sym := by simp [trieSymbol, h]

theorem trieSymbol_of_no_walk {t : List TrieNode} {p : Bits} (h : trieWalk t 0 p = none) : trieSymbol t p = none := by
  simp [trieSymbol, h]

theorem trieWalk_of_symbol {t : List TrieNode} {p : Bits} (h : trieSymbol t p ≠ none) : trieWalk t 0 p ≠ none :=
  fun hn => h (trieSymbol_of_no_walk hn)

/-- A pool that is a tree: children in range, one path to each node, symbols at childless nodes only. -/
structure TrieRep (t : List TrieNode) : Prop where
  pos : 0 < t.length
  childLt : ∀ n x m, trieChild (trieNode t n) x = some m → m < t.length
  inj : ∀ p q n, trieWalk t 0 p = some n → trieWalk t 0 q = some n → p = q
  leaf : ∀ n, (trieNode t n).sym ≠ none → ∀ x, trieChild (trieNode t n) x = none

theorem TrieRep.walkLt {t : List TrieNode} (h : TrieRep t) {p : Bits} {n : Nat} (hw : trieWalk t 0 p = some n) :
    n < t.length := by
  induction p using List.reverseRecOn generalizing n with
  | nil => simp [trieWalk] at hw; subst hw; exact h.pos
  | append_singleton p x _ =>
    rw [trieWalk_concat] at hw
    obtain ⟨m, _, hm⟩ := Option.bind_eq_some_iff.1 hw
    exact h.childLt m x n hm

theorem trieNode_root (n : Nat) : trieNode [emptyTrieNode] n = emptyTrieNode := by
  cases n <;> simp [trieNode, emptyTrieNode]

/-- The pool TRECON starts from (46_tree_reconstructor.md R266). -/
theorem trieRep_root : TrieRep [emptyTrieNode] := by
  have hc : ∀ n x, trieChild (trieNode [emptyTrieNode] n) x = none := by
    intro n x; rw [trieNode_root]; cases x <;> rfl
  have hw : ∀ p n, trieWalk [emptyTrieNode] 0 p = some n → p = [] := by
    intro p n h
    cases p with
    | nil => rfl
    | cons x p => simp [trieWalk, hc] at h
  refine ⟨by simp, ?_, ?_, ?_⟩
  · intro n x m h; rw [hc] at h; cases h
  · intro p q n hp hq; rw [hw p n hp, hw q n hq]
  · intro n _ x; exact hc n x

theorem trieWalk_root {p : Bits} (h : trieWalk [emptyTrieNode] 0 p ≠ none) : p = [] := by
  cases p with
  | nil => rfl
  | cons x p =>
    have : trieChild (trieNode [emptyTrieNode] 0) x = none := by rw [trieNode_root]; cases x <;> rfl
    simp [trieWalk, this] at h

theorem trieSymbol_root (p : Bits) : trieSymbol [emptyTrieNode] p = none := by
  cases p with
  | nil => rw [trieSymbol_of_walk (n := 0) rfl, trieNode_root]; rfl
  | cons x p =>
    apply trieSymbol_of_no_walk
    have : trieChild (trieNode [emptyTrieNode] 0) x = none := by rw [trieNode_root]; cases x <;> rfl
    simp [trieWalk, this]

/-! ### Adding a child, setting a symbol -/

/-- The pool with a new child `x` at node `n`. -/
abbrev addChild (t : List TrieNode) (n : Nat) (x : Bool) : List TrieNode :=
  t.set n (setChild (trieNode t n) x t.length) ++ [emptyTrieNode]

theorem trieNode_addChild {t : List TrieNode} {n : Nat} (x : Bool) (hn : n < t.length) (m : Nat) :
    trieNode (addChild t n x) m = if m = n then setChild (trieNode t n) x t.length else trieNode t m := by
  by_cases h : m = n
  · subst h
    simp [addChild, trieNode, hn, List.getElem?_append]
  · rw [if_neg h]
    have h' : ¬ n = m := fun e => h e.symm
    by_cases hl : m < t.length
    · simp [trieNode, List.getElem?_append, hl, h']
    · by_cases he : m = t.length
      · subst he; simp [trieNode, emptyTrieNode]
      · have : t.length + 1 ≤ m := by omega
        simp [trieNode, hl, show ¬ m < t.length + 1 by omega]

theorem trieChild_addChild {t : List TrieNode} {n : Nat} {x : Bool} (hn : n < t.length) (m : Nat) (y : Bool) :
    trieChild (trieNode (addChild t n x) m) y =
      if m = n ∧ y = x then some t.length else trieChild (trieNode t m) y := by
  rw [trieNode_addChild x hn]
  by_cases h : m = n
  · subst h; cases x <;> cases y <;> simp [setChild, trieChild]
  · simp [h]

theorem sym_addChild {t : List TrieNode} {n : Nat} {x : Bool} (hn : n < t.length) (m : Nat) :
    (trieNode (addChild t n x) m).sym = (trieNode t m).sym := by
  rw [trieNode_addChild x hn]
  by_cases h : m = n
  · subst h; cases x <;> simp [setChild]
  · simp [h]

theorem trieWalk_addChild {t : List TrieNode} (hr : TrieRep t) {pre : Bits} {n : Nat} {x : Bool}
    (hw : trieWalk t 0 pre = some n) (hc : trieChild (trieNode t n) x = none) (q : Bits) :
    trieWalk (addChild t n x) 0 q = if q = pre ++ [x] then some t.length else trieWalk t 0 q := by
  have hn := hr.walkLt hw
  have hnone : trieWalk t 0 (pre ++ [x]) = none := by rw [trieWalk_concat, hw]; exact hc
  have hdef : ∀ y, trieChild (trieNode t t.length) y = none := by
    intro y; cases y <;> simp [trieNode, trieChild]
  induction q using List.reverseRecOn with
  | nil => simp [trieWalk]
  | append_singleton q y ih =>
    rw [trieWalk_concat, ih]
    by_cases hq : q = pre ++ [x]
    · subst hq
      have h1 : pre ++ [x] ++ [y] ≠ pre ++ [x] := by
        intro e; have := congrArg List.length e; simp at this
      rw [if_pos rfl, if_neg h1, trieWalk_concat, hnone]
      simp only [Option.bind_some, Option.bind_none]
      rw [trieChild_addChild hn, if_neg (by omega)]; exact hdef y
    · rw [if_neg hq]
      cases hm : trieWalk t 0 q with
      | none =>
        have : q ++ [y] ≠ pre ++ [x] := by
          intro e
          have := (List.append_inj' e rfl).1
          rw [this, hw] at hm; cases hm
        rw [if_neg this, trieWalk_concat, hm]; rfl
      | some m =>
        simp only [Option.bind_some]
        rw [trieChild_addChild hn]
        by_cases hmy : m = n ∧ y = x
        · obtain ⟨rfl, rfl⟩ := hmy
          rw [hr.inj q pre m hm hw]; simp
        · have : q ++ [y] ≠ pre ++ [x] := by
            intro e
            obtain ⟨h1, h2⟩ := List.append_inj' e rfl
            rw [h1, hw] at hm
            simp at hm h2
            exact hmy ⟨hm.symm, h2⟩
          rw [if_neg hmy, if_neg this, trieWalk_concat, hm]; rfl

theorem trieSymbol_addChild {t : List TrieNode} (hr : TrieRep t) {pre : Bits} {n : Nat} {x : Bool}
    (hw : trieWalk t 0 pre = some n) (hc : trieChild (trieNode t n) x = none) (q : Bits) :
    trieSymbol (addChild t n x) q = trieSymbol t q := by
  have hn := hr.walkLt hw
  have hnone : trieWalk t 0 (pre ++ [x]) = none := by rw [trieWalk_concat, hw]; exact hc
  by_cases hq : q = pre ++ [x]
  · subst hq
    rw [trieSymbol_of_no_walk hnone, trieSymbol_of_walk (n := t.length)]
    · rw [sym_addChild hn]; simp [trieNode]
    · rw [trieWalk_addChild hr hw hc, if_pos rfl]
  · have h1 := trieWalk_addChild hr hw hc q
    rw [if_neg hq] at h1
    cases hm : trieWalk t 0 q with
    | none => rw [trieSymbol_of_no_walk hm, trieSymbol_of_no_walk (h1.trans hm)]
    | some m => rw [trieSymbol_of_walk hm, trieSymbol_of_walk (h1.trans hm), sym_addChild hn]

theorem trieRep_addChild {t : List TrieNode} (hr : TrieRep t) {pre : Bits} {n : Nat} {x : Bool}
    (hw : trieWalk t 0 pre = some n) (hc : trieChild (trieNode t n) x = none) (hs : (trieNode t n).sym = none) :
    TrieRep (addChild t n x) := by
  have hn := hr.walkLt hw
  refine ⟨by simp, ?_, ?_, ?_⟩
  · intro m y k h
    rw [trieChild_addChild hn] at h
    split at h
    · cases h; simp
    · have := hr.childLt m y k h; simp; omega
  · intro p q m hp hq
    rw [trieWalk_addChild hr hw hc] at hp hq
    split at hp
    · split at hq
      · simp_all
      · cases hp; have := hr.walkLt hq; omega
    · split at hq
      · cases hq; have := hr.walkLt hp; omega
      · exact hr.inj p q m hp hq
  · intro m hm y
    rw [sym_addChild hn] at hm
    rw [trieChild_addChild hn, if_neg]
    · exact hr.leaf m hm y
    · rintro ⟨rfl, -⟩; exact hm hs

/-- The pool with symbol `b` at node `n`. -/
abbrev setSym (t : List TrieNode) (n : Nat) (b : Byte) : List TrieNode := t.set n { trieNode t n with sym := some b }

theorem trieNode_setSym {t : List TrieNode} {n : Nat} (b : Byte) (hn : n < t.length) (m : Nat) :
    trieNode (setSym t n b) m = if m = n then { trieNode t n with sym := some b } else trieNode t m := by
  by_cases h : m = n
  · subst h; simp [trieNode, hn]
  · have h' : ¬ n = m := fun e => h e.symm
    simp [trieNode, h, h']

theorem trieChild_setSym {t : List TrieNode} {n : Nat} (b : Byte) (hn : n < t.length) (m : Nat) (y : Bool) :
    trieChild (trieNode (setSym t n b) m) y = trieChild (trieNode t m) y := by
  rw [trieNode_setSym b hn]
  by_cases h : m = n
  · subst h; cases y <;> simp [trieChild]
  · simp [h]

theorem trieWalk_setSym {t : List TrieNode} {n : Nat} (b : Byte) (hn : n < t.length) (m : Nat) (q : Bits) :
    trieWalk (setSym t n b) m q = trieWalk t m q := by
  induction q generalizing m with
  | nil => rfl
  | cons y q ih =>
    simp only [trieWalk, trieChild_setSym b hn, ih]

theorem trieSymbol_setSym {t : List TrieNode} (hr : TrieRep t) {pre : Bits} {n : Nat} (b : Byte)
    (hw : trieWalk t 0 pre = some n) (q : Bits) :
    trieSymbol (setSym t n b) q = if q = pre then some b else trieSymbol t q := by
  have hn := hr.walkLt hw
  have h1 := trieWalk_setSym b hn 0 q
  cases hm : trieWalk t 0 q with
  | none =>
    have : q ≠ pre := by rintro rfl; rw [hw] at hm; cases hm
    rw [if_neg this, trieSymbol_of_no_walk hm, trieSymbol_of_no_walk (h1.trans hm)]
  | some m =>
    rw [trieSymbol_of_walk hm, trieSymbol_of_walk (h1.trans hm), trieNode_setSym b hn]
    by_cases hmn : m = n
    · subst hmn; rw [hr.inj q pre m hm hw]; simp
    · have : q ≠ pre := by rintro rfl; rw [hw] at hm; exact hmn (Option.some.inj hm).symm
      simp [hmn, this]

theorem trieRep_setSym {t : List TrieNode} (hr : TrieRep t) {pre : Bits} {n : Nat} (b : Byte)
    (hw : trieWalk t 0 pre = some n) (hc : ∀ x, trieChild (trieNode t n) x = none) : TrieRep (setSym t n b) := by
  have hn := hr.walkLt hw
  refine ⟨by simpa using hr.pos, ?_, ?_, ?_⟩
  · intro m y k h
    rw [trieChild_setSym b hn] at h
    simpa using hr.childLt m y k h
  · intro p q m hp hq
    rw [trieWalk_setSym b hn] at hp hq
    exact hr.inj p q m hp hq
  · intro m hm y
    rw [trieChild_setSym b hn]
    rw [trieNode_setSym b hn] at hm
    by_cases h : m = n
    · subst h; exact hc y
    · simp [h] at hm; exact hr.leaf m hm y

/-! ### Inserting one code -/

/-- No symbol lies on the path, and no node below its end. -/
def trieClear (t : List TrieNode) (w : Bits) : Prop :=
  (∀ q, q.IsPrefix w → trieSymbol t q = none) ∧ ∀ y, trieWalk t 0 (w ++ [y]) = none

/-- Inserting a code from a node on its path: it succeeds exactly when the path is clear. -/
theorem insertCode_spec (b : Byte) (bits : Bits) {t : List TrieNode} {n : Nat} {pre : Bits} (hr : TrieRep t)
    (hw : trieWalk t 0 pre = some n) (hp : ∀ q, q.IsPrefix pre → q ≠ pre → trieSymbol t q = none) :
    (∃ t', insertCode b bits n t = .ok t' ∧ TrieRep t' ∧
      (∀ q, trieSymbol t' q = if q = pre ++ bits then some b else trieSymbol t q) ∧
      (∀ q, trieWalk t' 0 q ≠ none → trieWalk t 0 q ≠ none ∨ q.IsPrefix (pre ++ bits)) ∧
      t'.length ≤ t.length + bits.length ∧ trieClear t (pre ++ bits)) ∨
    (insertCode b bits n t = .error .corruptHeader ∧ ¬ trieClear t (pre ++ bits)) := by
  have hsym := trieSymbol_of_walk hw
  induction bits generalizing t n pre with
  | nil =>
    simp only [List.append_nil, insertCode]
    split
    · rename_i h
      refine .inr ⟨rfl, ?_⟩
      rintro ⟨h1, h2⟩
      have hs : (trieNode t n).sym = none := by rw [← hsym]; exact h1 pre (List.prefix_refl _)
      have hc : ∀ y, trieChild (trieNode t n) y = none := by
        intro y; have := h2 y; rwa [trieWalk_concat, hw] at this
      rcases h with h | h | h
      · exact h hs
      · exact h (hc false)
      · exact h (hc true)
    · rename_i h
      simp only [ne_eq, not_or, not_not] at h
      have hc : ∀ y, trieChild (trieNode t n) y = none := by
        intro y; cases y
        · exact h.2.1
        · exact h.2.2
      refine .inl ⟨setSym t n b, rfl, trieRep_setSym hr b hw hc, trieSymbol_setSym hr b hw, ?_, by simp, ?_, ?_⟩
      · intro q hq; rw [trieWalk_setSym b (hr.walkLt hw)] at hq; exact .inl hq
      · intro q hq
        by_cases e : q = pre
        · rw [e, hsym]; exact h.1
        · exact hp q hq e
      · intro y; rw [trieWalk_concat, hw]; exact hc y
  | cons x xs ih =>
    have happ : pre ++ x :: xs = pre ++ [x] ++ xs := by simp
    simp only [insertCode]
    split
    · rename_i h
      refine .inr ⟨rfl, ?_⟩
      rintro ⟨h1, -⟩
      exact h (by rw [← hsym]; exact h1 pre (List.prefix_append _ _))
    · rename_i h
      have hs : (trieNode t n).sym = none := not_not.1 h
      have hp' : ∀ q, q.IsPrefix (pre ++ [x]) → q ≠ pre ++ [x] → trieSymbol t q = none := by
        intro q hq hne
        rcases List.prefix_concat_iff.1 hq with e | hq'
        · exact absurd e hne
        · by_cases e : q = pre
          · rw [e, hsym]; exact hs
          · exact hp q hq' e
      cases hc : trieChild (trieNode t n) x with
      | some m =>
        have hw' : trieWalk t 0 (pre ++ [x]) = some m := by rw [trieWalk_concat, hw]; exact hc
        have := ih hr hw' hp' (trieSymbol_of_walk hw')
        rw [happ]
        simp only [List.length_cons]
        rcases this with ⟨t', h1, h2, h3, h4, h5, h6⟩ | h
        · exact .inl ⟨t', h1, h2, h3, h4, by omega, h6⟩
        · exact .inr h
      | none =>
        have hr' := trieRep_addChild hr hw hc hs
        have hww := trieWalk_addChild hr hw hc
        have hss := trieSymbol_addChild hr hw hc
        have hw' : trieWalk (addChild t n x) 0 (pre ++ [x]) = some t.length := by rw [hww, if_pos rfl]
        have hclear : trieClear (addChild t n x) (pre ++ [x] ++ xs) ↔ trieClear t (pre ++ [x] ++ xs) := by
          unfold trieClear
          simp only [hss]
          refine and_congr Iff.rfl (forall_congr' fun y => ?_)
          rw [hww, if_neg]
          intro e; have := congrArg List.length e; simp at this
        have := ih hr' hw' (fun q h1 h2 => by rw [hss]; exact hp' q h1 h2) (trieSymbol_of_walk hw')
        rw [happ]
        simp only [List.length_cons]
        rcases this with ⟨t', h1, h2, h3, h4, h5, h6⟩ | h
        · refine .inl ⟨t', h1, h2, ?_, ?_, ?_, hclear.1 h6⟩
          · intro q; rw [h3, hss]
          · intro q hq
            rcases h4 q hq with h | h
            · rw [hww] at h
              split at h
              · rename_i e; rw [e]; exact .inr (List.prefix_append _ _)
              · exact .inl h
            · exact .inr h
          · simp at h5; omega
        · exact .inr ⟨h.1, fun hc => h.2 (hclear.2 hc)⟩

/-! ### Inserting all codes -/

/-- The pool holds the codes of exactly the symbols `S`, and every node lies on the way to one of them. -/
def TriePart (c : Table Bits) (S : List Byte) (t : List TrieNode) : Prop :=
  (∀ q b, trieSymbol t q = some b ↔ b ∈ S ∧ c.read b = q) ∧
    ∀ q, q ≠ [] → trieWalk t 0 q ≠ none → ∃ b ∈ S, q.IsPrefix (c.read b)

/-- The codes of the symbols `S` are pairwise prefix-free. -/
def PrefixFreeOn (c : Table Bits) (S : List Byte) : Prop :=
  ∀ x ∈ S, ∀ y ∈ S, x ≠ y → ¬ (c.read x).IsPrefix (c.read y)

theorem triePart_root (c : Table Bits) : TriePart c [] [emptyTrieNode] :=
  ⟨fun q b => by rw [trieSymbol_root]; simp, fun q hq hw => absurd (trieWalk_root hw) hq⟩

/-- A path is clear exactly when it conflicts with no code held. -/
theorem trieClear_iff {c : Table Bits} {S : List Byte} {t : List TrieNode} (h : TriePart c S t) (w : Bits) :
    trieClear t w ↔ ∀ x ∈ S, ¬ (c.read x).IsPrefix w ∧ ¬ w.IsPrefix (c.read x) := by
  constructor
  · rintro ⟨h1, h2⟩ x hx
    have hs : trieSymbol t (c.read x) = some x := (h.1 _ _).2 ⟨hx, rfl⟩
    have hnp : ¬ (c.read x).IsPrefix w := by
      intro hp; rw [h1 _ hp] at hs; cases hs
    refine ⟨hnp, ?_⟩
    rintro ⟨r, hr⟩
    cases r with
    | nil => exact hnp (by rw [← hr]; simp)
    | cons y r =>
      have hw : trieWalk t 0 (c.read x) ≠ none := trieWalk_of_symbol (by rw [hs]; simp)
      exact trieWalk_prefix_ne_none ⟨r, by rw [← hr]; simp⟩ hw (h2 y)
  · intro hx
    constructor
    · intro q hq
      cases hs : trieSymbol t q with
      | none => rfl
      | some b =>
        obtain ⟨hb, rfl⟩ := (h.1 _ _).1 hs
        exact absurd hq (hx b hb).1
    · intro y
      by_contra hw
      obtain ⟨b, hb, hp⟩ := h.2 _ (by simp) hw
      exact (hx b hb).2 ((List.prefix_append _ _).trans hp)

theorem insertAll_spec (c : Table Bits) (bs : List Byte) {S : List Byte} {t : List TrieNode} (hr : TrieRep t)
    (ht : TriePart c S t) (hpf : PrefixFreeOn c S) (hn : bs.Nodup) (hd : ∀ b ∈ bs, b ∉ S) :
    (∃ t', insertAll c bs t = .ok t' ∧ TrieRep t' ∧ TriePart c (S ++ bs.filter (hasCode c)) t' ∧
      PrefixFreeOn c (S ++ bs.filter (hasCode c)) ∧
      t'.length ≤ t.length + (bs.map fun b => (c.read b).length).sum) ∨
    (insertAll c bs t = .error .corruptHeader ∧ ¬ PrefixFreeOn c (S ++ bs.filter (hasCode c))) := by
  induction bs generalizing S t with
  | nil => exact .inl ⟨t, rfl, hr, by simpa using ht, by simpa using hpf, by simp⟩
  | cons b bs ih =>
    obtain ⟨hb, hn'⟩ := List.nodup_cons.1 hn
    simp only [insertAll]
    by_cases hcode : hasCode c b = true
    · rw [if_neg (by simp [hcode])]
      have hbS := hd b (by simp)
      have e : S ++ (b :: bs).filter (hasCode c) = (S ++ [b]) ++ bs.filter (hasCode c) := by
        simp [hcode]
      rw [e]
      have hcl := trieClear_iff ht (c.read b)
      rcases insertCode_spec b (c.read b) (n := 0) (pre := []) hr rfl
          (fun q hq hne => absurd (List.prefix_nil.1 hq) hne) with ⟨t', h1, h2, h3, h4, h5, h6⟩ | ⟨h1, h2⟩
      · rw [h1]
        simp only [List.nil_append] at h3 h4 h5 h6
        have hx := hcl.1 h6
        have hne : c.read b ≠ [] := by simpa [hasCode] using hcode
        have ht' : TriePart c (S ++ [b]) t' := by
          constructor
          · intro q x
            rw [h3]
            by_cases hq : q = c.read b
            · rw [if_pos hq]
              constructor
              · intro hx; cases hx; simp [hq]
              · rintro ⟨hxm, hxq⟩
                rcases List.mem_append.1 hxm with hxS | hxb
                · exact absurd (List.prefix_refl _) (by have := (hx x hxS).1; rwa [hxq, hq] at this)
                · simp at hxb; rw [hxb]
            · rw [if_neg hq, ht.1]
              constructor
              · rintro ⟨hxS, hxq⟩; exact ⟨by simp [hxS], hxq⟩
              · rintro ⟨hxm, hxq⟩
                rcases List.mem_append.1 hxm with hxS | hxb
                · exact ⟨hxS, hxq⟩
                · simp at hxb; subst hxb; exact absurd hxq.symm hq
          · intro q hq hw
            rcases h4 q hw with h | h
            · obtain ⟨x, hxS, hxp⟩ := ht.2 q hq h; exact ⟨x, by simp [hxS], hxp⟩
            · exact ⟨b, by simp, h⟩
        have hpf' : PrefixFreeOn c (S ++ [b]) := by
          intro x hxm y hym hxy
          simp only [List.mem_append, List.mem_singleton] at hxm hym
          rcases hxm with hxS | rfl
          · rcases hym with hyS | rfl
            · exact hpf x hxS y hyS hxy
            · exact (hx x hxS).1
          · rcases hym with hyS | rfl
            · exact (hx y hyS).2
            · exact absurd rfl hxy
        have := ih h2 ht' hpf' hn' (by
          intro x hxm
          simp only [List.mem_append, List.mem_singleton, not_or]
          exact ⟨hd x (by simp [hxm]), by rintro rfl; exact hb hxm⟩)
        rcases this with ⟨t'', g1, g2, g3, g4, g5⟩ | h
        · exact .inl ⟨t'', g1, g2, g3, g4, by simp only [List.map_cons, List.sum_cons]; omega⟩
        · exact .inr h
      · rw [h1]
        refine .inr ⟨rfl, fun hall => h2 ?_⟩
        simp only [List.nil_append]
        rw [hcl]
        intro x hxS
        have hxb : x ≠ b := by rintro rfl; exact hbS hxS
        exact ⟨hall x (by simp [hxS]) b (by simp) hxb, hall b (by simp) x (by simp [hxS]) (Ne.symm hxb)⟩
    · rw [if_pos (by simp [hcode])]
      have e : (b :: bs).filter (hasCode c) = bs.filter (hasCode c) := by simp [hcode]
      rw [e]
      rcases ih hr ht hpf hn' (fun x hx => hd x (by simp [hx])) with ⟨t'', g1, g2, g3, g4, g5⟩ | h
      · exact .inl ⟨t'', g1, g2, g3, g4, by simp only [List.map_cons, List.sum_cons]; omega⟩
      · exact .inr h

theorem prefixFreeOn_iff (c : Table Bits) : PrefixFreeOn c ([] ++ allSymbols.filter (hasCode c)) ↔ prefixFree c := by
  constructor
  · intro h x y hxy hx hy
    exact h x (by simpa [hasCode] using hx) y (by simpa [hasCode] using hy) hxy
  · intro h x hx y hy hxy
    exact h x y hxy (by simpa [hasCode] using hx) (by simpa [hasCode] using hy)

theorem sum_length_le (c : Table Bits) (h : codesOk c) (l : List Byte) :
    (l.map fun b => (c.read b).length).sum ≤ 255 * l.length := by
  induction l with
  | nil => simp
  | cons b l ih =>
    have : (c.read b).length ≤ 255 := by simpa [codeWf] using h b
    simp only [List.map_cons, List.sum_cons, List.length_cons]; omega

theorem trieWf_of_rep {t : List TrieNode} (h : TrieRep t) (hl : t.length ≤ 65281) : trieWf t = true := by
  simp only [trieWf, Bool.and_eq_true, decide_eq_true_eq, List.all_eq_true]
  refine ⟨⟨h.pos, hl⟩, ?_⟩
  intro n hn
  obtain ⟨i, hi, rfl⟩ := List.getElem_of_mem hn
  have hnode : trieNode t i = t[i] := by simp [trieNode, hi]
  have h0 : childWf t.length t[i].c0 = true := by
    cases hc : t[i].c0 with
    | none => rfl
    | some m =>
      have := h.childLt i false m (by rw [hnode]; simp [trieChild, hc])
      simp [childWf, this]
  have h1 : childWf t.length t[i].c1 = true := by
    cases hc : t[i].c1 with
    | none => rfl
    | some m =>
      have := h.childLt i true m (by rw [hnode]; simp [trieChild, hc])
      simp [childWf, this]
  have h2 : (t[i].sym.isNone || t[i].c0.isNone && t[i].c1.isNone) = true := by
    cases hs : t[i].sym with
    | none => rfl
    | some b =>
      have hl := h.leaf i (by rw [hnode, hs]; simp)
      rw [hnode] at hl
      have e0 := hl false
      have e1 := hl true
      simp [trieChild] at e0 e1
      simp [e0, e1]
  simp [trieNodeWf, h0, h1, h2]

/-- TRECON's loop: it succeeds exactly on prefix-free tables, with a trie of exactly their codes. -/
theorem insertAll_all (c : Table Bits) :
    (∃ t, insertAll c allSymbols [emptyTrieNode] = .ok t ∧ prefixFree c ∧ trieHolds t c ∧
      t.length ≤ 1 + (allSymbols.map fun b => (c.read b).length).sum ∧ TrieRep t) ∨
    (insertAll c allSymbols [emptyTrieNode] = .error .corruptHeader ∧ ¬ prefixFree c) := by
  have h := insertAll_spec c allSymbols trieRep_root (triePart_root c) (by intro x hx; simp at hx) nodup_allSymbols
    (by simp)
  rw [prefixFreeOn_iff] at h
  rcases h with ⟨t, h1, h2, h3, h4, h5⟩ | h
  · refine .inl ⟨t, h1, h4, ?_, by simpa using h5, h2⟩
    intro p b
    rw [h3.1]
    simp only [List.nil_append, List.mem_filter, mem_allSymbols, true_and]
    constructor
    · rintro ⟨hb, rfl⟩; exact ⟨by simpa [hasCode] using hb, rfl⟩
    · rintro ⟨hb, rfl⟩; exact ⟨by simpa [hasCode] using hb, rfl⟩
  · exact .inr h

/-- The errors of TRECON (60_exceptions.md R320). -/
theorem runTrecon_error {s : State} {e : ErrKind} (h : runTrecon s = .error e) :
    e = .sequenceError ∨ e = .corruptHeader := by
  unfold runTrecon at h
  split at h
  · cases h; simp
  · rcases insertAll_all s.dcode with ⟨t, ht, _⟩ | ⟨ht, _⟩
    · rw [ht] at h; cases h
    · rw [ht] at h; cases h; simp

end Sys2Proof.Machine
end

