-- ==== Sys2Proof/Laws/Payload.lean ====
section
/-! SUPPORT. PACK's and UNPACK's loops: the payload of an input, and the symbols of a payload (45_bit_packer.md R251,
47_bit_unpacker.md R281 to R284). -/

namespace Sys2Proof.Machine

theorem ceil8_mono {m n : Nat} (h : m ≤ n) : ceil8 m ≤ ceil8 n := by unfold ceil8; omega

/-! ### PACK -/

/-- The payload bits of a byte list: its codes in a row (45_bit_packer.md R250). -/
abbrev codeStream (c : Table Bits) (bs : List Byte) : Bits := bs.flatMap c.read

/-- A hasCode test that a coded symbol passes. -/
theorem hasCode_of_ne {c : Table Bits} {b : Byte} (h : c.read b ≠ []) : hasCode c b = true := by simpa [hasCode] using h

/-- The payload grows byte by byte. -/
theorem ceil8_codeStream_le (c : Table Bits) (bits : Bits) (b : Byte) (bs : List Byte) :
    ceil8 (bits ++ c.read b).length ≤ ceil8 (bits ++ codeStream c (b :: bs)).length := ceil8_mono (by simp)

theorem append_codeStream_cons (c : Table Bits) (bits : Bits) (b : Byte) (bs : List Byte) :
    bits ++ codeStream c (b :: bs) = (bits ++ c.read b) ++ codeStream c bs := by simp

/-- Every byte coded and the whole payload within OUT_CAP: the loop gives the code stream. -/
theorem packLoop_ok {s : State} {bs : List Byte} {bits : Bits} (hc : ∀ b ∈ bs, s.code.read b ≠ [])
    (hl : bs ≠ [] → s.hdrLen.toNat + ceil8 (bits ++ codeStream s.code bs).length ≤ outCap s) :
    packLoop s bs bits = .ok (bits ++ codeStream s.code bs) := by
  induction bs generalizing bits with
  | nil => simp [packLoop]
  | cons b bs ih =>
    have hl := hl (by simp)
    have := ceil8_codeStream_le s.code bits b bs
    simp only [packLoop]
    rw [if_neg (by simp [hasCode_of_ne (hc b (by simp))]), if_neg (by omega)]
    rw [append_codeStream_cons] at hl ⊢
    exact ih (fun x hx => hc x (by simp [hx])) fun _ => hl

/-- What the loop's success says of its input. -/
theorem packLoop_inv {s : State} {bs : List Byte} {bits r : Bits} (h : packLoop s bs bits = .ok r) :
    r = bits ++ codeStream s.code bs ∧ ∀ b ∈ bs, s.code.read b ≠ [] := by
  induction bs generalizing bits with
  | nil => cases h; simp
  | cons b bs ih =>
    simp only [packLoop] at h
    split at h
    · cases h
    · rename_i hb
      split at h
      · cases h
      · obtain ⟨h1, h2⟩ := ih h
        have hb' : s.code.read b ≠ [] := by simpa [hasCode] using hb
        exact ⟨by simp [h1], List.forall_mem_cons.2 ⟨hb', h2⟩⟩

theorem packLoop_error {s : State} {bs : List Byte} {bits : Bits} {e : ErrKind} (h : packLoop s bs bits = .error e) :
    e = .ioError ∨ e = .unknownSymbol := by
  induction bs generalizing bits with
  | nil => cases h
  | cons b bs ih =>
    simp only [packLoop] at h
    split at h
    · cases h; simp
    · split at h
      · cases h; simp
      · exact ih h

/-- The first byte without a code ends the loop, when what precedes it fits. -/
theorem packLoop_unknown {s : State} {pre post : List Byte} {b : Byte} {bits : Bits}
    (hc : ∀ x ∈ pre, s.code.read x ≠ [])
    (hl : pre ≠ [] → s.hdrLen.toNat + ceil8 (bits ++ codeStream s.code pre).length ≤ outCap s)
    (hb : s.code.read b = []) : packLoop s (pre ++ b :: post) bits = .error .unknownSymbol := by
  induction pre generalizing bits with
  | nil => simp [packLoop, hasCode, hb]
  | cons x pre ih =>
    have hl := hl (by simp)
    have := ceil8_codeStream_le s.code bits x pre
    simp only [List.cons_append, packLoop]
    rw [if_neg (by simp [hasCode_of_ne (hc x (by simp))]), if_neg (by omega)]
    rw [append_codeStream_cons] at hl
    exact ih (fun y hy => hc y (by simp [hy])) fun _ => hl

/-- Coded bytes whose payload so far does not fit end the loop in IO_ERROR, whatever follows. -/
theorem packLoop_full {s : State} {pre post : List Byte} {b : Byte} {bits : Bits}
    (hc : ∀ x ∈ pre ++ [b], s.code.read x ≠ [])
    (hl : outCap s < s.hdrLen.toNat + ceil8 (bits ++ codeStream s.code (pre ++ [b])).length) :
    packLoop s (pre ++ b :: post) bits = .error .ioError := by
  induction pre generalizing bits with
  | nil =>
    simp only [List.nil_append, packLoop]
    rw [if_neg (by simp [hasCode_of_ne (hc b (by simp))]), if_pos (by simpa using hl)]
  | cons x pre ih =>
    simp only [List.cons_append, packLoop]
    rw [if_neg (by simp [hasCode_of_ne (hc x (by simp))])]
    split
    · rfl
    · refine ih (fun y hy => hc y (by simp at hy ⊢; tauto)) ?_
      rw [List.cons_append, append_codeStream_cons] at hl
      exact hl

/-- The errors of PACK (60_exceptions.md R320). -/
theorem runPack_error {s : State} {e : ErrKind} (h : runPack s = .error e) :
    e = .ioError ∨ e = .unknownSymbol ∨ e = .sequenceError := by
  unfold runPack at h
  split at h
  · cases h; simp
  · split at h
    · cases h; simp
    · split at h
      · cases h; rename_i hk; rcases packLoop_error hk with rfl | rfl <;> simp
      · split at h
        · cases h; simp
        · split at h <;> cases h
          simp

/-- What a successful PACK says and leaves. -/
theorem runPack_inv {s t : State} (h : runPack s = .ok t) :
    s.valid.ct = true ∧ s.valid.hs = true ∧ s.inLen.toNat ≤ inCap s ∧ (∀ b ∈ inputBytes s, s.code.read b ≠ []) ∧
      (codeStream s.code (inputBytes s)).length = s.vbc.toNat ∧ s.hdrLen.toNat + ceil8 s.vbc.toNat ≤ outCap s ∧
      t = writeOut (keptHeader s ++ packMsb (codeStream s.code (inputBytes s))) s := by
  unfold runPack at h
  split at h
  · cases h
  · rename_i hv
    split at h
    · cases h
    · rename_i hc
      split at h
      · cases h
      · rename_i bits hb
        obtain ⟨h1, h2⟩ := packLoop_inv hb
        simp only [List.nil_append] at h1
        subst h1
        split at h
        · cases h
        · rename_i hvb
          split at h
          · cases h
          · rename_i hf
            have hv' := not_not.1 hv
            have hvb' := not_not.1 hvb
            rw [hvb'] at hf
            cases h
            exact ⟨hv'.1, hv'.2, by omega, h2, hvb', by omega, rfl⟩

/-- PACK on an input that matches its table and fits. -/
theorem runPack_ok {s : State} (hct : s.valid.ct = true) (hhs : s.valid.hs = true) (hc : s.inLen.toNat ≤ inCap s)
    (hb : ∀ b ∈ inputBytes s, s.code.read b ≠ []) (hv : (codeStream s.code (inputBytes s)).length = s.vbc.toNat)
    (hl : s.hdrLen.toNat + ceil8 s.vbc.toNat ≤ outCap s) :
    runPack s = .ok (writeOut (keptHeader s ++ packMsb (codeStream s.code (inputBytes s))) s) := by
  unfold runPack
  rw [if_neg (by simp [hct, hhs]), if_neg (by omega), packLoop_ok hb fun _ => by simpa [hv] using hl]
  simp only [List.nil_append, hv, ne_eq, not_true_eq_false, ↓reduceIte]
  rw [if_neg (by omega)]

/-- PACK on an input that matches its table and does not fit. -/
theorem runPack_full {s : State} (hct : s.valid.ct = true) (hhs : s.valid.hs = true) (hc : s.inLen.toNat ≤ inCap s)
    (hb : ∀ b ∈ inputBytes s, s.code.read b ≠ []) (hv : (codeStream s.code (inputBytes s)).length = s.vbc.toNat)
    (hl : outCap s < s.hdrLen.toNat + ceil8 s.vbc.toNat) : runPack s = .error .ioError := by
  unfold runPack
  rw [if_neg (by simp [hct, hhs]), if_neg (by omega)]
  rcases List.eq_nil_or_concat (inputBytes s) with h | ⟨pre, b, h⟩
  · rw [h] at hv ⊢
    have hv : ([] : Bits).length = s.vbc.toNat := hv
    simp only [packLoop, hv, ne_eq, not_true_eq_false, ↓reduceIte]
    rw [if_pos hl]
  · rw [List.concat_eq_append] at h
    rw [h] at hb hv ⊢
    rw [packLoop_full hb (by rw [List.nil_append, hv]; exact hl)]

/-! ### UNPACK -/

theorem unpackLoop_error {s : State} {r k n : Nat} {out : List Byte} {e : ErrKind}
    (h : unpackLoop s r k n out = .error e) : e = .truncatedInput ∨ e = .corruptPayload ∨ e = .ioError := by
  induction r generalizing k n out with
  | zero => simp [unpackLoop] at h
  | succ r ih =>
    simp only [unpackLoop] at h
    split at h
    · cases h; simp
    · split at h
      · cases h; simp
      · split at h
        · exact ih h
        · split at h
          · cases h; simp
          · exact ih h

/-- The output is no longer than the bits read, and stays within OUT_CAP (47_bit_unpacker.md R284). -/
theorem unpackLoop_length {s : State} {r k n m : Nat} {out out' : List Byte}
    (h : unpackLoop s r k n out = .ok (m, out')) :
    out'.length ≤ out.length + r ∧ (out.length ≤ outCap s → out'.length ≤ outCap s) := by
  induction r generalizing k n out with
  | zero =>
    simp only [unpackLoop, Except.ok.injEq, Prod.mk.injEq] at h
    obtain ⟨-, rfl⟩ := h; simp
  | succ r ih =>
    simp only [unpackLoop] at h
    split at h
    · cases h
    · split at h
      · cases h
      · split at h
        · have := ih h; exact ⟨by omega, this.2⟩
        · split at h
          · cases h
          · have := ih h
            simp only [List.length_append, List.length_singleton] at this
            exact ⟨by omega, fun hl => this.2 (by omega)⟩

/-- Reading the bits of a path on which no symbol lies. -/
theorem unpackLoop_path {s : State} {p : Bits} {r k n m : Nat} {out : List Byte}
    (hw : trieWalk s.trie n p = some m)
    (hs : ∀ q, q.IsPrefix p → q ≠ [] → ∀ n', trieWalk s.trie n q = some n' → (trieNode s.trie n').sym = none)
    (hb : ∀ j, j < p.length → bitMsb s s.payOff.toNat (k + j) = p.getD j false)
    (hl : ∀ j, j < p.length → s.payOff.toNat + (k + j) / 8 < s.inLen.toNat) :
    unpackLoop s (p.length + r) k n out = unpackLoop s r (k + p.length) m out := by
  induction p generalizing k n with
  | nil => simp [trieWalk] at hw; subst hw; simp
  | cons x p ih =>
    have hx : bitMsb s s.payOff.toNat k = x := by simpa using hb 0 (by simp)
    have hlx : s.payOff.toNat + k / 8 < s.inLen.toNat := by simpa using hl 0 (by simp)
    simp only [trieWalk] at hw
    cases hc : trieChild (trieNode s.trie n) x with
    | none => rw [hc] at hw; cases hw
    | some c =>
      rw [hc] at hw
      simp only at hw
      have hsym : (trieNode s.trie c).sym = none := hs [x] ⟨p, rfl⟩ (by simp) c (by simp [trieWalk, hc])
      rw [List.length_cons, show p.length + 1 + r = (p.length + r) + 1 by omega]
      simp only [unpackLoop]
      rw [if_neg (by omega), hx, hc]
      simp only [hsym]
      rw [ih hw]
      · congr 1; omega
      · intro q hq hne n' hn'
        refine hs (x :: q) (by simpa using hq) (by simp) n' ?_
        simp [trieWalk, hc, hn']
      · intro j hj
        have := hb (j + 1) (by simpa using hj)
        simp only [List.getD_cons_succ] at this
        rw [← this]; congr 1; omega
      · intro j hj
        have := hl (j + 1) (by simpa using hj)
        rwa [show k + 1 + j = k + (j + 1) by omega]

/-- No symbol lies on the way to a code's own. -/
theorem no_symbol_before {t : List TrieNode} {c : Table Bits} (hp : prefixFree c) (ht : trieHolds t c) {b : Byte}
    {q : Bits} (hb : c.read b ≠ []) (hq : q.IsPrefix (c.read b)) (hne : q ≠ c.read b) : trieSymbol t q = none := by
  cases h : trieSymbol t q with
  | none => rfl
  | some x =>
    obtain ⟨h1, h2⟩ := (ht q x).1 h
    have hxb : x ≠ b := by rintro rfl; exact hne h2.symm
    exact absurd (h2 ▸ hq) (hp x b hxb (by rw [h2]; exact h1) hb)

/-- Reading the bits of one code from the root: its symbol is emitted, or does not fit. -/
theorem unpackLoop_code {s : State} {c : Table Bits} (hp : prefixFree c) (ht : trieHolds s.trie c) {b : Byte}
    {r k : Nat} {out : List Byte} (hc : c.read b ≠ [])
    (hb : ∀ j, j < (c.read b).length → bitMsb s s.payOff.toNat (k + j) = (c.read b).getD j false)
    (hl : ∀ j, j < (c.read b).length → s.payOff.toNat + (k + j) / 8 < s.inLen.toNat) :
    unpackLoop s ((c.read b).length + r) k 0 out =
      if out.length = outCap s then .error .ioError
      else unpackLoop s r (k + (c.read b).length) 0 (out ++ [b]) := by
  have hsym : trieSymbol s.trie (c.read b) = some b := (ht _ _).2 ⟨hc, rfl⟩
  have hbefore := fun q => no_symbol_before hp ht (b := b) (q := q) hc
  revert hb hl hsym hbefore
  generalize c.read b = w at hc
  intro hb hl hsym hbefore
  obtain ⟨p, x, rfl⟩ : ∃ p x, w = p ++ [x] := ⟨w.dropLast, w.getLast hc, (List.dropLast_append_getLast hc).symm⟩
  obtain ⟨m, hm⟩ : ∃ m, trieWalk s.trie 0 (p ++ [x]) = some m := by
    cases h : trieWalk s.trie 0 (p ++ [x]) with
    | none => rw [trieSymbol_of_no_walk h] at hsym; cases hsym
    | some m => exact ⟨m, rfl⟩
  have hms := trieSymbol_of_walk hm
  rw [hsym] at hms
  rw [trieWalk_concat] at hm
  obtain ⟨n, hn, hch⟩ := Option.bind_eq_some_iff.1 hm
  have hpath := unpackLoop_path (s := s) (r := r + 1) (k := k) (out := out) hn
    (by
      intro q hq _ n' hn'
      rw [← trieSymbol_of_walk hn']
      refine hbefore q (hq.trans (List.prefix_append _ _)) ?_
      rintro rfl
      have := hq.length_le; simp at this)
    (by
      intro j hj
      rw [hb j (by simp; omega), List.getD_append _ _ _ _ hj])
    (fun j hj => hl j (by simp; omega))
  rw [List.length_append, List.length_singleton, show p.length + 1 + r = p.length + (r + 1) by omega, hpath]
  have hx := hb p.length (by simp)
  rw [List.getD_append_right _ _ _ _ (Nat.le_refl _)] at hx
  simp only [Nat.sub_self, List.getD_cons_zero] at hx
  have hlx := hl p.length (by simp)
  simp only [unpackLoop]
  rw [if_neg (by omega), hx, hch]
  simp only [← hms]
  rfl

/-- Reading the codes of `xs` in a row. -/
theorem unpackLoop_codes {s : State} {c : Table Bits} (hp : prefixFree c) (ht : trieHolds s.trie c) {xs : List Byte}
    {r k : Nat} {out : List Byte} (hc : ∀ x ∈ xs, c.read x ≠ [])
    (hb : ∀ j, j < (codeStream c xs).length → bitMsb s s.payOff.toNat (k + j) = (codeStream c xs).getD j false)
    (hl : ∀ j, j < (codeStream c xs).length → s.payOff.toNat + (k + j) / 8 < s.inLen.toNat)
    (ho : out.length + xs.length ≤ outCap s) :
    unpackLoop s ((codeStream c xs).length + r) k 0 out =
      unpackLoop s r (k + (codeStream c xs).length) 0 (out ++ xs) := by
  induction xs generalizing k out with
  | nil => simp
  | cons x xs ih =>
    simp only [List.length_cons] at ho
    have e : codeStream c (x :: xs) = c.read x ++ codeStream c xs := by simp
    rw [e] at hb hl ⊢
    simp only [List.length_append] at hb hl ⊢
    rw [Nat.add_assoc, unpackLoop_code hp ht (hc x (by simp))
        (fun j hj => by rw [hb j (by omega), List.getD_append _ _ _ _ hj]) (fun j hj => hl j (by omega)),
      if_neg (by omega), ih (fun y hy => hc y (by simp [hy]))]
    · simp [Nat.add_assoc]
    · intro j hj
      have := hb ((c.read x).length + j) (by omega)
      rw [List.getD_append_right _ _ _ _ (by omega)] at this
      rw [show k + (c.read x).length + j = k + ((c.read x).length + j) by omega, this]
      congr 1; omega
    · intro j hj
      have := hl ((c.read x).length + j) (by omega)
      rwa [show k + (c.read x).length + j = k + ((c.read x).length + j) by omega]
    · simp; omega

/-- The errors of UNPACK (60_exceptions.md R320). -/
theorem runUnpack_error {s : State} {e : ErrKind} (h : runUnpack s = .error e) :
    e = .sequenceError ∨ e = .ioError ∨ e = .truncatedInput ∨ e = .corruptPayload := by
  unfold runUnpack at h
  split at h
  · cases h; simp
  · split at h
    · cases h; simp
    · split at h
      · cases h; rename_i hk; rcases unpackLoop_error hk with rfl | rfl | rfl <;> simp
      · split at h
        · cases h; simp
        · cases h

/-- UNPACK of a payload that is the codes of `xs`. -/
theorem runUnpack_ok {s : State} {c : Table Bits} {xs : List Byte} (hv : s.valid.trie = true)
    (hcap : s.inLen.toNat ≤ inCap s) (hp : prefixFree c) (ht : trieHolds s.trie c) (hc : ∀ x ∈ xs, c.read x ≠ [])
    (hl : s.payOff.toNat + ceil8 s.dvbc.toNat ≤ s.inLen.toNat)
    (hb : (List.range s.dvbc.toNat).map (bitMsb s s.payOff.toNat) = codeStream c xs) (ho : xs.length ≤ outCap s) :
    runUnpack s = .ok (writeOut xs s) := by
  have hlen : s.dvbc.toNat = (codeStream c xs).length := by rw [← hb]; simp
  have := unpackLoop_codes (s := s) (r := 0) (k := 0) (out := []) hp ht hc
    (by
      intro j hj
      rw [← hb]
      simp [List.getD, show j < s.dvbc.toNat by omega])
    (by
      intro j hj
      unfold ceil8 at hl; omega)
    (by simpa using ho)
  unfold runUnpack
  rw [if_neg (by simp [hv]), if_neg (by omega), hlen]
  simp only [Nat.add_zero, Nat.zero_add, List.nil_append] at this
  rw [this]
  simp [unpackLoop]

end Sys2Proof.Machine
end

