-- ==== Sys2Proof/Laws/Stages.lean ====
section
/-! SUPPORT. Each command's completion when the host kept its duty, in the terms of its pseudocode's result
(40_command_model.md R152, R154, R155). -/

namespace Sys2Proof.Machine

/-- The state a verdict completes to. -/
abbrev settled (v : Verdict) : State :=
  { v.st with errcode := v.err, busy := false, done := true, latency := 0, tainted := false }

/-- The state of a stage that succeeds with `t`. -/
abbrev stageOk (i : Instr) (s t : State) : State := { t with valid := (s.valid.diff (killSet i)).union (genSet i) }

/-- The state of a stage that fails. -/
abbrev stageErr (i : Instr) (s : State) : State := { spoil i s with valid := s.valid.diff (killSet i) }

theorem runStage_ok (i : Instr) (s t : State) : runStage i s (.ok t) = ⟨.none, stageOk i s t⟩ := rfl

theorem runStage_error (i : Instr) (s : State) (e : ErrKind) : runStage i s (.error e) = ⟨e, stageErr i s⟩ := rfl

theorem runFcount_error {s : State} {e : ErrKind} (h : runFcount s = .error e) : e = .ioError := by
  unfold runFcount at h; split at h
  · cases h; rfl
  · cases h

theorem runTbuild_error {s : State} {e : ErrKind} (h : runTbuild s = .error e) : e = .sequenceError := by
  unfold runTbuild at h; split at h
  · cases h; rfl
  · split at h <;> cases h

theorem setCodes_error {s : State} {c : Table Bits} {e : ErrKind} (h : setCodes s c = .error e) : e = .ioError := by
  unfold setCodes at h; split at h
  · cases h; rfl
  · cases h

theorem runCgen_error {s : State} {e : ErrKind} (h : runCgen s = .error e) : e = .ioError ∨ e = .sequenceError := by
  unfold runCgen at h
  split at h
  · exact .inl (setCodes_error h)
  · split at h
    · exact .inl (setCodes_error h)
    · cases h; simp

theorem runHser_error {s : State} {e : ErrKind} (h : runHser s = .error e) : e = .ioError ∨ e = .sequenceError := by
  unfold runHser at h
  split at h
  · cases h; simp
  · simp only at h
    split at h
    · cases h; simp
    · cases h

/-! ### exec, by command -/

variable {s : State}

theorem exec_nop (h : dutiful s) : exec .nop s = .next (settled ⟨.none, s⟩) :=
  congrArg Host.Outcome.next (complete_dutiful _ _ h)

theorem exec_clear (h : dutiful s) : exec .clear s = .next (settled ⟨.none, stageOk .clear s (clearState s)⟩) :=
  congrArg Host.Outcome.next (complete_dutiful _ _ h)

theorem exec_fcount (h : dutiful s) : exec .fcount s = .next (settled (stageFcount s)) :=
  congrArg Host.Outcome.next (complete_dutiful _ _ h)

theorem exec_tbuild (h : dutiful s) : exec .tbuild s = .next (settled (stageTbuild s)) :=
  congrArg Host.Outcome.next (complete_dutiful _ _ h)

theorem exec_cgen (h : dutiful s) : exec .cgen s = .next (settled (stageCgen s)) :=
  congrArg Host.Outcome.next (complete_dutiful _ _ h)

theorem exec_hser (h : dutiful s) : exec .hser s = .next (settled (closeOutWriter (stageHser s))) :=
  congrArg Host.Outcome.next (complete_dutiful _ _ h)

theorem exec_pack (h : dutiful s) : exec .pack s = .next (settled (closeOutWriter (stagePack s))) :=
  congrArg Host.Outcome.next (complete_dutiful _ _ h)

theorem exec_hdeser (h : dutiful s) : exec .hdeser s = .next (settled (stageHdeser s)) :=
  congrArg Host.Outcome.next (complete_dutiful _ _ h)

theorem exec_trecon (h : dutiful s) : exec .trecon s = .next (settled (stageTrecon s)) :=
  congrArg Host.Outcome.next (complete_dutiful _ _ h)

theorem exec_unpack (h : dutiful s) : exec .unpack s = .next (settled (closeOutWriter (stageUnpack s))) :=
  congrArg Host.Outcome.next (complete_dutiful _ _ h)

theorem exec_compress (h : dutiful s) : exec .compress s = .next (settled (closeOutWriter (compressStages s))) :=
  congrArg Host.Outcome.next (complete_dutiful _ _ h)

theorem exec_decompress (h : dutiful s) : exec .decompress s = .next (settled (closeOutWriter (decompressStages s))) :=
  congrArg Host.Outcome.next (complete_dutiful _ _ h)

/-- Every command answers a next state: its completion (40_command_model.md R152). -/
theorem exec_next (i : Instr) (s : State) : ∃ v, exec i s = .next (complete (some i) s v) := by
  cases i <;> exact ⟨_, rfl⟩

/-! ### What a stage can do -/

/-- A stage: its pseudocode succeeds with `t` and the valid bits become V \ K ∪ G, or it fails with an error of its own. -/
theorem stage_cases {i : Instr} {s : State} {r : Except ErrKind State} {P : ErrKind → Prop}
    (he : ∀ e, r = .error e → P e) :
    (∃ t, r = .ok t ∧ runStage i s r = ⟨.none, stageOk i s t⟩) ∨ (∃ e, P e ∧ runStage i s r = ⟨e, stageErr i s⟩) := by
  cases r with
  | ok t => exact .inl ⟨t, rfl, rfl⟩
  | error e => exact .inr ⟨e, he e rfl, rfl⟩

theorem stageFcount_cases (s : State) :
    (s.inLen.toNat ≤ inCap s ∧ stageFcount s = ⟨.none, stageOk .fcount s
      { s with freq := (countAll (inputBytes s)).freq, rank := (countAll (inputBytes s)).rank,
               nsym := BitVec.ofNat 9 (countAll (inputBytes s)).n }⟩) ∨
    (inCap s < s.inLen.toNat ∧ stageFcount s = ⟨.ioError, stageErr .fcount s⟩) := by
  by_cases h : inCap s < s.inLen.toNat
  · exact .inr ⟨h, by unfold stageFcount runFcount; rw [if_pos h]; rfl⟩
  · exact .inl ⟨by omega, by unfold stageFcount runFcount; rw [if_neg h]; rfl⟩

theorem stageHdeser_cases (s : State) :
    (∃ es v pay, s.inLen.toNat ≤ inCap s ∧ inputBytes s = artifactHeader es v ++ pay ∧ entriesOk es ∧ v < 2 ^ 32 ∧
      pay.length = ceil8 v ∧
      stageHdeser s = ⟨.none, stageOk .hdeser s { s with
            dcode := addEntries (Table.fill []) es
            dnent := BitVec.ofNat 9 es.length
            dvbc := BitVec.ofNat 32 v
            payOff := BitVec.ofNat 32 (artifactHeader es v).length }⟩) ∨
    (∃ e, (e = .ioError ∨ e = .corruptHeader ∨ e = .truncatedInput) ∧ stageHdeser s = ⟨e, stageErr .hdeser s⟩) := by
  rcases stage_cases (i := .hdeser) (s := s) (fun e he => runHdeser_error (s := s) he) with ⟨t, ht, h⟩ | ⟨e, he, h⟩
  · obtain ⟨hc, es, v, pay, h1, h2, h3, h4, rfl⟩ := runHdeser_inv ht
    exact .inl ⟨es, v, pay, hc, h1, h2, h3, h4, h⟩
  · exact .inr ⟨e, he, h⟩

theorem stageTrecon_cases (s : State) :
    (∃ t, s.valid.hd = true ∧ prefixFree s.dcode ∧ trieHolds t s.dcode ∧ TrieRep t ∧
      t.length ≤ 1 + (allSymbols.map fun b => (s.dcode.read b).length).sum ∧
      stageTrecon s = ⟨.none, stageOk .trecon s { s with trie := t }⟩) ∨
    (s.valid.hd = true ∧ ¬ prefixFree s.dcode ∧ stageTrecon s = ⟨.corruptHeader, stageErr .trecon s⟩) ∨
    (s.valid.hd = false ∧ stageTrecon s = ⟨.sequenceError, stageErr .trecon s⟩) := by
  unfold stageTrecon runTrecon
  cases hv : s.valid.hd with
  | false => exact .inr (.inr ⟨rfl, rfl⟩)
  | true =>
    rw [if_neg (by simp)]
    rcases insertAll_all s.dcode with ⟨t, ht, h1, h2, h3, h4⟩ | ⟨ht, h1⟩
    · rw [ht]; exact .inl ⟨t, rfl, h1, h2, h4, h3, rfl⟩
    · rw [ht]; exact .inr (.inl ⟨rfl, h1, rfl⟩)

theorem stagePack_cases (s : State) :
    (s.valid.ct = true ∧ s.valid.hs = true ∧ s.inLen.toNat ≤ inCap s ∧ (∀ b ∈ inputBytes s, s.code.read b ≠ []) ∧
      (codeStream s.code (inputBytes s)).length = s.vbc.toNat ∧ s.hdrLen.toNat + ceil8 s.vbc.toNat ≤ outCap s ∧
      stagePack s = ⟨.none, stageOk .pack s
        (writeOut (keptHeader s ++ packMsb (codeStream s.code (inputBytes s))) s)⟩) ∨
    (∃ e, (e = .ioError ∨ e = .unknownSymbol ∨ e = .sequenceError) ∧ stagePack s = ⟨e, stageErr .pack s⟩) := by
  rcases stage_cases (i := .pack) (s := s) (fun e he => runPack_error (s := s) he) with ⟨t, ht, h⟩ | ⟨e, he, h⟩
  · obtain ⟨h1, h2, h3, h4, h5, h6, rfl⟩ := runPack_inv ht
    exact .inl ⟨h1, h2, h3, h4, h5, h6, h⟩
  · exact .inr ⟨e, he, h⟩

theorem stageHser_cases (s : State) :
    (s.valid.ct = true ∧ (encoderHeader s).length ≤ outCap s ∧
      stageHser s = ⟨.none, stageOk .hser s
        { writeOut (encoderHeader s) s with hdrLen := BitVec.ofNat 32 (encoderHeader s).length }⟩) ∨
    (s.valid.ct = true ∧ outCap s < (encoderHeader s).length ∧ stageHser s = ⟨.ioError, stageErr .hser s⟩) ∨
    (s.valid.ct = false ∧ stageHser s = ⟨.sequenceError, stageErr .hser s⟩) := by
  unfold stageHser runHser
  rw [headerBytes_eq]
  cases hv : s.valid.ct with
  | false => exact .inr (.inr ⟨rfl, rfl⟩)
  | true =>
    rw [if_neg (by simp)]
    by_cases h : outCap s < (encoderHeader s).length
    · exact .inr (.inl ⟨rfl, h, by simp only [h, ↓reduceIte]; rfl⟩)
    · exact .inl ⟨rfl, by omega, by simp only [h, ↓reduceIte]; rfl⟩

theorem stageUnpack_cases (s : State) :
    (∃ out, s.valid.trie = true ∧ s.inLen.toNat ≤ inCap s ∧ unpackLoop s s.dvbc.toNat 0 0 [] = .ok (0, out) ∧
      stageUnpack s = ⟨.none, stageOk .unpack s (writeOut out s)⟩) ∨
    (∃ e, (e = .sequenceError ∨ e = .ioError ∨ e = .truncatedInput ∨ e = .corruptPayload) ∧
      stageUnpack s = ⟨e, stageErr .unpack s⟩) := by
  rcases stage_cases (i := .unpack) (s := s) (fun e he => runUnpack_error (s := s) he) with ⟨t, ht, h⟩ | ⟨e, he, h⟩
  · unfold runUnpack at ht
    split at ht
    · cases ht
    · rename_i hv
      split at ht
      · cases ht
      · split at ht
        · cases ht
        · rename_i n out ho
          split at ht
          · cases ht
          · rename_i hn
            have hn := not_not.1 hn
            subst hn
            cases ht
            exact .inl ⟨out, by simpa using hv, by omega, ho, h⟩
  · exact .inr ⟨e, he, h⟩

theorem stageCgen_cases (s : State) :
    (∃ c, ((s.valid.tree = true ∧ c = codesOf s.tree) ∨
          (s.valid.tree = false ∧ s.valid.ft = true ∧ s.nsym = 0 ∧ c = Table.fill [])) ∧
        weightedLength s.freq c ≤ 2 ^ 32 - 1 ∧
        stageCgen s = ⟨.none, stageOk .cgen s { s with code := c, vbc := BitVec.ofNat 32 (weightedLength s.freq c) }⟩) ∨
    (∃ c, ((s.valid.tree = true ∧ c = codesOf s.tree) ∨
          (s.valid.tree = false ∧ s.valid.ft = true ∧ s.nsym = 0 ∧ c = Table.fill [])) ∧
        2 ^ 32 - 1 < weightedLength s.freq c ∧ stageCgen s = ⟨.ioError, stageErr .cgen s⟩) ∨
    (s.valid.tree = false ∧ ¬ (s.valid.ft = true ∧ s.nsym = 0) ∧ stageCgen s = ⟨.sequenceError, stageErr .cgen s⟩) := by
  unfold stageCgen runCgen
  cases hv : s.valid.tree with
  | true =>
    rw [if_pos rfl]
    by_cases hw : 2 ^ 32 - 1 < weightedLength s.freq (codesOf s.tree)
    · exact .inr (.inl ⟨_, .inl ⟨rfl, rfl⟩, hw, by unfold setCodes; rw [if_pos hw]; rfl⟩)
    · exact .inl ⟨_, .inl ⟨rfl, rfl⟩, by omega, by unfold setCodes; rw [if_neg hw]; rfl⟩
  | false =>
    rw [if_neg (by simp)]
    by_cases hf : s.valid.ft = true ∧ s.nsym = 0
    · rw [if_pos hf]
      by_cases hw : 2 ^ 32 - 1 < weightedLength s.freq (Table.fill [])
      · exact .inr (.inl ⟨_, .inr ⟨rfl, hf.1, hf.2, rfl⟩, hw, by unfold setCodes; rw [if_pos hw]; rfl⟩)
      · exact .inl ⟨_, .inr ⟨rfl, hf.1, hf.2, rfl⟩, by omega, by unfold setCodes; rw [if_neg hw]; rfl⟩
    · rw [if_neg hf]; exact .inr (.inr ⟨rfl, hf, rfl⟩)

theorem stageTbuild_cases (s : State) :
    (∃ r, s.valid.ft = true ∧ 1 ≤ s.nsym.toNat ∧
        mergeAll (countedLeaves s).length 0 (countedLeaves s) = some r ∧
        stageTbuild s = ⟨.none, stageOk .tbuild s { s with tree := r }⟩) ∨
    (s.valid.ft = true ∧ 1 ≤ s.nsym.toNat ∧ countedLeaves s = [] ∧
        stageTbuild s = ⟨.none, stageOk .tbuild s { s with tree := freeTree s.draws, draws := s.draws + 1 }⟩) ∨
    (¬ (s.valid.ft = true ∧ 1 ≤ s.nsym.toNat) ∧ stageTbuild s = ⟨.sequenceError, stageErr .tbuild s⟩) := by
  unfold stageTbuild runTbuild
  by_cases h : s.valid.ft = true ∧ 1 ≤ s.nsym.toNat
  · rw [if_neg (not_not.2 h)]
    by_cases hq : countedLeaves s = []
    · refine .inr (.inl ⟨h.1, h.2, hq, ?_⟩)
      rw [hq]; rfl
    · obtain ⟨r, hr⟩ := mergeAll_isSome (countedLeaves s).length 0 (countedLeaves s) hq
      refine .inl ⟨r, h.1, h.2, hr, ?_⟩
      rw [hr]; rfl
  · rw [if_pos h]; exact .inr (.inr ⟨h, rfl⟩)

end Sys2Proof.Machine
end

