-- ==== Sys2Proof/Laws/Frames.lean ====
section
/-! SUPPORT. What each stage and each command leaves unchanged, whatever its outcome (30_encoding.md R113,
40_command_model.md R155 (e)). -/

namespace Sys2Proof.Machine

/-- The part of the state no command writes, tag fields of the model apart. -/
abbrev ioSide (s : State) := (s.inCapR, s.outCapR, s.ie, s.opl, s.inLen, s.host, s.reads, s.inBuf)
/-- OUT and OUT_LEN. -/
abbrev outSide (s : State) := (s.outLen, s.outBuf)
/-- FREQ, RANK, NSYM. -/
abbrev countSide (s : State) := (s.freq, s.rank, s.nsym)
/-- CODE and VBC. -/
abbrev codeSide (s : State) := (s.code, s.vbc)
/-- DCODE, DNENT, DVBC, PAY_OFF. -/
abbrev headerSide (s : State) := (s.dcode, s.dnent, s.dvbc, s.payOff)
/-- FT_V, TREE_V, CT_V, HS_V. -/
abbrev encoderBits (s : State) := (s.valid.ft, s.valid.tree, s.valid.ct, s.valid.hs)
/-- HD_V, TRIE_V. -/
abbrev decoderBits (s : State) := (s.valid.hd, s.valid.trie)

theorem keepsInputSide_of {s t : State} (h : ioSide t = ioSide s) : keepsInputSide s t := by
  simp only [ioSide, Prod.mk.injEq] at h
  obtain ⟨h1, h2, h3, h4, h5, h6, h7, h8⟩ := h
  exact ⟨h1, h2, h3, h4, h5, h6, h7, fun a => by simp [inByte, h8]⟩

theorem keepsOut_of {s t : State} (h : outSide t = outSide s) : keepsOut s t := by
  simp only [outSide, Prod.mk.injEq] at h
  exact ⟨h.1, fun a => by simp [outByte, h.2]⟩

theorem keepsCounts_of {s t : State} (h : countSide t = countSide s) : keepsCounts s t := by
  simp only [countSide, Prod.mk.injEq] at h; exact h

theorem keepsCodes_of {s t : State} (h : codeSide t = codeSide s) : keepsCodes s t := by
  simp only [codeSide, Prod.mk.injEq] at h; exact h

theorem keepsHeader_of {s t : State} (h : headerSide t = headerSide s) : keepsHeader s t := by
  simp only [headerSide, Prod.mk.injEq] at h; exact h

theorem keepsEncoderBits_of {s t : State} (h : encoderBits t = encoderBits s) : keepsEncoderBits s t := by
  simp only [encoderBits, Prod.mk.injEq] at h; exact h

theorem keepsDecoderBits_of {s t : State} (h : decoderBits t = decoderBits s) : keepsDecoderBits s t := by
  simp only [decoderBits, Prod.mk.injEq] at h; exact h

/-! ### Stages -/

theorem stageFcount_frame (s : State) :
    let t := (stageFcount s).st
    ioSide t = ioSide s ∧ outSide t = outSide s ∧ codeSide t = codeSide s ∧ headerSide t = headerSide s ∧
      t.tree = s.tree ∧ t.trie = s.trie ∧ t.hdrLen = s.hdrLen ∧ t.lost = s.lost ∧
      t.valid = (s.valid.diff (killSet .fcount)).union (if (stageFcount s).err = .none then genSet .fcount else ValidBits.empty) := by
  rcases stageFcount_cases s with ⟨_, h⟩ | ⟨_, h⟩ <;> rw [h]
  · exact ⟨rfl, rfl, rfl, rfl, rfl, rfl, rfl, rfl, rfl⟩
  · exact ⟨rfl, rfl, rfl, rfl, rfl, rfl, rfl, rfl, by simp [ValidBits.union, ValidBits.empty]⟩

theorem stageTbuild_frame (s : State) :
    let t := (stageTbuild s).st
    ioSide t = ioSide s ∧ outSide t = outSide s ∧ countSide t = countSide s ∧ codeSide t = codeSide s ∧
      headerSide t = headerSide s ∧ t.trie = s.trie ∧ t.hdrLen = s.hdrLen ∧ t.lost = s.lost ∧
      t.valid = (s.valid.diff (killSet .tbuild)).union (if (stageTbuild s).err = .none then genSet .tbuild else ValidBits.empty) := by
  rcases stageTbuild_cases s with ⟨_, _, _, _, h⟩ | ⟨_, _, _, h⟩ | ⟨_, h⟩ <;> rw [h]
  · exact ⟨rfl, rfl, rfl, rfl, rfl, rfl, rfl, rfl, rfl⟩
  · exact ⟨rfl, rfl, rfl, rfl, rfl, rfl, rfl, rfl, rfl⟩
  · exact ⟨rfl, rfl, rfl, rfl, rfl, rfl, rfl, rfl, by simp [ValidBits.union, ValidBits.empty]⟩

theorem stageCgen_frame (s : State) :
    let t := (stageCgen s).st
    ioSide t = ioSide s ∧ outSide t = outSide s ∧ countSide t = countSide s ∧ headerSide t = headerSide s ∧
      t.tree = s.tree ∧ t.trie = s.trie ∧ t.hdrLen = s.hdrLen ∧ t.lost = s.lost ∧
      t.valid = (s.valid.diff (killSet .cgen)).union (if (stageCgen s).err = .none then genSet .cgen else ValidBits.empty) := by
  rcases stageCgen_cases s with ⟨_, _, _, h⟩ | ⟨_, _, _, h⟩ | ⟨_, _, h⟩ <;> rw [h]
  · exact ⟨rfl, rfl, rfl, rfl, rfl, rfl, rfl, rfl, rfl⟩
  · exact ⟨rfl, rfl, rfl, rfl, rfl, rfl, rfl, rfl, by simp [ValidBits.union, ValidBits.empty]⟩
  · exact ⟨rfl, rfl, rfl, rfl, rfl, rfl, rfl, rfl, by simp [ValidBits.union, ValidBits.empty]⟩

theorem stageHser_frame (s : State) :
    let t := (stageHser s).st
    ioSide t = ioSide s ∧ countSide t = countSide s ∧ codeSide t = codeSide s ∧ headerSide t = headerSide s ∧
      t.tree = s.tree ∧ t.trie = s.trie ∧ t.lost = s.lost ∧
      t.valid = (s.valid.diff (killSet .hser)).union (if (stageHser s).err = .none then genSet .hser else ValidBits.empty) := by
  rcases stageHser_cases s with ⟨_, _, h⟩ | ⟨_, _, h⟩ | ⟨_, h⟩ <;> rw [h]
  · exact ⟨rfl, rfl, rfl, rfl, rfl, rfl, rfl, rfl⟩
  · exact ⟨rfl, rfl, rfl, rfl, rfl, rfl, rfl, by simp [ValidBits.union, ValidBits.empty]⟩
  · exact ⟨rfl, rfl, rfl, rfl, rfl, rfl, rfl, by simp [ValidBits.union, ValidBits.empty]⟩

theorem stagePack_frame (s : State) :
    let t := (stagePack s).st
    ioSide t = ioSide s ∧ countSide t = countSide s ∧ codeSide t = codeSide s ∧ headerSide t = headerSide s ∧
      t.tree = s.tree ∧ t.trie = s.trie ∧ t.hdrLen = s.hdrLen ∧ t.lost = s.lost ∧
      t.valid = (s.valid.diff (killSet .pack)).union (if (stagePack s).err = .none then genSet .pack else ValidBits.empty) := by
  rcases stagePack_cases s with ⟨_, _, _, _, _, _, h⟩ | ⟨e, he, h⟩ <;> rw [h]
  · exact ⟨rfl, rfl, rfl, rfl, rfl, rfl, rfl, rfl, rfl⟩
  · exact ⟨rfl, rfl, rfl, rfl, rfl, rfl, rfl, rfl, by
      rcases he with rfl | rfl | rfl <;> simp [ValidBits.union, ValidBits.empty]⟩

theorem stageHdeser_frame (s : State) :
    let t := (stageHdeser s).st
    ioSide t = ioSide s ∧ outSide t = outSide s ∧ countSide t = countSide s ∧ codeSide t = codeSide s ∧
      t.tree = s.tree ∧ t.trie = s.trie ∧ t.hdrLen = s.hdrLen ∧ t.lost = s.lost ∧
      t.valid = (s.valid.diff (killSet .hdeser)).union (if (stageHdeser s).err = .none then genSet .hdeser else ValidBits.empty) := by
  rcases stageHdeser_cases s with ⟨_, _, _, _, _, _, _, _, h⟩ | ⟨e, he, h⟩ <;> rw [h]
  · exact ⟨rfl, rfl, rfl, rfl, rfl, rfl, rfl, rfl, rfl⟩
  · exact ⟨rfl, rfl, rfl, rfl, rfl, rfl, rfl, rfl, by
      rcases he with rfl | rfl | rfl <;> simp [ValidBits.union, ValidBits.empty]⟩

theorem stageTrecon_frame (s : State) :
    let t := (stageTrecon s).st
    ioSide t = ioSide s ∧ outSide t = outSide s ∧ countSide t = countSide s ∧ codeSide t = codeSide s ∧
      headerSide t = headerSide s ∧ t.tree = s.tree ∧ t.hdrLen = s.hdrLen ∧ t.lost = s.lost ∧
      t.valid = (s.valid.diff (killSet .trecon)).union (if (stageTrecon s).err = .none then genSet .trecon else ValidBits.empty) := by
  rcases stageTrecon_cases s with ⟨_, _, _, _, _, _, h⟩ | ⟨_, _, h⟩ | ⟨_, h⟩ <;> rw [h]
  · exact ⟨rfl, rfl, rfl, rfl, rfl, rfl, rfl, rfl, rfl⟩
  · exact ⟨rfl, rfl, rfl, rfl, rfl, rfl, rfl, rfl, by simp [ValidBits.union, ValidBits.empty]⟩
  · exact ⟨rfl, rfl, rfl, rfl, rfl, rfl, rfl, rfl, by simp [ValidBits.union, ValidBits.empty]⟩

theorem stageUnpack_frame (s : State) :
    let t := (stageUnpack s).st
    ioSide t = ioSide s ∧ countSide t = countSide s ∧ codeSide t = codeSide s ∧ headerSide t = headerSide s ∧
      t.tree = s.tree ∧ t.trie = s.trie ∧ t.hdrLen = s.hdrLen ∧ t.lost = s.lost ∧
      t.valid = (s.valid.diff (killSet .unpack)).union (if (stageUnpack s).err = .none then genSet .unpack else ValidBits.empty) := by
  rcases stageUnpack_cases s with ⟨_, _, _, _, h⟩ | ⟨e, he, h⟩ <;> rw [h]
  · exact ⟨rfl, rfl, rfl, rfl, rfl, rfl, rfl, rfl, rfl⟩
  · exact ⟨rfl, rfl, rfl, rfl, rfl, rfl, rfl, rfl, by
      rcases he with rfl | rfl | rfl | rfl <;> simp [ValidBits.union, ValidBits.empty]⟩

/-! ### Composites -/

/-- A relation between the start state and a stage's state that every stage keeps, the composite keeps. -/
theorem andThen_keeps {P : State → Prop} {v : Verdict} {f : State → Verdict} (hv : P v.st)
    (hf : ∀ s, P s → P (f s).st) : P (v.andThen f).st := by
  unfold Verdict.andThen
  split
  · exact hf _ hv
  · exact hv

theorem closeOutWriter_keeps {P : State → Prop} {v : Verdict} (hv : P v.st) (hl : ∀ s, P s → P (loseOutput s)) :
    P (closeOutWriter v).st := by
  unfold closeOutWriter
  split
  · exact hv
  · exact hl _ hv

/-- What every stage of COMPRESS keeps. -/
abbrev compressSide (s : State) := (ioSide s, headerSide s, decoderBits s, s.trie, s.lost)

theorem compressStages_frame (s : State) : compressSide (compressStages s).st = compressSide s := by
  have hb : ∀ (a v : ValidBits) (i : Instr) (c : Prop) [Decidable c], (killSet i).hd = false → (killSet i).trie = false →
      (genSet i).hd = false → (genSet i).trie = false →
      v = (a.diff (killSet i)).union (if c then genSet i else ValidBits.empty) → v.hd = a.hd ∧ v.trie = a.trie := by
    intro a v i c _ h1 h2 h3 h4 hv
    subst hv
    split <;> simp [ValidBits.union, ValidBits.diff, ValidBits.empty, h1, h2, h3, h4]
  have hall : ∀ f : State → Verdict, (∀ u, compressSide (f u).st = compressSide u) → ∀ u,
      compressSide u = compressSide s → compressSide (f u).st = compressSide s := fun f hf u hu => (hf u).trans hu
  have h1 : ∀ u, compressSide (stageFcount u).st = compressSide u := by
    intro u
    obtain ⟨e1, _, _, e2, _, e3, _, e4, e5⟩ := stageFcount_frame u
    obtain ⟨e6, e7⟩ := hb _ _ .fcount _ rfl rfl rfl rfl e5
    simp only [Prod.mk.injEq] at e1 e2 ⊢
    simp only [e1, e2, e3, e4, e6, e7, and_self]
  have h2 : ∀ u, compressSide (stageTbuildUnlessEmpty u).st = compressSide u := by
    intro u
    unfold stageTbuildUnlessEmpty
    split
    · obtain ⟨e1, _, _, _, e2, e3, _, e4, e5⟩ := stageTbuild_frame u
      obtain ⟨e6, e7⟩ := hb _ _ .tbuild _ rfl rfl rfl rfl e5
      simp only [Prod.mk.injEq] at e1 e2 ⊢
      simp only [e1, e2, e3, e4, e6, e7, and_self]
    · rfl
  have h3 : ∀ u, compressSide (stageCgen u).st = compressSide u := by
    intro u
    obtain ⟨e1, _, _, e2, _, e3, _, e4, e5⟩ := stageCgen_frame u
    obtain ⟨e6, e7⟩ := hb _ _ .cgen _ rfl rfl rfl rfl e5
    simp only [Prod.mk.injEq] at e1 e2 ⊢
    simp only [e1, e2, e3, e4, e6, e7, and_self]
  have h4 : ∀ u, compressSide (stageHser u).st = compressSide u := by
    intro u
    obtain ⟨e1, _, _, e2, _, e3, e4, e5⟩ := stageHser_frame u
    obtain ⟨e6, e7⟩ := hb _ _ .hser _ rfl rfl rfl rfl e5
    simp only [Prod.mk.injEq] at e1 e2 ⊢
    simp only [e1, e2, e3, e4, e6, e7, and_self]
  have h5 : ∀ u, compressSide (stagePack u).st = compressSide u := by
    intro u
    obtain ⟨e1, _, _, e2, _, e3, _, e4, e5⟩ := stagePack_frame u
    obtain ⟨e6, e7⟩ := hb _ _ .pack _ rfl rfl rfl rfl e5
    simp only [Prod.mk.injEq] at e1 e2 ⊢
    simp only [e1, e2, e3, e4, e6, e7, and_self]
  unfold compressStages
  exact andThen_keeps (P := fun u => compressSide u = compressSide s)
    (andThen_keeps (P := fun u => compressSide u = compressSide s)
      (andThen_keeps (P := fun u => compressSide u = compressSide s)
        (andThen_keeps (P := fun u => compressSide u = compressSide s) (h1 s) (hall _ h2)) (hall _ h3)) (hall _ h4))
    (hall _ h5)

/-- What every stage of DECOMPRESS keeps, HS_V cleared first. -/
abbrev decompressSide (s : State) := (ioSide s, countSide s, codeSide s, encoderBits s, s.tree, s.hdrLen, s.lost)

theorem decompressStages_frame (s : State) : decompressSide (decompressStages s).st = decompressSide (clearHs s) := by
  have hb : ∀ (a v : ValidBits) (i : Instr) (c : Prop) [Decidable c], (killSet i).ft = false → (killSet i).tree = false →
      (killSet i).ct = false → (genSet i).ft = false → (genSet i).tree = false → (genSet i).ct = false →
      (genSet i).hs = false → ((killSet i).hs = false ∨ a.hs = false) →
      v = (a.diff (killSet i)).union (if c then genSet i else ValidBits.empty) →
      v.ft = a.ft ∧ v.tree = a.tree ∧ v.ct = a.ct ∧ v.hs = a.hs := by
    intro a v i c _ h1 h2 h3 h4 h5 h6 h7 h8 hv
    subst hv
    rcases h8 with h8 | h8 <;> split <;>
      simp [ValidBits.union, ValidBits.diff, ValidBits.empty, h1, h2, h3, h4, h5, h6, h7, h8]
  have h1 : ∀ u, decompressSide (stageHdeser u).st = decompressSide u := by
    intro u
    obtain ⟨e1, _, e2, e3, e4, _, e5, e6, e7⟩ := stageHdeser_frame u
    obtain ⟨e8, e9, e10, e11⟩ := hb _ _ .hdeser _ rfl rfl rfl rfl rfl rfl rfl (.inl rfl) e7
    simp only [Prod.mk.injEq] at e1 e2 e3 ⊢
    simp only [e1, e2, e3, e4, e5, e6, e8, e9, e10, e11, and_self]
  have h2 : ∀ u, decompressSide (stageTrecon u).st = decompressSide u := by
    intro u
    obtain ⟨e1, _, e2, e3, _, e4, e5, e6, e7⟩ := stageTrecon_frame u
    obtain ⟨e8, e9, e10, e11⟩ := hb _ _ .trecon _ rfl rfl rfl rfl rfl rfl rfl (.inl rfl) e7
    simp only [Prod.mk.injEq] at e1 e2 e3 ⊢
    simp only [e1, e2, e3, e4, e5, e6, e8, e9, e10, e11, and_self]
  have h3 : ∀ u, u.valid.hs = false → decompressSide (stageUnpack u).st = decompressSide u := by
    intro u hu
    obtain ⟨e1, e2, e3, _, e4, _, e5, e6, e7⟩ := stageUnpack_frame u
    obtain ⟨e8, e9, e10, e11⟩ := hb _ _ .unpack _ rfl rfl rfl rfl rfl rfl rfl (.inr hu) e7
    simp only [Prod.mk.injEq] at e1 e2 e3 ⊢
    simp only [e1, e2, e3, e4, e5, e6, e8, e9, e10, e11, and_self]
  unfold decompressStages
  exact andThen_keeps (P := fun u => decompressSide u = decompressSide (clearHs s))
    (andThen_keeps (P := fun u => decompressSide u = decompressSide (clearHs s)) (h1 _) (fun u hu => (h2 u).trans hu))
    (fun u hu => (h3 u (by
      simp only [Prod.mk.injEq] at hu
      simpa [clearHs] using hu.2.2.2.1.2.2.2)).trans hu)

end Sys2Proof.Machine
end

