-- ==== Sys2Proof/Laws/Pipeline.lean ====
section
/-! SUPPORT. COMPRESS and DECOMPRESS as functions of the input: the encoder's code table of a byte list, the artifact, and what
the composites make of them (48_composite.md R299 to R309). -/

namespace Sys2Proof.Machine

/-! ### The encoder's tables as functions of the input -/

/-- The counted symbols' ranks are pairwise distinct after FCOUNT (41_frequency_counter.md R172 (c)). -/
theorem ranksDistinct_of_counts {s : State} {bs : List Byte} (hl : bs.length < 2 ^ 32)
    (hf : s.freq = (countAll bs).freq) (hr : s.rank = (countAll bs).rank) : ranksDistinct s := by
  obtain ⟨h1, -, h3⟩ := countAll_spec bs hl
  intro x y hx hy h
  have hm : ∀ b, s.freq.read b ≠ 0 → b ∈ bs := by
    intro b hb
    rw [hf, ne_eq, ← BitVec.toNat_inj, h1] at hb
    exact List.count_pos_iff.1 (Nat.pos_of_ne_zero (by simpa using hb))
  have hx' := hm x hx
  have hy' := hm y hy
  have e := congrArg BitVec.toNat h
  rw [hr, h3, h3, if_pos hx', if_pos hy'] at e
  exact rankIn_inj hx' hy' e

/-- TBUILD's start, from the tables it reads. -/
def leavesFrom (freq : Table Word) (rank : Table Byte) : List Node :=
  (allSymbols.filter fun b => freq.read b != 0).map fun b => .leaf b (freq.read b) ((rank.read b).setWidth 9)

theorem countedLeaves_eq (s : State) : countedLeaves s = leavesFrom s.freq s.rank := rfl

/-- The encoder tree of a non-empty byte list. -/
def encTree (bs : List Byte) : Node :=
  let q := leavesFrom (countAll bs).freq (countAll bs).rank
  (mergeAll q.length 0 q).getD (.leaf 0 0 0)

/-- The code table of a byte list (48_composite.md R300). -/
def encTable (bs : List Byte) : Table Bits := if bs = [] then Table.fill [] else codesOf (encTree bs)

/-- A symbol is counted exactly when it occurs. -/
theorem counted_iff {bs : List Byte} (hl : bs.length < 2 ^ 32) (b : Byte) : (countAll bs).freq.read b ≠ 0 ↔ b ∈ bs := by
  rw [ne_eq, ← BitVec.toNat_inj, (countAll_spec bs hl).1, ← List.count_pos_iff]
  simp [Nat.pos_iff_ne_zero]

theorem leavesFrom_ne_nil {bs : List Byte} (hl : bs.length < 2 ^ 32) (h : bs ≠ []) :
    leavesFrom (countAll bs).freq (countAll bs).rank ≠ [] := by
  obtain ⟨b, t, rfl⟩ := List.exists_cons_of_ne_nil h
  have hb := (counted_iff hl b).2 (by simp)
  intro hn
  have : (leavesFrom (countAll (b :: t)).freq (countAll (b :: t)).rank).length = 0 := by rw [hn]; rfl
  simp only [leavesFrom, List.length_map, List.length_eq_zero_iff, List.filter_eq_nil_iff] at this
  exact this b (mem_allSymbols b) (by simpa using hb)

theorem mergeAll_encTree {bs : List Byte} (hl : bs.length < 2 ^ 32) (h : bs ≠ []) :
    mergeAll (leavesFrom (countAll bs).freq (countAll bs).rank).length 0
      (leavesFrom (countAll bs).freq (countAll bs).rank) = some (encTree bs) := by
  obtain ⟨r, hr⟩ := mergeAll_isSome (leavesFrom (countAll bs).freq (countAll bs).rank).length 0 _ (leavesFrom_ne_nil hl h)
  have e : encTree bs = (mergeAll (leavesFrom (countAll bs).freq (countAll bs).rank).length 0
      (leavesFrom (countAll bs).freq (countAll bs).rank)).getD (.leaf 0 0 0) := rfl
  rw [e, hr]; rfl

/-- The symbols at the leaves of a byte list's tree: those that occur, each once; the tree is at most 255 deep. -/
theorem encTree_shape {s : State} {bs : List Byte} (hl : bs.length < 2 ^ 32) (h : bs ≠ [])
    (hf : s.freq = (countAll bs).freq) (hr : s.rank = (countAll bs).rank) :
    (nodeSymbols (encTree bs)).Nodup ∧ (∀ b, b ∈ nodeSymbols (encTree bs) ↔ b ∈ bs) ∧ nodeDepth (encTree bs) ≤ 255 := by
  have hm : mergeAll (countedLeaves s).length 0 (countedLeaves s) = some (encTree bs) := by
    rw [countedLeaves_eq, hf, hr]; exact mergeAll_encTree hl h
  obtain ⟨-, h2, -, h4⟩ := built_shape hm
  refine ⟨h2.nodup_iff.2 (nodup_allSymbols.filter _), ?_, h4⟩
  intro b
  rw [h2.mem_iff]
  simp only [List.mem_filter, mem_allSymbols, true_and, bne_iff_ne]
  rw [hf]; exact counted_iff hl b

/-- A byte list's code table: its symbols have codes, of at most 255 bits, pairwise prefix-free. -/
theorem encTable_spec {bs : List Byte} (hl : bs.length < 2 ^ 32) :
    (∀ b, (encTable bs).read b ≠ [] ↔ b ∈ bs) ∧ prefixFree (encTable bs) ∧ codesOk (encTable bs) := by
  unfold encTable
  split
  · rename_i h; subst h
    exact ⟨by simp, prefixFree_fill, by intro b; simp [codeWf]⟩
  · rename_i h
    have hs := encTree_shape (s := { State.reset with freq := (countAll bs).freq, rank := (countAll bs).rank }) hl h rfl rfl
    refine ⟨?_, prefixFree_codesOf _, ?_⟩
    · intro b; rw [codesOf_ne_nil, hs.2.1]
    · intro b
      have := codesOf_length (encTree bs) b
      simp only [codeWf, decide_eq_true_eq]; omega

/-- The payload of a byte list under its own code table. -/
abbrev encStream (bs : List Byte) : Bits := codeStream (encTable bs) bs

/-- The header of a byte list's artifact. -/
abbrev encHeader (bs : List Byte) : List Byte := artifactHeader (codeEntries (encTable bs)) (encStream bs).length

/-- The artifact of a byte list (48_composite.md R304). -/
abbrev encArtifact (bs : List Byte) : List Byte := encHeader bs ++ packMsb (encStream bs)

theorem entriesOk_encTable {bs : List Byte} (hl : bs.length < 2 ^ 32) : entriesOk (codeEntries (encTable bs)) :=
  entriesOk_codeEntries (encTable_spec hl).2.2

theorem length_artifactHeader_le {c : Table Bits} (h : codesOk c) (v : Nat) :
    (artifactHeader (codeEntries c) v).length ≤ 8710 := by
  have := length_encoderHeader_le { State.reset with code := c } h
  rw [encoderHeader_eq_artifactHeader] at this
  simpa [artifactHeader_eq] using this

theorem length_encStream_le {bs : List Byte} (hl : bs.length < 2 ^ 32) : (encStream bs).length ≤ 255 * bs.length :=
  length_flatMap_le bs _ 255 fun b => by simpa [codeWf] using (encTable_spec hl).2.2 b

/-! ### The stages of COMPRESS, one after the other -/

/-- What the encoder's registers and tables are once the counts of `bs` are taken. -/
structure Counted (bs : List Byte) (s : State) : Prop where
  freq : s.freq = (countAll bs).freq
  rank : s.rank = (countAll bs).rank
  nsym : s.nsym = BitVec.ofNat 9 (countAll bs).n
  ft : s.valid.ft = true

/-- … once the code table is made. -/
structure Coded (bs : List Byte) (s : State) : Prop extends Counted bs s where
  code : s.code = encTable bs
  vbc : s.vbc = BitVec.ofNat 32 (encStream bs).length
  ct : s.valid.ct = true

theorem Counted.nsym_toNat {bs : List Byte} {s : State} (h : Counted bs s) (hl : bs.length < 2 ^ 32) :
    s.nsym.toNat = distinct bs := by
  have := distinct_le bs
  rw [h.nsym, BitVec.toNat_ofNat, (countAll_spec bs hl).2.1]; omega

theorem distinct_pos {bs : List Byte} : 1 ≤ distinct bs ↔ bs ≠ [] := by
  cases bs with
  | nil => simp [distinct]
  | cons b t =>
    simp only [ne_eq, reduceCtorEq, not_false_eq_true, iff_true, distinct]
    exact List.length_pos_of_mem (List.mem_dedup.2 (List.mem_cons_self (a := b)))

theorem Counted.count {bs : List Byte} {s : State} (h : Counted bs s) (hl : bs.length < 2 ^ 32) (b : Byte) :
    (s.freq.read b).toNat = bs.count b := by rw [h.freq]; exact (countAll_spec bs hl).1 b

theorem stageFcount_counted {s : State} (h : s.inLen.toNat ≤ inCap s) :
    (stageFcount s).err = .none ∧ Counted (inputBytes s) (stageFcount s).st := by
  rcases stageFcount_cases s with ⟨_, e⟩ | ⟨h', _⟩
  · rw [e]; exact ⟨rfl, rfl, rfl, rfl, by simp [ValidBits.union, genSet]⟩
  · omega

/-- TBUILD on counted symbols, unless there are none. -/
theorem stageTbuild_counted {bs : List Byte} {s : State} (h : Counted bs s) (hl : bs.length < 2 ^ 32) :
    (stageTbuildUnlessEmpty s).err = .none ∧ Counted bs (stageTbuildUnlessEmpty s).st ∧
      (bs ≠ [] → (stageTbuildUnlessEmpty s).st.tree = encTree bs ∧ (stageTbuildUnlessEmpty s).st.valid.tree = true) ∧
      (bs = [] → stageTbuildUnlessEmpty s = ⟨.none, s⟩) := by
  have hn := h.nsym_toNat hl
  unfold stageTbuildUnlessEmpty
  by_cases hb : bs = []
  · subst hb
    rw [if_neg (by rw [hn]; simp [distinct])]
    exact ⟨rfl, h, fun h => absurd rfl h, fun _ => rfl⟩
  · have hpos := distinct_pos.2 hb
    rw [if_pos (by omega)]
    have hm : mergeAll (countedLeaves s).length 0 (countedLeaves s) = some (encTree bs) := by
      rw [countedLeaves_eq, h.freq, h.rank]; exact mergeAll_encTree hl hb
    rcases stageTbuild_cases s with ⟨r, _, _, hr, e⟩ | ⟨_, _, hq, _⟩ | ⟨hv, _⟩
    · rw [hm] at hr; cases hr
      rw [e]
      exact ⟨rfl, ⟨h.freq, h.rank, h.nsym, by simp [ValidBits.union, ValidBits.diff, killSet, h.ft]⟩,
        fun _ => ⟨rfl, by simp [ValidBits.union, genSet]⟩, fun h => absurd h hb⟩
    · rw [hq] at hm; cases hm
    · exact absurd ⟨h.ft, by omega⟩ hv

/-- Σ FREQ·CLEN is the length of the payload (45_bit_packer.md R252). -/
theorem weightedLength_counted {bs : List Byte} {s : State} (h : Counted bs s) (hl : bs.length < 2 ^ 32)
    (c : Table Bits) : weightedLength s.freq c = (codeStream c bs).length :=
  weightedLength_of_counts fun b => h.count hl b

/-- CGEN after them. -/
theorem stageCgen_counted {bs : List Byte} {s : State} (h : Counted bs s) (hl : bs.length < 2 ^ 32)
    (ht : bs ≠ [] → s.tree = encTree bs ∧ s.valid.tree = true) (he : bs = [] → s.valid.tree = false) :
    ((encStream bs).length ≤ 2 ^ 32 - 1 → (stageCgen s).err = .none ∧ Coded bs (stageCgen s).st) ∧
    (2 ^ 32 - 1 < (encStream bs).length → (stageCgen s).err = .ioError) := by
  have key : ∀ c, ((s.valid.tree = true ∧ c = codesOf s.tree) ∨
      (s.valid.tree = false ∧ s.valid.ft = true ∧ s.nsym = 0 ∧ c = Table.fill [])) → c = encTable bs := by
    intro c hc
    by_cases hb : bs = []
    · rcases hc with ⟨h1, _⟩ | ⟨_, _, _, h1⟩
      · rw [he hb] at h1; cases h1
      · rw [h1, encTable, if_pos hb]
    · rcases hc with ⟨_, h1⟩ | ⟨h1, _⟩
      · rw [h1, encTable, if_neg hb, (ht hb).1]
      · rw [(ht hb).2] at h1; cases h1
  rcases stageCgen_cases s with ⟨c, hc, hw, e⟩ | ⟨c, hc, hw, e⟩ | ⟨h1, h2, e⟩
  · have := key c hc
    subst this
    rw [weightedLength_counted h hl] at hw
    change (encStream bs).length ≤ 2 ^ 32 - 1 at hw
    rw [e]
    refine ⟨fun _ => ⟨rfl, ⟨⟨h.freq, h.rank, h.nsym, ?_⟩, rfl, ?_, ?_⟩⟩, fun hgt => by omega⟩
    · simp [ValidBits.union, ValidBits.diff, killSet, h.ft]
    · show BitVec.ofNat 32 (weightedLength s.freq _) = _
      rw [weightedLength_counted h hl]
    · simp [ValidBits.union, genSet]
  · have := key c hc
    subst this
    rw [weightedLength_counted h hl] at hw
    change 2 ^ 32 - 1 < (encStream bs).length at hw
    rw [e]
    exact ⟨fun hle => by omega, fun _ => rfl⟩
  · exfalso
    by_cases hb : bs = []
    · apply h2
      refine ⟨h.ft, ?_⟩
      have := h.nsym_toNat hl
      apply BitVec.eq_of_toNat_eq
      rw [this, hb]; rfl
    · rw [(ht hb).2] at h1; cases h1

theorem encoderHeader_coded {bs : List Byte} {s : State} (h : Coded bs s) (hv : (encStream bs).length ≤ 2 ^ 32 - 1) :
    encoderHeader s = encHeader bs := by
  have : s.vbc.toNat = (encStream bs).length := by rw [h.vbc, BitVec.toNat_ofNat]; omega
  rw [encoderHeader_eq_artifactHeader, this, h.code]

/-- What HSER leaves for PACK. -/
structure Serialized (bs : List Byte) (s : State) : Prop extends Coded bs s where
  hs : s.valid.hs = true
  hdrLen : s.hdrLen = BitVec.ofNat 32 (encHeader bs).length
  out : s.outBuf.cells = cellsFrom 0 (encHeader bs)

theorem stageHser_coded {bs : List Byte} {s : State} (h : Coded bs s) (hv : (encStream bs).length ≤ 2 ^ 32 - 1) :
    ((encHeader bs).length ≤ outCap s → (stageHser s).err = .none ∧ Serialized bs (stageHser s).st) ∧
    (outCap s < (encHeader bs).length → (stageHser s).err = .ioError) := by
  have hh := encoderHeader_coded h hv
  rcases stageHser_cases s with ⟨_, h1, e⟩ | ⟨_, h1, e⟩ | ⟨h1, _⟩
  · rw [e, hh]; rw [hh] at h1
    refine ⟨fun _ => ⟨rfl, ⟨⟨⟨h.freq, h.rank, h.nsym, ?_⟩, h.code, h.vbc, ?_⟩, ?_, rfl, rfl⟩⟩, fun h2 => by omega⟩ <;>
      simp [ValidBits.union, ValidBits.diff, killSet, genSet, h.ft, h.ct]
  · rw [e]; rw [hh] at h1
    exact ⟨fun h2 => by omega, fun _ => rfl⟩
  · rw [h.ct] at h1; cases h1

theorem keptHeader_serialized {bs : List Byte} {s : State} (h : Serialized bs s) (hl : bs.length < 2 ^ 32) :
    keptHeader s = encHeader bs ∧ s.hdrLen.toNat = (encHeader bs).length := by
  have hle : (encHeader bs).length ≤ 8710 := length_artifactHeader_le (encTable_spec hl).2.2 (encStream bs).length
  have hd : s.hdrLen.toNat = (encHeader bs).length := by rw [h.hdrLen, BitVec.toNat_ofNat]; omega
  refine ⟨?_, hd⟩
  apply List.ext_getElem (by simp [keptHeader, hd])
  intro i h1 h2
  simp [keptHeader, outByte, Memory.read, h.out, lookupCell_cellsFrom, h2]

/-- What PACK leaves. -/
structure Packed (bs : List Byte) (s : State) : Prop extends Coded bs s where
  hs : s.valid.hs = true
  hdrLen : s.hdrLen = BitVec.ofNat 32 (encHeader bs).length
  outLen : s.outLen = BitVec.ofNat 32 (encArtifact bs).length
  out : s.outBuf.cells = cellsFrom 0 (encArtifact bs)

theorem stagePack_serialized {s : State} (h : Serialized (inputBytes s) s) (hc : s.inLen.toNat ≤ inCap s)
    (hv : (encStream (inputBytes s)).length ≤ 2 ^ 32 - 1) :
    ((encArtifact (inputBytes s)).length ≤ outCap s → (stagePack s).err = .none ∧ Packed (inputBytes s) (stagePack s).st) ∧
    (outCap s < (encArtifact (inputBytes s)).length → (stagePack s).err = .ioError) := by
  have hl := length_inputBytes_lt s
  obtain ⟨hk, hd⟩ := keptHeader_serialized h hl
  have hvb : s.vbc.toNat = (encStream (inputBytes s)).length := by rw [h.vbc, BitVec.toNat_ofNat]; omega
  have hcodes : ∀ b ∈ inputBytes s, s.code.read b ≠ [] := by
    intro b hb; rw [h.code]; exact ((encTable_spec hl).1 b).2 hb
  have hstream : (codeStream s.code (inputBytes s)).length = s.vbc.toNat := by rw [h.code, hvb]
  have hart : (encArtifact (inputBytes s)).length = s.hdrLen.toNat + ceil8 s.vbc.toNat := by
    rw [List.length_append, length_packMsb, hd, hvb]
  constructor
  · intro hle
    have := runPack_ok h.ct h.hs hc hcodes hstream (by omega)
    unfold stagePack
    rw [this, runStage_ok, hk, h.code]
    refine ⟨rfl, ⟨⟨⟨h.freq, h.rank, h.nsym, ?_⟩, h.code, h.vbc, ?_⟩, ?_, h.hdrLen, rfl, rfl⟩⟩ <;>
      simp [ValidBits.union, ValidBits.diff, killSet, genSet, h.ft, h.ct]
  · intro hlt
    unfold stagePack
    rw [runPack_full h.ct h.hs hc hcodes hstream (by omega)]
    rfl

theorem ioSide_inputBytes {s t : State} (h : ioSide t = ioSide s) :
    inputBytes t = inputBytes s ∧ inCap t = inCap s ∧ outCap t = outCap s ∧ t.inLen = s.inLen := by
  simp only [ioSide, Prod.mk.injEq] at h
  obtain ⟨h1, h2, _, _, h5, _, _, h8⟩ := h
  refine ⟨?_, by simp [inCap, h1], by simp [outCap, h2], h5⟩
  have : inByte t = inByte s := by funext i; simp only [inByte, h8]
  simp only [inputBytes, h5, this]

/-- COMPRESS: it succeeds exactly when the input fits IN_CAP, its payload bits fit 32 bits and its artifact fits OUT_CAP, and
then leaves the artifact of the input and its tree; else the outcome is IO_ERROR, and the valid bits are those of the stages that
succeeded, the failed one's cleared (48_composite.md R299 to R304). -/
theorem compressStages_spec (s : State) :
    (s.inLen.toNat ≤ inCap s ∧ (encStream (inputBytes s)).length ≤ 2 ^ 32 - 1 ∧
        (encArtifact (inputBytes s)).length ≤ outCap s ∧ (compressStages s).err = .none ∧
        Packed (inputBytes s) (compressStages s).st ∧
        (compressStages s).st.valid.tree = decide (inputBytes s ≠ []) ∧
        (inputBytes s ≠ [] → (compressStages s).st.tree = encTree (inputBytes s))) ∨
    (¬ (s.inLen.toNat ≤ inCap s ∧ (encStream (inputBytes s)).length ≤ 2 ^ 32 - 1 ∧
        (encArtifact (inputBytes s)).length ≤ outCap s) ∧ (compressStages s).err = .ioError ∧
        encoderBits (compressStages s).st =
          if s.inLen.toNat ≤ inCap s then
            (true, decide (inputBytes s ≠ []), decide ((encStream (inputBytes s)).length ≤ 2 ^ 32 - 1), false)
          else (false, false, false, false)) := by
  have hl := length_inputBytes_lt s
  unfold compressStages
  by_cases hc : s.inLen.toNat ≤ inCap s
  swap
  · refine .inr ⟨fun h => hc h.1, ?_⟩
    rcases stageFcount_cases s with ⟨h, _⟩ | ⟨_, e⟩
    · exact absurd h hc
    · rw [e, if_neg hc]; exact ⟨rfl, by simp [Verdict.andThen, ValidBits.diff, killSet]⟩
  obtain ⟨e1, c1⟩ := stageFcount_counted hc
  have f1 := (stageFcount_frame s).1
  have v1 := (stageFcount_frame s).2.2.2.2.2.2.2.2
  rw [andThen_ok _ e1]
  obtain ⟨e2, c2, t2, n2⟩ := stageTbuild_counted c1 hl
  have f2 : ioSide (stageTbuildUnlessEmpty (stageFcount s).st).st = ioSide (stageFcount s).st := by
    unfold stageTbuildUnlessEmpty
    split
    · exact (stageTbuild_frame _).1
    · rfl
  generalize hs1 : (stageFcount s).st = s1 at *
  generalize hs2v : stageTbuildUnlessEmpty s1 = w2 at *
  rw [andThen_ok _ e2]
  have hn2 : inputBytes s = [] → w2.st.valid.tree = false := by
    intro hb
    rw [n2 hb, v1]
    simp [e1, ValidBits.union, ValidBits.diff, killSet, genSet]
  have b2 : w2.st.valid.ft = true ∧ w2.st.valid.tree = decide (inputBytes s ≠ []) := by
    refine ⟨c2.ft, ?_⟩
    by_cases hb : inputBytes s = []
    · rw [hn2 hb]; simp [hb]
    · rw [(t2 hb).2]; simp [hb]
  obtain ⟨g1, g2⟩ := stageCgen_counted c2 hl t2 hn2
  have f3 := (stageCgen_frame w2.st).1
  have v3 := (stageCgen_frame w2.st).2.2.2.2.2.2.2.2
  by_cases hv : (encStream (inputBytes s)).length ≤ 2 ^ 32 - 1
  swap
  · refine .inr ⟨fun h => hv h.2.1, ?_⟩
    have := g2 (by omega)
    have hne : (stageCgen w2.st).err ≠ .none := by rw [this]; decide
    rw [andThen_err _ hne, andThen_err _ hne, if_pos hc]
    refine ⟨this, ?_⟩
    rw [decide_eq_false hv]
    simp [v3, this, ValidBits.union, ValidBits.diff, killSet, ValidBits.empty, b2]
  obtain ⟨e3, c3⟩ := g1 hv
  have f3t := (stageCgen_frame w2.st).2.2.2.2.1
  generalize hs3 : stageCgen w2.st = w3 at *
  have b3 : encoderBits w3.st = (true, decide (inputBytes s ≠ []), true, false) := by
    rw [e3] at v3
    simp [v3, ValidBits.union, ValidBits.diff, killSet, genSet, b2]
  rw [andThen_ok _ e3]
  have i3 : ioSide w3.st = ioSide s := f3.trans (f2.trans f1)
  obtain ⟨-, -, ho3, -⟩ := ioSide_inputBytes i3
  obtain ⟨k1, k2⟩ := stageHser_coded c3 hv
  have f4 := (stageHser_frame w3.st).1
  have f4t := (stageHser_frame w3.st).2.2.2.2.1
  have v4 := (stageHser_frame w3.st).2.2.2.2.2.2.2
  rw [ho3] at k1 k2
  have hart : (encArtifact (inputBytes s)).length = (encHeader (inputBytes s)).length + (packMsb (encStream (inputBytes s))).length :=
    List.length_append
  by_cases hh : (encHeader (inputBytes s)).length ≤ outCap s
  swap
  · refine .inr ⟨fun h => by omega, ?_⟩
    have := k2 (by omega)
    rw [andThen_err _ (by rw [this]; decide), if_pos hc]
    refine ⟨this, ?_⟩
    rw [decide_eq_true hv]
    simp only [Prod.mk.injEq] at b3
    simp [v4, this, ValidBits.union, ValidBits.diff, killSet, ValidBits.empty, b3]
  obtain ⟨e4, c4⟩ := k1 hh
  generalize hs4 : stageHser w3.st = w4 at *
  rw [andThen_ok _ e4]
  have i4 : ioSide w4.st = ioSide s := f4.trans i3
  obtain ⟨ib4, hi4, ho4, hl4⟩ := ioSide_inputBytes i4
  rw [← ib4] at c4 hv
  obtain ⟨m1, m2⟩ := stagePack_serialized c4 (by rw [hl4, hi4]; exact hc) hv
  have v5 := (stagePack_frame w4.st).2.2.2.2.2.2.2.2
  rw [ho4, ib4] at m1 m2
  rw [ib4] at hv
  by_cases ha : (encArtifact (inputBytes s)).length ≤ outCap s
  swap
  · have := m2 (by omega)
    refine .inr ⟨fun h => ha h.2.2, this, ?_⟩
    rw [e4] at v4
    simp only [Prod.mk.injEq] at b3
    rw [if_pos hc, decide_eq_true hv]
    simp [v5, v4, this, ValidBits.union, ValidBits.diff, killSet, genSet, ValidBits.empty, b3]
  obtain ⟨e5, c5⟩ := m1 ha
  refine .inl ⟨hc, hv, ha, e5, c5, ?_, fun hb => ?_⟩
  · rw [e4] at v4
    simp only [Prod.mk.injEq] at b3
    simp [v5, v4, e5, ValidBits.union, ValidBits.diff, killSet, genSet, b3]
  · rw [(stagePack_frame w4.st).2.2.2.2.1, f4t, f3t, (t2 hb).1]

end Sys2Proof.Machine
end

