-- ==== Sys2Proof/Laws/Huffman.lean ====
section
/-! SUPPORT. A tree of the merge rule needs at most eight bits a byte: merging the two least weights never costs more than any
code lengths that meet Kraft's inequality (43_code_table_generator.md R203, 48_composite.md R310). -/

namespace Sys2Proof.Machine

/-! ### Weights with code lengths -/

/-- Σ weight · length. -/
def lengthCost (P : List (Nat × Nat)) : Nat := (P.map fun e => e.1 * e.2).sum

/-- Kraft's sum, times 2^M. -/
def kraft (M : Nat) (P : List (Nat × Nat)) : Nat := (P.map fun e => 2 ^ (M - e.2)).sum

@[simp] theorem lengthCost_cons (e : Nat × Nat) (P : List (Nat × Nat)) : lengthCost (e :: P) = e.1 * e.2 + lengthCost P := by
  simp [lengthCost]

@[simp] theorem kraft_cons (M : Nat) (e : Nat × Nat) (P : List (Nat × Nat)) : kraft M (e :: P) = 2 ^ (M - e.2) + kraft M P := by
  simp [kraft]

/-- Giving the least weight the greatest length costs nothing: the lengths are exchanged one after the other. -/
theorem exchange (M x a : Nat) (R : List (Nat × Nat)) (hx : ∀ e ∈ R, x ≤ e.1) :
    ∃ L R', R'.map Prod.fst = R.map Prod.fst ∧ a ≤ L ∧ (∀ e ∈ R', e.2 ≤ L) ∧
      (∀ N, a ≤ N → (∀ e ∈ R, e.2 ≤ N) → L ≤ N) ∧
      x * L + lengthCost R' ≤ x * a + lengthCost R ∧ 2 ^ (M - L) + kraft M R' = 2 ^ (M - a) + kraft M R := by
  induction R generalizing a with
  | nil => exact ⟨a, [], rfl, Nat.le_refl _, by simp, fun N h _ => h, Nat.le_refl _, rfl⟩
  | cons e R ih =>
    obtain ⟨w, l⟩ := e
    have hxw : x ≤ w := hx (w, l) (by simp)
    have hx' : ∀ e ∈ R, x ≤ e.1 := fun e he => hx e (by simp [he])
    by_cases hl : l ≤ a
    · obtain ⟨L, R', h1, h2, h3, h4, h5, h6⟩ := ih a hx'
      refine ⟨L, (w, l) :: R', by simp [h1], h2, ?_, ?_, ?_, ?_⟩
      · simp only [List.mem_cons, forall_eq_or_imp]; exact ⟨by omega, h3⟩
      · simp only [List.mem_cons, forall_eq_or_imp]; exact fun N ha h => h4 N ha h.2
      · simp only [lengthCost_cons]; omega
      · simp only [kraft_cons]; omega
    · obtain ⟨L, R', h1, h2, h3, h4, h5, h6⟩ := ih l hx'
      refine ⟨L, (w, a) :: R', by simp [h1], by omega, ?_, ?_, ?_, ?_⟩
      · simp only [List.mem_cons, forall_eq_or_imp]; exact ⟨by omega, h3⟩
      · simp only [List.mem_cons, forall_eq_or_imp]; exact fun N ha h => h4 N h.1 h.2
      · simp only [lengthCost_cons]
        have : x * l + w * a ≤ x * a + w * l := by
          obtain ⟨c, rfl⟩ := Nat.exists_eq_add_of_le hxw
          obtain ⟨d, rfl⟩ := Nat.exists_eq_add_of_le (Nat.le_of_lt (Nat.not_le.1 hl))
          simp only [Nat.add_mul, Nat.mul_add]; omega
        omega
      · simp only [kraft_cons]; omega

/-- A Kraft sum of lengths at most `N` is a multiple of the least term. -/
theorem dvd_kraft {M N : Nat} {P : List (Nat × Nat)} (h : ∀ e ∈ P, e.2 ≤ N) : 2 ^ (M - N) ∣ kraft M P := by
  induction P with
  | nil => simp [kraft]
  | cons e P ih =>
    rw [kraft_cons]
    have := h e (by simp)
    exact Nat.dvd_add (Nat.pow_dvd_pow 2 (by omega)) (ih fun e he => h e (by simp [he]))

/-- One merge: the two least weights become one, with room left for the others' lengths, and the cost falls by their sum. -/
theorem merge_lengths {M x y a b : Nat} {R : List (Nat × Nat)} (hxy : x ≤ y) (hx : ∀ e ∈ R, x ≤ e.1) (hy : ∀ e ∈ R, y ≤ e.1)
    (hM : a ≤ M ∧ b ≤ M ∧ ∀ e ∈ R, e.2 ≤ M) (hk : kraft M ((x, a) :: (y, b) :: R) ≤ 2 ^ M) :
    ∃ c R', R'.map Prod.fst = R.map Prod.fst ∧ (c ≤ M ∧ ∀ e ∈ R', e.2 ≤ M) ∧ kraft M ((x + y, c) :: R') ≤ 2 ^ M ∧
      lengthCost ((x + y, c) :: R') + (x + y) ≤ lengthCost ((x, a) :: (y, b) :: R) := by
  obtain ⟨L, Q, h1, h2, h3, h4, h5, h6⟩ := exchange M x a ((y, b) :: R) (by
    simp only [List.mem_cons, forall_eq_or_imp]; exact ⟨hxy, hx⟩)
  obtain ⟨b', R1, rfl⟩ : ∃ b' R1, Q = (y, b') :: R1 := by
    cases Q with
    | nil => simp at h1
    | cons e Q =>
      obtain ⟨w, l⟩ := e
      simp only [List.map_cons, List.cons.injEq] at h1
      exact ⟨l, Q, by rw [h1.1]⟩
  simp only [List.map_cons, List.cons.injEq, true_and] at h1
  have hLM : L ≤ M := h4 M hM.1 (by simp only [List.mem_cons, forall_eq_or_imp]; exact hM.2)
  simp only [List.mem_cons, forall_eq_or_imp] at h3
  have hy1 : ∀ e ∈ R1, y ≤ e.1 := by
    intro e he
    have : e.1 ∈ R.map Prod.fst := by rw [← h1]; exact List.mem_map_of_mem he
    obtain ⟨e', he', hee⟩ := List.mem_map.1 this
    rw [← hee]; exact hy e' he'
  obtain ⟨L2, R2, g1, g2, g3, g4, g5, g6⟩ := exchange M y b' R1 hy1
  have hL2 : L2 ≤ L := g4 L h3.1 h3.2
  simp only [kraft_cons, lengthCost_cons] at hk h5 h6 ⊢
  have hpos : 1 ≤ L2 := by
    by_contra h0
    have e0 : L2 = 0 := by omega
    subst e0
    simp only [Nat.sub_zero] at g6
    have := Nat.two_pow_pos (M - L)
    omega
  obtain ⟨c, rfl⟩ : ∃ c, L2 = c + 1 := ⟨L2 - 1, by omega⟩
  refine ⟨c, R2, g1.trans h1, ⟨by omega, fun e he => by have := g3 e he; omega⟩, ?_, ?_⟩
  · have hd : 2 ^ (M - (c + 1)) ∣ kraft M R2 := dvd_kraft g3
    have hdM : 2 ^ (M - (c + 1)) ∣ 2 ^ M := Nat.pow_dvd_pow 2 (by omega)
    have hD : 2 ^ (M - c) = 2 * 2 ^ (M - (c + 1)) := by
      rw [show M - c = (M - (c + 1)) + 1 by omega, Nat.pow_succ, Nat.mul_comm]
    have hlt : 2 ^ (M - (c + 1)) + kraft M R2 < 2 ^ M := by
      have := Nat.two_pow_pos (M - L)
      omega
    rw [hD]
    generalize 2 ^ (M - (c + 1)) = D at hd hdM hlt ⊢
    obtain ⟨k, hk'⟩ := hd
    obtain ⟨m, hm⟩ := hdM
    rw [hk', hm] at hlt ⊢
    have : 1 + k < m := by
      apply Nat.lt_of_mul_lt_mul_left (a := D)
      rw [Nat.mul_add, Nat.mul_one]; exact hlt
    have := Nat.mul_le_mul_left D (show k + 2 ≤ m by omega)
    rw [Nat.mul_add] at this
    omega
  · simp only [Nat.mul_add, Nat.mul_one, Nat.add_mul] at g5 h5 ⊢
    have : x * (c + 1) ≤ x * L := Nat.mul_le_mul_left x hL2
    rw [Nat.mul_add, Nat.mul_one] at this
    omega

/-! ### Trees -/

/-- Σ frequency over a tree's leaves, exact. -/
def leafWeight : Node → Nat
  | .leaf _ f _ => f.toNat
  | .internal _ _ l r => leafWeight l + leafWeight r

/-- Σ frequency · depth over a tree's leaves, exact. -/
def depthCost : Node → Nat
  | .leaf _ _ _ => 0
  | .internal _ _ l r => depthCost l + depthCost r + leafWeight l + leafWeight r

/-- The merge rule reaches no higher cost than any lengths that meet Kraft's inequality, while no frequency overflows. -/
theorem MergesTo.depthCost_le {j : Nat} {q : List Node} {r : Node} (h : MergesTo j q r) (M : Nat) :
    ∀ P : List (Nat × Nat), (P.map Prod.fst).Perm (q.map leafWeight) → (∀ e ∈ P, e.2 ≤ M) → kraft M P ≤ 2 ^ M →
      (∀ n ∈ q, (nodeFreq n).toNat = leafWeight n) → (q.map leafWeight).sum < 2 ^ 32 →
      depthCost r ≤ lengthCost P + (q.map depthCost).sum := by
  induction h with
  | root j n => intro P _ _ _ _ _; simp
  | merge j q rest x y root split lx ly next ih =>
    intro P hP hM hk hf hs
    have hperm := hP.trans (split.map leafWeight)
    rw [(split.map leafWeight).sum_eq] at hs
    rw [(split.map depthCost).sum_eq]
    have hf' : ∀ n ∈ x :: y :: rest, (nodeFreq n).toNat = leafWeight n := fun n hn => hf n (split.mem_iff.2 hn)
    have hle : ∀ u v : Node, u ∈ x :: y :: rest → v ∈ x :: y :: rest →
        nodeFreq u < nodeFreq v ∨ nodeFreq u = nodeFreq v ∧ nodeKey u < nodeKey v → leafWeight u ≤ leafWeight v := by
      intro u v hu hv hb
      rw [← nodeBefore_iff_lt, nodeBefore_iff, hf' u hu, hf' v hv] at hb
      omega
    -- the pairs that carry the two least weights
    obtain ⟨a, P1, hp1⟩ : ∃ a P1, P.Perm ((leafWeight x, a) :: P1) := by
      have : leafWeight x ∈ P.map Prod.fst := hperm.mem_iff.2 (by simp)
      obtain ⟨e, he, hex⟩ := List.mem_map.1 this
      exact ⟨e.2, P.erase e, by rw [← hex]; exact List.perm_cons_erase he⟩
    have hperm1 : (P1.map Prod.fst).Perm ((y :: rest).map leafWeight) := by
      have := (hp1.map Prod.fst).symm.trans hperm
      simpa using this
    obtain ⟨b, R, hp2⟩ : ∃ b R, P1.Perm ((leafWeight y, b) :: R) := by
      have : leafWeight y ∈ P1.map Prod.fst := hperm1.mem_iff.2 (by simp)
      obtain ⟨e, he, hex⟩ := List.mem_map.1 this
      exact ⟨e.2, P1.erase e, by rw [← hex]; exact List.perm_cons_erase he⟩
    have hpermR : (R.map Prod.fst).Perm (rest.map leafWeight) := by
      have := (hp2.map Prod.fst).symm.trans hperm1
      simpa using this
    have hp : P.Perm ((leafWeight x, a) :: (leafWeight y, b) :: R) := hp1.trans (hp2.cons _)
    have hmemR : ∀ e ∈ R, ∃ n ∈ rest, leafWeight n = e.1 := by
      intro e he
      have : e.1 ∈ rest.map leafWeight := hpermR.mem_iff.1 (List.mem_map_of_mem he)
      exact List.mem_map.1 this
    have hcost : lengthCost P = lengthCost ((leafWeight x, a) :: (leafWeight y, b) :: R) := (hp.map _).sum_eq
    have hkr : kraft M P = kraft M ((leafWeight x, a) :: (leafWeight y, b) :: R) := (hp.map _).sum_eq
    have hM' : a ≤ M ∧ b ≤ M ∧ ∀ e ∈ R, e.2 ≤ M :=
      ⟨hM (leafWeight x, a) (hp.mem_iff.2 (by simp)), hM (leafWeight y, b) (hp.mem_iff.2 (by simp)),
        fun e he => hM e (hp.mem_iff.2 (by simp [he]))⟩
    obtain ⟨c, R', g1, g2, g3, g4⟩ := merge_lengths (M := M) (a := a) (b := b) (R := R)
      (hle x y (by simp) (by simp) (lx y (by simp)))
      (fun e he => by
        obtain ⟨n, hn, hne⟩ := hmemR e he
        rw [← hne]; exact hle x n (by simp) (by simp [hn]) (lx n (by simp [hn])))
      (fun e he => by
        obtain ⟨n, hn, hne⟩ := hmemR e he
        rw [← hne]; exact hle y n (by simp) (by simp [hn]) (ly n hn))
      hM' (by rw [← hkr]; exact hk)
    have hfx := hf' x (by simp)
    have hfy := hf' y (by simp)
    simp only [List.map_cons, List.sum_cons] at hs
    have := ih ((leafWeight x + leafWeight y, c) :: R') (by
        simp only [List.map_cons, leafWeight]
        exact (by rw [g1]; exact hpermR.cons _))
      (by simp only [List.mem_cons, forall_eq_or_imp]; exact g2) g3
      (by
        simp only [List.mem_cons, forall_eq_or_imp]
        refine ⟨?_, fun n hn => hf' n (by simp [hn])⟩
        show (nodeFreq x + nodeFreq y).toNat = leafWeight x + leafWeight y
        rw [BitVec.toNat_add, hfx, hfy]
        omega)
      (by simp only [List.map_cons, List.sum_cons, leafWeight]; omega)
    simp only [List.map_cons, List.sum_cons, depthCost] at this ⊢
    omega

/-- Eight bits a byte suffice for at most 256 leaves. -/
theorem MergesTo.depthCost_le_eight {q : List Node} {r : Node} (h : MergesTo 0 q r) (hq : q.length ≤ 256)
    (hf : ∀ n ∈ q, (nodeFreq n).toNat = leafWeight n) (hs : (q.map leafWeight).sum < 2 ^ 32) (hd : ∀ n ∈ q, depthCost n = 0) :
    depthCost r ≤ 8 * (q.map leafWeight).sum := by
  have hcost : ∀ l : List Node, lengthCost (l.map fun n => (leafWeight n, 8)) = 8 * (l.map leafWeight).sum := by
    intro l
    induction l with
    | nil => rfl
    | cons n l ih => simp only [List.map_cons, lengthCost_cons, ih, List.sum_cons]; omega
  have hkraft : ∀ l : List Node, kraft 8 (l.map fun n => (leafWeight n, 8)) = l.length := by
    intro l
    induction l with
    | nil => rfl
    | cons n l ih => simp only [List.map_cons, kraft_cons, ih, List.length_cons, Nat.sub_self, Nat.pow_zero]; omega
  have hzero : (q.map depthCost).sum = 0 := by
    rw [List.map_congr_left (g := fun _ => 0) (fun n hn => hd n hn)]; simp
  have := h.depthCost_le 8 (q.map fun n => (leafWeight n, 8)) (by simp [Function.comp_def]) (by simp)
    (by rw [hkraft]; omega) hf hs
  rw [hcost, hzero] at this
  omega

/-! ### The payload -/

/-- Σ frequency · path length over a tree's leaves is its depth cost. -/
theorem sum_leafPaths {n : Node} {freq : Table Word} (h : ∀ b f k, Node.leaf b f k ∈ nodeLeaves n → freq.read b = f) (d : Nat) :
    ((leafPaths n).map fun e => (freq.read e.1).toNat * (e.2.length + d)).sum = depthCost n + leafWeight n * d := by
  induction n generalizing d with
  | leaf b f k => simp [leafPaths, depthCost, leafWeight, h b f k (by simp [nodeLeaves])]
  | internal f k l r ihl ihr =>
    have hl := ihl (fun b f k hm => h b f k (by simp [nodeLeaves, hm])) (d + 1)
    have hr := ihr (fun b f k hm => h b f k (by simp [nodeLeaves, hm])) (d + 1)
    have e : ∀ x : Bits, x.length + (d + 1) = x.length + 1 + d := fun x => by omega
    simp only [e] at hl hr
    simp only [leafPaths, List.map_append, List.map_map, Function.comp_def, List.length_cons, List.sum_append, depthCost,
      leafWeight, hl, hr]
    simp only [Nat.mul_add, Nat.mul_one, Nat.add_mul]
    omega

/-- The bits a tree's codes need: its depth cost, or one bit a byte for a lone leaf. -/
def rootCost : Node → Nat
  | .leaf _ f _ => f.toNat
  | .internal f k l r => depthCost (.internal f k l r)

/-- The weighted length of a tree's code table, on the counts its leaves hold. -/
theorem weightedLength_codesOf {s : State} {r : Node} (h : mergeAll (countedLeaves s).length 0 (countedLeaves s) = some r) :
    weightedLength s.freq (codesOf r) = rootCost r := by
  obtain ⟨h1, h2, -, -⟩ := built_shape h
  have hfreq : ∀ b f k, Node.leaf b f k ∈ nodeLeaves r → s.freq.read b = f := by
    intro b f k hm
    obtain ⟨x, _, hx⟩ := (mem_countedLeaves s _).1 (h1.mem_iff.1 hm)
    simp only [Node.leaf.injEq] at hx
    rw [hx.1, ← hx.2.1]
  have hsum : weightedLength s.freq (codesOf r) =
      ((nodeSymbols r).map fun b => (s.freq.read b).toNat * ((codesOf r).read b).length).sum := by
    rw [(h2.map _).sum_eq]
    unfold weightedLength
    generalize allSymbols = l
    induction l with
    | nil => rfl
    | cons b l ih =>
      by_cases hb : s.freq.read b = 0
      · rw [List.filter_cons_of_neg (by simp [hb]), List.map_cons, List.sum_cons, ih, hb]; simp
      · rw [List.filter_cons_of_pos (by simpa using hb), List.map_cons, List.sum_cons, ih, List.map_cons, List.sum_cons]
  have hn : (nodeSymbols r).Nodup := h2.nodup_iff.2 (nodup_allSymbols.filter _)
  rw [hsum]
  cases r with
  | leaf b f k =>
    have := hfreq b f k (by simp [nodeLeaves])
    simp [nodeSymbols, codesOf, this, rootCost]
  | internal f k l r =>
    rw [← map_fst_leafPaths, List.map_map]
    have := sum_leafPaths hfreq 0
    simp only [Nat.add_zero, Nat.mul_zero] at this
    rw [rootCost, ← this]
    refine congrArg List.sum (List.map_congr_left fun e he => ?_)
    have hl := (leafAt_iff _ _ _).2 he
    simp only [Function.comp_apply, (codesOf_internal hn e.1 e.2 (leafAt_ne_nil hl)).2 hl]

/-- The leaves' weights under exact counts add up to the input's length. -/
theorem sum_leafWeight_counted {s : State} {bs : List Byte} (hc : ∀ b, (s.freq.read b).toNat = bs.count b) :
    ((countedLeaves s).map leafWeight).sum = bs.length := by
  have h1 : ∀ l : List Byte,
      (((l.filter fun b => s.freq.read b != 0).map fun b => .leaf b (s.freq.read b) ((s.rank.read b).setWidth 9)).map
        leafWeight).sum = (l.map fun b => bs.count b * 1).sum := by
    intro l
    induction l with
    | nil => rfl
    | cons b l ih =>
      have hb := hc b
      by_cases h0 : s.freq.read b = 0
      · have : bs.count b = 0 := by rw [← hb, h0]; rfl
        rw [List.filter_cons_of_neg (by simp [h0]), ih, List.map_cons, List.sum_cons, this]; simp
      · rw [List.filter_cons_of_pos (by simpa using h0), List.map_cons, List.map_cons, List.sum_cons, ih, List.map_cons,
          List.sum_cons]
        simp only [leafWeight, hb, Nat.mul_one]
  have h2 := h1 allSymbols
  rw [sum_count_mul bs fun _ => 1] at h2
  simpa [countedLeaves] using h2

/-- VBC is at most eight bits a byte (43_code_table_generator.md R203, 48_composite.md R310). -/
theorem length_encStream_le_eight {bs : List Byte} (hl : bs.length < 2 ^ 32) : (encStream bs).length ≤ 8 * bs.length := by
  by_cases hb : bs = []
  · subst hb; simp
  obtain ⟨s, hsf, hsr⟩ : ∃ s : State, s.freq = (countAll bs).freq ∧ s.rank = (countAll bs).rank :=
    ⟨{ State.reset with freq := (countAll bs).freq, rank := (countAll bs).rank }, rfl, rfl⟩
  have hm : mergeAll (countedLeaves s).length 0 (countedLeaves s) = some (encTree bs) := by
    rw [countedLeaves_eq, hsf, hsr]; exact mergeAll_encTree hl hb
  have hcount : ∀ b, (s.freq.read b).toNat = bs.count b := by rw [hsf]; exact (countAll_spec bs hl).1
  have hw : (encStream bs).length = weightedLength s.freq (codesOf (encTree bs)) := by
    rw [weightedLength_of_counts hcount, encStream, encTable, if_neg hb]
  rw [hw, weightedLength_codesOf hm]
  have hsum := sum_leafWeight_counted hcount
  have hne : countedLeaves s ≠ [] := by rw [countedLeaves_eq, hsf, hsr]; exact leavesFrom_ne_nil hl hb
  obtain ⟨r, hr1, hr2⟩ := mergeAll_mergesTo _ 0 (countedLeaves s) hne (Nat.le_succ _)
    (keysOk_countedLeaves (ranksDistinct_of_counts hl hsf hsr))
  rw [hm] at hr1
  cases hr1
  have hleaf : ∀ n ∈ countedLeaves s, (nodeFreq n).toNat = leafWeight n ∧ depthCost n = 0 := by
    intro n hn
    obtain ⟨b, _, rfl⟩ := (mem_countedLeaves s n).1 hn
    exact ⟨rfl, rfl⟩
  have h8 := hr2.depthCost_le_eight (length_countedLeaves_le s) (fun n hn => (hleaf n hn).1) (by omega)
    (fun n hn => (hleaf n hn).2)
  have hroot := hr2.freq
  rw [List.map_congr_left (g := leafWeight) fun n hn => (hleaf n hn).1, hsum] at hroot
  rw [hsum] at h8
  clear hm hw hr2
  cases h : encTree bs with
  | leaf b f k =>
    rw [h] at hroot
    have := f.isLt
    simp only [nodeFreq, rootCost] at hroot ⊢
    omega
  | internal f k l r => rw [h] at h8; exact h8

end Sys2Proof.Machine
end

