-- ==== Sys2Proof/Laws/PerInstr.lean ====
section
/-! SUPPORT. Per-command facts about the command as syntax: its word (30_encoding.md R110, R111). -/

namespace Sys2Proof.Laws.WordForm

/-- The word of `i` has its opcode in OP, zero in MBZ, and an opcode of the map; the opcode latch keeps that opcode, and both
the word and the latched opcode decode back to `i`. -/
def Statement (i : Instr) : Prop :=
  (encode i).extractLsb' 0 4 = opcode i ∧ wordWf (encode i) = true ∧ latchOp (encode i) = opcode i ∧
    decode (encode i) = .ok i ∧ decodeOp (opcode i) = .ok i

theorem nop : Statement .nop := by unfold Statement; decide
theorem clear : Statement .clear := by unfold Statement; decide
theorem fcount : Statement .fcount := by unfold Statement; decide
theorem tbuild : Statement .tbuild := by unfold Statement; decide
theorem cgen : Statement .cgen := by unfold Statement; decide
theorem hser : Statement .hser := by unfold Statement; decide
theorem pack : Statement .pack := by unfold Statement; decide
theorem hdeser : Statement .hdeser := by unfold Statement; decide
theorem trecon : Statement .trecon := by unfold Statement; decide
theorem unpack : Statement .unpack := by unfold Statement; decide
theorem compress : Statement .compress := by unfold Statement; decide
theorem decompress : Statement .decompress := by unfold Statement; decide

end Sys2Proof.Laws.WordForm
end

