-- ==== Sys2Proof/Laws/Sequence.lean ====
section
/-! SUPPORT. Stages in sequence: what a stage reads of the input, and that it neither reads nor writes the STATUS fields and tags
completion sets, so that a composite is its stages run as commands of their own (48_composite.md R299, R309). -/

namespace Sys2Proof.Machine

/-! ### What HDESER, UNPACK and PACK read -/

/-- Two states with the same IN_LEN, IN[0..IN_LEN−1] and parameters. -/
structure SameInput (s u : State) : Prop where
  len : s.inLen = u.inLen
  bytes : inputBytes s = inputBytes u
  inCapR : s.inCapR = u.inCapR
  outCapR : s.outCapR = u.outCapR

theorem SameInput.inByte {s u : State} (h : SameInput s u) {i : Nat} (hi : i < s.inLen.toNat) : inByte s i = inByte u i := by
  rw [← getD_inputBytes s i hi, ← getD_inputBytes u i (by rw [← h.len]; exact hi), h.bytes]

theorem parseEntries_congr {s u : State} (h : SameInput s u) (k p : Nat) (t : Table Bits) :
    parseEntries s k p t = parseEntries u k p t := by
  induction k generalizing p t with
  | zero => rfl
  | succ k ih =>
    unfold parseEntries
    rw [← h.len]
    by_cases h1 : s.inLen.toNat < p + 2
    · simp [h1]
    · have e0 := h.inByte (i := p) (by omega)
      have e1 := h.inByte (i := p + 1) (by omega)
      simp only [h1, if_false, ← e0, ← e1]
      by_cases h2 : (inByte s (p + 1)).toNat = 0
      · simp [h2]
      · by_cases h3 : s.inLen.toNat < p + 2 + ceil8 (inByte s (p + 1)).toNat
        · simp [h3]
        · have : readCode s (p + 2) (inByte s (p + 1)).toNat = readCode u (p + 2) (inByte s (p + 1)).toNat := by
            unfold readCode
            refine List.map_congr_left fun k hk => ?_
            have hk := List.mem_range.1 hk
            unfold bitMsb
            rw [h.inByte (by unfold ceil8 at h3; omega)]
          simp only [h2, h3, if_false, this, ih]

/-- HDESER is a function of the input: the same error, or the same registers and table. -/
theorem runHdeser_congr {s u : State} (h : SameInput s u) :
    (∃ k, runHdeser s = .error k ∧ runHdeser u = .error k) ∨
    (∃ c e v p, runHdeser s = .ok { s with dcode := c, dnent := e, dvbc := v, payOff := p } ∧
      runHdeser u = .ok { u with dcode := c, dnent := e, dvbc := v, payOff := p }) := by
  have el : u.inLen.toNat = s.inLen.toNat := by rw [h.len]
  have ec : u.inCapR.toNat = s.inCapR.toNat := by rw [h.inCapR]
  unfold runHdeser inCap
  rw [el, ec]
  by_cases h1 : s.inCapR.toNat < s.inLen.toNat
  · exact .inl ⟨.ioError, by simp [h1], by simp [h1]⟩
  simp only [h1, if_false]
  by_cases h2 : s.inLen.toNat < 2
  · exact .inl ⟨.corruptHeader, by simp [h2], by simp [h2]⟩
  simp only [h2, if_false]
  have e0 : rdBe16 u 0 = rdBe16 s 0 := by
    unfold rdBe16; rw [h.inByte (i := 0) (by omega), h.inByte (i := 0 + 1) (by omega)]
  rw [e0]
  by_cases h3 : 256 < rdBe16 s 0
  · exact .inl ⟨.corruptHeader, by simp [h3], by simp [h3]⟩
  simp only [h3, if_false]
  rw [← parseEntries_congr h]
  cases hp : parseEntries s (rdBe16 s 0) 2 (Table.fill []) with
  | error k => exact .inl ⟨k, rfl, rfl⟩
  | ok pt =>
    obtain ⟨p, t⟩ := pt
    simp only [parseTail]
    rw [el]
    by_cases h4 : s.inLen.toNat < p + 4
    · exact .inl ⟨.corruptHeader, by simp [h4], by simp [h4]⟩
    simp only [h4, if_false]
    have e1 : rdBe32 u p = rdBe32 s p := by
      unfold rdBe32
      rw [h.inByte (i := p) (by omega), h.inByte (i := p + 1) (by omega), h.inByte (i := p + 2) (by omega),
        h.inByte (i := p + 3) (by omega)]
    rw [e1]
    by_cases h5 : s.inLen.toNat - (p + 4) < ceil8 (rdBe32 s p)
    · exact .inl ⟨.truncatedInput, by simp [h5], by simp [h5]⟩
    simp only [h5, if_false]
    by_cases h6 : ceil8 (rdBe32 s p) < s.inLen.toNat - (p + 4)
    · exact .inl ⟨.corruptHeader, by simp [h6], by simp [h6]⟩
    simp only [h6, if_false]
    exact .inr ⟨_, _, _, _, rfl, rfl⟩

theorem unpackLoop_congr {s u : State} (h : SameInput s u) (hp : s.payOff = u.payOff) (ht : s.trie = u.trie) (r k n : Nat)
    (out : List Byte) : unpackLoop s r k n out = unpackLoop u r k n out := by
  induction r generalizing k n out with
  | zero => rfl
  | succ r ih =>
    unfold unpackLoop
    rw [← h.len, ← hp, ← ht]
    by_cases h1 : s.inLen.toNat ≤ s.payOff.toNat + k / 8
    · simp [h1]
    · have : bitMsb u s.payOff.toNat k = bitMsb s s.payOff.toNat k := by unfold bitMsb; rw [h.inByte (by omega)]
      simp only [h1, if_false, this, ih, outCap, h.outCapR]
      rfl

/-- UNPACK is a function of the input, the trie, PAY_OFF and DVBC: the same error, or the same output. -/
theorem runUnpack_congr {s u : State} (h : SameInput s u) (hp : s.payOff = u.payOff) (ht : s.trie = u.trie)
    (hd : s.dvbc = u.dvbc) (hv : s.valid.trie = u.valid.trie) :
    (∃ k, runUnpack s = .error k ∧ runUnpack u = .error k) ∨
    (∃ out, runUnpack s = .ok (writeOut out s) ∧ runUnpack u = .ok (writeOut out u)) := by
  unfold runUnpack inCap
  rw [← h.len, ← h.inCapR, ← hv]
  by_cases h1 : s.valid.trie = false
  · exact .inl ⟨.sequenceError, by simp [h1], by simp [h1]⟩
  simp only [h1]
  by_cases h2 : s.inCapR.toNat < s.inLen.toNat
  · exact .inl ⟨.ioError, by simp [h2], by simp [h2]⟩
  simp only [h2, if_false]
  rw [← unpackLoop_congr h hp ht, ← hd]
  cases unpackLoop s s.dvbc.toNat 0 0 [] with
  | error k => exact .inl ⟨k, rfl, rfl⟩
  | ok no =>
    obtain ⟨n, out⟩ := no
    by_cases hn : n = 0
    · exact .inr ⟨out, by simp [hn], by simp [hn]⟩
    · exact .inl ⟨.corruptPayload, by simp [hn], by simp [hn]⟩

theorem packLoop_congr {s u : State} (hc : s.code = u.code) (hh : s.hdrLen = u.hdrLen) (ho : s.outCapR = u.outCapR)
    (bs : List Byte) (bits : Bits) : packLoop s bs bits = packLoop u bs bits := by
  induction bs generalizing bits with
  | nil => rfl
  | cons b bs ih =>
    unfold packLoop outCap
    rw [hc, hh, ho]
    simp only [ih]

/-! ### The fields no stage touches -/

/-- `s` with the STATUS fields BUSY, DONE, LOST and ERRCODE and the tags latency and tainted of `x`. -/
abbrev withTags (x s : State) : State :=
  { s with
    busy := x.busy
    done := x.done
    lost := x.lost
    errcode := x.errcode
    latency := x.latency
    tainted := x.tainted }

abbrev Verdict.withTags (x : State) (v : Verdict) : Verdict := ⟨v.err, Machine.withTags x v.st⟩

theorem stageFcount_withTags (x s : State) : stageFcount (withTags x s) = (stageFcount s).withTags x := by
  unfold stageFcount runFcount
  rw [show inputBytes (withTags x s) = inputBytes s from rfl]
  show runStage _ _ (if inCap s < s.inLen.toNat then _ else _) = _
  split <;> rfl

theorem stageTbuild_withTags (x s : State) : stageTbuild (withTags x s) = (stageTbuild s).withTags x := by
  unfold stageTbuild runTbuild
  rw [show countedLeaves (withTags x s) = countedLeaves s from rfl]
  show runStage _ _ (if ¬ (s.valid.ft = true ∧ 1 ≤ s.nsym.toNat) then _ else _) = _
  split
  · rfl
  · split <;> rfl

theorem stageTbuildUnlessEmpty_withTags (x s : State) :
    stageTbuildUnlessEmpty (withTags x s) = (stageTbuildUnlessEmpty s).withTags x := by
  unfold stageTbuildUnlessEmpty
  show (if 1 ≤ s.nsym.toNat then _ else _) = _
  split
  · exact stageTbuild_withTags x s
  · rfl

theorem stageCgen_withTags (x s : State) : stageCgen (withTags x s) = (stageCgen s).withTags x := by
  unfold stageCgen runCgen setCodes
  show runStage _ _ (if s.valid.tree = true then (if 2 ^ 32 - 1 < weightedLength s.freq (codesOf s.tree) then _ else _)
    else if s.valid.ft = true ∧ s.nsym = 0 then
      (if 2 ^ 32 - 1 < weightedLength s.freq (Table.fill []) then _ else _) else _) = _
  split
  · split <;> rfl
  · split
    · split <;> rfl
    · rfl

theorem stageHser_withTags (x s : State) : stageHser (withTags x s) = (stageHser s).withTags x := by
  unfold stageHser runHser
  rw [show headerBytes (withTags x s) = headerBytes s from rfl]
  simp only
  show runStage _ _ (if s.valid.ct = false then _ else if outCap s < (headerBytes s).length then _ else _) = _
  split
  · rfl
  · split <;> rfl

theorem stagePack_withTags (x s : State) : stagePack (withTags x s) = (stagePack s).withTags x := by
  unfold stagePack runPack
  rw [show inputBytes (withTags x s) = inputBytes s from rfl, packLoop_congr (s := withTags x s) (u := s) rfl rfl rfl,
    show keptHeader (withTags x s) = keptHeader s from rfl]
  show runStage _ _ (if ¬ (s.valid.ct = true ∧ s.valid.hs = true) then _ else if inCap s < s.inLen.toNat then _ else _) = _
  split
  · rfl
  · split
    · rfl
    · cases packLoop s (inputBytes s) [] with
      | error _ => rfl
      | ok bits =>
        simp only
        show runStage _ _ (if bits.length ≠ s.vbc.toNat then _ else
          if outCap s < s.hdrLen.toNat + ceil8 bits.length then _ else _) = _
        split
        · rfl
        · split <;> rfl

theorem stageHdeser_withTags (x s : State) : stageHdeser (withTags x s) = (stageHdeser s).withTags x := by
  unfold stageHdeser
  rcases runHdeser_congr (s := s) (u := withTags x s) ⟨rfl, rfl, rfl, rfl⟩ with ⟨e, h1, h2⟩ | ⟨c, e, v, p, h1, h2⟩ <;>
    rw [h1, h2] <;> rfl

theorem stageTrecon_withTags (x s : State) : stageTrecon (withTags x s) = (stageTrecon s).withTags x := by
  unfold stageTrecon runTrecon
  show runStage _ _ (if s.valid.hd = false then _ else _) = _
  split
  · rfl
  · show runStage _ _ (match insertAll s.dcode allSymbols [emptyTrieNode] with | .error k => _ | .ok t => _) = _
    cases insertAll s.dcode allSymbols [emptyTrieNode] <;> rfl

theorem stageUnpack_withTags (x s : State) : stageUnpack (withTags x s) = (stageUnpack s).withTags x := by
  unfold stageUnpack
  rcases runUnpack_congr (s := s) (u := withTags x s) ⟨rfl, rfl, rfl, rfl⟩ rfl rfl rfl rfl with
    ⟨e, h1, h2⟩ | ⟨o, h1, h2⟩ <;> rw [h1, h2] <;> rfl

theorem andThen_withTags (x : State) (v : Verdict) {f : State → Verdict} (hf : ∀ s, f (withTags x s) = (f s).withTags x) :
    (v.withTags x).andThen f = (v.andThen f).withTags x := by
  unfold Verdict.andThen
  show (if v.err = .none then f (withTags x v.st) else v.withTags x) = _
  split
  · exact hf _
  · rfl

theorem closeOutWriter_withTags (x : State) (v : Verdict) : closeOutWriter (v.withTags x) = (closeOutWriter v).withTags x := by
  unfold closeOutWriter; split <;> rfl

theorem compressStages_withTags (x s : State) : compressStages (withTags x s) = (compressStages s).withTags x := by
  unfold compressStages
  rw [stageFcount_withTags, andThen_withTags x _ (stageTbuildUnlessEmpty_withTags x),
    andThen_withTags x _ (stageCgen_withTags x), andThen_withTags x _ (stageHser_withTags x),
    andThen_withTags x _ (stagePack_withTags x)]

theorem decompressStages_withTags (x s : State) : decompressStages (withTags x s) = (decompressStages s).withTags x := by
  unfold decompressStages
  rw [show clearHs (withTags x s) = withTags x (clearHs s) from rfl, stageHdeser_withTags,
    andThen_withTags x _ (stageTrecon_withTags x), andThen_withTags x _ (stageUnpack_withTags x)]

/-! ### Stages run as commands -/

/-- Tags other than LOST are overwritten by completion. -/
theorem settled_withTags {x : State} {v : Verdict} (h : v.st.lost = x.lost) : settled (v.withTags x) = settled v := by
  have : settled (v.withTags x) = { settled v with lost := x.lost } := rfl
  rw [this, ← h]

/-- A composite that ends in a failed stage leaves what the stage left, OUT lost. -/
theorem failedAs_closeOutWriter {v : Verdict} (h : v.err ≠ .none) : failedAs (settled v) (settled (closeOutWriter v)) := by
  rw [closeOutWriter_err h]; exact ⟨_, _, rfl⟩

/-- Running a stage as a command of its own, then the stages that follow: the composite's next state, if the stage's command
settles its verdict, with the error outcome of an OUT-writer or without. -/
theorem runStages_cons {i : Instr} {rest : List Instr} {stage : State → Verdict} {s t : State} (hs : dutiful s)
    (hx : ∀ s, dutiful s → exec i s = .next (settled (stage s)) ∨ exec i s = .next (settled (closeOutWriter (stage s))))
    (hok : (stage s).err = .none → runStages rest (settled (stage s)) t)
    (hfail : (stage s).err ≠ .none → failedAs (settled (stage s)) t) : runStages (i :: rest) s t := by
  rcases hx s hs with h | h
  · exact ⟨_, h, hok, hfail⟩
  · refine ⟨_, h, ?_, ?_⟩
    · intro he
      have he : (stage s).err = .none := by rw [← closeOutWriter_kind]; exact he
      rw [closeOutWriter_ok he]; exact hok he
    · intro he
      have he : (stage s).err ≠ .none := by rw [← closeOutWriter_kind]; exact he
      obtain ⟨m, d, rfl⟩ := hfail he
      refine ⟨m, d, ?_⟩
      unfold closeOutWriter
      rw [if_neg he]
      rfl

/-- The same after stages whose verdict so far is `v`: the next stage runs on the state they left, completed or not. -/
theorem runStages_settled {i : Instr} {rest : List Instr} {stage : State → Verdict} {v : Verdict} {t : State}
    (hx : ∀ s, dutiful s → exec i s = .next (settled (stage s)) ∨ exec i s = .next (settled (closeOutWriter (stage s))))
    (hw : ∀ x s, stage (withTags x s) = (stage s).withTags x) (hl : ∀ s, (stage s).st.lost = s.lost)
    (hok : (stage v.st).err = .none → runStages rest (settled (stage v.st)) t)
    (hfail : (stage v.st).err ≠ .none → t = settled (closeOutWriter (stage v.st))) : runStages (i :: rest) (settled v) t := by
  have hv : stage (settled v) = (stage v.st).withTags (settled v) := hw (settled v) v.st
  have hs : settled (stage (settled v)) = settled (stage v.st) := by rw [hv]; exact settled_withTags (hl v.st)
  refine runStages_cons (s := settled v) rfl hx (fun h => ?_) (fun h => ?_) <;> rw [hv] at h <;> rw [hs]
  · exact hok h
  · rw [hfail h]; exact failedAs_closeOutWriter h

end Sys2Proof.Machine
end

