-- ==== Sys2Proof/Laws/Step.lean ====
section
/-! SUPPORT. What one step can be, and runs of several steps (40_command_model.md R152, R153). -/

namespace Sys2Proof.Machine

/-- The engine's step completes a command or an illegal word. -/
theorem engineStep_cases (s : State) :
    (∃ i, decodeOp s.opl = .ok i ∧ engineStep s = exec i s) ∨
    (∃ e, decodeOp s.opl = .error e ∧ engineStep s = .next (completeIllegal s)) := by
  unfold engineStep
  cases h : decodeOp s.opl with
  | ok i => exact .inl ⟨i, rfl, rfl⟩
  | error e => exact .inr ⟨e, rfl, rfl⟩

/-- Everything a step can be: the engine's completion, the host's next access, or nothing while idle. -/
theorem step_cases {s t : State} (h : step s = .next t) :
    (s.busy = true ∧ (s.host = [] ∨ s.latency = 0) ∧ engineStep s = .next t) ∨
    (∃ e rest, s.host = e :: rest ∧ (s.busy = false ∨ s.latency ≠ 0) ∧ t = hostStep e rest s) ∨
    (s.busy = false ∧ s.host = [] ∧ t = s) := by
  unfold step at h
  cases hb : s.busy <;> cases hh : s.host <;> rw [hb, hh] at h <;> simp only at h
  · cases h; exact .inr (.inr ⟨rfl, rfl, rfl⟩)
  · cases h; exact .inr (.inl ⟨_, _, rfl, .inl rfl, rfl⟩)
  · exact .inl ⟨rfl, .inl rfl, h⟩
  · split at h
    · rename_i hl; exact .inl ⟨rfl, .inr hl, h⟩
    · rename_i hl; cases h; exact .inr (.inl ⟨_, _, rfl, .inr hl, rfl⟩)

/-- A step of a busy block that is due is the engine's. -/
theorem step_due {s : State} (hb : s.busy = true) (hd : s.host = [] ∨ s.latency = 0) : step s = engineStep s := by
  unfold step
  rw [hb]
  cases hh : s.host with
  | nil => rfl
  | cons e rest =>
    rw [hh] at hd
    rcases hd with hd | hd
    · cases hd
    · simp only [hd, if_true]

/-- A step of a block that is not due is the host's next access. -/
theorem step_host {s : State} {e : HostEvent} {rest : List HostEvent} (hh : s.host = e :: rest)
    (hd : s.busy = false ∨ s.latency ≠ 0) : step s = .next (hostStep e rest s) := by
  unfold step
  rw [hh]
  cases hb : s.busy with
  | false => rfl
  | true =>
    rcases hd with hd | hd
    · rw [hb] at hd; cases hd
    · simp only [hd, if_false]

/-- withFetchWord is an accept with no delay. -/
theorem withFetchWord_eq (s : State) (w : Word) : s.withFetchWord 32 w.toNat = acceptWith s w 0 := by
  unfold State.withFetchWord
  rw [Nat.mod_eq_of_lt w.isLt, BitVec.ofNat_toNat, BitVec.setWidth_eq]

/-- The step after withFetchWord is the engine's, on the latched opcode. -/
theorem step_withFetchWord (s : State) (w : Word) :
    step (s.withFetchWord 32 w.toNat) = engineStep (acceptWith s w 0) := by
  rw [withFetchWord_eq]; exact step_due rfl (.inr rfl)

/-- A host access uses up one access of the delay, unless it resets the block. -/
theorem hostStep_latency (e : HostEvent) (rest : List HostEvent) {s : State} (h : s.busy = true) :
    (hostStep e rest s).busy = false ∨ (hostStep e rest s).latency = s.latency - 1 := by
  unfold hostStep
  cases e with
  | reset => exact .inl rfl
  | regRead | inRead | outRead | outWrite | wait => exact .inr rfl
  | regWrite off bits v =>
    simp only [hostAccess]
    split
    · cases regAt off <;> simp [writeReg, writeCmd, h, writeStatus, breakDuty]
    · exact .inr rfl
  | inWrite i v =>
    simp only [hostAccess, writeIn, breakDuty]
    split <;> simp [h]

/-! ### Runs -/

theorem core_run_zero (s : State) : Sys2Proof.core.run 0 s = .next s := rfl

theorem run_succ_of {M : Host.Core} {k : Nat} {s t : M.State} (h : M.step s = .next t) : M.run (k + 1) s = M.run k t := by
  simp only [Host.Core.run, h]

theorem core_run_succ {k : Nat} {s t : State} (h : step s = .next t) :
    Sys2Proof.core.run (k + 1) s = Sys2Proof.core.run k t := run_succ_of (M := Sys2Proof.core) h

end Sys2Proof.Machine
end

