-- ==== Sys2Proof/Tests/Slice0.lean ====
section
/-! SUPPORT. Tests: single steps on small states, with the expected results of 95_test_vectors.md (named V-… there), words
written out from 30_encoding.md, refused ill-formed terms, and a witness for the hypotheses of every statement. -/

namespace Sys2Proof.Tests

open Sys2Proof Sys2Proof.Machine

-- One theorem after the other: the kernel evaluates some of these for seconds, and threads that wait for it take memory.
set_option Elab.async false

/-! ### Small states -/

/-- Bytes from their numbers. -/
def bytes (l : List Nat) : List Byte := l.map (BitVec.ofNat 8)

/-- Reset, with the capacities of the vectors, 4096 each (95_test_vectors.md section 0). -/
def base : State := { State.reset with inCapR := 4096, outCapR := 4096 }

/-- `bs` in IN, with its length in IN_LEN. -/
def withIn (bs : List Byte) (s : State) : State :=
  { s with inBuf := ⟨0, cellsFrom 0 bs⟩, inLen := BitVec.ofNat 32 bs.length }

/-- `bs` in OUT, with its length in OUT_LEN. -/
def withOut (bs : List Byte) (s : State) : State :=
  { s with outBuf := ⟨0, cellsFrom 0 bs⟩, outLen := BitVec.ofNat 32 bs.length }

/-- A table from its listed entries. -/
def table {α : Type} (d : α) (l : List (Nat × α)) : Table α :=
  l.foldl (fun t e => t.write (BitVec.ofNat 8 e.1) e.2) (Table.fill d)

/-- The state a command completes to. -/
def after (i : Instr) (s : State) : State :=
  match exec i s with
  | .next t => t
  | .fault _ | .refused _ => s

theorem exec_after (i : Instr) (s : State) : exec i s = .next (after i s) := by
  obtain ⟨v, h⟩ := exec_next i s
  unfold after; rw [h]

/-- The state one step leads to. -/
def stepped (s : State) : State :=
  match step s with
  | .next t => t
  | .fault _ | .refused _ => s

/-- The input "aabc" of the source's worked example (V-EX1). -/
def aabc : State := withIn (bytes [0x61, 0x61, 0x62, 0x63]) base

/-- "aabc" after FCOUNT (V-FC1). -/
def counted : State :=
  { aabc with
    freq := table 0 [(0x61, 2), (0x62, 1), (0x63, 1)]
    rank := table 0 [(0x62, 1), (0x63, 2)]
    nsym := 3
    valid := ⟨true, false, false, false, false, false⟩ }

/-- Its tree (V-TB1). -/
def tree3 : Node := .internal 4 257 (.leaf 0x61 2 0) (.internal 2 256 (.leaf 0x62 1 1) (.leaf 0x63 1 2))

/-- "aabc" after TBUILD. -/
def treed : State := { counted with tree := tree3, valid := ⟨true, true, false, false, false, false⟩ }

/-- Its code table (V-CG1). -/
def codes3 : Table Bits := table [] [(0x61, [false]), (0x62, [true, false]), (0x63, [true, true])]

/-- "aabc" after CGEN. -/
def coded : State := { treed with code := codes3, vbc := 6, valid := ⟨true, true, true, false, false, false⟩ }

/-- Its header (V-HS1). -/
def header3 : List Byte :=
  bytes [0x00, 0x03, 0x61, 0x01, 0x00, 0x62, 0x02, 0x80, 0x63, 0x02, 0xC0, 0x00, 0x00, 0x00, 0x06]

/-- "aabc" after HSER. -/
def serialized : State :=
  { withOut header3 coded with hdrLen := 15, valid := ⟨true, true, true, true, false, false⟩ }

/-- "aabc" after PACK (V-CO2, STATUS 0x00000F02). -/
def packed : State := { withOut (header3 ++ [0x2C]) serialized with done := true }

/-- The artifact of "aabc" in IN (V-HD1). -/
def art : State := withIn (header3 ++ [0x2C]) base

/-- It after HDESER. -/
def parsed : State :=
  { art with dcode := codes3, dnent := 3, dvbc := 6, payOff := 15, valid := ⟨false, false, false, false, true, false⟩ }

/-- Its trie (V-TR1). -/
def trie3 : List TrieNode :=
  [⟨some 1, some 2, none⟩, ⟨none, none, some 0x61⟩, ⟨some 3, some 4, none⟩, ⟨none, none, some 0x62⟩, ⟨none, none, some 0x63⟩]

/-- It after TRECON. -/
def tried : State := { parsed with trie := trie3, valid := ⟨false, false, false, false, true, true⟩ }

/-- A busy block running FCOUNT, two more host accesses to come before it completes. -/
def running : State := { aabc with busy := true, opl := 2, latency := 2 }

/-! ### Well-formedness: what the checks refuse -/

/-- A word with an MBZ bit set (30_encoding.md R112). -/
theorem test_wf_mbz : wordMbzOk 0x00000010 = false ∧ wordWf 0x00000010 = false := by decide

/-- A word with a reserved opcode (30_encoding.md R112). -/
theorem test_wf_op : wordOpOk 0x0000000C = false ∧ wordWf 0x0000000C = false ∧ wordWf 0x0000000B = true := by decide

/-- Every command is well formed: none has an operand (30_encoding.md R110). -/
theorem test_wf_instr : Instr.wf .nop = true ∧ Instr.wf .decompress = true := by decide

/-- A code of 256 bits does not fit its length byte. -/
theorem test_wf_code : codeWf (List.replicate 256 true) = false ∧ codeWf (List.replicate 255 true) = true := by
  decide +kernel

/-- A chain of `n` internal nodes. -/
def chain : Nat → Node
  | 0 => .leaf 0 1 0
  | n + 1 => .internal 1 256 (chain n) (.leaf 1 1 1)

/-- A complete tree, `n` deep. -/
def fullTree : Nat → Node
  | 0 => .leaf 0 1 0
  | n + 1 => .internal 1 256 (fullTree n) (fullTree n)

/-- 511 nodes are the most a tree has (00_scope.md R7): a complete tree 8 deep, and none 9 deep. -/
theorem test_wf_tree_nodes : nodeWf (fullTree 8) = true ∧ nodeWf (fullTree 9) = false := by decide +kernel

/-- A tree 256 deep has a path too long for a code. -/
theorem test_wf_tree : nodeWf (chain 256) = false ∧ nodeWf (chain 255) = true := by decide +kernel

/-- A child outside the pool, a leaf with a child, an empty pool. -/
theorem test_wf_trie :
    trieNodeWf 2 ⟨some 2, none, none⟩ = false ∧ trieNodeWf 2 ⟨some 1, none, some 0x61⟩ = false ∧ childWf 2 (some 2) = false ∧
      trieWf [] = false ∧ trieWf trie3 = true := by decide

/-- A buffer whose offsets do not rise. -/
theorem test_wf_memory :
    Memory.wf ⟨0, [(1, 0), (0, 0)]⟩ = false ∧ Memory.wf ⟨0, [(1, 0), (1, 0)]⟩ = false ∧ Memory.wf ⟨0, [(0, 0), (1, 0)]⟩ = true := by
  decide

/-! ### Decoding: every command's word, written out from 30_encoding.md R110 and R111 -/

theorem test_decode_nop : decode 0b00000000000000000000000000000000 = .ok .nop := by decide
theorem test_decode_clear : decode 0b00000000000000000000000000000001 = .ok .clear := by decide
theorem test_decode_fcount : decode 0b00000000000000000000000000000010 = .ok .fcount := by decide
theorem test_decode_tbuild : decode 0b00000000000000000000000000000011 = .ok .tbuild := by decide
theorem test_decode_cgen : decode 0b00000000000000000000000000000100 = .ok .cgen := by decide
theorem test_decode_hser : decode 0b00000000000000000000000000000101 = .ok .hser := by decide
theorem test_decode_pack : decode 0b00000000000000000000000000000110 = .ok .pack := by decide
theorem test_decode_hdeser : decode 0b00000000000000000000000000000111 = .ok .hdeser := by decide
theorem test_decode_trecon : decode 0b00000000000000000000000000001000 = .ok .trecon := by decide
theorem test_decode_unpack : decode 0b00000000000000000000000000001001 = .ok .unpack := by decide
theorem test_decode_compress : decode 0b00000000000000000000000000001010 = .ok .compress := by decide
theorem test_decode_decompress : decode 0b00000000000000000000000000001011 = .ok .decompress := by decide

/-- V-IL1 to V-IL5: illegal words, and what they latch (40_command_model.md R151). -/
theorem test_decode_illegal :
    decode 0x00000010 = .error .mbzSet ∧ decode 0x0000000C = .error .reservedOp ∧ decode 0x0000000F = .error .reservedOp ∧
      latchOp 0xFFFFFFFF = 0xF ∧ latchOp 0x8000000A = 0xF ∧ latchOp 0x0000000C = 0xC := by decide

/-- decodeTableWord reads a 32-bit row of the opcode table, and nothing longer. -/
theorem test_decode_table :
    decodeTableWord 32 10 = some .compress ∧ decodeTableWord 32 0x80000000 = none ∧ decodeTableWord 64 10 = none := by decide

/-! ### The commands, on the vectors of 95_test_vectors.md -/

/-- V-NP1, V-NP2: NOP keeps the valid bits and OUT_LEN. -/
theorem test_nop :
    statusWord (after .nop base) = 0x00000002 ∧ statusWord (after .nop packed) = 0x00000F02 ∧
      (after .nop packed).outLen = 16 := by decide +kernel

/-- V-CL1: CLEAR. -/
theorem test_clear :
    statusWord (after .clear packed) = 0x00000002 ∧ (after .clear packed).outLen = 0 ∧ (after .clear packed).vbc = 0 ∧
      (after .clear packed).inLen = 4 ∧ outByte (after .clear packed) 15 = 0x2C := by decide +kernel

/-- V-CL2: CLEAR clears LOST. -/
theorem test_clear_lost : statusWord (after .clear { base with lost := true }) = 0x00000002 := by decide +kernel

/-- V-IL1, V-IL5: an illegal word. -/
theorem test_illegal :
    statusWord (stepped (base.withFetchWord 32 0x10)) = 0x00000066 ∧
      statusWord (stepped (packed.withFetchWord 32 0x8000000A)) = 0x00000F66 := by decide +kernel

/-- V-FC1: FCOUNT of "aabc". -/
theorem test_fcount :
    (after .fcount aabc).freq.read 0x61 = 2 ∧ (after .fcount aabc).rank.read 0x63 = 2 ∧ (after .fcount aabc).nsym = 3 ∧
      statusWord (after .fcount aabc) = 0x00000102 := by decide +kernel

/-- V-FC8: IN_LEN above IN_CAP. -/
theorem test_fcount_long :
    statusWord (after .fcount { base with inCapR := 4, inLen := 5 }) = 0x00000016 := by decide +kernel

/-- V-TB1: TBUILD of "aabc". -/
theorem test_tbuild : (after .tbuild counted).tree = tree3 := by decide +kernel

/-- V-TB10, V-TB11: TBUILD without counts, and on an empty input. -/
theorem test_tbuild_sequence :
    statusWord (after .tbuild base) = 0x00000076 ∧
      statusWord (after .tbuild { base with valid := ⟨true, false, false, false, false, false⟩ }) = 0x00000176 := by
  decide +kernel

/-- V-CG1: CGEN of "aabc". -/
theorem test_cgen :
    (fun t : State => (t.code.read 0x61, t.code.read 0x62, t.code.read 0x63, t.vbc, statusWord t)) (after .cgen treed) =
      ([false], [true, false], [true, true], 6, 0x00000702) := by decide +kernel

/-- V-CG16: CGEN with no tree and NSYM ≠ 0. -/
theorem test_cgen_sequence : statusWord (after .cgen counted) = 0x00000176 := by decide +kernel

/-- V-HS1: HSER of "aabc". -/
theorem test_hser :
    (fun t : State => (outBytes t, t.hdrLen, statusWord t)) (after .hser coded) = (header3, 15, 0x00000F02) := by
  decide +kernel

/-- V-HS13: HSER with no code table. -/
theorem test_hser_sequence :
    statusWord (after .hser treed) = 0x00000376 ∧ (after .hser treed).outLen = 0 := by decide +kernel

/-- V-PK1: PACK of "aabc". -/
theorem test_pack :
    (fun t : State => (outBytes t, statusWord t)) (after .pack serialized) = (header3 ++ [0x2C], 0x00000F02) := by
  decide +kernel

/-- V-PK5, V-PK6, V-PK18: a changed input, and no room for the payload. -/
theorem test_pack_errors :
    statusWord (after .pack (withIn (bytes [0x61, 0x61, 0x62, 0x64]) serialized)) = 0x00000756 ∧
      statusWord (after .pack (withIn (bytes [0x61, 0x62, 0x62, 0x63]) serialized)) = 0x00000776 ∧
      statusWord (after .pack { serialized with outCapR := 15 }) = 0x00000716 := by decide +kernel

/-- 45_bit_packer.md R251: with an empty input VBC is tested before anything is tested against OUT_CAP. -/
theorem test_pack_order :
    (after .pack { withIn [] serialized with outCapR := 14 }).errcode = .sequenceError := by decide +kernel

/-- V-HD1: HDESER of the artifact of "aabc". -/
theorem test_hdeser :
    (fun t : State => (t.dcode.read 0x62, t.dcode.read 0x63, t.dnent, t.dvbc, t.payOff, statusWord t)) (after .hdeser art) =
      ([true, false], [true, true], 3, 6, 15, 0x00001002) := by decide +kernel

/-- V-HD7, V-HD9, V-HD18: no payload, an excess byte, a duplicate symbol. -/
theorem test_hdeser_errors :
    statusWord (after .hdeser (withIn header3 base)) = 0x00000046 ∧
      statusWord (after .hdeser (withIn (header3 ++ [0x2C, 0x00]) base)) = 0x00000026 ∧
      statusWord (after .hdeser (withIn (bytes [0, 2, 0x61, 1, 0, 0x61, 1, 0x80, 0, 0, 0, 0]) base)) = 0x00000026 := by
  decide +kernel

/-- V-TR1: TRECON of the code table of "aabc". -/
theorem test_trecon :
    (fun t : State => (t.trie, statusWord t)) (after .trecon parsed) = (trie3, 0x00003002) := by decide +kernel

/-- V-TR6: a = 01, b = 0. -/
theorem test_trecon_corrupt :
    statusWord (after .trecon { parsed with dcode := table [] [(0x61, [false, true]), (0x62, [false])] }) = 0x00001026 := by
  decide +kernel

/-- V-UP1, V-UP3: UNPACK, with the padding not read and then read. -/
theorem test_unpack :
    outBytes (after .unpack tried) = bytes [0x61, 0x61, 0x62, 0x63] ∧
      outBytes (after .unpack { tried with dvbc := 7 }) = bytes [0x61, 0x61, 0x62, 0x63, 0x61] := by decide +kernel

/-- V-UP8, V-UP16: the count ends inside a code, and the payload lies beyond IN_LEN. -/
theorem test_unpack_errors :
    statusWord (after .unpack { withIn (header3 ++ [0x80]) tried with dvbc := 1 }) = 0x00003036 ∧
      statusWord (after .unpack { tried with inLen := 15 }) = 0x00003046 := by decide +kernel

/-- V-CO2, the source's worked example: COMPRESS of "aabc". -/
theorem test_compress :
    (fun t : State => (t.errcode, t.outLen, t.hdrLen, statusWord t, outBytes t)) (after .compress aabc) =
      (.none, 16, 15, 0x00000F02, header3 ++ [0x2C]) := by decide +kernel

/-- V-CO10, V-CO11: HSER, then PACK, finds no room. -/
theorem test_compress_full :
    statusWord (after .compress { aabc with outCapR := 14 }) = 0x00000716 ∧
      statusWord (after .compress { aabc with outCapR := 15 }) = 0x00000716 := by decide +kernel

/-- V-DE1: DECOMPRESS of its artifact. -/
theorem test_decompress :
    (fun t : State => (t.errcode, outBytes t, statusWord t)) (after .decompress art) =
      (.none, bytes [0x61, 0x61, 0x62, 0x63], 0x00003002) := by decide +kernel

/-- V-DE2, V-DE4: the artifact cut to 15 and to 14 bytes. -/
theorem test_decompress_cut :
    statusWord (after .decompress { art with inLen := 15 }) = 0x00000046 ∧
      statusWord (after .decompress { art with inLen := 14 }) = 0x00000026 := by decide +kernel

/-- V-DE6, V-DE7: TRECON fails, then UNPACK does. -/
theorem test_decompress_stage :
    statusWord (after .decompress (withIn (bytes [0, 2, 0x61, 1, 0, 0x62, 2, 0x40, 0, 0, 0, 0]) base)) = 0x00001026 ∧
      statusWord (after .decompress (withIn (bytes [0, 3, 0x61, 1, 0, 0x62, 2, 0x80, 0x63, 2, 0xC0, 0, 0, 0, 1, 0x80]) base)) =
        0x00003036 := by decide +kernel

/-! ### Host accesses -/

/-- A `wr` of CMD while busy is lost, an IN write below IN_CAP is stored, and beyond it is ignored. -/
theorem test_host :
    (stepped { running with host := cmd .nop }).lost = true ∧
      inByte (stepped { aabc with host := [.inWrite 4095 0xAB] }) 4095 = 0xAB ∧
      (stepped { aabc with host := [.inWrite 4096 0xAB] }).inBuf = aabc.inBuf := by decide +kernel

/-- P6: the interrupt follows DONE under IE, and clearing DONE clears it. P5: ERRCODE stays when DONE is cleared. -/
theorem test_irq :
    irq (after .nop { base with ie := true }) = true ∧
      irq (stepped { base with ie := true, done := true, host := wr 0x00C 2 }) = false ∧
      statusWord (stepped { base with done := true, errcode := .illegalCommand, host := wr 0x00C 2 }) = 0x00000064 := by
  decide +kernel

/-- The windows CODEW and DCODEW of P1 and P2. -/
theorem test_windows :
    codeWord coded 0x62 0 = 0x80000000 ∧ codeWord coded 0x63 0 = 0xC0000000 ∧ dcodeWord parsed 0x62 0 = 0x80000000 ∧
      codeWord coded 0x63 7 = 0 := by decide +kernel

/-! ### Witnesses: for every statement with hypotheses, a state and operands that meet them together -/

theorem caps_base : capsOk base := ⟨by decide, by decide, by decide⟩

theorem inputBytes_withIn (bs : List Byte) (s : State) (h : bs.length < 2 ^ 32) : inputBytes (withIn bs s) = bs := by
  have hl : (withIn bs s).inLen.toNat = bs.length := by
    show (BitVec.ofNat 32 bs.length).toNat = _
    rw [BitVec.toNat_ofNat, Nat.mod_eq_of_lt h]
  apply List.ext_getElem (by rw [length_inputBytes, hl])
  intro i h1 h2
  simp [inputBytes, inByte, Memory.read, withIn, lookupCell_cellsFrom, h2]

theorem witness_DecodeAndEncodeAgree : Instr.wf .compress = true ∧ decode 0x0000000A = .ok .compress := by decide

theorem witness_StepRunsTheLatchedCommand :
    ({ running with host := [] } : State).busy = true ∧ ({ running with host := [] } : State).host = [] ∧
      decodeOp ({ running with host := [] } : State).opl = .ok .fcount ∧ Instr.wf .fcount = true ∧
      ({ running with latency := 0, host := [.wait] } : State).busy = true ∧
      ({ running with latency := 0, host := [.wait] } : State).latency = 0 ∧
      decodeOp ({ running with latency := 0, host := [.wait] } : State).opl = .ok .fcount ∧
      decode 0x00000000 = .ok .nop := by decide

theorem witness_StepRunsTheHostsNextAccess :
    base.busy = false ∧ base.host = [] ∧ ({ base with host := [.wait] } : State).host = .wait :: [] ∧
      ({ running with host := [.wait] } : State).host = .wait :: [] ∧ ({ running with host := [.wait] } : State).latency ≠ 0 := by
  decide

theorem witness_IdleCmdWriteAccepts :
    ({ base with host := cmd .nop } : State).busy = false ∧
      ({ base with host := cmd .nop } : State).host = .regWrite 0x008 32 0x00000000 :: [] := by decide

/-- LOST cleared by STATUS[3], by reset and by CLEAR. -/
theorem witness_BusyCmdWriteIsLost :
    running.busy = true ∧ (dutiful aabc ∧ Instr.fcount ≠ .clear ∧ exec .fcount aabc = .next (after .fcount aabc)) ∧
      (∃ t, step { base with lost := true, host := wr 0x00C 8 } = .next t ∧ t.lost = false) ∧
      (∃ t, step { base with lost := true, host := [.reset] } = .next t ∧ t.lost = false) ∧
      (∃ t, step { running with lost := true, opl := 1, latency := 0 } = .next t ∧ t.lost = false) :=
  ⟨rfl, ⟨rfl, by decide, exec_after _ _⟩, ⟨_, rfl, rfl⟩, ⟨_, rfl, rfl⟩, ⟨_, rfl, rfl⟩⟩

/-- DONE and ERRCODE cleared by accept and by reset, DONE by STATUS[1]; valid bits cleared by reset; a command in progress. -/
theorem witness_DoneAndErrcodeStayUntilTheirRules :
    (∃ t, step { base with done := true, errcode := .ioError, host := cmd .nop } = .next t ∧ t.done = false ∧
      t.errcode = .none) ∧
      (∃ t, step { base with done := true, host := wr 0x00C 2 } = .next t ∧ t.done = false) ∧
      (∃ t, step { packed with errcode := .ioError, host := [.reset] } = .next t ∧ t.errcode = .none ∧
        t.valid ≠ packed.valid) ∧
      running.busy = true ∧
      (∃ t, step { running with latency := 1, host := wr 0x004 1 } = .next t ∧ t.busy = true) :=
  ⟨⟨_, rfl, rfl, rfl⟩, ⟨_, rfl, rfl⟩, ⟨_, rfl, rfl, by decide⟩, rfl, ⟨_, rfl, rfl⟩⟩

theorem witness_IllegalCommandCompletes :
    decode 0x00000010 = .error .mbzSet ∧ decode 0x0000000C = .error .reservedOp := by decide

/-- With no access to come, and with a reset right after the last access its delay of 2 lets in. -/
theorem witness_AcceptedCommandCompletes :
    running.busy = true ∧ HostEvent.reset ∉ running.host.take running.latency ∧
      ({ running with host := [.wait, .wait, .reset] } : State).busy = true ∧
      HostEvent.reset ∉ ({ running with host := [.wait, .wait, .reset] } : State).host.take 2 := by decide

theorem compress_view {t : State} {a : ErrKind} {b c d : Word} {e : List Byte}
    (h : (fun t : State => (t.errcode, t.outLen, t.hdrLen, statusWord t, outBytes t)) t = (a, b, c, d, e)) :
    t.errcode = a ∧ t.outLen = b ∧ t.hdrLen = c ∧ outBytes t = e := by
  simp only [Prod.mk.injEq] at h; exact ⟨h.1, h.2.1, h.2.2.1, h.2.2.2.2⟩

theorem compress_aabc : (after .compress aabc).errcode = .none ∧ (after .compress aabc).outLen = 16 ∧
    (after .compress aabc).hdrLen = 15 ∧ outBytes (after .compress aabc) = header3 ++ [0x2C] := compress_view test_compress

theorem decompress_view {t : State} {a : ErrKind} {b : List Byte} {d : Word}
    (h : (fun t : State => (t.errcode, outBytes t, statusWord t)) t = (a, b, d)) : t.errcode = a := by
  simp only [Prod.mk.injEq] at h; exact h.1

/-- A row of every shape: a stage that succeeds and one that fails, and both composites' successes. -/
theorem witness_ValidBitsFollowKillAndGen :
    (dutiful aabc ∧ exec .fcount aabc = .next (after .fcount aabc)) ∧ exec .hser aabc = .next (after .hser aabc) ∧
      (exec .compress aabc = .next (after .compress aabc) ∧ (after .compress aabc).errcode = .none) ∧
      (dutiful art ∧ exec .decompress art = .next (after .decompress art) ∧ (after .decompress art).errcode = .none) :=
  ⟨⟨rfl, exec_after _ _⟩, exec_after _ _, ⟨exec_after _ _, compress_aabc.1⟩, rfl, exec_after _ _,
    decompress_view test_decompress⟩

theorem witness_FailedOutWriterLosesOutput :
    dutiful base ∧ Instr.hser ∈ [Instr.hser, .pack, .unpack, .compress, .decompress] ∧
      exec .hser base = .next (after .hser base) ∧ (after .hser base).errcode ≠ .none :=
  ⟨rfl, by decide, exec_after _ _, by decide +kernel⟩

theorem witness_ErrorKindsPerCommand : dutiful base ∧ capsOk base ∧ exec .compress base = .next (after .compress base) :=
  ⟨rfl, caps_base, exec_after _ _⟩

/-- All six clauses at reset's valid bits, TBUILD's and CGEN's other side at NSYM = 0 and NSYM ≠ 0. -/
theorem witness_FailedPreconditionIsSequenceError :
    dutiful base ∧ ¬ (base.valid.ft = true ∧ 1 ≤ base.nsym.toNat) ∧
      (base.valid.tree = false ∧ ¬ (base.valid.ft = true ∧ base.nsym = 0)) ∧ base.valid.ct = false ∧
      ¬ (base.valid.ct = true ∧ base.valid.hs = true) ∧ base.valid.hd = false ∧ base.valid.trie = false ∧
      ¬ ((after .fcount base).valid.ft = true ∧ 1 ≤ (after .fcount base).nsym.toNat) ∧
      (counted.valid.tree = false ∧ ¬ (counted.valid.ft = true ∧ counted.nsym = 0)) := by
  unfold dutiful; decide +kernel

theorem witness_OverlongInputIsIoError :
    dutiful { serialized with inCapR := 3 } ∧ inCap { serialized with inCapR := 3 } < ({ serialized with inCapR := 3 } : State).inLen.toNat ∧
      ({ serialized with inCapR := 3 } : State).valid.ct = true ∧ ({ serialized with inCapR := 3 } : State).valid.hs = true ∧
      dutiful { tried with inCapR := 15 } ∧ inCap { tried with inCapR := 15 } < ({ tried with inCapR := 15 } : State).inLen.toNat ∧
      ({ tried with inCapR := 15 } : State).valid.trie = true := by
  unfold dutiful; decide

theorem witness_NopChangesOnlyStatus :
    dutiful packed ∧ dutiful base ∧ base.valid = ValidBits.empty ∧ base.lost = false := ⟨rfl, rfl, rfl, rfl⟩

theorem witness_ClearResetsTheEngine : dutiful packed := rfl

/-- At the boundary IN_LEN = IN_CAP too. -/
theorem witness_FcountCountsAndRanks :
    dutiful aabc ∧ aabc.inLen.toNat ≤ inCap aabc ∧ 0x61#8 ∈ inputBytes aabc ∧ 0x64#8 ∉ inputBytes aabc ∧
      ({ aabc with inCapR := 4 } : State).inLen.toNat ≤ inCap { aabc with inCapR := 4 } :=
  ⟨rfl, by decide, by decide +kernel, by decide +kernel, by decide⟩

theorem fcount_aabc : (after .fcount aabc).errcode = .none := by decide +kernel

theorem witness_FcountLaws :
    dutiful aabc ∧ exec .fcount aabc = .next (after .fcount aabc) ∧ (after .fcount aabc).errcode = .none ∧
      (after .fcount aabc).freq.read 0x61 ≠ 0 ∧ (after .fcount aabc).freq.read 0x62 ≠ 0 :=
  ⟨rfl, exec_after _ _, fcount_aabc, by decide +kernel, by decide +kernel⟩

/-- Two states with the same input that differ elsewhere. -/
theorem witness_FcountIsAFunctionOfItsInput :
    dutiful aabc ∧ dutiful { packed with ie := true } ∧ inputBytes aabc = inputBytes { packed with ie := true } ∧
      exec .fcount aabc = .next (after .fcount aabc) ∧
      exec .fcount { packed with ie := true } = .next (after .fcount { packed with ie := true }) ∧
      (after .fcount aabc).errcode = .none ∧ (after .fcount { packed with ie := true }).errcode = .none :=
  ⟨rfl, rfl, rfl, exec_after _ _, exec_after _ _, fcount_aabc, by decide +kernel⟩

theorem witness_TbuildFollowsTheMergeRule :
    dutiful (after .fcount aabc) ∧ (after .fcount aabc).valid.ft = true ∧ 1 ≤ (after .fcount aabc).nsym.toNat ∧
      ranksDistinct (after .fcount aabc) ∧ (∃ b, (after .fcount aabc).freq.read b ≠ 0) ∧
      leavesOf (after .fcount aabc) (countedLeaves (after .fcount aabc)) := by
  refine ⟨by unfold dutiful; decide +kernel, by decide +kernel, by decide +kernel, ?_, ⟨0x61, by decide +kernel⟩, leavesOf_countedLeaves _⟩
  have h : after .fcount aabc = settled (stageFcount aabc) := Host.Outcome.next.inj ((exec_after _ _).symm.trans (exec_fcount rfl))
  rw [h]
  obtain ⟨_, c⟩ := stageFcount_counted (s := aabc) (by decide)
  exact ranksDistinct_of_counts (length_inputBytes_lt _) c.freq c.rank

/-- "aabc" with room for the longest codes. -/
def roomy : State := { aabc with outCapR := 65536 }

/-- Every stage of the encoder succeeds on it, one after the other. -/
theorem encoder_chain (s : State) (hd : dutiful s) (hi : s.inLen.toNat ≤ inCap s) (hn : s.inLen.toNat ≤ 1000)
    (ho : 65536 ≤ outCap s) (hne : inputBytes s ≠ []) :
    (after .fcount s).errcode = .none ∧ 1 ≤ (after .fcount s).nsym.toNat ∧
    (after .tbuild (after .fcount s)).errcode = .none ∧
    (after .cgen (after .tbuild (after .fcount s))).errcode = .none ∧
    (after .hser (after .cgen (after .tbuild (after .fcount s)))).errcode = .none ∧
    (after .pack (after .hser (after .cgen (after .tbuild (after .fcount s))))).errcode = .none := by
  have hl := length_inputBytes_lt s
  have hle := length_encStream_le hl
  rw [length_inputBytes] at hle
  have hh : (encHeader (inputBytes s)).length ≤ 8710 := length_artifactHeader_le (encTable_spec hl).2.2 (encStream (inputBytes s)).length
  obtain ⟨a1, a2⟩ := stageFcount_counted hi
  have ea : after .fcount s = settled (stageFcount s) := Host.Outcome.next.inj ((exec_after _ _).symm.trans (exec_fcount hd))
  have ca : Counted (inputBytes s) (after .fcount s) := by rw [ea]; exact ⟨a2.freq, a2.rank, a2.nsym, a2.ft⟩
  have fa : ioSide (after .fcount s) = ioSide s := by rw [ea]; exact (stageFcount_frame s).1
  have da : dutiful (after .fcount s) := by rw [ea]; rfl
  have na : 1 ≤ (after .fcount s).nsym.toNat := by rw [ca.nsym_toNat hl]; exact distinct_pos.2 hne
  have ra : (after .fcount s).errcode = .none := by rw [ea]; exact a1
  generalize after .fcount s = a at *
  have eb : after .tbuild a = settled (stageTbuild a) := Host.Outcome.next.inj ((exec_after _ _).symm.trans (exec_tbuild da))
  obtain ⟨b1, b2, b3, _⟩ := stageTbuild_counted ca hl
  rw [show stageTbuildUnlessEmpty a = stageTbuild a by unfold stageTbuildUnlessEmpty; rw [if_pos na]] at b1 b2 b3
  have cb : Counted (inputBytes s) (after .tbuild a) := by rw [eb]; exact ⟨b2.freq, b2.rank, b2.nsym, b2.ft⟩
  have fb : ioSide (after .tbuild a) = ioSide s := by rw [← fa, eb]; exact (stageTbuild_frame a).1
  have db : dutiful (after .tbuild a) := by rw [eb]; rfl
  have tb : inputBytes s ≠ [] → (after .tbuild a).tree = encTree (inputBytes s) ∧ (after .tbuild a).valid.tree = true := by
    rw [eb]; exact b3
  have rb : (after .tbuild a).errcode = .none := by rw [eb]; exact b1
  generalize after .tbuild a = b at *
  have ec : after .cgen b = settled (stageCgen b) := Host.Outcome.next.inj ((exec_after _ _).symm.trans (exec_cgen db))
  obtain ⟨c1, c2⟩ := (stageCgen_counted cb hl tb (fun h => absurd h hne)).1 (by omega)
  have cc : Coded (inputBytes s) (after .cgen b) := by rw [ec]; exact ⟨⟨c2.freq, c2.rank, c2.nsym, c2.ft⟩, c2.code, c2.vbc, c2.ct⟩
  have fc : ioSide (after .cgen b) = ioSide s := by rw [← fb, ec]; exact (stageCgen_frame b).1
  have dc : dutiful (after .cgen b) := by rw [ec]; rfl
  have rc : (after .cgen b).errcode = .none := by rw [ec]; exact c1
  generalize after .cgen b = c at *
  have oc : outCap c = outCap s := (ioSide_inputBytes fc).2.2.1
  have ed : after .hser c = settled (closeOutWriter (stageHser c)) := Host.Outcome.next.inj ((exec_after _ _).symm.trans (exec_hser dc))
  obtain ⟨d1, d2⟩ := (stageHser_coded cc (by omega)).1 (by omega)
  rw [closeOutWriter_ok d1] at ed
  have cd : Serialized (inputBytes s) (after .hser c) := by
    rw [ed]; exact ⟨⟨⟨d2.freq, d2.rank, d2.nsym, d2.ft⟩, d2.code, d2.vbc, d2.ct⟩, d2.hs, d2.hdrLen, d2.out⟩
  have fd : ioSide (after .hser c) = ioSide s := by rw [← fc, ed]; exact (stageHser_frame c).1
  have dd : dutiful (after .hser c) := by rw [ed]; rfl
  have rd : (after .hser c).errcode = .none := by rw [ed]; exact d1
  generalize after .hser c = d at *
  obtain ⟨id1, id2, id3, id4⟩ := ioSide_inputBytes fd
  have ee : after .pack d = settled (closeOutWriter (stagePack d)) := Host.Outcome.next.inj ((exec_after _ _).symm.trans (exec_pack dd))
  rw [← id1] at cd hle hh
  have hart : (encArtifact (inputBytes d)).length ≤ outCap d := by
    rw [List.length_append, length_packMsb]; unfold ceil8; omega
  obtain ⟨p1, _⟩ := (stagePack_serialized cd (by rw [id4, id2]; exact hi) (by omega)).1 hart
  rw [closeOutWriter_ok p1] at ee
  exact ⟨ra, na, rb, rc, rd, by rw [ee]; exact p1⟩

/-- The encoder's stages on an empty input, without TBUILD. -/
theorem encoder_chain_empty (s : State) (hd : dutiful s) (hi : s.inLen = 0) (ho : 65536 ≤ outCap s) :
    (after .fcount s).errcode = .none ∧ (after .fcount s).nsym = 0 ∧
    (after .cgen (after .fcount s)).errcode = .none ∧
    (after .hser (after .cgen (after .fcount s))).errcode = .none ∧
    (after .pack (after .hser (after .cgen (after .fcount s)))).errcode = .none := by
  have hb : inputBytes s = [] := by apply List.eq_nil_of_length_eq_zero; rw [length_inputBytes, hi]; rfl
  have hl : ([] : List Byte).length < 2 ^ 32 := by decide
  have hle : (encStream []).length = 0 := rfl
  have hh : (encHeader []).length ≤ 8710 := length_artifactHeader_le (encTable_spec hl).2.2 (encStream []).length
  have hi0 : s.inLen.toNat = 0 := by rw [hi]; rfl
  obtain ⟨a1, a2⟩ := stageFcount_counted (s := s) (by omega)
  have ea : after .fcount s = settled (stageFcount s) := Host.Outcome.next.inj ((exec_after _ _).symm.trans (exec_fcount hd))
  rw [hb] at a2
  have ca : Counted [] (after .fcount s) := by rw [ea]; exact ⟨a2.freq, a2.rank, a2.nsym, a2.ft⟩
  have fa : ioSide (after .fcount s) = ioSide s := by rw [ea]; exact (stageFcount_frame s).1
  have da : dutiful (after .fcount s) := by rw [ea]; rfl
  have na : (after .fcount s).nsym = 0 := ca.nsym
  have ra : (after .fcount s).errcode = .none := by rw [ea]; exact a1
  have ta : (after .fcount s).valid.tree = false := by
    rw [ea]
    show (stageFcount s).st.valid.tree = false
    rw [(stageFcount_frame s).2.2.2.2.2.2.2.2]
    simp [a1, ValidBits.union, ValidBits.diff, killSet, genSet]
  generalize after .fcount s = b at *
  have ec : after .cgen b = settled (stageCgen b) := Host.Outcome.next.inj ((exec_after _ _).symm.trans (exec_cgen da))
  obtain ⟨c1, c2⟩ := (stageCgen_counted ca hl (fun h => absurd rfl h) (fun _ => ta)).1 (by omega)
  have cc : Coded [] (after .cgen b) := by rw [ec]; exact ⟨⟨c2.freq, c2.rank, c2.nsym, c2.ft⟩, c2.code, c2.vbc, c2.ct⟩
  have fc : ioSide (after .cgen b) = ioSide s := by rw [← fa, ec]; exact (stageCgen_frame b).1
  have dc : dutiful (after .cgen b) := by rw [ec]; rfl
  have rc : (after .cgen b).errcode = .none := by rw [ec]; exact c1
  generalize after .cgen b = c at *
  have oc : outCap c = outCap s := (ioSide_inputBytes fc).2.2.1
  have ed : after .hser c = settled (closeOutWriter (stageHser c)) := Host.Outcome.next.inj ((exec_after _ _).symm.trans (exec_hser dc))
  obtain ⟨d1, d2⟩ := (stageHser_coded cc (by omega)).1 (by omega)
  rw [closeOutWriter_ok d1] at ed
  have cd : Serialized [] (after .hser c) := by
    rw [ed]; exact ⟨⟨⟨d2.freq, d2.rank, d2.nsym, d2.ft⟩, d2.code, d2.vbc, d2.ct⟩, d2.hs, d2.hdrLen, d2.out⟩
  have fd : ioSide (after .hser c) = ioSide s := by rw [← fc, ed]; exact (stageHser_frame c).1
  have dd : dutiful (after .hser c) := by rw [ed]; rfl
  have rd : (after .hser c).errcode = .none := by rw [ed]; exact d1
  generalize after .hser c = d at *
  obtain ⟨id1, id2, id3, id4⟩ := ioSide_inputBytes fd
  have ee : after .pack d = settled (closeOutWriter (stagePack d)) := Host.Outcome.next.inj ((exec_after _ _).symm.trans (exec_pack dd))
  rw [hb] at id1
  rw [← id1] at cd hle hh
  have hart : (encArtifact (inputBytes d)).length ≤ outCap d := by
    rw [List.length_append, length_packMsb]; unfold ceil8; omega
  obtain ⟨p1, _⟩ := (stagePack_serialized cd (by rw [id4, hi0]; omega) (by omega)).1 hart
  rw [closeOutWriter_ok p1] at ee
  exact ⟨ra, na, rc, rd, by rw [ee]; exact p1⟩

/-- Reset with room for the longest codes. -/
def roomyBase : State := { base with outCapR := 65536 }

theorem chain_roomyBase : (after .fcount roomyBase).errcode = .none ∧ (after .fcount roomyBase).nsym = 0 ∧
    (after .cgen (after .fcount roomyBase)).errcode = .none ∧
    (after .hser (after .cgen (after .fcount roomyBase))).errcode = .none ∧
    (after .pack (after .hser (after .cgen (after .fcount roomyBase)))).errcode = .none :=
  encoder_chain_empty roomyBase rfl rfl (by decide)

theorem chain_roomy : (after .fcount roomy).errcode = .none ∧ 1 ≤ (after .fcount roomy).nsym.toNat ∧
    (after .tbuild (after .fcount roomy)).errcode = .none ∧
    (after .cgen (after .tbuild (after .fcount roomy))).errcode = .none ∧
    (after .hser (after .cgen (after .tbuild (after .fcount roomy)))).errcode = .none ∧
    (after .pack (after .hser (after .cgen (after .tbuild (after .fcount roomy))))).errcode = .none :=
  encoder_chain roomy rfl (by decide) (by decide) (by decide) (by decide +kernel)

/-- TBUILD right after FCOUNT, and on a state that differs elsewhere. -/
theorem witness_TbuildTreeShape :
    dutiful roomy ∧ exec .fcount roomy = .next (after .fcount roomy) ∧ (after .fcount roomy).errcode = .none ∧
      (fun w : State => dutiful w ∧ w.freq = (after .fcount roomy).freq ∧ w.rank = (after .fcount roomy).rank ∧
        w.nsym = (after .fcount roomy).nsym ∧ exec .tbuild w = .next (after .tbuild w) ∧
        (after .tbuild w).errcode = .none) (after .fcount roomy) :=
  ⟨rfl, exec_after _ _, chain_roomy.1, by
    rw [show after .fcount roomy = settled (stageFcount roomy) from
      Host.Outcome.next.inj ((exec_after _ _).symm.trans (exec_fcount rfl))]; rfl,
    rfl, rfl, rfl, exec_after _ _, chain_roomy.2.2.1⟩

/-- RANK differs on a symbol with no count. -/
theorem witness_TbuildIsDeterministic :
    dutiful counted ∧ dutiful { counted with rank := counted.rank.write 0x64 7 } ∧ (∃ b, counted.freq.read b ≠ 0) ∧
      counted.freq = ({ counted with rank := counted.rank.write 0x64 7 } : State).freq ∧
      (∀ b, counted.freq.read b ≠ 0 →
        counted.rank.read b = ({ counted with rank := counted.rank.write 0x64 7 } : State).rank.read b) ∧
      exec .tbuild counted = .next (after .tbuild counted) ∧
      exec .tbuild { counted with rank := counted.rank.write 0x64 7 } =
        .next (after .tbuild { counted with rank := counted.rank.write 0x64 7 }) ∧
      (after .tbuild counted).errcode = .none ∧
      (after .tbuild { counted with rank := counted.rank.write 0x64 7 }).errcode = .none := by
  have key : ∀ s : State, dutiful s → s.valid.ft = true → 1 ≤ s.nsym.toNat → (after .tbuild s).errcode = .none := by
    intro s hd h1 h2
    have e : after .tbuild s = settled (stageTbuild s) := Host.Outcome.next.inj ((exec_after _ _).symm.trans (exec_tbuild hd))
    rw [e]
    rcases stageTbuild_cases s with ⟨r, _, _, _, e⟩ | ⟨_, _, _, e⟩ | ⟨h, _⟩
    · rw [e]
    · rw [e]
    · exact absurd ⟨h1, h2⟩ h
  refine ⟨rfl, rfl, ⟨0x61, by decide +kernel⟩, rfl, ?_, exec_after _ _, exec_after _ _, key _ rfl rfl (by decide), key _ rfl rfl (by decide)⟩
  intro b hb
  show counted.rank.read b = (counted.rank.write 0x64 7).read b
  rw [Table.read_write, if_neg]
  rintro rfl
  revert hb; decide +kernel

/-- A lone leaf, an internal root, and the empty mode. -/
theorem witness_CgenGivesEachLeafItsPath :
    (dutiful treed ∧ treed.valid.tree = true ∧ (nodeSymbols treed.tree).Nodup ∧
      weightedLength treed.freq (codesOf treed.tree) ≤ 2 ^ 32 - 1) ∧
    (dutiful base ∧ dutiful { treed with freq := Table.fill 0, tree := .leaf 0x61 2 0 } ∧
      weightedLength (Table.fill 0) (codesOf (.leaf 0x61 2 0)) ≤ 2 ^ 32 - 1) ∧
    (fun s : State => dutiful s ∧ s.valid.tree = false ∧ s.valid.ft = true ∧ s.nsym = 0)
      { base with valid := ⟨true, false, false, false, false, false⟩ } := by
  refine ⟨⟨rfl, rfl, by decide +kernel, by decide +kernel⟩, ⟨rfl, rfl, ?_⟩, ⟨rfl, rfl, rfl, rfl⟩⟩
  decide +kernel

theorem witness_CgenLaws :
    (dutiful roomy ∧ exec .fcount roomy = .next (after .fcount roomy) ∧ (after .fcount roomy).errcode = .none ∧
      exec .tbuild (after .fcount roomy) = .next (after .tbuild (after .fcount roomy)) ∧
      (after .tbuild (after .fcount roomy)).errcode = .none ∧
      exec .cgen (after .tbuild (after .fcount roomy)) = .next (after .cgen (after .tbuild (after .fcount roomy))) ∧
      (after .cgen (after .tbuild (after .fcount roomy))).errcode = .none) ∧
    (dutiful roomyBase ∧ exec .fcount roomyBase = .next (after .fcount roomyBase) ∧ (after .fcount roomyBase).errcode = .none ∧
      (after .fcount roomyBase).nsym = 0 ∧ (after .cgen (after .fcount roomyBase)).errcode = .none) :=
  ⟨⟨rfl, exec_after _ _, chain_roomy.1, exec_after _ _, chain_roomy.2.2.1, exec_after _ _, chain_roomy.2.2.2.1⟩,
    rfl, exec_after _ _, chain_roomyBase.1, chain_roomyBase.2.1, chain_roomyBase.2.2.1⟩

/-- At the boundary OUT_CAP = 15, the header's length, and just below it. -/
theorem witness_HserWritesTheHeader :
    dutiful { coded with outCapR := 15 } ∧ ({ coded with outCapR := 15 } : State).valid.ct = true ∧
      (encoderHeader { coded with outCapR := 15 }).length ≤ outCap { coded with outCapR := 15 } ∧
      dutiful { coded with outCapR := 14 } ∧ outCap { coded with outCapR := 14 } < (encoderHeader { coded with outCapR := 14 }).length :=
  ⟨rfl, rfl, by decide +kernel, rfl, by decide +kernel⟩

theorem entries_art : entriesOk [⟨0x61, 1, [0x00]⟩, ⟨0x62, 2, [0x80]⟩, ⟨0x63, 2, [0xC0]⟩] := by
  unfold entriesOk; decide

theorem witness_HdeserReadsTheLayout :
    dutiful art ∧ art.inLen.toNat ≤ inCap art ∧ entriesOk [⟨0x61, 1, [0x00]⟩, ⟨0x62, 2, [0x80]⟩, ⟨0x63, 2, [0xC0]⟩] ∧
      6 < 2 ^ 32 ∧ [(0x2C : Byte)].length = ceil8 6 ∧
      inputBytes art = artifactHeader [⟨0x61, 1, [0x00]⟩, ⟨0x62, 2, [0x80]⟩, ⟨0x63, 2, [0xC0]⟩] 6 ++ [0x2C] :=
  ⟨rfl, by decide, entries_art, by decide, rfl, by decide +kernel⟩

/-- One byte short, and one byte in excess. -/
theorem witness_HdeserJudgesThePayloadSize :
    dutiful (withIn header3 base) ∧ (withIn header3 base).inLen.toNat ≤ inCap (withIn header3 base) ∧
      entriesOk [⟨0x61, 1, [0x00]⟩, ⟨0x62, 2, [0x80]⟩, ⟨0x63, 2, [0xC0]⟩] ∧
      inputBytes (withIn header3 base) = artifactHeader [⟨0x61, 1, [0x00]⟩, ⟨0x62, 2, [0x80]⟩, ⟨0x63, 2, [0xC0]⟩] 6 ++ [] ∧
      ([] : List Byte).length < ceil8 6 ∧
      inputBytes (withIn (header3 ++ [0x2C, 0x00]) base) =
        artifactHeader [⟨0x61, 1, [0x00]⟩, ⟨0x62, 2, [0x80]⟩, ⟨0x63, 2, [0xC0]⟩] 6 ++ [0x2C, 0x00] ∧
      ceil8 6 < [(0x2C : Byte), 0x00].length :=
  ⟨rfl, by decide, entries_art, by decide +kernel, by decide, by decide +kernel, by decide⟩

/-- Fewer than two bytes, 0 and 1; and the least count over 256, in two bytes. -/
theorem witness_HdeserJudgesThePayloadSize_count :
    (fun s : State => dutiful s ∧ s.inLen.toNat ≤ inCap s ∧ s.inLen.toNat < 2) base ∧
      (fun s : State => dutiful s ∧ s.inLen.toNat ≤ inCap s ∧ s.inLen.toNat < 2) (withIn (bytes [0]) base) ∧
      (fun s : State => dutiful s ∧ s.inLen.toNat ≤ inCap s ∧ 2 ≤ s.inLen.toNat ∧ 256 < rdBe16 s 0)
        (withIn (bytes [1, 1]) base) := by
  refine ⟨⟨rfl, by decide, by decide⟩, ⟨rfl, by decide, by decide⟩, rfl, by decide, by decide, by decide +kernel⟩

/-- An entry count, whole entries, and what follows them. -/
def cutHeader (n : Nat) (es : List Entry) (rest : List Byte) : List Byte :=
  be16 n ++ (es.flatMap fun e => e.sym :: BitVec.ofNat 8 e.len :: e.bytes) ++ rest

/-- The hypotheses common to the clauses of a cut or malformed header. -/
def cutAt (n : Nat) (es : List Entry) (rest : List Byte) : Prop :=
  dutiful (withIn (cutHeader n es rest) base) ∧
    (withIn (cutHeader n es rest) base).inLen.toNat ≤ inCap (withIn (cutHeader n es rest) base) ∧ n ≤ 256 ∧ entriesOk es ∧
    inputBytes (withIn (cutHeader n es rest) base) =
      be16 n ++ (es.flatMap fun e => e.sym :: BitVec.ofNat 8 e.len :: e.bytes) ++ rest

theorem cutAt_intro {n : Nat} {es : List Entry} {rest : List Byte} (hn : n ≤ 256) (he : entriesOk es)
    (hl : (cutHeader n es rest).length ≤ 4096) : cutAt n es rest := by
  refine ⟨rfl, ?_, hn, he, inputBytes_withIn _ _ (by omega)⟩
  show (BitVec.ofNat 32 (cutHeader n es rest).length).toNat ≤ 4096
  rw [BitVec.toNat_ofNat]; omega

theorem entries_none : entriesOk [] := by unfold entriesOk; decide
theorem entries_one : entriesOk [⟨0x61, 1, [0x00]⟩] := by unfold entriesOk; decide

/-- Each malformed header at its boundary: an entry's head one byte short, a length byte 0, code bytes one short, a symbol seen
before, and a bit count one byte short. -/
theorem witness_HdeserJudgesThePayloadSize_entries :
    (cutAt 256 [] [0x61] ∧ ([] : List Entry).length < 256 ∧ [(0x61 : Byte)].length < 2) ∧
    (cutAt 1 [] [0x61, 0] ∧ ([] : List Entry).length < 1 ∧ ∃ b post, [(0x61 : Byte), 0] = b :: 0 :: post) ∧
    (cutAt 1 [] [0x61, 9, 0x80] ∧ ([] : List Entry).length < 1 ∧
      ∃ b l post, [(0x61 : Byte), 9, 0x80] = b :: l :: post ∧ post.length < ceil8 l.toNat) ∧
    (cutAt 2 [⟨0x61, 1, [0x00]⟩] [0x61, 1, 0x80, 0, 0, 0, 0] ∧ [(⟨0x61, 1, [0x00]⟩ : Entry)].length < 2 ∧
      ∃ b l post, [(0x61 : Byte), 1, 0x80, 0, 0, 0, 0] = b :: l :: post ∧ b ∈ [(⟨0x61, 1, [0x00]⟩ : Entry)].map Entry.sym) ∧
    (cutAt 1 [⟨0x61, 1, [0x00]⟩] [0, 0, 0] ∧ [(⟨0x61, 1, [0x00]⟩ : Entry)].length = 1 ∧ [(0 : Byte), 0, 0].length < 4) :=
  ⟨⟨cutAt_intro (by decide) entries_none (by decide), by decide, by decide⟩,
    ⟨cutAt_intro (by decide) entries_none (by decide), by decide, _, _, rfl⟩,
    ⟨cutAt_intro (by decide) entries_none (by decide), by decide, _, _, _, rfl, by decide⟩,
    ⟨cutAt_intro (by decide) entries_one (by decide), by decide, _, _, _, rfl, by decide⟩,
    cutAt_intro (by decide) entries_one (by decide), by decide, by decide⟩

theorem witness_HdeserSuccessMeansWellFormed :
    dutiful (withIn (bytes [0, 0, 0, 0, 0, 0]) base) ∧
      exec .hdeser (withIn (bytes [0, 0, 0, 0, 0, 0]) base) = .next (after .hdeser (withIn (bytes [0, 0, 0, 0, 0, 0]) base)) ∧
      (after .hdeser (withIn (bytes [0, 0, 0, 0, 0, 0]) base)).errcode = .none :=
  ⟨rfl, exec_after _ _, by decide +kernel⟩

/-- "a" after FCOUNT, TBUILD, CGEN and HSER (V-CG9, R312). -/
def serializedA : State :=
  { withOut (bytes [0, 1, 0x61, 1, 0, 0, 0, 0, 1]) (withIn (bytes [0x61]) base) with
    freq := table 0 [(0x61, 1)]
    rank := Table.fill 0
    nsym := 1
    tree := .leaf 0x61 1 0
    code := table [] [(0x61, [false])]
    vbc := 1
    hdrLen := 9
    valid := ⟨true, true, true, true, false, false⟩ }

theorem freq_serializedA (b : Byte) : serializedA.freq.read b = if b = 0x61 then 1 else 0 := by
  show (table 0 [(0x61, (1 : Word))]).read b = _
  simp [table, Table.read_write]

theorem code_serializedA (b : Byte) : serializedA.code.read b = if b = 0x61 then [false] else [] := by
  show (table [] [(0x61, [false])]).read b = _
  simp [table, Table.read_write]

theorem tries_ok (d : Nat) : trieWf (freeTrie d) = true := by
  unfold freeTrie; split
  · assumption
  · decide

theorem inv_serializedA : Machine.Inv serializedA where
  caps := caps_base
  inBuf := by
    refine ⟨by decide, ?_, by decide⟩
    show ∀ c ∈ cellsFrom 0 (bytes [0x61]), c.1 < 4096
    decide
  outBuf := by
    refine ⟨by decide, ?_, by decide⟩
    show ∀ c ∈ cellsFrom 0 (bytes [0, 1, 0x61, 1, 0, 0, 0, 0, 1]), c.1 < 4096
    decide
  code := by intro b; rw [code_serializedA]; split <;> decide
  dcode := by
    intro b
    show codeWf ((Table.fill []).read b) = true
    rw [Table.read_fill]; decide
  tree := by decide
  trie := tries_ok 0
  running := by intro h; cases h
  idle := by intro _; exact ⟨rfl, rfl⟩

theorem counted_serializedA : countedLeaves serializedA = [.leaf 0x61 1 0] := by decide +kernel

theorem current_serializedA : Current serializedA where
  outLen := by decide
  ftCounts := by
    intro _
    refine ⟨by rw [← length_countedLeaves, counted_serializedA]; rfl, ?_⟩
    intro x y hx hy _
    rw [freq_serializedA] at hx hy
    by_cases h1 : x = 0x61 <;> by_cases h2 : y = 0x61 <;> simp_all
  treeNeedsFt := by intro _; rfl
  treeMerged := by
    intro _ q hq
    have := leavesOf_perm hq
    rw [counted_serializedA] at this
    rw [List.perm_singleton.1 this]
    exact .root ..
  ctNeedsFt := by intro _; rfl
  ctCoded := by
    intro _ b
    rw [freq_serializedA, code_serializedA]
    by_cases h : b = 0x61 <;> simp [h]
  ctVbc := by intro _; decide +kernel
  ctPrefixFree := by
    intro _ x y hxy hx hy
    have hx' : serializedA.code.read x ≠ [] := hx
    have hy' : serializedA.code.read y ≠ [] := hy
    rw [code_serializedA] at hx' hy'
    by_cases h1 : x = 0x61 <;> by_cases h2 : y = 0x61 <;> simp_all
  ctTree := by intro _ _ x; exact code_serializedA x
  ctEmpty := by intro _ h; cases h
  hsNeedsCt := by intro _; rfl
  hsHeader := by intro _; decide +kernel
  trieNeedsHd := by intro h; cases h
  trieCodes := by intro h; cases h

theorem pack_serializedA :
    (fun t : State => (t.errcode, outBytes t)) (after .pack serializedA) =
      (.none, bytes [0, 1, 0x61, 1, 0, 0, 0, 0, 1, 0]) := by decide +kernel

theorem pack_view {t : State} {a : ErrKind} {b : List Byte}
    (h : (fun t : State => (t.errcode, outBytes t)) t = (a, b)) : t.errcode = a ∧ outBytes t = b := by
  simpa only [Prod.mk.injEq] using h

theorem witness_HdeserInvertsHserAndPack :
    Machine.Inv serializedA ∧ Current serializedA ∧ dutiful serializedA ∧ exec .pack serializedA = .next (after .pack serializedA) ∧
      (after .pack serializedA).errcode = .none ∧ dutiful (withIn (bytes [0, 1, 0x61, 1, 0, 0, 0, 0, 1, 0]) base) ∧
      inputBytes (withIn (bytes [0, 1, 0x61, 1, 0, 0, 0, 0, 1, 0]) base) = outBytes (after .pack serializedA) ∧
      (withIn (bytes [0, 1, 0x61, 1, 0, 0, 0, 0, 1, 0]) base).inLen.toNat ≤
        inCap (withIn (bytes [0, 1, 0x61, 1, 0, 0, 0, 0, 1, 0]) base) :=
  ⟨inv_serializedA, current_serializedA, rfl, exec_after _ _, (pack_view pack_serializedA).1, rfl,
    by rw [(pack_view pack_serializedA).2]; exact inputBytes_withIn _ _ (by decide), by decide⟩

/-- At the boundary OUT_CAP = 16, the artifact's length. -/
theorem witness_PackWritesThePayload :
    (fun s : State => dutiful s ∧ s.valid.ct = true ∧ s.valid.hs = true ∧ s.inLen.toNat ≤ inCap s ∧
      (∀ b ∈ inputBytes s, s.code.read b ≠ []) ∧ ((inputBytes s).flatMap s.code.read).length = s.vbc.toNat ∧
      s.hdrLen.toNat + ceil8 s.vbc.toNat ≤ outCap s) { serialized with outCapR := 16 } :=
  ⟨rfl, rfl, rfl, by decide, by decide +kernel, by decide +kernel, by decide⟩

/-- A byte with no code: after "aab", with just the header and one payload byte fitting, and first of all, with the header not
fitting. -/
theorem witness_PackRejectsAChangedInput_unknown :
    (fun s : State => dutiful s ∧ s.valid.ct = true ∧ s.valid.hs = true ∧ s.inLen.toNat ≤ inCap s ∧
      inputBytes s = bytes [0x61, 0x61, 0x62] ++ 0x64 :: [] ∧ (∀ x ∈ bytes [0x61, 0x61, 0x62], s.code.read x ≠ []) ∧
      s.hdrLen.toNat + ceil8 ((bytes [0x61, 0x61, 0x62]).flatMap s.code.read).length ≤ outCap s ∧ s.code.read 0x64 = [])
      { withIn (bytes [0x61, 0x61, 0x62, 0x64]) serialized with outCapR := 16 } ∧
    (fun s : State => dutiful s ∧ s.valid.ct = true ∧ s.valid.hs = true ∧ s.inLen.toNat ≤ inCap s ∧
      inputBytes s = [] ++ 0x64 :: [] ∧ outCap s < s.hdrLen.toNat ∧ s.code.read 0x64 = [])
      { withIn (bytes [0x64]) serialized with outCapR := 14 } :=
  ⟨⟨rfl, rfl, rfl, by decide, by decide +kernel, by decide +kernel, by decide +kernel, by decide +kernel⟩,
    rfl, rfl, rfl, by decide, by decide +kernel, by decide, by decide +kernel⟩

/-- The first byte of "aabc" finds no room at OUT_CAP = HDR_LEN = 15 (V-PK18). -/
theorem witness_PackRejectsAChangedInput_full :
    (fun s : State => dutiful s ∧ s.valid.ct = true ∧ s.valid.hs = true ∧ s.inLen.toNat ≤ inCap s ∧
      inputBytes s = [] ++ 0x61 :: bytes [0x61, 0x62, 0x63] ∧ (∀ x ∈ [] ++ [(0x61 : Byte)], s.code.read x ≠ []) ∧
      outCap s < s.hdrLen.toNat + ceil8 (([] ++ [(0x61 : Byte)]).flatMap s.code.read).length)
      { serialized with outCapR := 15 } :=
  ⟨rfl, rfl, rfl, by decide, by decide +kernel, by decide +kernel, by decide +kernel⟩

/-- A different bit count: of "abbc", with room for just its payload, and of an empty input, with the header not fitting. -/
theorem witness_PackRejectsAChangedInput_count :
    (fun s : State => dutiful s ∧ s.valid.ct = true ∧ s.valid.hs = true ∧ s.inLen.toNat ≤ inCap s ∧
      (∀ x ∈ inputBytes s, s.code.read x ≠ []) ∧
      s.hdrLen.toNat + ceil8 ((inputBytes s).flatMap s.code.read).length ≤ outCap s ∧
      ((inputBytes s).flatMap s.code.read).length ≠ s.vbc.toNat)
      { withIn (bytes [0x61, 0x62, 0x62, 0x63]) serialized with outCapR := 16 } ∧
    (fun s : State => dutiful s ∧ s.valid.ct = true ∧ s.valid.hs = true ∧ s.inLen.toNat ≤ inCap s ∧ inputBytes s = [] ∧
      outCap s < s.hdrLen.toNat ∧ ((inputBytes s).flatMap s.code.read).length ≠ s.vbc.toNat)
      { withIn [] serialized with outCapR := 14 } :=
  ⟨⟨rfl, rfl, rfl, by decide, by decide +kernel, by decide +kernel, by decide +kernel⟩,
    rfl, rfl, rfl, by decide, by decide +kernel, by decide, by decide +kernel⟩

theorem insert_trie3 : insertAll codes3 allSymbols [emptyTrieNode] = .ok trie3 := by decide +kernel

theorem trie3_holds : trieHolds trie3 codes3 ∧ prefixFree codes3 := by
  rcases insertAll_all codes3 with ⟨t, h, hp, ht, _⟩ | ⟨h, _⟩
  · rw [insert_trie3] at h; cases h; exact ⟨ht, hp⟩
  · rw [insert_trie3] at h; cases h

/-- A table whose codes are not prefix-free: a = 0, b = 01 (V-TR5). -/
theorem not_prefixFree : ¬ prefixFree (table [] [(0x61, [false]), (0x62, [false, true])]) := by
  intro h
  exact h 0x61 0x62 (by decide) (by decide +kernel) (by decide +kernel) (by decide +kernel)

theorem witness_TreconAcceptsExactlyPrefixFree :
    dutiful parsed ∧ parsed.valid.hd = true ∧ prefixFree parsed.dcode ∧
      ¬ prefixFree ({ parsed with dcode := table [] [(0x61, [false]), (0x62, [false, true])] } : State).dcode :=
  ⟨rfl, rfl, trie3_holds.2, not_prefixFree⟩

theorem witness_TreconTrieHoldsTheCodes : dutiful parsed ∧ parsed.valid.hd = true ∧ prefixFree parsed.dcode :=
  ⟨rfl, rfl, trie3_holds.2⟩

/-- At the boundary OUT_CAP = 4, the output's length. -/
theorem witness_UnpackDecodesACodeStream :
    (fun s : State => dutiful s ∧ s.valid.trie = true ∧ s.inLen.toNat ≤ inCap s ∧ prefixFree codes3 ∧ trieHolds s.trie codes3 ∧
      (∀ x ∈ bytes [0x61, 0x61, 0x62, 0x63], codes3.read x ≠ []) ∧ s.payOff.toNat + ceil8 s.dvbc.toNat ≤ s.inLen.toNat ∧
      (List.range s.dvbc.toNat).map (bitMsb s s.payOff.toNat) = (bytes [0x61, 0x61, 0x62, 0x63]).flatMap codes3.read ∧
      (bytes [0x61, 0x61, 0x62, 0x63]).length ≤ outCap s) { tried with outCapR := 4 } :=
  ⟨rfl, rfl, by decide, trie3_holds.2, trie3_holds.1, by decide +kernel, by decide, by decide +kernel, by decide⟩

theorem witness_UnpackBoundsItsOutput : dutiful tried ∧ exec .unpack tried = .next (after .unpack tried) := ⟨rfl, exec_after _ _⟩

/-- The codes a = 0, b = 10, an incomplete code: 11 leads nowhere. -/
def codes2 : Table Bits := table [] [(0x61, [false]), (0x62, [true, false])]

/-- Its trie. -/
def trie2 : List TrieNode := [⟨some 1, some 2, none⟩, ⟨none, none, some 0x61⟩, ⟨some 3, none, none⟩, ⟨none, none, some 0x62⟩]

theorem insert_trie2 : insertAll codes2 allSymbols [emptyTrieNode] = .ok trie2 := by decide +kernel

theorem trie2_holds : trieHolds trie2 codes2 ∧ prefixFree codes2 := by
  rcases insertAll_all codes2 with ⟨t, h, hp, ht, _⟩ | ⟨h, _⟩
  · rw [insert_trie2] at h; cases h; exact ⟨ht, hp⟩
  · rw [insert_trie2] at h; cases h

/-- A payload `pay` at offset 6 with `v` valid bits, to be decoded with `trie2`. -/
def payload (pay : List Byte) (v cap : Word) : State :=
  { withIn (bytes [0, 0, 0, 0, 0, 0] ++ pay) base with
    trie := trie2
    dvbc := v
    payOff := 6
    outCapR := cap
    valid := ⟨false, false, false, false, true, true⟩ }

/-- The hypotheses common to the four clauses of UnpackRejectsBadPayloads. -/
def badPayload (s : State) (xs : List Byte) (p : Bits) : Prop :=
  dutiful s ∧ s.valid.trie = true ∧ s.inLen.toNat ≤ inCap s ∧ prefixFree codes2 ∧ trieHolds s.trie codes2 ∧
    (∀ x ∈ xs, codes2.read x ≠ []) ∧ xs.length ≤ outCap s ∧ (∀ q, q.IsPrefix p → trieSymbol s.trie q = none) ∧
    (List.range (xs.flatMap codes2.read ++ p).length).map (bitMsb s s.payOff.toNat) = xs.flatMap codes2.read ++ p ∧
    s.payOff.toNat + ((xs.flatMap codes2.read ++ p).length + 7) / 8 ≤ s.inLen.toNat

theorem walked_nil : ∀ q : Bits, q.IsPrefix [] → trieSymbol trie2 q = none := by
  intro q hq; rw [List.prefix_nil.1 hq]; decide

theorem walked_one : ∀ q : Bits, q.IsPrefix [true] → trieSymbol trie2 q = none := by
  intro q hq
  rcases List.prefix_cons_iff.1 hq with rfl | ⟨t, rfl, ht⟩
  · decide
  · rw [List.prefix_nil.1 ht]; decide

/-- The count ends inside b's code. -/
theorem witness_UnpackRejectsBadPayloads_ends :
    badPayload (payload [0x80] 1 4096) [] [true] ∧ trieWalk (payload [0x80] 1 4096).trie 0 [true] = some 2 ∧
      (payload [0x80] 1 4096).dvbc.toNat = (([] : List Byte).flatMap codes2.read ++ [true]).length ∧ (2 : Nat) ≠ 0 :=
  ⟨⟨rfl, rfl, by decide, trie2_holds.2, trie2_holds.1, by simp, by decide, walked_one, by decide +kernel, by decide +kernel⟩,
    by decide, by decide +kernel, by decide⟩

/-- No byte holds the first bit. -/
theorem witness_UnpackRejectsBadPayloads_truncated :
    badPayload (payload [] 1 4096) [] [] ∧ trieWalk (payload [] 1 4096).trie 0 [] = some 0 ∧
      (([] : List Byte).flatMap codes2.read ++ []).length < (payload [] 1 4096).dvbc.toNat ∧
      (payload [] 1 4096).inLen.toNat ≤
        (payload [] 1 4096).payOff.toNat + (([] : List Byte).flatMap codes2.read ++ []).length / 8 :=
  ⟨⟨rfl, rfl, by decide, trie2_holds.2, trie2_holds.1, by simp, by decide, walked_nil, by decide +kernel, by decide +kernel⟩,
    by decide, by decide +kernel, by decide +kernel⟩

/-- 11 leads nowhere. -/
theorem witness_UnpackRejectsBadPayloads_noChild :
    badPayload (payload [0xC0] 2 4096) [] [true] ∧ trieWalk (payload [0xC0] 2 4096).trie 0 [true] = some 2 ∧
      (([] : List Byte).flatMap codes2.read ++ [true]).length < (payload [0xC0] 2 4096).dvbc.toNat ∧
      (payload [0xC0] 2 4096).payOff.toNat + (([] : List Byte).flatMap codes2.read ++ [true]).length / 8 <
        (payload [0xC0] 2 4096).inLen.toNat ∧
      trieChild (trieNode (payload [0xC0] 2 4096).trie 2)
        (bitMsb (payload [0xC0] 2 4096) (payload [0xC0] 2 4096).payOff.toNat
          (([] : List Byte).flatMap codes2.read ++ [true]).length) = none :=
  ⟨⟨rfl, rfl, by decide, trie2_holds.2, trie2_holds.1, by simp, by decide, walked_one, by decide +kernel, by decide +kernel⟩,
    by decide, by decide +kernel, by decide +kernel, by decide +kernel⟩

/-- Six symbols "a", the whole of OUT_CAP = 6. -/
def sixA : List Byte := bytes [0x61, 0x61, 0x61, 0x61, 0x61, 0x61]

/-- A seventh symbol does not fit. -/
theorem witness_UnpackRejectsBadPayloads_full :
    badPayload (payload [0x00] 7 6) sixA [] ∧ trieWalk (payload [0x00] 7 6).trie 0 [] = some 0 ∧
      (sixA.flatMap codes2.read ++ []).length < (payload [0x00] 7 6).dvbc.toNat ∧
      (payload [0x00] 7 6).payOff.toNat + (sixA.flatMap codes2.read ++ []).length / 8 < (payload [0x00] 7 6).inLen.toNat ∧
      trieChild (trieNode (payload [0x00] 7 6).trie 0)
        (bitMsb (payload [0x00] 7 6) (payload [0x00] 7 6).payOff.toNat (sixA.flatMap codes2.read ++ []).length) = some 1 ∧
      (trieNode (payload [0x00] 7 6).trie 1).sym ≠ none ∧ sixA.length = outCap (payload [0x00] 7 6) :=
  ⟨⟨rfl, rfl, by decide, trie2_holds.2, trie2_holds.1, by decide +kernel, by decide, walked_nil, by decide +kernel,
      by decide +kernel⟩,
    by decide, by decide +kernel, by decide +kernel, by decide +kernel, by decide, by decide⟩

/-- FCOUNT succeeds and fails; that the later stages do is shown by `test_compress`, `test_compress_full`, `test_decompress` and
`test_decompress_stage`. -/
theorem witness_CompositesRunTheirStages :
    (dutiful aabc ∧ exec .fcount aabc = .next (after .fcount aabc) ∧ (after .fcount aabc).errcode = .none) ∧
      (dutiful { aabc with inCapR := 3 } ∧
        exec .fcount { aabc with inCapR := 3 } = .next (after .fcount { aabc with inCapR := 3 }) ∧
        (after .fcount { aabc with inCapR := 3 }).errcode ≠ .none) :=
  ⟨⟨rfl, exec_after _ _, fcount_aabc⟩, rfl, exec_after _ _, by decide +kernel⟩

/-- At the boundary OUT_CAP = 6. -/
theorem witness_CompressOfEmptyInput :
    dutiful { base with outCapR := 6 } ∧ ({ base with outCapR := 6 } : State).inLen = 0 ∧ 6 ≤ outCap { base with outCapR := 6 } ∧
      ({ base with outCapR := 6 } : State).valid = ValidBits.empty ∧ ({ base with outCapR := 6 } : State).lost = false := by
  unfold dutiful; decide

/-- A success; an input one byte too long; and IN_LEN = IN_CAP = 4 with OUT_CAP at the artifact's length and one below it. -/
theorem witness_CompressWritesTheArtifact :
    (dutiful aabc ∧ exec .compress aabc = .next (after .compress aabc) ∧ (after .compress aabc).errcode = .none) ∧
      (dutiful { aabc with inCapR := 3 } ∧ inCap { aabc with inCapR := 3 } < ({ aabc with inCapR := 3 } : State).inLen.toNat) ∧
      (fun s : State => dutiful s ∧ capsOk s ∧ s.inLen.toNat ≤ inCap s ∧
        (encoderHeader coded).length + ceil8 coded.vbc.toNat ≤ outCap s) { aabc with inCapR := 4, outCapR := 16 } ∧
      (fun s : State => dutiful s ∧ capsOk s ∧ s.inLen.toNat ≤ inCap s ∧
        outCap s < (encoderHeader coded).length + ceil8 coded.vbc.toNat) { aabc with inCapR := 4, outCapR := 15 } :=
  ⟨⟨rfl, exec_after _ _, compress_aabc.1⟩, ⟨rfl, by decide⟩,
    ⟨rfl, ⟨by decide, by decide, by decide⟩, by decide, by decide +kernel⟩,
    rfl, ⟨by decide, by decide, by decide⟩, by decide, by decide +kernel⟩

/-- At the boundary OUT_CAP = 4, the input's length. -/
theorem witness_DecompressDecodesAnArtifact :
    (fun s : State => dutiful s ∧ s.inLen.toNat ≤ inCap s ∧
      entriesOk [⟨0x61, 1, [0x00]⟩, ⟨0x62, 2, [0x80]⟩, ⟨0x63, 2, [0xC0]⟩] ∧
      (∀ e ∈ [(⟨0x61, 1, [0x00]⟩ : Entry), ⟨0x62, 2, [0x80]⟩, ⟨0x63, 2, [0xC0]⟩], codes3.read e.sym = entryCode e) ∧
      (∀ b, b ∉ [(0x61 : Byte), 0x62, 0x63] → codes3.read b = []) ∧ prefixFree codes3 ∧
      (∀ x ∈ bytes [0x61, 0x61, 0x62, 0x63], x ∈ [(0x61 : Byte), 0x62, 0x63]) ∧
      6 = ((bytes [0x61, 0x61, 0x62, 0x63]).flatMap codes3.read).length ∧ [(0x2C : Byte)].length = ceil8 6 ∧
      (byteBits [0x2C]).take 6 = (bytes [0x61, 0x61, 0x62, 0x63]).flatMap codes3.read ∧
      inputBytes s = artifactHeader [⟨0x61, 1, [0x00]⟩, ⟨0x62, 2, [0x80]⟩, ⟨0x63, 2, [0xC0]⟩] 6 ++ [0x2C] ∧
      (bytes [0x61, 0x61, 0x62, 0x63]).length ≤ outCap s) { art with outCapR := 4 } := by
  refine ⟨rfl, by decide, entries_art, by decide +kernel, ?_, trie3_holds.2, by decide, by decide +kernel, rfl, by decide +kernel,
    by decide +kernel, by decide⟩
  intro b hb
  simp only [List.mem_cons, List.not_mem_nil, or_false, not_or] at hb
  show (table [] [(0x61, [false]), (0x62, [true, false]), (0x63, [true, true])]).read b = []
  have h1 : ¬ b = 97#8 := hb.1
  have h2 : ¬ b = 98#8 := hb.2.1
  have h3 : ¬ b = 99#8 := hb.2.2
  simp [table, Table.read_write, h1, h2, h3]

/-- At the boundary OUT_CAP = 4, the input's length. -/
theorem witness_RoundTripReturnsTheInput :
    dutiful aabc ∧ exec .compress aabc = .next (after .compress aabc) ∧ (after .compress aabc).errcode = .none ∧
      dutiful { art with outCapR := 4 } ∧ inputBytes { art with outCapR := 4 } = outBytes (after .compress aabc) ∧
      ({ art with outCapR := 4 } : State).inLen.toNat ≤ inCap { art with outCapR := 4 } ∧
      aabc.inLen.toNat ≤ outCap { art with outCapR := 4 } :=
  ⟨rfl, exec_after _ _, compress_aabc.1, rfl,
    by rw [compress_aabc.2.2.2]; exact inputBytes_withIn _ base (by decide), by decide, by decide⟩

/-- At the boundary IN_LEN = HDR_LEN = 15, and one byte shorter. -/
theorem witness_CutArtifactsAreRejected :
    dutiful aabc ∧ exec .compress aabc = .next (after .compress aabc) ∧ (after .compress aabc).errcode = .none ∧
      (fun u : State => dutiful u ∧ u.inLen.toNat ≤ inCap u ∧ u.inLen.toNat < (after .compress aabc).outLen.toNat ∧
        inputBytes u = (outBytes (after .compress aabc)).take u.inLen.toNat ∧
        (after .compress aabc).hdrLen.toNat ≤ u.inLen.toNat) { art with inLen := 15 } ∧
      (fun u : State => dutiful u ∧ u.inLen.toNat ≤ inCap u ∧ u.inLen.toNat < (after .compress aabc).outLen.toNat ∧
        inputBytes u = (outBytes (after .compress aabc)).take u.inLen.toNat ∧
        u.inLen.toNat < (after .compress aabc).hdrLen.toNat) { art with inLen := 14 } := by
  obtain ⟨h1, h2, h3, h4⟩ := compress_aabc
  refine ⟨rfl, exec_after _ _, h1, ⟨rfl, by decide, ?_, ?_, ?_⟩, rfl, by decide, ?_, ?_, ?_⟩
  · rw [h2]; decide
  · rw [h4]; decide +kernel
  · rw [h3]
  · rw [h2]; decide
  · rw [h4]; decide +kernel
  · rw [h3]; decide

/-- Two states with the same input that differ elsewhere, on which COMPRESS succeeds. -/
theorem witness_CompositesAreFunctionsOfTheirInput :
    dutiful aabc ∧ dutiful { packed with ie := true } ∧ aabc.inLen = ({ packed with ie := true } : State).inLen ∧
      inputBytes aabc = inputBytes { packed with ie := true } ∧ aabc.inCapR = ({ packed with ie := true } : State).inCapR ∧
      aabc.outCapR = ({ packed with ie := true } : State).outCapR ∧
      exec .compress aabc = .next (after .compress aabc) ∧
      exec .compress { packed with ie := true } = .next (after .compress { packed with ie := true }) ∧
      (after .compress aabc).errcode = .none ∧ 1 ≤ (after .compress aabc).nsym.toNat :=
  ⟨rfl, rfl, rfl, rfl, rfl, rfl, exec_after _ _, exec_after _ _, compress_aabc.1, by decide +kernel⟩

/-- Two states with the same artifact that differ elsewhere, on which DECOMPRESS succeeds. -/
theorem witness_CompositesAreFunctionsOfTheirInput_decode :
    dutiful art ∧ dutiful { tried with ie := true } ∧ art.inLen = ({ tried with ie := true } : State).inLen ∧
      inputBytes art = inputBytes { tried with ie := true } ∧ art.inCapR = ({ tried with ie := true } : State).inCapR ∧
      art.outCapR = ({ tried with ie := true } : State).outCapR ∧
      exec .decompress art = .next (after .decompress art) ∧
      exec .decompress { tried with ie := true } = .next (after .decompress { tried with ie := true }) ∧
      (after .decompress art).errcode = .none :=
  ⟨rfl, rfl, rfl, rfl, rfl, rfl, exec_after _ _, exec_after _ _, decompress_view test_decompress⟩

theorem witness_EncoderStagesFrame :
    dutiful aabc ∧ Instr.fcount ∈ [Instr.fcount, .tbuild, .cgen] ∧ Instr.fcount ≠ .tbuild ∧ Instr.fcount ≠ .cgen ∧
      Instr.cgen ≠ .fcount ∧ exec .fcount aabc = .next (after .fcount aabc) :=
  ⟨rfl, by decide, by decide, by decide, by decide, exec_after _ _⟩

theorem witness_DecoderStagesFrame :
    dutiful art ∧ Instr.hdeser ∈ [Instr.hdeser, .trecon] ∧ Instr.hdeser ≠ .trecon ∧ Instr.trecon ≠ .hdeser ∧
      exec .hdeser art = .next (after .hdeser art) :=
  ⟨rfl, by decide, by decide, by decide, exec_after _ _⟩

theorem witness_OutWritersFrame :
    dutiful serializedA ∧ Instr.pack ∈ [Instr.hser, .pack, .unpack] ∧ Instr.pack ≠ .hser ∧
      exec .pack serializedA = .next (after .pack serializedA) ∧ (after .pack serializedA).errcode = .none ∧
      0 < serializedA.hdrLen.toNat ∧ 8 < serializedA.hdrLen.toNat :=
  ⟨rfl, by decide, by decide, exec_after _ _, (pack_view pack_serializedA).1, by decide, by decide⟩

theorem witness_CompositesFrame :
    dutiful aabc ∧ exec .compress aabc = .next (after .compress aabc) ∧ exec .decompress aabc = .next (after .decompress aabc) :=
  ⟨rfl, exec_after _ _, exec_after _ _⟩

theorem step_of_due {s : State} {i : Instr} (hb : s.busy = true) (hl : s.latency = 0) (hd : decodeOp s.opl = .ok i) :
    step s = .next (after i s) := by
  rw [step_due hb (.inr hl)]
  unfold engineStep; rw [hd]; exact exec_after i s

/-- `serializedA` with PACK accepted and due. -/
def packing : State := { serializedA with busy := true, opl := 6 }

theorem inv_packing : Machine.Inv packing where
  caps := inv_serializedA.caps
  inBuf := inv_serializedA.inBuf
  outBuf := inv_serializedA.outBuf
  code := inv_serializedA.code
  dcode := inv_serializedA.dcode
  tree := inv_serializedA.tree
  trie := inv_serializedA.trie
  running := by intro _; exact ⟨rfl, rfl⟩
  idle := by intro h; cases h

theorem current_packing : Current packing where
  outLen := current_serializedA.outLen
  ftCounts := current_serializedA.ftCounts
  treeNeedsFt := current_serializedA.treeNeedsFt
  treeMerged := current_serializedA.treeMerged
  ctNeedsFt := current_serializedA.ctNeedsFt
  ctCoded := current_serializedA.ctCoded
  ctVbc := current_serializedA.ctVbc
  ctPrefixFree := current_serializedA.ctPrefixFree
  ctTree := current_serializedA.ctTree
  ctEmpty := current_serializedA.ctEmpty
  hsNeedsCt := current_serializedA.hsNeedsCt
  hsHeader := current_serializedA.hsHeader
  trieNeedsHd := current_serializedA.trieNeedsHd
  trieCodes := current_serializedA.trieCodes

theorem witness_StepKeepsTheInvariant : Machine.Inv packing ∧ step packing = .next (after .pack packing) :=
  ⟨inv_packing, step_of_due rfl rfl rfl⟩

theorem witness_StepKeepsTheMeaningOfTheValidBits :
    dutiful packing ∧ Machine.Inv packing ∧ Current packing ∧ step packing = .next (after .pack packing) :=
  ⟨rfl, inv_packing, current_packing, step_of_due rfl rfl rfl⟩

theorem witness_ResetGivesTheResetValues :
    ({ packed with host := [.reset] } : State).host = .reset :: [] ∧ ({ packed with host := [.reset] } : State).busy = false ∧
      ({ running with host := [.reset] } : State).host = .reset :: [] ∧
      ({ running with host := [.reset] } : State).latency ≠ 0 :=
  ⟨rfl, rfl, rfl, by decide⟩

/-- Both ends of each reserved range, and codes that fit their lengths. -/
theorem witness_RegisterMapReads :
    packed.busy = false ∧ (0x038#15).toNat % 4 = 0 ∧ 0x038 ≤ (0x038#15).toNat ∧ (0x3FC#15).toNat ≤ 0x3FC ∧
      0x3400 ≤ (0x3400#15).toNat ∧ (0x3FFC#15).toNat ≤ 0x3FFC ∧ 0x6000 ≤ (0x6000#15).toNat ∧ 0x6000 ≤ (0x7FFC#15).toNat ∧
      (7 : Nat) < 8 ∧ (serializedA.busy = false ∧ codesOk serializedA.code ∧ codesOk serializedA.dcode) := by
  refine ⟨rfl, ?_, ?_, ?_, ?_, ?_, ?_, ?_, ?_, rfl, inv_serializedA.code, inv_serializedA.dcode⟩ <;> decide

theorem witness_StatusFieldsAndIrq : exec .nop packed = .next (after .nop packed) := exec_after _ _

theorem witness_RegisterReadsWhileBusy : running.busy = true := rfl

/-- A narrow access, a misaligned one, the offsets beside the written registers, and the last of the space. -/
theorem witness_RegisterWritesTakeTheirEffect :
    packed.busy = false ∧ ((8 : Nat) ≠ 32 ∨ (0x008#15).toNat % 4 ≠ 0) ∧ ((32 : Nat) ≠ 32 ∨ (0x009#15).toNat % 4 ≠ 0) ∧
      (0x000#15).toNat % 4 = 0 ∧ 0x000#15 ∉ [0x004#15, 0x008#15, 0x00C#15, 0x010#15] ∧
      (0x014#15).toNat % 4 = 0 ∧ 0x014#15 ∉ [0x004#15, 0x008#15, 0x00C#15, 0x010#15] ∧
      (0x7FFC#15).toNat % 4 = 0 ∧ 0x7FFC#15 ∉ [0x004#15, 0x008#15, 0x00C#15, 0x010#15] := by
  refine ⟨rfl, ?_⟩; decide

/-- The last byte of IN, and the first beyond it. -/
theorem witness_BufferPortsReadAndWrite :
    packed.busy = false ∧ 4095 < inCap packed ∧ inCap packed ≤ 4096 := by
  refine ⟨rfl, ?_, ?_⟩ <;> decide

/-- The first and the last bit of the first and the last word. -/
theorem witness_CodeWindowsShowTheCode :
    packed.busy = false ∧ (0 : Nat) < 8 ∧ (7 : Nat) < 8 ∧ (0 : Nat) < 32 ∧ (31 : Nat) < 32 := by
  refine ⟨rfl, ?_⟩; decide

/-- A nine-bit list's last bit, and the largest values, stored at offset 0. -/
theorem witness_BitAndByteOrder :
    (8 < (List.replicate 9 true).length ∧ ∀ j, j < ceil8 (List.replicate 9 true).length →
      inByte (withIn (bytes [0xFF, 0x80]) base) (0 + j) = (packMsb (List.replicate 9 true)).getD j 0) ∧
    2 ^ 16 - 1 < 2 ^ 16 ∧
      (∀ j, j < 2 → inByte (withIn (bytes [0xFF, 0xFF, 0xFF, 0xFF]) base) (0 + j) = (be16 (2 ^ 16 - 1)).getD j 0) ∧
      2 ^ 32 - 1 < 2 ^ 32 ∧
      (∀ j, j < 4 → inByte (withIn (bytes [0xFF, 0xFF, 0xFF, 0xFF]) base) (0 + j) = (be32 (2 ^ 32 - 1)).getD j 0) := by
  decide +kernel

/-- The last byte of IN, and the first beyond it. -/
theorem witness_BrokenDutyStillCompletes :
    running.busy = true ∧ 4095 < inCap running ∧ inCap running ≤ 4096 ∧
      ({ running with tainted := true } : State).tainted = true := by decide

end Sys2Proof.Tests
end

section
/-! PROOFS. Reads of the register port (10_state.md R42, R43, R49, R50, R54). -/

namespace Sys2Proof.Machine

/-! ### Which value an aligned read returns -/

theorem regReadValue_of_idle {s : State} {off : BitVec 15} (hs : s.busy = false) (ha : off.toNat % 4 = 0) :
    regReadValue s off 32 = regValue s (regAt off) := by
  simp [regReadValue, aligned32, hs, ha]

theorem regReadValue_of_busy {s : State} {off : BitVec 15} (hs : s.busy = true) (ha : off.toNat % 4 = 0) :
    regReadValue s off 32 = regValueBusy s (regAt off) := by
  simp [regReadValue, aligned32, hs, ha]

/-! ### The code windows -/

/-- The offset of word w of symbol b's window in the window table at `base`, as a number: it fits the 15 bits of an offset. -/
theorem toNat_windowOffset {base w : Nat} (b : Byte) (hb : base ≤ 0x4000) (hw : w < 8) :
    (BitVec.ofNat 15 (base + 32 * b.toNat + 4 * w)).toNat = base + 32 * b.toNat + 4 * w := by
  have := b.isLt
  rw [BitVec.toNat_ofNat, Nat.mod_eq_of_lt (by omega)]

/-- Dividing by the stride of 32 gives a window's symbol back. -/
theorem windowOffset_symbol {base w : Nat} (b : Byte) (hw : w < 8) :
    BitVec.ofNat 8 ((base + 32 * b.toNat + 4 * w - base) / 32) = b := by
  rw [show (base + 32 * b.toNat + 4 * w - base) / 32 = b.toNat by omega, BitVec.ofNat_toNat, BitVec.setWidth_eq]

/-- The remainder by the stride gives a window's word index back. -/
theorem windowOffset_index {base w : Nat} (b : Byte) (hw : w < 8) : (base + 32 * b.toNat + 4 * w - base) % 32 / 4 = w := by
  omega

theorem regAt_codew (b : Byte) {w : Nat} (hw : w < 8) :
    regAt (BitVec.ofNat 15 (0x1000 + 32 * b.toNat + 4 * w)) = .codew b w := by
  have := b.isLt
  simp only [regAt, toNat_windowOffset b (show 0x1000 ≤ 0x4000 by decide) hw, windowOffset_symbol b hw,
    windowOffset_index b hw]
  simp (disch := omega) only [if_pos, if_neg]

theorem regAt_dcodew (b : Byte) {w : Nat} (hw : w < 8) :
    regAt (BitVec.ofNat 15 (0x4000 + 32 * b.toNat + 4 * w)) = .dcodew b w := by
  have := b.isLt
  simp only [regAt, toNat_windowOffset b (Nat.le_refl 0x4000) hw, windowOffset_symbol b hw, windowOffset_index b hw]
  simp (disch := omega) only [if_pos, if_neg]

theorem regReadValue_codew {s : State} (b : Byte) {w : Nat} (hs : s.busy = false) (hw : w < 8) :
    regReadValue s (BitVec.ofNat 15 (0x1000 + 32 * b.toNat + 4 * w)) 32 = codeWord s b w := by
  rw [regReadValue_of_idle hs (by rw [toNat_windowOffset b (by decide) hw]; omega), regAt_codew b hw, regValue]

theorem regReadValue_dcodew {s : State} (b : Byte) {w : Nat} (hs : s.busy = false) (hw : w < 8) :
    regReadValue s (BitVec.ofNat 15 (0x4000 + 32 * b.toNat + 4 * w)) 32 = dcodeWord s b w := by
  rw [regReadValue_of_idle hs (by rw [toNat_windowOffset b (by decide) hw]; omega), regAt_dcodew b hw, regValue]

/-! ### CTRL, and STATUS while BUSY = 1 -/

theorem regValue_ctrl (s : State) : regValue s .ctrl = if s.ie then 1 else 0 := by
  rw [regValue]
  cases s.ie <;> rfl

/-- STATUS[7:0] does not depend on what stands in the valid field. -/
theorem extractLsb'_statusWith (s : State) (v : BitVec 6) : (statusWith s v).extractLsb' 0 8 = statusLow s := by
  rw [statusWith, BitVec.extractLsb'_append_eq_of_add_le (by decide), BitVec.extractLsb'_eq_self]

end Sys2Proof.Machine

open Sys2Proof.Machine

/-- Settles O58: the port finds the window word at its offset, and the word holds its 32 code bits, the first most significant. -/
theorem codeWindowsShowTheCode : Obligations.CodeWindowsShowTheCode := by
  intro s b w k hs hw hk
  rw [regReadValue_codew b hs hw, regReadValue_dcodew b hs hw]
  exact ⟨getLsbD_msbValue (s.code.read b) (32 * w) 32 k hk, getLsbD_msbValue (s.dcode.read b) (32 * w) 32 k hk⟩

/-- Settles O55: while BUSY = 1 the exempt registers keep their values and only STATUS's valid field is free; a read itself is
only logged. -/
theorem registerReadsWhileBusy : Obligations.RegisterReadsWhileBusy := by
  refine ⟨fun s hs => ⟨?id, ?ctrl, ?status, ?inLen, ?inCapR, ?outCapR⟩, fun s off bits => rfl⟩
  case id => exact regReadValue_of_busy hs rfl
  case ctrl => exact (regReadValue_of_busy hs rfl).trans (regValue_ctrl s)
  case status =>
    rw [regReadValue_of_busy hs rfl, statusWord, extractLsb'_statusWith]
    exact extractLsb'_statusWith s _
  case inLen => exact regReadValue_of_busy hs rfl
  case inCapR => exact regReadValue_of_busy hs rfl
  case outCapR => exact regReadValue_of_busy hs rfl

end

section
/-! PROOFS. Bit and byte order, and the IN and OUT ports (20_memory.md R84, R85, R87 to R91). -/

namespace Sys2Proof.Machine

/-! ### Bit and byte order -/

/-- A bit string stored MSB-first in IN is read back bit by bit. -/
theorem bitMsb_of_packMsb {s : State} {p : Bits} {i k : Nat} (hk : k < p.length)
    (h : ∀ j, j < ceil8 p.length → inByte s (i + j) = (packMsb p).getD j 0) : bitMsb s i k = p.getD k false := by
  have hbyte : k / 8 < ceil8 p.length := by unfold ceil8; omega
  rw [bitMsb, h _ hbyte, getLsbD_packMsb]

theorem map_toNat_be16 {v : Nat} (hv : v < 2 ^ 16) : (be16 v).map BitVec.toNat = [v / 2 ^ 8, v % 2 ^ 8] := by
  have hhigh : v / 2 ^ 8 % 2 ^ 8 = v / 2 ^ 8 := Nat.mod_eq_of_lt (by omega)
  simp only [be16, List.map_cons, List.map_nil, BitVec.toNat_ofNat, hhigh]

theorem map_toNat_be32 {v : Nat} (hv : v < 2 ^ 32) :
    (be32 v).map BitVec.toNat = [v / 2 ^ 24, v / 2 ^ 16 % 2 ^ 8, v / 2 ^ 8 % 2 ^ 8, v % 2 ^ 8] := by
  have hhigh : v / 2 ^ 24 % 2 ^ 8 = v / 2 ^ 24 := Nat.mod_eq_of_lt (by omega)
  simp only [be32, List.map_cons, List.map_nil, BitVec.toNat_ofNat, hhigh]

/-! ### The IN and OUT ports -/

theorem inReadValue_of_idle {s : State} (i : Nat) (hs : s.busy = false) :
    inReadValue s i = if i < inCap s then inByte s i else 0 := by
  simp [inReadValue, hs]

theorem outReadValue_of_idle {s : State} (i : Nat) (hs : s.busy = false) :
    outReadValue s i = if i < outCap s then outByte s i else 0 := by
  simp [outReadValue, hs]

/-- With no command in progress there is no duty to break. -/
theorem breakDuty_of_idle {s : State} (hs : s.busy = false) : breakDuty s = s := by
  simp [breakDuty, hs]

theorem writeIn_below {s : State} {i : Nat} (v : Byte) (hs : s.busy = false) (hi : i < inCap s) :
    writeIn s i v = { s with inBuf := s.inBuf.write i v } := by
  rw [writeIn, if_pos hi]
  exact breakDuty_of_idle hs

theorem writeIn_beyond {s : State} {i : Nat} (v : Byte) (hs : s.busy = false) (hi : inCap s ≤ i) : writeIn s i v = s := by
  rw [writeIn, if_neg (Nat.not_lt.2 hi)]
  exact breakDuty_of_idle hs

theorem inByte_write_inBuf (s : State) (i j : Nat) (v : Byte) :
    inByte { s with inBuf := s.inBuf.write i v } j = if j = i then v else inByte s j :=
  s.inBuf.read_write .inSpace i j v

end Sys2Proof.Machine

open Sys2Proof.Machine

/-- Settles O59: the packed list bit by bit, each stored big-endian field byte by byte, and the fields' read-back. -/
theorem bitAndByteOrder : Obligations.BitAndByteOrder := by
  refine ⟨fun p k => ⟨?length, ?packedBit⟩, ?storedBit, ?be16, ?be32, fun s i => ⟨rfl, rfl⟩, ?rdBe16, ?rdBe32⟩
  case length => exact length_packMsb p
  case packedBit => exact getLsbD_packMsb p k
  case storedBit => exact fun s p i k hk h => bitMsb_of_packMsb hk h
  case be16 => exact fun v hv => map_toNat_be16 hv
  case be32 => exact fun v hv => map_toNat_be32 hv
  case rdBe16 => exact rdBe16_of_bytes
  case rdBe32 => exact rdBe32_of_bytes

/-- Settles O57: while BUSY = 0 the ports read and write the buffers up to their capacities; a read is only logged and an OUT
write has no effect in every state. -/
theorem bufferPortsReadAndWrite : Obligations.BufferPortsReadAndWrite := by
  refine ⟨fun s i v hs => ⟨fun hi => ⟨s.inBuf.write i v, ?store, fun j => ?bytes⟩, ?ignored, ?inRead, ?outRead⟩,
    fun s i v => ⟨rfl, ⟨inReadValue s i, rfl⟩, ⟨outReadValue s i, rfl⟩⟩⟩
  case store => exact writeIn_below v hs hi
  case bytes => rw [hostAccess, writeIn_below v hs hi, inByte_write_inBuf]
  case ignored => exact writeIn_beyond v hs
  case inRead => rw [hostAccess, inReadValue_of_idle i hs, logRead]
  case outRead => rw [hostAccess, outReadValue_of_idle i hs, logRead]

end

section
/-! PROOFS. What a command comes to, whatever BUSY, DONE, LOST and ERRCODE held before it (40_command_model.md R152, R156,
R157). -/

namespace Sys2Proof.Machine

/-! ### Every command as the completion of a verdict -/

/-- What the rule of command `i` on `s` comes to, its completion apart. -/
def commandVerdict (i : Instr) (s : State) : Verdict :=
  match i with
  | .nop => ⟨.none, s⟩
  | .clear => runStage .clear s (.ok (clearState s))
  | .fcount => stageFcount s
  | .tbuild => stageTbuild s
  | .cgen => stageCgen s
  | .hser => closeOutWriter (stageHser s)
  | .pack => closeOutWriter (stagePack s)
  | .hdeser => stageHdeser s
  | .trecon => stageTrecon s
  | .unpack => closeOutWriter (stageUnpack s)
  | .compress => closeOutWriter (compressStages s)
  | .decompress => closeOutWriter (decompressStages s)

theorem exec_commandVerdict (i : Instr) (s : State) : exec i s = .next (complete (some i) s (commandVerdict i s)) := by
  cases i <;> rfl

theorem exec_dutiful (i : Instr) {s : State} (h : dutiful s) : exec i s = .next (settled (commandVerdict i s)) := by
  rw [exec_commandVerdict, complete_dutiful _ _ h]

/-- No command but CLEAR reads or writes the STATUS fields and tags completion sets, LOST among them. -/
theorem commandVerdict_withTags {i : Instr} (hi : i ≠ .clear) (x s : State) :
    commandVerdict i (withTags x s) = (commandVerdict i s).withTags x := by
  cases i with
  | nop => rfl
  | clear => exact absurd rfl hi
  | fcount => exact stageFcount_withTags x s
  | tbuild => exact stageTbuild_withTags x s
  | cgen => exact stageCgen_withTags x s
  | hdeser => exact stageHdeser_withTags x s
  | trecon => exact stageTrecon_withTags x s
  | hser => simp only [commandVerdict, stageHser_withTags, closeOutWriter_withTags]
  | pack => simp only [commandVerdict, stagePack_withTags, closeOutWriter_withTags]
  | unpack => simp only [commandVerdict, stageUnpack_withTags, closeOutWriter_withTags]
  | compress => simp only [commandVerdict, compressStages_withTags, closeOutWriter_withTags]
  | decompress => simp only [commandVerdict, decompressStages_withTags, closeOutWriter_withTags]

theorem commandVerdict_lost {i : Instr} (hi : i ≠ .clear) (s : State) : (commandVerdict i s).st.lost = s.lost :=
  congrArg (fun v : Verdict => v.st.lost) (commandVerdict_withTags hi s s)

theorem exec_lost {i : Instr} {s t : State} (hd : dutiful s) (hi : i ≠ .clear) (h : exec i s = .next t) :
    t.lost = s.lost := by
  rw [exec_dutiful i hd] at h
  cases h
  exact commandVerdict_lost hi s

/-- A command other than CLEAR does with LOST = 1 what it does without, and leaves LOST = 1. -/
theorem exec_setLost {i : Instr} {s t : State} (hd : dutiful s) (hi : i ≠ .clear) (h : exec i s = .next t) :
    exec i { s with lost := true } = .next { t with lost := true } := by
  have hlost : dutiful { s with lost := true } := hd
  have htags : commandVerdict i { s with lost := true } = (commandVerdict i s).withTags { s with lost := true } :=
    commandVerdict_withTags hi { s with lost := true } s
  rw [exec_dutiful i hd] at h
  rw [exec_dutiful i hlost, htags]
  cases h
  rfl

/-! ### The engine's step -/

theorem engineStep_finishes {s t : State} (h : engineStep s = .next t) : t.busy = false ∧ t.done = true := by
  rcases engineStep_cases s with ⟨i, -, hexec⟩ | ⟨e, -, hillegal⟩
  · rw [hexec, exec_commandVerdict] at h
    cases h
    exact ⟨rfl, rfl⟩
  · rw [hillegal] at h
    cases h
    exact ⟨rfl, rfl⟩

theorem completeIllegal_lost {s : State} (hd : dutiful s) : (completeIllegal s).lost = s.lost := by
  rw [completeIllegal, complete_dutiful _ _ hd]

/-- Only the completion of CLEAR changes LOST. -/
theorem engineStep_lost {s t : State} (hd : dutiful s) (h : engineStep s = .next t) :
    t.lost = s.lost ∨ decodeOp s.opl = .ok .clear := by
  rcases engineStep_cases s with ⟨i, hop, hexec⟩ | ⟨e, -, hillegal⟩
  · by_cases hi : i = .clear
    · exact .inr (hi ▸ hop)
    · exact .inl (exec_lost hd hi (hexec ▸ h))
  · rw [hillegal] at h
    cases h
    exact .inl (completeIllegal_lost hd)

/-! ### STATUS after a success -/

theorem statusWord_of_success {t : State} (hf : finished t .none) (hv : t.valid = ValidBits.empty) (hl : t.lost = false) :
    statusWord t = 0x00000002 := by
  obtain ⟨hbusy, hdone, herr⟩ := hf
  simp only [statusWord, statusWith, statusLow, errBit, hbusy, hdone, herr, hv, hl]
  decide

end Sys2Proof.Machine

open Sys2Proof.Machine

/-- Settles O16: NOP completes with no error on the state it found. -/
theorem nopChangesOnlyStatus : Obligations.NopChangesOnlyStatus := by
  intro s hd
  exact ⟨_, exec_nop hd, rfl, Bool.true_and s.ie, fun hv hl => statusWord_of_success ⟨rfl, rfl, rfl⟩ hv hl⟩

end

section
/-! PROOFS. Who changes LOST, DONE, ERRCODE and the valid bits: a CMD write, a STATUS write, reset, and the completion of the
command in progress (40_command_model.md R156, R160; 10_state.md R34). -/

namespace Sys2Proof.Machine

/-! ### The offsets of CMD and STATUS -/

/-- CMD and STATUS have one offset each, among the registers below the tables (10_state.md R54). -/
theorem toNat_of_regAt (off : BitVec 15) :
    (regAt off = .cmd → off.toNat = 0x008) ∧ (regAt off = .status → off.toNat = 0x00C) := by
  by_cases hlow : off.toNat < 0x400
  · simp only [regAt, if_pos hlow]
    split <;> simp [*]
  · simp only [regAt, if_neg hlow]
    split_ifs <;> simp

theorem regAt_eq_cmd {off : BitVec 15} (h : regAt off = .cmd) : off = 0x008 :=
  BitVec.eq_of_toNat_eq ((toNat_of_regAt off).1 h)

theorem regAt_eq_status {off : BitVec 15} (h : regAt off = .status) : off = 0x00C :=
  BitVec.eq_of_toNat_eq ((toNat_of_regAt off).2 h)

theorem bits_of_aligned32 {off : BitVec 15} {bits : Nat} (h : aligned32 off bits = true) : bits = 32 := by
  rw [aligned32, Bool.and_eq_true, beq_iff_eq] at h
  exact h.1

/-! ### Which host access can change the STATUS fields -/

/-- The fields of STATUS, and OPL, are the same. -/
structure StatusKept (s t : State) : Prop where
  busy : t.busy = s.busy
  done : t.done = s.done
  lost : t.lost = s.lost
  errcode : t.errcode = s.errcode
  valid : t.valid = s.valid
  opl : t.opl = s.opl

theorem StatusKept.refl (s : State) : StatusKept s s := ⟨rfl, rfl, rfl, rfl, rfl, rfl⟩

theorem StatusKept.breakDuty {s t : State} (h : StatusKept s t) : StatusKept s (Machine.breakDuty t) := by
  unfold Machine.breakDuty
  split
  · exact ⟨h.busy, h.done, h.lost, h.errcode, h.valid, h.opl⟩
  · exact h

theorem statusKept_writeIn (s : State) (i : Nat) (v : Byte) : StatusKept s (writeIn s i v) := by
  refine StatusKept.breakDuty ?_
  split
  · exact ⟨rfl, rfl, rfl, rfl, rfl, rfl⟩
  · exact .refl s

theorem statusKept_logRead (r : Reply) (s : State) : StatusKept s (logRead r s) := ⟨rfl, rfl, rfl, rfl, rfl, rfl⟩

/-- A CMD write to a busy block is dropped. -/
theorem writeCmd_of_busy {s : State} (h : s.busy = true) (w : Word) : writeCmd s w = { s with lost := true } := if_pos h

theorem writeCmd_valid (s : State) (w : Word) : (writeCmd s w).valid = s.valid := by
  unfold writeCmd
  split <;> rfl

theorem writeCmd_lost {s : State} (h : s.lost = true) (w : Word) : (writeCmd s w).lost = true := by
  unfold writeCmd
  split
  · rfl
  · exact h

/-- A register write changes STATUS only at CMD and at STATUS. -/
theorem writeReg_cases (s : State) (v : Word) (r : Reg) :
    (r = .cmd ∧ writeReg s v r = writeCmd s v) ∨ (r = .status ∧ writeReg s v r = writeStatus s v) ∨
    StatusKept s (writeReg s v r) := by
  cases r with
  | cmd => exact .inl ⟨rfl, rfl⟩
  | status => exact .inr (.inl ⟨rfl, rfl⟩)
  | ctrl => exact .inr (.inr ⟨rfl, rfl, rfl, rfl, rfl, rfl⟩)
  | inLen => exact .inr (.inr (StatusKept.breakDuty (t := { s with inLen := v }) ⟨rfl, rfl, rfl, rfl, rfl, rfl⟩))
  | id | outLen | nsym | vbc | hdrLen | dnent | dvbc | payOff | inCapR | outCapR | reserved => exact .inr (.inr (.refl s))
  | freq | rank | clen | codew | dclen | dcodew => exact .inr (.inr (.refl s))

/-- The host changes STATUS by reset, a CMD write and a STATUS write only. -/
theorem hostAccess_cases (e : HostEvent) (s : State) :
    (e = .reset ∧ hostAccess e s = hostReset s) ∨
    (∃ w, e = .regWrite 0x008 32 w ∧ hostAccess e s = writeCmd s w) ∨
    (∃ v, e = .regWrite 0x00C 32 v ∧ hostAccess e s = writeStatus s v) ∨
    StatusKept s (hostAccess e s) := by
  cases e with
  | reset => exact .inl ⟨rfl, rfl⟩
  | regRead | inRead | outRead | wait => exact .inr (.inr (.inr (statusKept_logRead _ s)))
  | inWrite i v => exact .inr (.inr (.inr (statusKept_writeIn s i v)))
  | outWrite => exact .inr (.inr (.inr (.refl s)))
  | regWrite off bits v =>
    rw [hostAccess]
    split
    next haligned =>
      obtain rfl := bits_of_aligned32 haligned
      rcases writeReg_cases s v (regAt off) with ⟨hr, hw⟩ | ⟨hr, hw⟩ | hkept
      · exact .inr (.inl ⟨v, by rw [regAt_eq_cmd hr], hw⟩)
      · exact .inr (.inr (.inl ⟨v, by rw [regAt_eq_status hr], hw⟩))
      · exact .inr (.inr (.inr hkept))
    next => exact .inr (.inr (.inr (.refl s)))

/-- What one step can do to STATUS: complete the command in progress, or perform the host's next access. -/
theorem step_statusCases {s t : State} (h : step s = .next t) :
    (s.busy = true ∧ engineStep s = .next t) ∨
    (s.host.head? = some .reset ∧ t.busy = false) ∨
    (∃ w, s.host.head? = some (.regWrite 0x008 32 w) ∧ StatusKept (writeCmd s w) t) ∨
    (∃ v, s.host.head? = some (.regWrite 0x00C 32 v) ∧ StatusKept (writeStatus s v) t) ∨
    StatusKept s t := by
  rcases step_cases h with ⟨hb, -, hengine⟩ | ⟨e, rest, hhost, -, rfl⟩ | ⟨-, -, rfl⟩
  · exact .inl ⟨hb, hengine⟩
  · right
    rw [hhost, List.head?_cons, hostStep]
    rcases hostAccess_cases e { s with host := remaining e s.busy rest, latency := s.latency - 1 } with
      ⟨rfl, ht⟩ | ⟨w, rfl, ht⟩ | ⟨v, rfl, ht⟩ | hkept
    · exact .inl ⟨rfl, by rw [ht]; rfl⟩
    · refine .inr (.inl ⟨w, rfl, ?_⟩)
      rw [ht, writeCmd, writeCmd]
      split <;> exact ⟨rfl, rfl, rfl, rfl, rfl, rfl⟩
    · refine .inr (.inr (.inl ⟨v, rfl, ?_⟩))
      rw [ht]
      exact ⟨rfl, rfl, rfl, rfl, rfl, rfl⟩
    · exact .inr (.inr (.inr ⟨hkept.busy, hkept.done, hkept.lost, hkept.errcode, hkept.valid, hkept.opl⟩))
  · exact .inr (.inr (.inr (.inr (.refl t))))

/-! ### Who clears LOST and DONE, and who changes ERRCODE and the valid bits -/

theorem step_clears_lost {s t : State} (hd : dutiful s) (h : step s = .next t) (hs : s.lost = true) (ht : t.lost = false) :
    (∃ e, s.host.head? = some e ∧ (e = .reset ∨ ∃ v : Word, e = .regWrite 0x00C 32 v ∧ v.getLsbD 3 = true)) ∨
      s.busy = true ∧ decodeOp s.opl = .ok .clear := by
  rcases step_statusCases h with ⟨hb, hengine⟩ | ⟨hhead, -⟩ | ⟨w, -, hkept⟩ | ⟨v, hhead, hkept⟩ | hkept
  · rcases engineStep_lost hd hengine with hl | hclear
    · simp [hl, hs] at ht
    · exact .inr ⟨hb, hclear⟩
  · exact .inl ⟨_, hhead, .inl rfl⟩
  · simp [hkept.lost, writeCmd_lost hs] at ht
  · have hbit : v.getLsbD 3 = true := by simpa [hkept.lost, writeStatus, hs] using ht
    exact .inl ⟨_, hhead, .inr ⟨v, rfl, hbit⟩⟩
  · simp [hkept.lost, hs] at ht

theorem step_clears_done {s t : State} (h : step s = .next t) (hs : s.done = true) (ht : t.done = false) :
    ∃ e, s.host.head? = some e ∧
      (e = .reset ∨ (s.busy = false ∧ ∃ w, e = .regWrite 0x008 32 w) ∨
        ∃ v : Word, e = .regWrite 0x00C 32 v ∧ v.getLsbD 1 = true) := by
  rcases step_statusCases h with ⟨-, hengine⟩ | ⟨hhead, -⟩ | ⟨w, hhead, hkept⟩ | ⟨v, hhead, hkept⟩ | hkept
  · simp [(engineStep_finishes hengine).2] at ht
  · exact ⟨_, hhead, .inl rfl⟩
  · cases hb : s.busy with
    | false => exact ⟨_, hhead, .inr (.inl ⟨rfl, w, rfl⟩)⟩
    | true => simp [hkept.done, writeCmd_of_busy hb, hs] at ht
  · have hbit : v.getLsbD 1 = true := by simpa [hkept.done, writeStatus, hs] using ht
    exact ⟨_, hhead, .inr (.inr ⟨v, rfl, hbit⟩)⟩
  · simp [hkept.done, hs] at ht

theorem idleStep_changes_errcode {s t : State} (h : step s = .next t) (hb : s.busy = false) (hne : t.errcode ≠ s.errcode) :
    ∃ e, s.host.head? = some e ∧ (e = .reset ∨ ∃ w, e = .regWrite 0x008 32 w) := by
  rcases step_statusCases h with ⟨hb', -⟩ | ⟨hhead, -⟩ | ⟨w, hhead, -⟩ | ⟨v, -, hkept⟩ | hkept
  · simp [hb] at hb'
  · exact ⟨_, hhead, .inl rfl⟩
  · exact ⟨_, hhead, .inr ⟨w, rfl⟩⟩
  · exact absurd hkept.errcode hne
  · exact absurd hkept.errcode hne

theorem idleStep_changes_valid {s t : State} (h : step s = .next t) (hb : s.busy = false) (hne : t.valid ≠ s.valid) :
    s.host.head? = some .reset := by
  rcases step_statusCases h with ⟨hb', -⟩ | ⟨hhead, -⟩ | ⟨w, -, hkept⟩ | ⟨v, -, hkept⟩ | hkept
  · simp [hb] at hb'
  · exact hhead
  · exact absurd (hkept.valid.trans (writeCmd_valid s w)) hne
  · exact absurd hkept.valid hne
  · exact absurd hkept.valid hne

/-- While a command is in progress and not completing, a CMD write is dropped and no access touches what it works with. -/
theorem busyStep_keeps_command {s t : State} (h : step s = .next t) (hs : s.busy = true) (ht : t.busy = true) :
    t.errcode = s.errcode ∧ t.valid = s.valid ∧ t.opl = s.opl := by
  rcases step_statusCases h with ⟨-, hengine⟩ | ⟨-, hreset⟩ | ⟨w, -, hkept⟩ | ⟨v, -, hkept⟩ | hkept
  · simp [(engineStep_finishes hengine).1] at ht
  · simp [hreset] at ht
  · rw [writeCmd_of_busy hs] at hkept
    exact ⟨hkept.errcode, hkept.valid, hkept.opl⟩
  · exact ⟨hkept.errcode, hkept.valid, hkept.opl⟩
  · exact ⟨hkept.errcode, hkept.valid, hkept.opl⟩

end Sys2Proof.Machine

open Sys2Proof.Machine

/-- Settles O6: a busy CMD write sets LOST alone; every command but CLEAR commutes with setting it; and only a STATUS write,
reset or CLEAR lets it fall. -/
theorem busyCmdWriteIsLost : Obligations.BusyCmdWriteIsLost :=
  ⟨fun _ w hb => writeCmd_of_busy hb w, fun _ _ _ hd hi h => exec_setLost hd hi h,
    fun _ _ hd h hs ht => step_clears_lost hd h hs ht⟩

/-- Settles O7: by the cases of one step, completion or the host's next access. -/
theorem doneAndErrcodeStayUntilTheirRules : Obligations.DoneAndErrcodeStayUntilTheirRules :=
  ⟨fun _ _ h => ⟨step_clears_done h, idleStep_changes_errcode h, idleStep_changes_valid h, busyStep_keeps_command h⟩,
    fun _ _ => rfl⟩

end

section
/-! PROOFS. What FCOUNT leaves in FREQ, RANK and NSYM, as functions of the input (41_frequency_counter.md R172, R173). -/

namespace Sys2Proof.Machine

/-! ### Counts and ranks of a byte list -/

theorem sum_count_allSymbols (bs : List Byte) : (allSymbols.map bs.count).sum = bs.length := by
  simpa using sum_count_mul bs fun _ => 1

/-- The ranks are injective and below the number of distinct symbols, so they take every value below it. -/
theorem image_rankIn (bs : List Byte) : bs.toFinset.image (rankIn bs) = Finset.range (distinct bs) := by
  have hinj : Set.InjOn (rankIn bs) bs.toFinset := fun x hx y hy h =>
    rankIn_inj (List.mem_toFinset.1 hx) (List.mem_toFinset.1 hy) h
  apply Finset.eq_of_subset_of_card_le
  · intro k hk
    obtain ⟨b, hb, rfl⟩ := Finset.mem_image.1 hk
    exact Finset.mem_range.2 (rankIn_lt (List.mem_toFinset.1 hb))
  · rw [Finset.card_image_of_injOn hinj, Finset.card_range, List.card_toFinset]

theorem exists_rankIn_iff (bs : List Byte) (k : Nat) : (∃ b ∈ bs, rankIn bs b = k) ↔ k < distinct bs := by
  simpa using Finset.ext_iff.1 (image_rankIn bs) k

/-! ### The tables of a state that holds a list's counts -/

section
variable {bs : List Byte} {s : State} (h : Counted bs s) (hl : bs.length < 2 ^ 32)
include h hl

theorem Counted.freq_ne_zero_iff (b : Byte) : s.freq.read b ≠ 0 ↔ b ∈ bs := by
  rw [h.freq]; exact counted_iff hl b

theorem Counted.rank_toNat {b : Byte} (hb : b ∈ bs) : (s.rank.read b).toNat = rankIn bs b := by
  rw [h.rank, (countAll_spec bs hl).2.2, if_pos hb]

theorem Counted.sum_freq : (allSymbols.map fun b => (s.freq.read b).toNat).sum = bs.length := by
  simp only [h.count hl]
  exact sum_count_allSymbols bs

theorem Counted.nsym_eq_length_filter :
    s.nsym.toNat = (allSymbols.filter fun b => s.freq.read b != 0).length := by
  have hperm : bs.dedup.Perm (allSymbols.filter fun b => s.freq.read b != 0) := by
    rw [List.perm_ext_iff_of_nodup (List.nodup_dedup bs) (nodup_allSymbols.filter _)]
    intro b
    simp only [List.mem_dedup, List.mem_filter, mem_allSymbols, true_and, bne_iff_ne, h.freq_ne_zero_iff hl]
  rw [h.nsym_toNat hl]
  exact hperm.length_eq

theorem Counted.exists_rank_iff (k : Nat) :
    (∃ b, s.freq.read b ≠ 0 ∧ (s.rank.read b).toNat = k) ↔ k < s.nsym.toNat := by
  rw [h.nsym_toNat hl, ← exists_rankIn_iff]
  refine exists_congr fun b => ?_
  rw [h.freq_ne_zero_iff hl]
  exact and_congr_right fun hb => by rw [h.rank_toNat hl hb]

theorem Counted.rank_lt_iff {x y : Byte} (hx : s.freq.read x ≠ 0) (hy : s.freq.read y ≠ 0) :
    (s.rank.read x).toNat < (s.rank.read y).toNat ↔ bs.idxOf x < bs.idxOf y := by
  rw [h.freq_ne_zero_iff hl] at hx hy
  rw [h.rank_toNat hl hx, h.rank_toNat hl hy]
  exact rankIn_lt_iff hx hy

end

/-! ### A successful FCOUNT -/

/-- FCOUNT succeeds only on an input that fits, whose counts it leaves; IN_LEN is kept. -/
theorem exec_fcount_success {s t : State} (hd : dutiful s) (h : exec .fcount s = .next t) (hok : t.errcode = .none) :
    Counted (inputBytes s) t ∧ t.inLen = s.inLen := by
  rw [exec_fcount hd] at h
  cases h
  rcases stageFcount_cases s with ⟨hfits, -⟩ | ⟨-, hfail⟩
  · obtain ⟨-, ⟨hfreq, hrank, hnsym, hft⟩⟩ := stageFcount_counted hfits
    have hside : ioSide (stageFcount s).st = ioSide s := (stageFcount_frame s).1
    simp only [Prod.mk.injEq] at hside
    exact ⟨⟨hfreq, hrank, hnsym, hft⟩, hside.2.2.2.2.1⟩
  · rw [hfail] at hok
    cases hok

end Sys2Proof.Machine

open Sys2Proof.Machine

/-- Settles O19: FCOUNT leaves the counts of its input, whose ranks are the first-occurrence ranks. -/
theorem fcountLaws : Obligations.FcountLaws := by
  intro s t hd h hok
  have hl := length_inputBytes_lt s
  obtain ⟨hc, hlen⟩ := exec_fcount_success hd h hok
  refine ⟨?sum, hc.nsym_eq_length_filter hl, ?bound, hc.exists_rank_iff hl, ?distinct, fun x y => hc.rank_lt_iff hl⟩
  case sum => rw [hc.sum_freq hl, length_inputBytes, hlen]
  case bound => rw [hc.nsym_toNat hl]; exact distinct_le _
  case distinct => exact ranksDistinct_of_counts hl hc.freq hc.rank

/-- Settles O20: both runs leave the counts of the same list. -/
theorem fcountIsAFunctionOfItsInput : Obligations.FcountIsAFunctionOfItsInput := by
  intro s u t v hs hu hin ht hv htok hvok
  obtain ⟨hct, -⟩ := exec_fcount_success hs ht htok
  obtain ⟨hcv, -⟩ := exec_fcount_success hu hv hvok
  rw [← hin] at hcv
  exact ⟨hct.freq.trans hcv.freq.symm, hct.rank.trans hcv.rank.symm, hct.nsym.trans hcv.nsym.symm⟩

end

section
/-! PROOFS. The tree a successful TBUILD leaves: its shape on FCOUNT's counts, and what it depends on (42_tree_builder.md
R185, R186). -/

namespace Sys2Proof.Machine

/-- TBUILD succeeds only under FT_V with NSYM ≥ 1, and leaves the merge of the counted leaves where there are any. -/
theorem exec_tbuild_success {s t : State} (hd : dutiful s) (h : exec .tbuild s = .next t) (hok : t.errcode = .none) :
    s.valid.ft = true ∧ 1 ≤ s.nsym.toNat ∧
      (countedLeaves s ≠ [] → mergeAll (countedLeaves s).length 0 (countedLeaves s) = some t.tree) := by
  rw [exec_tbuild hd] at h
  cases h
  rcases stageTbuild_cases s with ⟨r, hft, hn, hr, hst⟩ | ⟨hft, hn, hq, -⟩ | ⟨-, hst⟩
  · exact ⟨hft, hn, fun _ => by rw [hst]; exact hr⟩
  · exact ⟨hft, hn, fun hne => absurd hq hne⟩
  · rw [hst] at hok
    cases hok

/-! ### The counted leaves -/

theorem countedLeaves_ne_nil {s : State} {b : Byte} (hb : s.freq.read b ≠ 0) : countedLeaves s ≠ [] :=
  List.ne_nil_of_mem ((mem_countedLeaves s _).2 ⟨b, hb, rfl⟩)

/-- The leaves TBUILD starts from read RANK on the counted symbols only. -/
theorem countedLeaves_congr {s u : State} (hf : s.freq = u.freq)
    (hr : ∀ b, s.freq.read b ≠ 0 → s.rank.read b = u.rank.read b) : countedLeaves s = countedLeaves u := by
  unfold countedLeaves
  rw [← hf]
  refine List.map_congr_left fun b hb => ?_
  rw [hr b (by simpa using (List.mem_filter.1 hb).2)]

/-! ### The built tree on the counts of a byte list -/

section
variable {bs : List Byte} {s : State} (h : Counted bs s) (hl : bs.length < 2 ^ 32)
include h hl

theorem Counted.nsym_eq_length_countedLeaves : s.nsym.toNat = (countedLeaves s).length := by
  rw [h.nsym_eq_length_filter hl, length_countedLeaves]

theorem Counted.sum_freq_countedLeaves : ((countedLeaves s).map fun n => (nodeFreq n).toNat).sum = bs.length := by
  rw [← sum_leafWeight_counted (h.count hl)]
  refine congrArg List.sum (List.map_congr_left fun n hn => ?_)
  obtain ⟨b, -, rfl⟩ := (mem_countedLeaves s n).1 hn
  rfl

/-- ROOT's frequency is the sum of the counts, which fits 32 bits. -/
theorem Counted.rootFreq {r : Node} (hr : mergeAll (countedLeaves s).length 0 (countedLeaves s) = some r) :
    (nodeFreq r).toNat = bs.length := by
  have hne : countedLeaves s ≠ [] := by
    intro hq
    rw [hq] at hr
    cases hr
  obtain ⟨r', hr', hmerge⟩ := mergeAll_mergesTo _ 0 (countedLeaves s) hne (Nat.le_succ _)
    (keysOk_countedLeaves (ranksDistinct_of_counts hl h.freq h.rank))
  obtain rfl : r = r' := Option.some.inj (hr.symm.trans hr')
  have hsum := hmerge.freq
  rwa [h.sum_freq_countedLeaves hl, Nat.mod_eq_of_lt (nodeFreq r).isLt, Nat.mod_eq_of_lt hl] at hsum

end

end Sys2Proof.Machine

open Sys2Proof.Machine

/-- Settles O22: the merges keep the counted leaves, one per symbol, and a binary tree with n leaves has n − 1 internal
nodes, which bound its depth. -/
theorem tbuildTreeShape : Obligations.TbuildTreeShape := by
  intro s t w u hs hcount htok hw hfreq hrank hnsym hbuild huok
  have hl := length_inputBytes_lt s
  obtain ⟨hc, -⟩ := exec_fcount_success hs hcount htok
  obtain ⟨hft, hpos, hmerge⟩ := exec_tbuild_success hw hbuild huok
  have hcw : Counted (inputBytes s) w := ⟨hfreq.trans hc.freq, hrank.trans hc.rank, hnsym.trans hc.nsym, hft⟩
  have hn := hcw.nsym_eq_length_countedLeaves hl
  have hr := hmerge (List.ne_nil_of_length_pos (by omega))
  obtain ⟨-, hsymbols, hinternal, -⟩ := built_shape hr
  have hleaves := length_nodeLeaves u.tree
  have hdepth := nodeDepth_le_internalCount u.tree
  have hbound := length_countedLeaves_le w
  refine ⟨by omega, by omega, by omega, by omega, ?distinct, ?counted, ?root, by omega, by omega⟩
  case distinct => exact hsymbols.nodup_iff.2 (nodup_allSymbols.filter _)
  case counted => intro b; simp [hsymbols.mem_iff]
  case root => rw [hcw.rootFreq hl hr, length_inputBytes]

/-- Settles O23: both runs merge the same counted leaves. -/
theorem tbuildIsDeterministic : Obligations.TbuildIsDeterministic := by
  intro s u t v hs hu ⟨b, hb⟩ hf hr ht hv htok hvok
  obtain ⟨-, -, hmergeS⟩ := exec_tbuild_success hs ht htok
  obtain ⟨-, -, hmergeU⟩ := exec_tbuild_success hu hv hvok
  rw [← countedLeaves_congr hf hr] at hmergeU
  have hne := countedLeaves_ne_nil hb
  exact Option.some.inj ((hmergeS hne).symm.trans (hmergeU hne))

end

section
/-! PROOFS. HDESER on what it accepts, and on what HSER and PACK wrote (44_artifact_serializer.md R232, R233). -/

namespace Sys2Proof.Machine

theorem toNat_ofNat_of_lt {w n : Nat} (h : n < 2 ^ w) : (BitVec.ofNat w n).toNat = n := by
  rw [BitVec.toNat_ofNat, Nat.mod_eq_of_lt h]

/-! ### A successful HDESER -/

/-- What HDESER read of its input: a header's entries and valid-bit count, and the payload after them. -/
structure HeaderRead (es : List Entry) (v : Nat) (pay : List Byte) (s t : State) : Prop where
  input : inputBytes s = artifactHeader es v ++ pay
  entries : entriesOk es
  payload : pay.length = ceil8 v
  inLen : t.inLen = s.inLen
  dcode : t.dcode = addEntries (Table.fill []) es
  dnent : t.dnent.toNat = es.length
  dvbc : t.dvbc.toNat = v
  payOff : t.payOff.toNat = (artifactHeader es v).length

/-- A header at the start of the input is shorter than 2^32, so PAY_OFF holds its length. -/
theorem length_header_lt {s : State} {hdr pay : List Byte} (h : inputBytes s = hdr ++ pay) : hdr.length < 2 ^ 32 := by
  have hl := congrArg List.length h
  rw [length_inputBytes, List.length_append] at hl
  have := s.inLen.isLt
  omega

/-- The state HDESER's pseudocode leaves after reading a header's entries and valid-bit count
(44_artifact_serializer.md R231). -/
def parsedHeader (es : List Entry) (v : Nat) (s : State) : State :=
  { s with
    dcode := addEntries (Table.fill []) es
    dnent := BitVec.ofNat 9 es.length
    dvbc := BitVec.ofNat 32 v
    payOff := BitVec.ofNat 32 (artifactHeader es v).length }

/-- The registers HDESER sets are wide enough for what it read. -/
theorem headerRead_parsedHeader {es : List Entry} {v : Nat} {pay : List Byte} {s : State}
    (hin : inputBytes s = artifactHeader es v ++ pay) (hes : entriesOk es) (hv : v < 2 ^ 32) (hpay : pay.length = ceil8 v) :
    HeaderRead es v pay s (settled ⟨.none, stageOk .hdeser s (parsedHeader es v s)⟩) where
  input := hin
  entries := hes
  payload := hpay
  inLen := rfl
  dcode := rfl
  dnent := toNat_ofNat_of_lt (Nat.lt_of_le_of_lt (length_le_of_nodup hes.2) (by decide))
  dvbc := toNat_ofNat_of_lt hv
  payOff := toNat_ofNat_of_lt (length_header_lt hin)

theorem exec_hdeser_success {s t : State} (hd : dutiful s) (h : exec .hdeser s = .next t) (hok : t.errcode = .none) :
    ∃ es v pay, HeaderRead es v pay s t := by
  rw [exec_hdeser hd] at h
  cases h
  rcases stageHdeser_cases s with ⟨es, v, pay, -, hin, hes, hv, hpay, hst⟩ | ⟨e, he, hst⟩
  · exact ⟨es, v, pay, by rw [hst]; exact headerRead_parsedHeader hin hes hv hpay⟩
  · rw [hst] at hok
    obtain rfl : e = .none := hok
    simp at he

/-- HDESER succeeds on every artifact whose payload has its length. -/
theorem exec_hdeser_of_artifact {s : State} {es : List Entry} {v : Nat} {pay : List Byte} (hd : dutiful s)
    (hcap : s.inLen.toNat ≤ inCap s) (hin : inputBytes s = artifactHeader es v ++ pay) (hes : entriesOk es)
    (hv : v < 2 ^ 32) (hpay : pay.length = ceil8 v) :
    ∃ t, exec .hdeser s = .next t ∧ finished t .none ∧ HeaderRead es v pay s t := by
  have hrun := runHdeser_header hcap hes hv hin
  rw [if_neg (by omega), if_neg (by omega)] at hrun
  refine ⟨_, exec_hdeser hd, ?_⟩
  rw [stageHdeser, hrun, runStage_ok]
  exact ⟨⟨rfl, rfl, rfl⟩, headerRead_parsedHeader hin hes hv hpay⟩

/-! ### The entries of a code table -/

/-- Reading back the entries of a code table gives the table. -/
theorem addEntries_codeEntries {c : Table Bits} (h : codesOk c) : addEntries (Table.fill []) (codeEntries c) = c := by
  apply Table.ext_read
  intro b
  by_cases hb : c.read b = []
  · rw [addEntries_not_mem fun hm => mem_codeEntries.1 hm hb, Table.read_fill, hb]
  · have hmem : codeEntry c b ∈ codeEntries c :=
      List.mem_map_of_mem (List.mem_filter.2 ⟨mem_allSymbols b, by simpa using hb⟩)
    exact (addEntries_mem (entriesOk_codeEntries h).2 hmem).trans (entryCode_codeEntry c b)

/-- While CT_V is set the code table has one entry per distinct symbol of the counted input. -/
theorem Current.length_codeEntries {s : State} (h : Current s) (hct : s.valid.ct = true) :
    (codeEntries s.code).length = s.nsym.toNat := by
  rw [codeEntries, List.length_map, (h.ftCounts (h.ctNeedsFt hct)).1]
  refine congrArg List.length (List.filter_congr fun b _ => ?_)
  rw [Bool.eq_iff_iff]
  simpa using (h.ctCoded hct b).symm

/-! ### A successful PACK -/

theorem Current.keptHeader {s : State} (h : Current s) (hhs : s.valid.hs = true) : keptHeader s = encoderHeader s :=
  h.hsHeader hhs

theorem Current.hdrLen {s : State} (h : Current s) (hhs : s.valid.hs = true) :
    s.hdrLen.toNat = (encoderHeader s).length := by
  rw [← h.keptHeader hhs, Machine.keptHeader, List.length_map, List.length_range]

/-- A successful PACK leaves the artifact of the code table and VBC in OUT, and the encoder's registers as they were. -/
theorem exec_pack_success {s t : State} (hcur : Current s) (hd : dutiful s) (h : exec .pack s = .next t)
    (hok : t.errcode = .none) :
    s.valid.ct = true ∧ s.valid.hs = true ∧ keepsCounts s t ∧ keepsCodes s t ∧ keepsHdrLen s t ∧
      ∃ pay, pay.length = ceil8 s.vbc.toNat ∧ outBytes t = encoderHeader s ++ pay := by
  rw [exec_pack hd] at h
  cases h
  rcases stagePack_cases s with ⟨hct, hhs, -, -, hbits, hfits, hst⟩ | ⟨e, he, hst⟩
  · rw [hst, closeOutWriter_ok rfl]
    have hpay : (packMsb (codeStream s.code (inputBytes s))).length = ceil8 s.vbc.toNat := by rw [length_packMsb, hbits]
    refine ⟨hct, hhs, ⟨rfl, rfl, rfl⟩, ⟨rfl, rfl⟩, rfl, _, hpay, ?_⟩
    rw [← hcur.keptHeader hhs]
    refine outBytes_eq _ _ ?_ rfl
    have hlt : (keptHeader s ++ packMsb (codeStream s.code (inputBytes s))).length < 2 ^ 32 := by
      rw [List.length_append, hpay, hcur.keptHeader hhs, ← hcur.hdrLen hhs]
      exact Nat.lt_of_le_of_lt hfits s.outCapR.isLt
    exact toNat_ofNat_of_lt hlt
  · rw [hst] at hok
    obtain rfl : e = .none := (closeOutWriter_kind _).symm.trans hok
    simp at he

end Sys2Proof.Machine

open Sys2Proof.Machine

/-- Settles O29: a successful parse has read whole, distinct entries and a payload of the announced length. -/
theorem hdeserSuccessMeansWellFormed : Obligations.HdeserSuccessMeansWellFormed := by
  intro s t hd h hok
  obtain ⟨es, v, pay, hr⟩ := exec_hdeser_success hd h hok
  obtain rfl := hr.dvbc
  refine ⟨?inLen, es, pay, hr.input, hr.entries, length_le_of_nodup hr.entries.2, hr.payload, hr.payOff, hr.dnent, ?codes⟩
  case inLen => rw [hr.inLen, hr.payOff, ← hr.payload, ← List.length_append, ← hr.input, length_inputBytes]
  case codes =>
    intro e he
    rw [hr.dcode, addEntries_mem hr.entries.2 he]

/-- Settles O30: PACK's result is the header of the code table's own entries and a payload of VBC bits, whose parse gives the
table back. -/
theorem hdeserInvertsHserAndPack : Obligations.HdeserInvertsHserAndPack := by
  intro s t u hinv hcur hd h hok hdu hin hcap
  obtain ⟨hct, hhs, ⟨-, -, hnsym⟩, ⟨hcode, hvbc⟩, hhdr, pay, hpay, hout⟩ := exec_pack_success hcur hd h hok
  rw [hout, encoderHeader_eq_artifactHeader] at hin
  obtain ⟨v, hv, hfin, hr⟩ :=
    exec_hdeser_of_artifact hdu hcap hin (entriesOk_codeEntries hinv.code) s.vbc.isLt hpay
  refine ⟨v, hv, hfin, ?dcode, ?dnent, BitVec.eq_of_toNat_eq ?dvbc, BitVec.eq_of_toNat_eq ?payOff⟩
  case dcode => rw [hr.dcode, addEntries_codeEntries hinv.code, hcode]
  case dnent => rw [hr.dnent, hcur.length_codeEntries hct, hnsym]
  case dvbc => rw [hr.dvbc, hvbc]
  case payOff => rw [hr.payOff, ← encoderHeader_eq_artifactHeader, hhdr, hcur.hdrLen hhs]

end

section
/-! PROOFS. When TRECON succeeds: the insertion of a table's codes fails exactly when two of them clash
(46_tree_reconstructor.md R267). -/

open Sys2Proof.Machine

/-- Settles O33: under HD_V, TRECON either holds the codes of a prefix-free DCODE in its trie, or finds a clash and fails. -/
theorem treconAcceptsExactlyPrefixFree : Obligations.TreconAcceptsExactlyPrefixFree := by
  intro s hd hv
  refine ⟨_, exec_trecon hd, ?_⟩
  rcases stageTrecon_cases s with ⟨t, -, hfree, -, -, -, hstage⟩ | ⟨-, hclash, hstage⟩ | ⟨hno, -⟩
  · rw [hstage]
    exact ⟨fun _ => ⟨rfl, rfl, rfl⟩, fun hclash => absurd hfree hclash⟩
  · rw [hstage]
    exact ⟨fun hfree => absurd hfree hclash, fun _ => ⟨rfl, rfl, rfl⟩⟩
  · rw [hv] at hno
    cases hno

end

section
/-! PROOFS. UNPACK on a payload that is a stream of the trie's codes (47_bit_unpacker.md R283). -/

namespace Sys2Proof.Machine

/-- UNPACK kills HS_V and sets no valid bit (40_command_model.md R154). -/
theorem diff_union_unpack (v : ValidBits) :
    (v.diff (killSet .unpack)).union (genSet .unpack) = ⟨v.ft, v.tree, v.ct, false, v.hd, v.trie⟩ := by
  simp [ValidBits.diff, ValidBits.union, ValidBits.empty, killSet, genSet]

/-- OUT_LEN holds the length of every result that fits OUT. -/
theorem toNat_outLen_writeOut {bs : List Byte} {s : State} (h : bs.length ≤ outCap s) :
    (writeOut bs s).outLen.toNat = bs.length :=
  toNat_ofNat_of_lt (Nat.lt_of_le_of_lt h s.outCapR.isLt)

/-- An UNPACK whose pseudocode ends with the output `xs` completes without error on that output. -/
theorem exec_unpack_of_run {s : State} {xs : List Byte} (hd : dutiful s) (h : runUnpack s = .ok (writeOut xs s)) :
    exec .unpack s = .next (settled ⟨.none, stageOk .unpack s (writeOut xs s)⟩) := by
  rw [exec_unpack hd, stageUnpack, h, runStage_ok, closeOutWriter_ok rfl]

end Sys2Proof.Machine

open Sys2Proof.Machine

/-- Settles O35: from the root the walk reads one code of the prefix-free table after the other, so the output is the coded
symbols, and it fits OUT. -/
theorem unpackDecodesACodeStream : Obligations.UnpackDecodesACodeStream := by
  intro s c xs hd hv hcap hfree hholds hcoded hpay hbits hfits
  have hrun : runUnpack s = .ok (writeOut xs s) := runUnpack_ok hv hcap hfree hholds hcoded hpay hbits hfits
  have hlen : (writeOut xs s).outLen.toNat = xs.length := toNat_outLen_writeOut hfits
  refine ⟨_, exec_unpack_of_run hd hrun, ⟨rfl, rfl, rfl⟩, outBytes_eq _ _ hlen rfl, hlen, ?valid⟩
  case valid => exact (diff_union_unpack s.valid).trans (by rw [hv])

end

section
/-! PROOFS. COMPRESS: when it succeeds and the artifact it then leaves (48_composite.md R303, R304). -/

namespace Sys2Proof.Machine

/-! ### The artifact after COMPRESS -/

theorem Coded.vbc_toNat {bs : List Byte} {s : State} (h : Coded bs s) (hv : (encStream bs).length ≤ 2 ^ 32 - 1) :
    s.vbc.toNat = (encStream bs).length := by
  rw [h.vbc, toNat_ofNat_of_lt (by omega)]

theorem Coded.settled {bs : List Byte} {v : Verdict} (h : Coded bs v.st) : Coded bs (settled v) :=
  ⟨⟨h.freq, h.rank, h.nsym, h.ft⟩, h.code, h.vbc, h.ct⟩

theorem Packed.settled {bs : List Byte} {v : Verdict} (h : Packed bs v.st) : Packed bs (settled v) :=
  ⟨h.toCoded.settled, h.hs, h.hdrLen, h.outLen, h.out⟩

/-- What a successful COMPRESS of `bs` leaves: PACK's result, of sizes that the 32-bit registers hold. -/
structure Compressed (bs : List Byte) (t : State) : Prop extends Packed bs t where
  bound : bs.length < 2 ^ 32
  stream : (encStream bs).length ≤ 2 ^ 32 - 1
  artifact : (encArtifact bs).length ≤ 2 ^ 32 - 1

section
variable {bs : List Byte} {t : State} (h : Compressed bs t)
include h

theorem Compressed.outBytes : outBytes t = encArtifact bs :=
  outBytes_eq t _ (by rw [h.outLen, toNat_ofNat_of_lt (by have := h.artifact; omega)]) h.out

theorem Compressed.outLen_toNat : t.outLen.toNat = (encArtifact bs).length := by
  rw [h.outLen, toNat_ofNat_of_lt (by have := h.artifact; omega)]

theorem Compressed.vbc_toNat : t.vbc.toNat = (encStream bs).length := h.toCoded.vbc_toNat h.stream

theorem Compressed.hdrLen_toNat : t.hdrLen.toNat = (encHeader bs).length := by
  have hle : (encHeader bs).length ≤ (encArtifact bs).length := by rw [List.length_append]; omega
  rw [h.hdrLen, toNat_ofNat_of_lt (by have := h.artifact; omega)]

theorem Compressed.holdsArtifact : holdsArtifact bs t := by
  have hheader : encoderHeader t = encHeader bs := encoderHeader_coded h.toCoded h.stream
  refine ⟨?_, ?_, ?_, ?_⟩
  · rw [h.outBytes, hheader, h.code]
  · rw [h.hdrLen_toNat, hheader]
  · rw [h.outLen_toNat, h.hdrLen_toNat, h.vbc_toNat, List.length_append, length_packMsb]
  · rw [h.vbc_toNat, h.code]

end

/-! ### When COMPRESS succeeds -/

theorem finished.errcode {t : State} {k : ErrKind} (h : finished t k) : t.errcode = k := h.2.2

theorem exec_compress_finished {s : State} {k : ErrKind} (hd : dutiful s) (h : (compressStages s).err = k) :
    ∃ t, exec .compress s = .next t ∧ finished t k :=
  ⟨_, exec_compress hd, rfl, rfl, (closeOutWriter_kind _).trans h⟩

/-- COMPRESS succeeds on an input within IN_CAP whose payload bits fit VBC and whose artifact is within OUT_CAP. -/
theorem exec_compress_of_fits {s : State} (hd : dutiful s) (hin : s.inLen.toNat ≤ inCap s)
    (hv : (encStream (inputBytes s)).length ≤ 2 ^ 32 - 1) (hout : (encArtifact (inputBytes s)).length ≤ outCap s) :
    ∃ t, exec .compress s = .next t ∧ finished t .none := by
  rcases compressStages_spec s with ⟨-, -, -, herr, -⟩ | ⟨hno, -⟩
  · exact exec_compress_finished hd herr
  · exact absurd ⟨hin, hv, hout⟩ hno

/-- COMPRESS fails with IO_ERROR when the input or its artifact exceeds its capacity. -/
theorem exec_compress_of_not_fits {s : State} (hd : dutiful s)
    (hno : ¬ (s.inLen.toNat ≤ inCap s ∧ (encArtifact (inputBytes s)).length ≤ outCap s)) :
    ∃ t, exec .compress s = .next t ∧ finished t .ioError := by
  rcases compressStages_spec s with ⟨hin, -, hout, -⟩ | ⟨-, herr, -⟩
  · exact absurd ⟨hin, hout⟩ hno
  · exact exec_compress_finished hd herr

/-- A successful COMPRESS leaves the artifact of its input, and TREE_V exactly for a non-empty input. -/
theorem exec_compress_success {s t : State} (hd : dutiful s) (h : exec .compress s = .next t) (hok : t.errcode = .none) :
    Compressed (inputBytes s) t ∧ t.valid.tree = decide (inputBytes s ≠ []) := by
  rw [exec_compress hd] at h
  cases h
  have herr : (compressStages s).err = .none := (closeOutWriter_kind _).symm.trans hok
  rw [closeOutWriter_ok herr]
  rcases compressStages_spec s with ⟨-, hv, hout, -, hpacked, htree, -⟩ | ⟨-, hfail, -⟩
  · have hcap : outCap s ≤ 2 ^ 32 - 1 := by have := s.outCapR.isLt; unfold outCap; omega
    exact ⟨⟨hpacked.settled, length_inputBytes_lt s, hv, hout.trans hcap⟩, htree⟩
  · rw [herr] at hfail
    cases hfail

/-! ### The code table before HSER and PACK -/

/-- COMPRESS's stages up to the tree: FCOUNT, then TBUILD unless NSYM = 0 (48_composite.md R300, R302). -/
def treeVerdict (s : State) : Verdict := stageTbuildUnlessEmpty (stageFcount s).st

/-- COMPRESS's stages up to the code table: CGEN after these. -/
def tableVerdict (s : State) : Verdict := stageCgen (treeVerdict s).st

/-- On an input within IN_CAP whose payload bits fit VBC these stages succeed, and leave its code table. -/
theorem tableVerdict_coded {s : State} (hin : s.inLen.toNat ≤ inCap s)
    (hv : (encStream (inputBytes s)).length ≤ 2 ^ 32 - 1) :
    (treeVerdict s).err = .none ∧ (tableVerdict s).err = .none ∧ Coded (inputBytes s) (tableVerdict s).st := by
  have hl := length_inputBytes_lt s
  obtain ⟨hcount, hcounted⟩ := stageFcount_counted hin
  obtain ⟨hbuild, hbuilt, htree, hempty⟩ := stageTbuild_counted hcounted hl
  obtain ⟨-, -, -, -, -, -, -, -, hvalid⟩ := stageFcount_frame s
  have hnoTree : inputBytes s = [] → (treeVerdict s).st.valid.tree = false := by
    intro hb
    rw [treeVerdict, hempty hb, hvalid]
    simp [hcount, ValidBits.union, ValidBits.diff, killSet, genSet]
  obtain ⟨hgen, -⟩ := stageCgen_counted hbuilt hl htree hnoTree
  exact ⟨hbuild, hgen hv⟩

/-- Run as commands of their own after FCOUNT, they leave what they leave as stages of COMPRESS. -/
theorem runStages_tableStages {s : State} (hbuild : (treeVerdict s).err = .none) (hgen : (tableVerdict s).err = .none) :
    runStages (tableStages (settled (stageFcount s))) (settled (stageFcount s)) (settled (tableVerdict s)) := by
  have hcgen : ∀ v : Verdict, (stageCgen v.st).err = .none → runStages [.cgen] (settled v) (settled (stageCgen v.st)) :=
    fun v hv => runStages_settled (fun _ h => .inl (exec_cgen h)) stageCgen_withTags
      (commandVerdict_lost (i := .cgen) (by decide)) (fun _ => rfl) (fun hne => absurd hv hne)
  unfold tableVerdict treeVerdict stageTbuildUnlessEmpty at *
  generalize stageFcount s = v at *
  by_cases hn : v.st.nsym = 0
  · have hstages : tableStages (settled v) = [.cgen] := if_pos hn
    rw [hstages]
    rw [if_neg (by simp [hn])] at hgen ⊢
    exact hcgen v hgen
  · have hstages : tableStages (settled v) = [.tbuild, .cgen] := if_neg hn
    have hpos : 1 ≤ v.st.nsym.toNat := Nat.pos_of_ne_zero fun h => hn (BitVec.eq_of_toNat_eq h)
    rw [hstages]
    rw [if_pos hpos] at hbuild hgen ⊢
    exact runStages_settled (fun _ h => .inl (exec_tbuild h)) stageTbuild_withTags
      (commandVerdict_lost (i := .tbuild) (by decide)) (fun _ => hcgen _ hgen) (fun hne => absurd hbuild hne)

/-- On an input within IN_CAP whose payload bits fit VBC, the commands that make the code table succeed after FCOUNT and leave
the input's (48_composite.md R304). -/
theorem exists_runStages_coded {s : State} (hin : s.inLen.toNat ≤ inCap s)
    (hv : (encStream (inputBytes s)).length ≤ 2 ^ 32 - 1) :
    ∃ c, runStages (tableStages (settled (stageFcount s))) (settled (stageFcount s)) c ∧ c.errcode = .none ∧
      Coded (inputBytes s) c := by
  obtain ⟨hbuild, hgen, hcoded⟩ := tableVerdict_coded hin hv
  exact ⟨_, runStages_tableStages hbuild hgen, hgen, hcoded.settled⟩

/-! ### COMPRESS of an empty input -/

theorem encTable_nil : encTable [] = Table.fill [] := if_pos rfl

theorem encHeader_nil : encHeader [] = [0, 0, 0, 0, 0, 0] := by
  have hentries : codeEntries (encTable []) = [] := by simp [codeEntries, encTable_nil]
  rw [encHeader, hentries]
  rfl

theorem encArtifact_nil : encArtifact [] = [0, 0, 0, 0, 0, 0] := by
  rw [encArtifact, encHeader_nil]
  rfl

theorem inputBytes_of_empty {s : State} (h : s.inLen = 0) : inputBytes s = [] := by
  rw [← List.length_eq_zero_iff, length_inputBytes, h]
  rfl

theorem compressSide_settled_closeOutWriter (v : Verdict) :
    compressSide (settled (closeOutWriter v)) = compressSide v.st := by
  unfold closeOutWriter
  split <;> rfl

/-- What no stage of COMPRESS changes, its completion does not either. -/
theorem exec_compress_keeps {s t : State} (hd : dutiful s) (h : exec .compress s = .next t) :
    compressSide t = compressSide s := by
  rw [exec_compress hd] at h
  cases h
  rw [compressSide_settled_closeOutWriter, compressStages_frame]

theorem statusWord_of_emptyArtifact {t : State} (hf : finished t .none)
    (hv : t.valid = ⟨true, false, true, true, false, false⟩) (hl : t.lost = false) : statusWord t = 0x00000D02 := by
  obtain ⟨hbusy, hdone, herr⟩ := hf
  simp only [statusWord, statusWith, statusLow, errBit, hbusy, hdone, herr, hv, hl]
  decide

end Sys2Proof.Machine

open Sys2Proof Sys2Proof.Machine

/-- Settles O40: COMPRESS's own specification, its sizes read from the code table the stages before HSER leave; eight bits a
byte keep VBC within 32 bits. -/
theorem compressWritesTheArtifact : Obligations.CompressWritesTheArtifact := by
  refine ⟨fun s t hd h hok => (exec_compress_success hd h hok).1.holdsArtifact,
    fun s hd hin => exec_compress_of_not_fits hd fun hfits => by omega, fun s hd ⟨_, hcap, _⟩ hin => ?_⟩
  have hl := length_inputBytes_lt s
  have height := length_encStream_le_eight hl
  rw [length_inputBytes] at height
  have hv : (encStream (inputBytes s)).length ≤ 2 ^ 32 - 1 := by omega
  obtain ⟨hcount, -⟩ := stageFcount_counted hin
  obtain ⟨c, hrun, hgen, hc⟩ := exists_runStages_coded hin hv
  have hvbc := hc.vbc_toNat hv
  have hsize : (encArtifact (inputBytes s)).length = (encoderHeader c).length + ceil8 c.vbc.toNat := by
    rw [encoderHeader_coded hc hv, hvbc, List.length_append, length_packMsb]
  by_cases hout : (encArtifact (inputBytes s)).length ≤ outCap s
  · obtain ⟨t, ht, hfin⟩ := exec_compress_of_fits hd hin hv hout
    obtain ⟨hcomp, -⟩ := exec_compress_success hd ht hfin.errcode
    obtain ⟨hcodes, hfree, -⟩ := encTable_spec hl
    refine ⟨_, c, t, exec_fcount hd, hcount, hrun, hgen, by omega, ht, fun _ => ⟨hfin, hcomp.holdsArtifact,
      hcomp.code.trans hc.code.symm, hcomp.vbc.trans hc.vbc.symm, ?free, ?coded⟩, fun hlt => absurd hlt (by omega)⟩
    case free => rwa [hcomp.code]
    case coded => intro b hb; rw [hcomp.code]; exact (hcodes b).2 hb
  · obtain ⟨t, ht, hfin⟩ := exec_compress_of_not_fits hd fun hfits => hout hfits.2
    exact ⟨_, c, t, exec_fcount hd, hcount, hrun, hgen, by omega, ht, fun hle => absurd hle (by omega), fun _ => hfin⟩

/-- Settles O39: the artifact of no bytes is an empty header, six zero bytes. -/
theorem compressOfEmptyInput : Obligations.CompressOfEmptyInput := by
  intro s hd hlen hcap
  have hin := inputBytes_of_empty hlen
  obtain ⟨t, ht, hfin⟩ := exec_compress_of_fits hd (by simp [hlen]) (by simp [hin]) (by simpa [hin, encArtifact_nil] using hcap)
  obtain ⟨hcomp, htree⟩ := exec_compress_success hd ht hfin.errcode
  rw [hin] at hcomp htree
  have hkeep := exec_compress_keeps hd ht
  simp only [Prod.mk.injEq] at hkeep
  obtain ⟨-, -, ⟨hhd, htrie⟩, -, hlost⟩ := hkeep
  have hvalid : t.valid = ⟨true, false, true, true, s.valid.hd, s.valid.trie⟩ := by
    calc t.valid = ⟨t.valid.ft, t.valid.tree, t.valid.ct, t.valid.hs, t.valid.hd, t.valid.trie⟩ := rfl
      _ = ⟨true, false, true, true, s.valid.hd, s.valid.trie⟩ := by
        rw [hcomp.ft, htree, hcomp.ct, hcomp.hs, hhd, htrie]; rfl
  refine ⟨t, ht, hfin, by rw [hcomp.outBytes, encArtifact_nil], ?outLen, ?hdrLen, ?vbc, hvalid, fun hv hl => ?status⟩
  case outLen => rw [hcomp.outLen, encArtifact_nil]; rfl
  case hdrLen => rw [hcomp.hdrLen, encHeader_nil]; rfl
  case vbc => rw [hcomp.vbc]; rfl
  case status => exact statusWord_of_emptyArtifact hfin (by rw [hvalid, hv]; rfl) (hlost.trans hl)

end

section
/-! PROOFS. DECOMPRESS on an artifact, whole or cut (48_composite.md R305, R307, R308). -/

namespace Sys2Proof.Machine

/-! ### The stages of DECOMPRESS on an artifact -/

theorem stageTrecon_of_prefixFree {s : State} (hhd : s.valid.hd = true) (hfree : prefixFree s.dcode) :
    ∃ trie, trieHolds trie s.dcode ∧ stageTrecon s = ⟨.none, stageOk .trecon s { s with trie := trie }⟩ := by
  rcases stageTrecon_cases s with ⟨trie, -, -, hholds, -, -, hstage⟩ | ⟨-, hclash, -⟩ | ⟨hno, -⟩
  · exact ⟨trie, hholds, hstage⟩
  · exact absurd hfree hclash
  · rw [hhd] at hno
    cases hno

theorem bitMsb_payload {s : State} {hdr pay : List Byte} {n : Nat} (hin : inputBytes s = hdr ++ pay)
    (hn : n ≤ 8 * pay.length) : (List.range n).map (bitMsb s hdr.length) = (byteBits pay).take n := by
  have hfrom : inputFrom s hdr.length = pay ++ [] := by rw [inputFrom, hin, List.drop_left, List.append_nil]
  exact readCode_of_inputFrom hfrom hn

/-- What DECOMPRESS needs to decode `xs`: in the input a header whose entries make the prefix-free table `c`, and a payload of
VBC bits that are the codes of `xs` (48_composite.md R305, 47_bit_unpacker.md R283). -/
structure Decodable (es : List Entry) (c : Table Bits) (xs pay : List Byte) (s : State) : Prop where
  fits : s.inLen.toNat ≤ inCap s
  input : inputBytes s = artifactHeader es (codeStream c xs).length ++ pay
  entries : entriesOk es
  table : addEntries (Table.fill []) es = c
  free : prefixFree c
  coded : ∀ x ∈ xs, c.read x ≠ []
  count : (codeStream c xs).length < 2 ^ 32
  payload : pay.length = ceil8 (codeStream c xs).length
  bits : (byteBits pay).take (codeStream c xs).length = codeStream c xs

/-- What HDESER leaves of it for TRECON and UNPACK: the table, and the payload's place. -/
structure HeaderLoaded (c : Table Bits) (xs : List Byte) (r : State) : Prop where
  hd : r.valid.hd = true
  dcode : r.dcode = c
  fits : r.inLen.toNat ≤ inCap r
  payload : r.payOff.toNat + ceil8 r.dvbc.toNat ≤ r.inLen.toNat
  bits : (List.range r.dvbc.toNat).map (bitMsb r r.payOff.toNat) = codeStream c xs

section
variable {es : List Entry} {c : Table Bits} {xs pay : List Byte} {s : State}

theorem Decodable.clearHs (h : Decodable es c xs pay s) : Decodable es c xs pay (clearHs s) :=
  ⟨h.fits, h.input, h.entries, h.table, h.free, h.coded, h.count, h.payload, h.bits⟩

theorem Decodable.stageHdeser (h : Decodable es c xs pay s) :
    ∃ r, stageHdeser s = ⟨.none, r⟩ ∧ HeaderLoaded c xs r ∧ outCap r = outCap s := by
  have hrun := runHdeser_header h.fits h.entries h.count h.input
  rw [if_neg (by rw [h.payload]; omega), if_neg (by rw [h.payload]; omega)] at hrun
  have hread := headerRead_parsedHeader h.input h.entries h.count h.payload
  have hlen := congrArg List.length h.input
  rw [length_inputBytes, List.length_append, h.payload] at hlen
  generalize hr : stageOk .hdeser s (parsedHeader es (codeStream c xs).length s) = r at hread
  have hdvbc : r.dvbc.toNat = (codeStream c xs).length := hread.dvbc
  have hpayOff : r.payOff.toNat = (artifactHeader es (codeStream c xs).length).length := hread.payOff
  have hinLen : r.inLen = s.inLen := hread.inLen
  have hinput : inputBytes r = inputBytes s := by rw [← hr]; rfl
  refine ⟨r, by rw [Machine.stageHdeser, hrun, ← hr]; rfl, ⟨?hd, hread.dcode.trans h.table, ?fits, ?payload, ?bits⟩,
    by rw [← hr]; rfl⟩
  case hd => rw [← hr]; simp [ValidBits.union, genSet]
  case fits => rw [← hr]; exact h.fits
  case payload => rw [hdvbc, hpayOff, hinLen, hlen]
  case bits =>
    rw [hdvbc, hpayOff, bitMsb_payload (hinput.trans h.input) (by rw [h.payload, ceil8]; omega)]
    exact h.bits

/-- TRECON holds the table's codes in the trie, and UNPACK decodes the payload along them. -/
theorem HeaderLoaded.decode {r : State} (h : HeaderLoaded c xs r) (hfree : prefixFree c) (hcoded : ∀ x ∈ xs, c.read x ≠ [])
    (hout : xs.length ≤ outCap r) :
    ∃ u, (stageTrecon r).andThen stageUnpack = ⟨.none, stageOk .unpack u (writeOut xs u)⟩ ∧ outCap u = outCap r := by
  obtain ⟨trie, hholds, hbuild⟩ := stageTrecon_of_prefixFree h.hd (by rw [h.dcode]; exact hfree)
  rw [h.dcode] at hholds
  have hrun : runUnpack (stageOk .trecon r { r with trie := trie }) = .ok (writeOut xs _) :=
    runUnpack_ok (by simp [ValidBits.union, genSet]) h.fits hfree hholds hcoded h.payload h.bits hout
  refine ⟨stageOk .trecon r { r with trie := trie }, ?_, rfl⟩
  rw [hbuild, andThen_mk_ok, stageUnpack, hrun, runStage_ok]

/-- DECOMPRESS of such an input ends with UNPACK writing `xs`. -/
theorem Decodable.decompressStages (h : Decodable es c xs pay s) (hout : xs.length ≤ outCap s) :
    ∃ u, decompressStages s = ⟨.none, stageOk .unpack u (writeOut xs u)⟩ ∧ outCap u = outCap s := by
  obtain ⟨r, hparse, hloaded, hcapR⟩ := h.clearHs.stageHdeser
  obtain ⟨u, hdecode, hcapU⟩ := hloaded.decode h.free h.coded (by rw [hcapR]; exact hout)
  exact ⟨u, by rw [Machine.decompressStages, hparse, andThen_mk_ok, hdecode], hcapU.trans hcapR⟩

theorem Decodable.exec_decompress (h : Decodable es c xs pay s) (hd : dutiful s) (hout : xs.length ≤ outCap s) :
    ∃ v, exec .decompress s = .next v ∧ finished v .none ∧ outBytes v = xs ∧ v.outLen.toNat = xs.length := by
  obtain ⟨u, hstages, hcapU⟩ := h.decompressStages hout
  have hlen : (writeOut xs u).outLen.toNat = xs.length := toNat_outLen_writeOut (by rw [hcapU]; exact hout)
  rw [Machine.exec_decompress hd, hstages, closeOutWriter_ok rfl]
  exact ⟨_, rfl, ⟨rfl, rfl, rfl⟩, outBytes_eq _ _ hlen rfl, hlen⟩

end

/-- The artifact of a byte list decodes to it. -/
theorem decodable_encArtifact {bs : List Byte} {s : State} (hl : bs.length < 2 ^ 32)
    (hv : (encStream bs).length ≤ 2 ^ 32 - 1) (hfits : s.inLen.toNat ≤ inCap s) (hin : inputBytes s = encArtifact bs) :
    Decodable (codeEntries (encTable bs)) (encTable bs) bs (packMsb (encStream bs)) s := by
  obtain ⟨hcodes, hfree, hok⟩ := encTable_spec hl
  exact ⟨hfits, hin, entriesOk_encTable hl, addEntries_codeEntries hok, hfree, fun b => (hcodes b).2,
    Nat.lt_of_le_of_lt hv (by decide), length_packMsb _, take_byteBits_packMsb _⟩

/-! ### A cut artifact -/

/-- A part of the artifact that holds its whole header is cut in the payload. -/
theorem take_encArtifact_of_header {bs : List Byte} {m : Nat} (h : (encHeader bs).length ≤ m) :
    (encArtifact bs).take m = encHeader bs ++ (packMsb (encStream bs)).take (m - (encHeader bs).length) := by
  rw [List.take_append, List.take_of_length_le h]

theorem runHdeser_of_cutPayload {bs : List Byte} {s : State} (hl : bs.length < 2 ^ 32)
    (hv : (encStream bs).length ≤ 2 ^ 32 - 1) (hfits : s.inLen.toNat ≤ inCap s)
    (hcut : s.inLen.toNat < (encArtifact bs).length) (hin : inputBytes s = (encArtifact bs).take s.inLen.toNat)
    (hheader : (encHeader bs).length ≤ s.inLen.toNat) : runHdeser s = .error .truncatedInput := by
  rw [take_encArtifact_of_header hheader] at hin
  rw [List.length_append, length_packMsb] at hcut
  rw [runHdeser_header hfits (entriesOk_encTable hl) (by omega) hin, if_pos]
  rw [List.length_take]
  omega

theorem runHdeser_of_cutHeader {bs : List Byte} {s : State} (hl : bs.length < 2 ^ 32)
    (hfits : s.inLen.toNat ≤ inCap s) (hin : inputBytes s = (encArtifact bs).take s.inLen.toNat)
    (hheader : s.inLen.toNat < (encHeader bs).length) : runHdeser s = .error .corruptHeader := by
  rw [List.take_append_of_le_length (Nat.le_of_lt hheader)] at hin
  exact runHdeser_cut hfits (entriesOk_encTable hl) hheader hin

/-- DECOMPRESS of an input HDESER rejects fails with HDESER's error. -/
theorem exec_decompress_of_hdeser_error {s : State} {k : ErrKind} (hd : dutiful s) (hk : k ≠ .none)
    (h : runHdeser (clearHs s) = .error k) : ∃ v, exec .decompress s = .next v ∧ finished v k := by
  have hstage : stageHdeser (clearHs s) = ⟨k, stageErr .hdeser (clearHs s)⟩ := by rw [stageHdeser, h, runStage_error]
  have herr : (decompressStages s).err = k := by
    rw [decompressStages, hstage, andThen_mk_err _ _ hk, andThen_mk_err _ _ hk]
  exact ⟨_, exec_decompress hd, rfl, rfl, (closeOutWriter_kind _).trans herr⟩

end Sys2Proof.Machine

open Sys2Proof Sys2Proof.Machine

/-- Settles O42: COMPRESS leaves the artifact of its input, whose header gives back the prefix-free table the payload is coded
with. -/
theorem roundTripReturnsTheInput : Obligations.RoundTripReturnsTheInput := by
  intro s t u hd h hok hdu hin hfits hout
  obtain ⟨hcomp, -⟩ := exec_compress_success hd h hok
  rw [hcomp.outBytes] at hin
  rw [← length_inputBytes] at hout ⊢
  exact (decodable_encArtifact hcomp.bound hcomp.stream hfits hin).exec_decompress hdu hout

/-- Settles O43: a part that holds the header announces more payload than it has, and a shorter one ends inside the header. -/
theorem cutArtifactsAreRejected : Obligations.CutArtifactsAreRejected := by
  intro s t u hd h hok hdu hfits hcut hin
  obtain ⟨hcomp, -⟩ := exec_compress_success hd h hok
  rw [hcomp.outBytes] at hin
  rw [hcomp.outLen_toNat] at hcut
  rw [hcomp.hdrLen_toNat]
  exact ⟨fun hheader => exec_decompress_of_hdeser_error hdu (by decide)
      (runHdeser_of_cutPayload (s := clearHs u) hcomp.bound hcomp.stream hfits hcut hin hheader),
    fun hheader => exec_decompress_of_hdeser_error hdu (by decide)
      (runHdeser_of_cutHeader (s := clearHs u) hcomp.bound hfits hin hheader)⟩

end

section
/-! PROOFS. Decoding and encoding agree (30_encoding.md R110 to R112). -/

namespace Sys2Proof

theorem decode_encode (i : Instr) : decode (encode i) = .ok i := by
  cases i <;> rfl

/-- A word is its MBZ field followed by its OP field. -/
theorem word_eq_fields (w : Word) : w = w.extractLsb' 4 28 ++ w.extractLsb' 0 4 := by
  rw [BitVec.extractLsb'_append_extractLsb'_eq_extractLsb' (show 4 = 0 + 4 from rfl), BitVec.extractLsb'_eq_self]

theorem decode_eq_ok_iff (w : Word) (i : Instr) :
    decode w = .ok i ↔ w.extractLsb' 0 4 = opcode i ∧ w.extractLsb' 4 28 = 0#28 := by
  unfold decode
  split
  next hmbz => simp only [decodeOp_eq_ok, hmbz, and_true]
  next hmbz => simp only [reduceCtorEq, hmbz, and_false]

theorem encode_of_decode {w : Word} {i : Instr} (h : decode w = .ok i) : encode i = w := by
  obtain ⟨hop, hmbz⟩ := (decode_eq_ok_iff w i).1 h
  rw [word_eq_fields w, hop, hmbz, encode]

/-- The reserved opcodes are those from 12 on, and no opcode is refused for its MBZ bits. -/
theorem decodeOp_eq_error_iff (op : BitVec 4) :
    decodeOp op ≠ .error .mbzSet ∧ (decodeOp op = .error .reservedOp ↔ 12 ≤ op.toNat) := by
  revert op
  decide

theorem decode_eq_mbzSet_iff (w : Word) : decode w = .error .mbzSet ↔ w.extractLsb' 4 28 ≠ 0#28 := by
  unfold decode
  split
  next hmbz => exact ⟨fun h => absurd h (decodeOp_eq_error_iff _).1, fun h => absurd hmbz h⟩
  next hmbz => exact ⟨fun _ => hmbz, fun _ => rfl⟩

theorem decode_eq_reservedOp_iff (w : Word) :
    decode w = .error .reservedOp ↔ w.extractLsb' 4 28 = 0#28 ∧ 12 ≤ (w.extractLsb' 0 4).toNat := by
  unfold decode
  split
  next hmbz => simp only [(decodeOp_eq_error_iff _).2, hmbz, true_and]
  next hmbz => simp [hmbz]

end Sys2Proof

open Sys2Proof

/-- Settles O1: a word is the command of its OP field when its MBZ field is 0, and the fields make up the word. -/
theorem decodeAndEncodeAgree : Obligations.DecodeAndEncodeAgree :=
  ⟨fun i _ => decode_encode i, decode_eq_ok_iff, fun _ _ => encode_of_decode,
    fun w => ⟨decode_eq_mbzSet_iff w, decode_eq_reservedOp_iff w⟩⟩

/-- Settles O2: the twelve words by their fields, the two illegal ones by their class. -/
theorem tableWordsDecode : Obligations.TableWordsDecode := by
  unfold Obligations.TableWordsDecode
  decide

end

section
/-! PROOFS. Steps and completions: which command a step runs, what every completion keeps, and that every accepted command
completes (40_command_model.md R151 to R153, R155, R159). -/

namespace Sys2Proof.Machine

/-! ### The input side under completion -/

theorem ioSide_closeOutWriter (v : Verdict) : ioSide (closeOutWriter v).st = ioSide v.st := by
  unfold closeOutWriter
  split <;> rfl

theorem ioSide_compressStages (s : State) : ioSide (compressStages s).st = ioSide s :=
  (Prod.mk.inj (compressStages_frame s)).1

theorem ioSide_decompressStages (s : State) : ioSide (decompressStages s).st = ioSide s :=
  (Prod.mk.inj (decompressStages_frame s)).1

/-- No command writes the parameters, CTRL, OPL, IN_LEN, IN or the host's own fields. -/
theorem ioSide_commandVerdict (i : Instr) (s : State) : ioSide (commandVerdict i s).st = ioSide s := by
  cases i with
  | nop | clear => rfl
  | fcount => exact (stageFcount_frame s).1
  | tbuild => exact (stageTbuild_frame s).1
  | cgen => exact (stageCgen_frame s).1
  | hdeser => exact (stageHdeser_frame s).1
  | trecon => exact (stageTrecon_frame s).1
  | hser => rw [commandVerdict, ioSide_closeOutWriter, (stageHser_frame s).1]
  | pack => rw [commandVerdict, ioSide_closeOutWriter, (stagePack_frame s).1]
  | unpack => rw [commandVerdict, ioSide_closeOutWriter, (stageUnpack_frame s).1]
  | compress => rw [commandVerdict, ioSide_closeOutWriter, ioSide_compressStages]
  | decompress => rw [commandVerdict, ioSide_closeOutWriter, ioSide_decompressStages]

theorem ioSide_breach (c : Option Instr) (s : State) : ioSide (breach c s).st = ioSide s := by
  cases c with
  | none => rfl
  | some i => simp [breach]

theorem ioSide_complete (c : Option Instr) {s : State} {v : Verdict} (hv : ioSide v.st = ioSide s) :
    ioSide (complete c s v) = ioSide s := by
  cases ht : s.tainted with
  | true => rw [complete_tainted c v ht]; exact ioSide_breach c s
  | false => rw [complete_dutiful c v ht]; exact hv

theorem exec_keepsInputSide {i : Instr} {s t : State} (h : exec i s = .next t) : keepsInputSide s t := by
  rw [exec_commandVerdict] at h
  cases h
  exact keepsInputSide_of (ioSide_complete _ (ioSide_commandVerdict i s))

/-! ### The engine's step -/

theorem engineStep_of_ok {s : State} {i : Instr} (h : decodeOp s.opl = .ok i) : engineStep s = exec i s := by
  rw [engineStep, h]

theorem engineStep_of_error {s : State} {e : DecodeError} (h : decodeOp s.opl = .error e) :
    engineStep s = .next (completeIllegal s) := by
  rw [engineStep, h]

theorem engineStep_next (s : State) : ∃ t, engineStep s = .next t := by
  rcases engineStep_cases s with ⟨i, -, hexec⟩ | ⟨e, -, hillegal⟩
  · exact ⟨_, hexec.trans (exec_commandVerdict i s)⟩
  · exact ⟨_, hillegal⟩

/-! ### Runs of a busy block -/

theorem breakDuty_host (s : State) : (breakDuty s).host = s.host := by
  unfold breakDuty
  split <;> rfl

theorem writeCmd_host (s : State) (w : Word) : (writeCmd s w).host = s.host := by
  unfold writeCmd
  split <;> rfl

theorem writeReg_host (s : State) (v : Word) (r : Reg) : (writeReg s v r).host = s.host := by
  cases r with
  | cmd => exact writeCmd_host s v
  | inLen => exact breakDuty_host _
  | _ => rfl

/-- No access changes the list of those still to come. -/
theorem hostAccess_host (e : HostEvent) (s : State) : (hostAccess e s).host = s.host := by
  cases e with
  | reset | regRead | inRead | outRead | outWrite | wait => rfl
  | regWrite off bits v =>
    rw [hostAccess]
    split
    · exact writeReg_host s v _
    · rfl
  | inWrite i v =>
    rw [hostAccess, writeIn, breakDuty_host]
    split <;> rfl

/-- A host access other than reset leaves a busy block busy. -/
theorem hostAccess_busy {e : HostEvent} {s : State} (hb : s.busy = true) (he : e ≠ .reset) :
    (hostAccess e s).busy = true := by
  rcases hostAccess_cases e s with ⟨hreset, -⟩ | ⟨w, -, hw⟩ | ⟨v, -, hv⟩ | hkept
  · exact absurd hreset he
  · rw [hw, writeCmd_of_busy hb]; exact hb
  · rw [hv]; exact hb
  · rw [hkept.busy, hb]

/-- One more access of the delay spent: whatever is still to come within it was to come before. -/
theorem mem_take_of_hostStep {e x : HostEvent} {rest : List HostEvent} {s : State} {n : Nat}
    (h : x ∈ (hostStep e rest s).host.take n) : x ∈ (e :: rest).take (n + 1) := by
  rw [hostStep, hostAccess_host] at h
  rw [List.take_succ_cons]
  cases e with
  | wait =>
    simp only [remaining] at h
    split at h
    · cases n with
      | zero => simp at h
      | succ m =>
        rw [List.take_succ_cons, List.mem_cons] at h
        exact List.mem_cons.2 (h.imp id fun hx => (List.take_subset_take_left rest (Nat.le_succ m)) hx)
    · exact List.mem_cons_of_mem _ h
  | reset | regRead | regWrite | inRead | inWrite | outRead | outWrite => exact List.mem_cons_of_mem _ h

/-- A busy block that is due completes in one step. -/
theorem run_due {s : State} (hb : s.busy = true) (hdue : s.host = [] ∨ s.latency = 0) :
    ∃ t, Sys2Proof.core.run 1 s = .next t ∧ t.busy = false ∧ t.done = true := by
  obtain ⟨t, ht⟩ := engineStep_next s
  have hstep : step s = .next t := (step_due hb hdue).trans ht
  exact ⟨t, by rw [core_run_succ hstep, core_run_zero], engineStep_finishes ht⟩

/-- A busy block becomes idle within its delay and one step more; and if no reset is among the next accesses of that many steps,
by completing its command. -/
theorem run_until_idle {n : Nat} {s : State} (hb : s.busy = true) (hn : s.latency = n) :
    ∃ k t, 1 ≤ k ∧ k ≤ n + 1 ∧ Sys2Proof.core.run k s = .next t ∧ t.busy = false ∧
      (.reset ∉ s.host.take n → t.done = true) := by
  induction n generalizing s with
  | zero =>
    obtain ⟨t, hrun, hbusy, hdone⟩ := run_due hb (.inr hn)
    exact ⟨1, t, le_rfl, le_rfl, hrun, hbusy, fun _ => hdone⟩
  | succ n ih =>
    cases hhost : s.host with
    | nil =>
      obtain ⟨t, hrun, hbusy, hdone⟩ := run_due hb (.inl hhost)
      exact ⟨1, t, le_rfl, by omega, hrun, hbusy, fun _ => hdone⟩
    | cons e rest =>
      have hstep := step_host hhost (.inr (by omega))
      cases hbusy : (hostStep e rest s).busy with
      | false =>
        refine ⟨1, _, le_rfl, by omega, by rw [core_run_succ hstep, core_run_zero], hbusy, fun hno => ?_⟩
        have he : e ≠ .reset := fun he => hno (by simp [he])
        exact absurd hbusy (by rw [hostStep, hostAccess_busy (by exact hb) he]; decide)
      | true =>
        have hlat : (hostStep e rest s).latency = n := by
          rcases hostStep_latency e rest hb with hidle | hlat
          · rw [hbusy] at hidle; cases hidle
          · omega
        obtain ⟨k, t, -, hk, hrun, hidle, hdone⟩ := ih hbusy hlat
        exact ⟨k + 1, t, by omega, by omega, by rw [core_run_succ hstep, hrun], hidle,
          fun hno => hdone fun hmem => hno (mem_take_of_hostStep hmem)⟩

end Sys2Proof.Machine

open Sys2Proof Sys2Proof.Machine

/-- Settles O3: a due step is the engine's, on the latched opcode. -/
theorem stepRunsTheLatchedCommand : Obligations.StepRunsTheLatchedCommand :=
  ⟨fun _ _ hb hdue hop _ => (step_due hb hdue).trans (engineStep_of_ok hop),
    fun s w i hw _ => (step_withFetchWord s w).trans
      (engineStep_of_ok (s := acceptWith s w 0) ((decodeOp_latchOp w i).2 hw))⟩

/-- Settles O4: a step that is not due is the host's. -/
theorem stepRunsTheHostsNextAccess : Obligations.StepRunsTheHostsNextAccess := by
  refine fun s => ⟨fun hb hh => ?_, fun e rest hh hd => step_host hh hd⟩
  rw [step, hb, hh]

/-- Settles O5: an idle CMD write is an accept with one draw for its delay. -/
theorem idleCmdWriteAccepts : Obligations.IdleCmdWriteAccepts := by
  intro s w rest hb hh
  refine ⟨Config.latency s.draws, (step_host hh (.inl hb)).trans ?_⟩
  have hcmd : writeCmd { s with host := rest, latency := s.latency - 1 } w =
      accept { s with host := rest, latency := s.latency - 1 } w := if_neg (by simp [hb])
  exact congrArg Host.Outcome.next hcmd

/-- Settles O8: an illegal word latches an illegal opcode, whose completion keeps the state it found. -/
theorem illegalCommandCompletes : Obligations.IllegalCommandCompletes := by
  intro s w e hw
  have hop : decodeOp (acceptWith s w 0).opl = .error .reservedOp := decodeOp_latchOp_error hw
  rw [step_withFetchWord, engineStep_of_error hop, completeIllegal, complete_dutiful (s := acceptWith s w 0) _ _ rfl]
  rfl

/-- Settles O9: each step of a busy block completes its command or uses up one access of the delay. -/
theorem acceptedCommandCompletes : Obligations.AcceptedCommandCompletes := by
  refine ⟨fun s hb => ?_, fun s hb hno => ?_⟩
  · obtain ⟨k, t, h1, hk, hrun, hidle, -⟩ := run_until_idle hb rfl
    exact ⟨k, t, h1, hk, hrun, hidle⟩
  · obtain ⟨k, t, h1, hk, hrun, hidle, hdone⟩ := run_until_idle hb rfl
    exact ⟨k, t, h1, hk, hrun, hidle, hdone hno⟩

/-- Settles O10: every command is the completion of a verdict that keeps the input side. -/
theorem everyCommandCompletes : Obligations.EveryCommandCompletes := fun i s =>
  ⟨_, exec_commandVerdict i s, rfl, rfl, exec_keepsInputSide (exec_commandVerdict i s)⟩

end

section
/-! PROOFS. The invariant of the machine: what every field holds, whatever the host does (00_scope.md R6, R7; 10_state.md R47 to
R52). -/

namespace Sys2Proof.Machine

/-! ### Buffers and free values -/

section
variable {m : Memory} {cap d e : Nat}

theorem bufferOk_draw (h : bufferOk m cap d) (hde : d ≤ e) : bufferOk m cap e :=
  ⟨h.1, h.2.1, Nat.lt_of_lt_of_le h.2.2 hde⟩

theorem bufferOk_empty (h : d < e) : bufferOk ⟨d, []⟩ cap e :=
  ⟨rfl, fun _ hc => absurd hc List.not_mem_nil, h⟩

/-- The bytes an OUT-writer stores lie below the capacity their number is within. -/
theorem bufferOk_cellsFrom {bs : List Byte} (hb : bs.length ≤ cap) (h : d < e) : bufferOk ⟨d, cellsFrom 0 bs⟩ cap e := by
  refine ⟨risingFrom_cellsFrom 0 bs, fun c hc => ?_, h⟩
  have hlt := (mem_cellsFrom hc).2
  omega

theorem bufferOk_write {i : Nat} (v : Byte) (h : bufferOk m cap d) (hi : i < cap) : bufferOk (m.write i v) cap d := by
  refine ⟨m.wf_write i v h.1, fun c hc => ?_, h.2.2⟩
  rcases mem_insertCell hc with rfl | hold
  · exact hi
  · exact h.2.1 c hold

end

theorem codesOk_fill : codesOk (Table.fill []) := fun b => by simp [codeWf]

theorem codesOk_freeCodes (d : Nat) : codesOk (freeCodes d) := fun b => by simp [freeCodes, codeWf]

theorem codesOk_freeDcodes (d : Nat) : codesOk (freeDcodes d) := fun b => by simp [freeDcodes, codeWf]

theorem nodeWf_freeTree (d : Nat) : nodeWf (freeTree d) = true := by
  unfold freeTree
  split
  next h => exact h
  next => decide

theorem trieWf_freeTrie (d : Nat) : trieWf (freeTrie d) = true := by
  unfold freeTrie
  split
  next h => exact h
  next => decide

/-- A tree within the limits gives codes of at most 255 bits. -/
theorem codesOk_codesOf {n : Node} (h : nodeWf n = true) : codesOk (codesOf n) := by
  intro b
  have hlen := codesOf_length n b
  simp only [nodeWf, Bool.and_eq_true, decide_eq_true_eq] at h
  simp only [codeWf, decide_eq_true_eq]
  omega

/-- Decoded codes are as long as their entries say. -/
theorem codesOk_addEntries {es : List Entry} (h : entriesOk es) : codesOk (addEntries (Table.fill []) es) := by
  intro b
  by_cases hb : b ∈ es.map Entry.sym
  · obtain ⟨e, he, rfl⟩ := List.mem_map.1 hb
    obtain ⟨hpos, hlen, hbytes⟩ := h.1 e he
    simpa [addEntries_mem h.2 he, codeWf, length_entryCode ⟨hpos, hlen, hbytes⟩] using hlen
  · simp [addEntries_not_mem hb, codeWf]

/-! ### What the fields hold -/

/-- The clauses of `Inv` on what the fields hold, those on BUSY apart. -/
structure StoreOk (s : State) : Prop where
  caps : capsOk s
  inBuf : bufferOk s.inBuf (inCap s) s.draws
  outBuf : bufferOk s.outBuf (outCap s) s.draws
  code : codesOk s.code
  dcode : codesOk s.dcode
  tree : nodeWf s.tree = true
  trie : trieWf s.trie = true

/-- The fields it speaks of, the draw number apart. -/
abbrev storeSide (s : State) := (s.inCapR, s.outCapR, s.inBuf, s.outBuf, s.code, s.dcode, s.tree, s.trie)

theorem Inv.store {s : State} (h : Inv s) : StoreOk s :=
  ⟨h.caps, h.inBuf, h.outBuf, h.code, h.dcode, h.tree, h.trie⟩

theorem StoreOk.inv {s : State} (h : StoreOk s) (hr : s.busy = true → s.done = false ∧ s.errcode = .none)
    (hi : s.busy = false → s.tainted = false ∧ s.latency = 0) : Inv s :=
  ⟨h.caps, h.inBuf, h.outBuf, h.code, h.dcode, h.tree, h.trie, hr, hi⟩

namespace StoreOk

section
variable {s t : State}

/-- Every other field may change, and draws may be taken. -/
theorem of_side (h : StoreOk s) (hside : storeSide t = storeSide s) (hdraws : s.draws ≤ t.draws) : StoreOk t := by
  simp only [Prod.mk.injEq] at hside
  obtain ⟨hi, ho, hin, hout, hcode, hdcode, htree, htrie⟩ := hside
  have hinCap : inCap t = inCap s := congrArg BitVec.toNat hi
  have houtCap : outCap t = outCap s := congrArg BitVec.toNat ho
  refine ⟨?caps, ?inBuf, ?outBuf, hcode ▸ h.code, hdcode ▸ h.dcode, htree ▸ h.tree, htrie ▸ h.trie⟩
  case caps => rw [capsOk, hinCap, houtCap]; exact h.caps
  case inBuf => rw [hin, hinCap]; exact bufferOk_draw h.inBuf hdraws
  case outBuf => rw [hout, houtCap]; exact bufferOk_draw h.outBuf hdraws

theorem draw (h : StoreOk s) : StoreOk (draw s) := h.of_side rfl (Nat.le_succ _)

theorem spoilCounts (h : StoreOk s) (d : Nat) : StoreOk (spoilCounts d s) :=
  h.of_side rfl le_rfl

theorem spoilTree (h : StoreOk s) (d : Nat) : StoreOk (spoilTree d s) :=
  ⟨h.caps, h.inBuf, h.outBuf, h.code, h.dcode, nodeWf_freeTree d, h.trie⟩

theorem spoilCodes (h : StoreOk s) (d : Nat) : StoreOk (spoilCodes d s) :=
  ⟨h.caps, h.inBuf, h.outBuf, codesOk_freeCodes d, h.dcode, h.tree, h.trie⟩

theorem spoilHdrLen (h : StoreOk s) (d : Nat) : StoreOk (spoilHdrLen d s) :=
  h.of_side rfl le_rfl

theorem spoilHeader (h : StoreOk s) (d : Nat) : StoreOk (spoilHeader d s) :=
  ⟨h.caps, h.inBuf, h.outBuf, h.code, codesOk_freeDcodes d, h.tree, h.trie⟩

theorem spoilTrie (h : StoreOk s) (d : Nat) : StoreOk (spoilTrie d s) :=
  ⟨h.caps, h.inBuf, h.outBuf, h.code, h.dcode, h.tree, trieWf_freeTrie d⟩

/-- An unspecified write set is drawn within the limits of its types. -/
theorem spoil (h : StoreOk s) (i : Instr) : StoreOk (spoil i s) := by
  cases i with
  | nop | pack | unpack => exact h.draw
  | clear =>
    exact ((((((h.spoilCounts _).spoilTree _).spoilCodes _).spoilHdrLen _).spoilHeader _).spoilTrie _).draw
  | fcount => exact (h.spoilCounts _).draw
  | tbuild => exact (h.spoilTree _).draw
  | cgen => exact (h.spoilCodes _).draw
  | hser => exact (h.spoilHdrLen _).draw
  | hdeser => exact (h.spoilHeader _).draw
  | trecon => exact (h.spoilTrie _).draw
  | compress => exact ((((h.spoilCounts _).spoilTree _).spoilCodes _).spoilHdrLen _).draw
  | decompress => exact ((h.spoilHeader _).spoilTrie _).draw

theorem loseOutput (h : StoreOk s) : StoreOk (loseOutput s) :=
  ⟨h.caps, bufferOk_draw h.inBuf (Nat.le_succ _), bufferOk_empty (Nat.lt_succ_self _), h.code, h.dcode, h.tree, h.trie⟩

theorem writeOut (h : StoreOk s) {bs : List Byte} (hb : bs.length ≤ outCap s) : StoreOk (writeOut bs s) :=
  ⟨h.caps, bufferOk_draw h.inBuf (Nat.le_succ _), bufferOk_cellsFrom hb (Nat.lt_succ_self _), h.code, h.dcode, h.tree,
    h.trie⟩

/-! ### Stages -/

theorem stageOk (h : StoreOk t) (i : Instr) : StoreOk (stageOk i s t) :=
  h.of_side rfl le_rfl

theorem stageErr (h : StoreOk s) (i : Instr) : StoreOk (stageErr i s) :=
  (h.spoil i).of_side rfl le_rfl

theorem stageFcount (h : StoreOk s) : StoreOk (stageFcount s).st := by
  rcases stageFcount_cases s with ⟨-, hst⟩ | ⟨-, hst⟩ <;> rw [hst]
  · exact h.of_side rfl le_rfl
  · exact h.stageErr _

theorem stageTbuild (h : StoreOk s) : StoreOk (stageTbuild s).st := by
  rcases stageTbuild_cases s with ⟨r, -, -, hr, hst⟩ | ⟨-, -, -, hst⟩ | ⟨-, hst⟩ <;> rw [hst]
  · exact ⟨h.caps, h.inBuf, h.outBuf, h.code, h.dcode, built_wf hr, h.trie⟩
  · exact (h.spoilTree s.draws).draw.of_side rfl le_rfl
  · exact h.stageErr _

theorem stageCgen (h : StoreOk s) : StoreOk (stageCgen s).st := by
  rcases stageCgen_cases s with ⟨c, hc, -, hst⟩ | ⟨-, -, -, hst⟩ | ⟨-, -, hst⟩ <;> rw [hst]
  · have hcode : codesOk c := by
      rcases hc with ⟨-, rfl⟩ | ⟨-, -, -, rfl⟩
      · exact codesOk_codesOf h.tree
      · exact codesOk_fill
    exact ⟨h.caps, h.inBuf, h.outBuf, hcode, h.dcode, h.tree, h.trie⟩
  · exact h.stageErr _
  · exact h.stageErr _

theorem stageHser (h : StoreOk s) : StoreOk (stageHser s).st := by
  rcases stageHser_cases s with ⟨-, hfits, hst⟩ | ⟨-, -, hst⟩ | ⟨-, hst⟩ <;> rw [hst]
  · exact (h.writeOut hfits).of_side rfl le_rfl
  · exact h.stageErr _
  · exact h.stageErr _

theorem stagePack (h : StoreOk s) : StoreOk (stagePack s).st := by
  rcases stagePack_cases s with ⟨-, -, -, -, hbits, hfits, hst⟩ | ⟨e, -, hst⟩ <;> rw [hst]
  · refine (h.writeOut ?_).stageOk _
    rw [List.length_append, length_packMsb, hbits, keptHeader, List.length_map, List.length_range]
    exact hfits
  · exact h.stageErr _

theorem stageHdeser (h : StoreOk s) : StoreOk (stageHdeser s).st := by
  rcases stageHdeser_cases s with ⟨es, v, pay, -, -, hes, -, -, hst⟩ | ⟨e, -, hst⟩ <;> rw [hst]
  · exact ⟨h.caps, h.inBuf, h.outBuf, h.code, codesOk_addEntries hes, h.tree, h.trie⟩
  · exact h.stageErr _

theorem stageTrecon (h : StoreOk s) : StoreOk (stageTrecon s).st := by
  rcases stageTrecon_cases s with ⟨t, -, -, -, hrep, hlen, hst⟩ | ⟨-, -, hst⟩ | ⟨-, hst⟩ <;> rw [hst]
  · have hsum := sum_length_le s.dcode h.dcode allSymbols
    rw [length_allSymbols] at hsum
    have hsize : t.length ≤ 65281 := by omega
    exact ⟨h.caps, h.inBuf, h.outBuf, h.code, h.dcode, h.tree, trieWf_of_rep hrep hsize⟩
  · exact h.stageErr _
  · exact h.stageErr _

theorem stageUnpack (h : StoreOk s) : StoreOk (stageUnpack s).st := by
  rcases stageUnpack_cases s with ⟨out, -, -, hloop, hst⟩ | ⟨e, -, hst⟩ <;> rw [hst]
  · exact (h.writeOut ((unpackLoop_length hloop).2 (Nat.zero_le _))).stageOk _
  · exact h.stageErr _

/-! ### Commands -/

theorem closeOutWriter {v : Verdict} (h : StoreOk v.st) : StoreOk (closeOutWriter v).st :=
  closeOutWriter_keeps h fun _ hs => hs.loseOutput

theorem stageTbuildUnlessEmpty (h : StoreOk s) : StoreOk (stageTbuildUnlessEmpty s).st := by
  unfold Machine.stageTbuildUnlessEmpty
  split
  · exact h.stageTbuild
  · exact h

theorem compressStages (h : StoreOk s) : StoreOk (compressStages s).st :=
  andThen_keeps (andThen_keeps (andThen_keeps (andThen_keeps h.stageFcount fun _ hs => hs.stageTbuildUnlessEmpty)
    fun _ hs => hs.stageCgen) fun _ hs => hs.stageHser) fun _ hs => hs.stagePack

theorem clearHs (h : StoreOk s) : StoreOk (clearHs s) := h.of_side rfl le_rfl

theorem decompressStages (h : StoreOk s) : StoreOk (decompressStages s).st :=
  andThen_keeps (andThen_keeps h.clearHs.stageHdeser fun _ hs => hs.stageTrecon) fun _ hs => hs.stageUnpack

theorem clearState (h : StoreOk s) : StoreOk (clearState s) :=
  ⟨h.caps, bufferOk_draw h.inBuf (Nat.le_succ _), bufferOk_draw h.outBuf (Nat.le_succ _), codesOk_fill, codesOk_fill,
    nodeWf_freeTree _, trieWf_freeTrie _⟩

theorem commandVerdict (h : StoreOk s) (i : Instr) : StoreOk (commandVerdict i s).st := by
  cases i with
  | nop => exact h
  | clear => exact h.clearState.stageOk _
  | fcount => exact h.stageFcount
  | tbuild => exact h.stageTbuild
  | cgen => exact h.stageCgen
  | hdeser => exact h.stageHdeser
  | trecon => exact h.stageTrecon
  | hser => exact h.stageHser.closeOutWriter
  | pack => exact h.stagePack.closeOutWriter
  | unpack => exact h.stageUnpack.closeOutWriter
  | compress => exact h.compressStages.closeOutWriter
  | decompress => exact h.decompressStages.closeOutWriter

/-- What a broken duty leaves free keeps the limits of its types too. -/
theorem breach (h : StoreOk s) (c : Option Instr) : StoreOk (breach c s).st := by
  cases c with
  | none => exact h.loseOutput.of_side rfl (Nat.le_succ _)
  | some i =>
    refine (h.spoil i).loseOutput.of_side rfl ?_
    have hdraws := spoil_draws i s
    simp only [Machine.breach, loseOutput_draws]
    omega

theorem complete (h : StoreOk s) (c : Option Instr) {v : Verdict} (hv : StoreOk v.st) : StoreOk (complete c s v) := by
  cases ht : s.tainted with
  | true => rw [complete_tainted c v ht]; exact (h.breach c).of_side rfl le_rfl
  | false => rw [complete_dutiful c v ht]; exact hv.of_side rfl le_rfl

end

end StoreOk

/-- A completed command leaves an idle block that waits for nothing. -/
theorem Inv.complete {s : State} (h : Inv s) (c : Option Instr) {v : Verdict} (hv : StoreOk v.st) : Inv (complete c s v) :=
  (h.store.complete c hv).inv (fun hb => by simp at hb) fun _ => ⟨rfl, rfl⟩

theorem Inv.engineStep {s t : State} (h : Inv s) (hs : engineStep s = .next t) : Inv t := by
  rcases engineStep_cases s with ⟨i, -, hexec⟩ | ⟨e, -, hillegal⟩
  · rw [hexec, exec_commandVerdict] at hs
    cases hs
    exact h.complete _ (h.store.commandVerdict i)
  · rw [hillegal] at hs
    cases hs
    exact h.complete none h.store

/-! ### The host's accesses -/

/-- The reset state holds unspecified elements within the limits of their types. -/
theorem storeOk_resetAt {d : Nat} {s : State} (hs : capsOk s) :
    StoreOk { State.resetAt d with inCapR := s.inCapR, outCapR := s.outCapR } :=
  ⟨hs, bufferOk_empty (Nat.lt_succ_self d), bufferOk_empty (Nat.lt_succ_self d), codesOk_fill, codesOk_fill,
    nodeWf_freeTree d, trieWf_freeTrie d⟩

theorem Inv.hostReset {s : State} (h : Inv s) : Inv (hostReset s) :=
  StoreOk.inv ((storeOk_resetAt h.caps).of_side rfl le_rfl) (fun hb => absurd hb Bool.false_ne_true) fun _ => ⟨rfl, rfl⟩

theorem Inv.logRead {s : State} (h : Inv s) (r : Reply) : Inv (logRead r s) :=
  StoreOk.inv (h.store.of_side rfl (Nat.le_succ _)) h.running h.idle

/-- Breaking the duty marks a busy block only. -/
theorem Inv.breakDuty {s : State} (h : Inv s) : Inv (breakDuty s) := by
  unfold Machine.breakDuty
  split
  next hb => exact StoreOk.inv (h.store.of_side rfl le_rfl) h.running fun hi => by simp [hb] at hi
  next => exact h

theorem Inv.writeIn {s : State} (h : Inv s) (i : Nat) (v : Byte) : Inv (writeIn s i v) := by
  refine Inv.breakDuty ?_
  split
  next hi =>
    exact ⟨h.caps, bufferOk_write v h.inBuf hi, h.outBuf, h.code, h.dcode, h.tree, h.trie, h.running, h.idle⟩
  next => exact h

theorem Inv.writeCmd {s : State} (h : Inv s) (w : Word) : Inv (writeCmd s w) := by
  unfold Machine.writeCmd
  split
  · exact StoreOk.inv (h.store.of_side rfl le_rfl) h.running h.idle
  · exact StoreOk.inv (h.store.of_side rfl (Nat.le_succ _)) (fun _ => ⟨rfl, rfl⟩)
      fun hi => absurd hi.symm Bool.false_ne_true

theorem Inv.writeStatus {s : State} (h : Inv s) (v : Word) : Inv (writeStatus s v) :=
  StoreOk.inv (h.store.of_side rfl le_rfl)
    (fun hb => ⟨by simp [Machine.writeStatus, (h.running hb).1], (h.running hb).2⟩) h.idle

theorem Inv.writeReg {s : State} (h : Inv s) (v : Word) (r : Reg) : Inv (writeReg s v r) := by
  cases r with
  | cmd => exact h.writeCmd v
  | status => exact h.writeStatus v
  | ctrl => exact StoreOk.inv (h.store.of_side rfl le_rfl) h.running h.idle
  | inLen =>
    exact Inv.breakDuty (StoreOk.inv (h.store.of_side rfl le_rfl) h.running h.idle)
  | _ => exact h

theorem Inv.hostAccess {s : State} (h : Inv s) (e : HostEvent) : Inv (hostAccess e s) := by
  cases e with
  | reset => exact h.hostReset
  | regRead | inRead | outRead | wait => exact h.logRead _
  | regWrite off bits v =>
    rw [Machine.hostAccess]
    split
    · exact h.writeReg v _
    · exact h
  | inWrite i v => exact h.writeIn i v
  | outWrite => exact h

theorem Inv.hostStep {s : State} (h : Inv s) (e : HostEvent) (rest : List HostEvent) : Inv (hostStep e rest s) :=
  have hlatency : s.busy = false → s.tainted = false ∧ s.latency - 1 = 0 :=
    fun hb => ⟨(h.idle hb).1, by rw [(h.idle hb).2]⟩
  Inv.hostAccess (s := { s with host := remaining e s.busy rest, latency := s.latency - 1 })
    (StoreOk.inv (h.store.of_side rfl le_rfl) h.running hlatency) e

theorem capsOk_reset : capsOk State.reset := by
  have hin : 1 + Config.inCapSeed % (2 ^ 29 - 1) < 2 ^ 29 := by omega
  have hout : 6 + Config.outCapSeed % (2 ^ 32 - 6) < 2 ^ 32 := by omega
  have hi : inCap State.reset = Config.inCap := Nat.mod_eq_of_lt (Nat.lt_trans hin (by decide))
  have ho : outCap State.reset = Config.outCap := Nat.mod_eq_of_lt hout
  rw [capsOk, hi, ho, Config.inCap, Config.outCap]
  omega

end Sys2Proof.Machine

open Sys2Proof.Machine

/-- Settles O49: completions keep it because every result and every free value is within the limits of its type, and the host's
accesses because they write IN below IN_CAP only. -/
theorem stepKeepsTheInvariant : Obligations.StepKeepsTheInvariant := by
  intro s t h hstep
  rcases step_cases hstep with ⟨-, -, hengine⟩ | ⟨e, rest, -, -, rfl⟩ | ⟨-, -, rfl⟩
  · exact h.engineStep hengine
  · exact h.hostStep e rest
  · exact h

end

section
/-! PROOFS. Outcomes: the valid bits and the error kind a command completes with (40_command_model.md R154, R155, R158;
60_exceptions.md R320, R321, R328). -/

namespace Sys2Proof.Machine

/-! ### The valid bits, by command and outcome -/

/-- The valid bits that command `i` leaves of `v`: the row of 40_command_model.md R154 for its outcome, the rows of a composite's
stages taken together. -/
def validRow (i : Instr) (ok : Bool) (v : ValidBits) : ValidBits :=
  match i with
  | .nop => v
  | .clear => ValidBits.empty
  | .fcount => ⟨ok, false, false, false, v.hd, v.trie⟩
  | .tbuild => ⟨v.ft, ok, false, false, v.hd, v.trie⟩
  | .cgen => ⟨v.ft, v.tree, ok, false, v.hd, v.trie⟩
  | .hser => ⟨v.ft, v.tree, v.ct, ok, v.hd, v.trie⟩
  | .pack => ⟨v.ft, v.tree, v.ct, ok, v.hd, v.trie⟩
  | .hdeser => ⟨v.ft, v.tree, v.ct, v.hs, ok, false⟩
  | .trecon => ⟨v.ft, v.tree, v.ct, v.hs, v.hd, ok⟩
  | .unpack => ⟨v.ft, v.tree, v.ct, false, v.hd, v.trie⟩
  | .compress => ⟨ok, false, ok, ok, v.hd, v.trie⟩
  | .decompress => ⟨v.ft, v.tree, v.ct, false, ok, ok⟩

/-- A success clears K and sets G. -/
theorem diff_union_genSet (i : Instr) (v : ValidBits) : (v.diff (killSet i)).union (genSet i) = validRow i true v := by
  cases i <;> simp [ValidBits.diff, ValidBits.union, ValidBits.empty, killSet, genSet, validRow]

/-- An error clears K. -/
theorem diff_killSet (i : Instr) (v : ValidBits) : v.diff (killSet i) = validRow i false v := by
  cases i <;> simp [ValidBits.diff, ValidBits.empty, killSet, validRow]

theorem union_empty (v : ValidBits) : v.union ValidBits.empty = v := by
  simp [ValidBits.union, ValidBits.empty]

theorem diff_union_ite (i : Instr) (v : ValidBits) (p : Prop) [Decidable p] :
    (v.diff (killSet i)).union (if p then genSet i else ValidBits.empty) = validRow i (decide p) v := by
  by_cases hp : p
  · rw [if_pos hp, diff_union_genSet, decide_eq_true hp]
  · rw [if_neg hp, union_empty, diff_killSet, decide_eq_false hp]

section
variable (s : State)

theorem stageFcount_valid : (stageFcount s).st.valid = validRow .fcount (decide ((stageFcount s).err = .none)) s.valid := by
  obtain ⟨-, -, -, -, -, -, -, -, h⟩ := stageFcount_frame s
  rw [h, diff_union_ite]

theorem stageTbuild_valid : (stageTbuild s).st.valid = validRow .tbuild (decide ((stageTbuild s).err = .none)) s.valid := by
  obtain ⟨-, -, -, -, -, -, -, -, h⟩ := stageTbuild_frame s
  rw [h, diff_union_ite]

theorem stageCgen_valid : (stageCgen s).st.valid = validRow .cgen (decide ((stageCgen s).err = .none)) s.valid := by
  obtain ⟨-, -, -, -, -, -, -, -, h⟩ := stageCgen_frame s
  rw [h, diff_union_ite]

theorem stageHser_valid : (stageHser s).st.valid = validRow .hser (decide ((stageHser s).err = .none)) s.valid := by
  obtain ⟨-, -, -, -, -, -, -, h⟩ := stageHser_frame s
  rw [h, diff_union_ite]

theorem stagePack_valid : (stagePack s).st.valid = validRow .pack (decide ((stagePack s).err = .none)) s.valid := by
  obtain ⟨-, -, -, -, -, -, -, -, h⟩ := stagePack_frame s
  rw [h, diff_union_ite]

theorem stageHdeser_valid : (stageHdeser s).st.valid = validRow .hdeser (decide ((stageHdeser s).err = .none)) s.valid := by
  obtain ⟨-, -, -, -, -, -, -, -, h⟩ := stageHdeser_frame s
  rw [h, diff_union_ite]

theorem stageTrecon_valid : (stageTrecon s).st.valid = validRow .trecon (decide ((stageTrecon s).err = .none)) s.valid := by
  obtain ⟨-, -, -, -, -, -, -, -, h⟩ := stageTrecon_frame s
  rw [h, diff_union_ite]

theorem stageUnpack_valid : (stageUnpack s).st.valid = validRow .unpack (decide ((stageUnpack s).err = .none)) s.valid := by
  obtain ⟨-, -, -, -, -, -, -, -, h⟩ := stageUnpack_frame s
  rw [h, diff_union_ite]

end

theorem closeOutWriter_valid (v : Verdict) : (closeOutWriter v).st.valid = v.st.valid := by
  unfold closeOutWriter
  split <;> rfl

theorem commandVerdict_valid {i : Instr} (hi : i ∉ [.compress, .decompress]) (s : State) :
    (commandVerdict i s).st.valid = validRow i (decide ((commandVerdict i s).err = .none)) s.valid := by
  cases i with
  | nop => rfl
  | clear => exact diff_union_genSet .clear s.valid
  | fcount => exact stageFcount_valid s
  | tbuild => exact stageTbuild_valid s
  | cgen => exact stageCgen_valid s
  | hdeser => exact stageHdeser_valid s
  | trecon => exact stageTrecon_valid s
  | hser => rw [commandVerdict, closeOutWriter_valid, closeOutWriter_kind, stageHser_valid]
  | pack => rw [commandVerdict, closeOutWriter_valid, closeOutWriter_kind, stagePack_valid]
  | unpack => rw [commandVerdict, closeOutWriter_valid, closeOutWriter_kind, stageUnpack_valid]
  | compress => simp at hi
  | decompress => simp at hi

theorem exec_valid {i : Instr} {s t : State} (hi : i ∉ [.compress, .decompress]) (hd : dutiful s) (h : exec i s = .next t) :
    t.valid = validRow i (decide (t.errcode = .none)) s.valid := by
  rw [exec_dutiful i hd] at h
  cases h
  exact commandVerdict_valid hi s

theorem exec_valid_of_success {i : Instr} {s t : State} (hi : i ∉ [.compress, .decompress]) (hd : dutiful s)
    (h : exec i s = .next t) (hok : t.errcode = .none) : t.valid = validRow i true s.valid := by
  rw [exec_valid hi hd h, decide_eq_true hok]

/-! ### The composites' valid bits on success -/

theorem andThen_success {v : Verdict} {f : State → Verdict} (h : (v.andThen f).err = .none) :
    v.err = .none ∧ v.andThen f = f v.st := by
  by_cases hv : v.err = .none
  · exact ⟨hv, andThen_ok f hv⟩
  · rw [andThen_err f hv] at h
    exact absurd h hv

theorem exec_errcode {i : Instr} {s t : State} (hd : dutiful s) (h : exec i s = .next t) :
    t.errcode = (commandVerdict i s).err := by
  rw [exec_dutiful i hd] at h
  cases h
  rfl

theorem validBits_ext {v w : ValidBits} (hft : v.ft = w.ft) (htree : v.tree = w.tree) (hct : v.ct = w.ct) (hhs : v.hs = w.hs)
    (hhd : v.hd = w.hd) (htrie : v.trie = w.trie) : v = w := by
  cases v
  cases w
  simp_all only

theorem exec_compress_valid {s t : State} (hd : dutiful s) (h : exec .compress s = .next t) (hok : t.errcode = .none) :
    t.valid = ⟨true, decide (1 ≤ t.nsym.toNat), true, true, s.valid.hd, s.valid.trie⟩ := by
  obtain ⟨hcomp, htree⟩ := exec_compress_success hd h hok
  have hkeep := exec_compress_keeps hd h
  simp only [Prod.mk.injEq] at hkeep
  obtain ⟨-, -, ⟨hhd, htrie⟩, -⟩ := hkeep
  refine validBits_ext hcomp.ft ?tree hcomp.ct hcomp.hs hhd htrie
  case tree => rw [htree, hcomp.nsym_toNat hcomp.bound, decide_eq_decide]; exact distinct_pos.symm

/-- The stages of a successful DECOMPRESS all succeed. -/
theorem decompressStages_success {s : State} (h : (decompressStages s).err = .none) :
    ∃ a b, stageHdeser (clearHs s) = ⟨.none, a⟩ ∧ stageTrecon a = ⟨.none, b⟩ ∧ (stageUnpack b).err = .none ∧
      decompressStages s = stageUnpack b := by
  obtain ⟨htables, hunpack⟩ := andThen_success h
  obtain ⟨hparse, hbuild⟩ := andThen_success htables
  rw [decompressStages, hunpack, hbuild] at h ⊢
  rw [hbuild] at htables
  exact ⟨_, _, by rw [← hparse], by rw [← htables], h, rfl⟩

theorem exec_decompress_valid {s t : State} (hd : dutiful s) (h : exec .decompress s = .next t) (hok : t.errcode = .none) :
    t.valid = ⟨s.valid.ft, s.valid.tree, s.valid.ct, false, true, true⟩ := by
  have herr : (decompressStages s).err = .none := by
    rw [← hok, exec_errcode hd h, commandVerdict, closeOutWriter_kind]
  obtain ⟨a, b, hparse, hbuild, hunpack, hstages⟩ := decompressStages_success herr
  have ha := stageHdeser_valid (clearHs s)
  have hb := stageTrecon_valid a
  rw [hparse] at ha
  rw [hbuild] at hb
  have hvalid := stageUnpack_valid b
  rw [exec_decompress hd] at h
  cases h
  rw [closeOutWriter_ok herr, hstages, hvalid, decide_eq_true hunpack, hb, ha]
  rfl

/-! ### The outcome of an error -/

/-- A command completes with its verdict's error kind and valid bits. -/
theorem exec_finished (i : Instr) {s : State} (hd : dutiful s) :
    ∃ t, exec i s = .next t ∧ finished t (commandVerdict i s).err ∧ t.valid = (commandVerdict i s).st.valid :=
  ⟨_, exec_dutiful i hd, ⟨rfl, rfl, rfl⟩, rfl⟩

/-- A command whose verdict is an error clears its kill set. -/
theorem exec_error {i : Instr} {s : State} {e : ErrKind} (hi : i ∉ [.compress, .decompress]) (hd : dutiful s)
    (he : e ≠ .none) (h : (commandVerdict i s).err = e) :
    ∃ t, exec i s = .next t ∧ finished t e ∧ t.valid = validRow i false s.valid := by
  obtain ⟨t, ht, hfin, hvalid⟩ := exec_finished i hd
  rw [h] at hfin
  refine ⟨t, ht, hfin, ?_⟩
  rw [hvalid, commandVerdict_valid hi, h, decide_eq_false he]

/-- Every failed OUT-writer has HS_V clear: it or an earlier stage killed it. -/
theorem outWriter_error_hs {i : Instr} {s : State} (hi : i ∈ [.hser, .pack, .unpack, .compress, .decompress])
    (he : (commandVerdict i s).err ≠ .none) : (commandVerdict i s).st.valid.hs = false := by
  have hstage : ∀ j ∈ [Instr.hser, .pack, .unpack], (commandVerdict j s).err ≠ .none →
      (commandVerdict j s).st.valid.hs = false := by
    intro j hj hne
    simp only [List.mem_cons, List.not_mem_nil, or_false] at hj
    rcases hj with rfl | rfl | rfl <;> rw [commandVerdict_valid (by decide), decide_eq_false hne] <;> rfl
  cases i with
  | hser | pack | unpack => exact hstage _ (by decide) he
  | compress =>
    rw [commandVerdict, closeOutWriter_kind] at he
    rw [commandVerdict, closeOutWriter_valid]
    rcases compressStages_spec s with ⟨-, -, -, hok, -⟩ | ⟨-, -, hbits⟩
    · exact absurd hok he
    · split at hbits <;> simp only [Prod.mk.injEq] at hbits <;> exact hbits.2.2.2
  | decompress =>
    rw [commandVerdict, closeOutWriter_valid]
    have hframe := decompressStages_frame s
    simp only [Prod.mk.injEq] at hframe
    obtain ⟨-, -, -, ⟨-, -, -, hhs⟩, -⟩ := hframe
    exact hhs
  | nop | clear | fcount | tbuild | cgen | hdeser | trecon => simp at hi

/-- An OUT-writer's verdict is that of its stages, closed. -/
theorem outWriter_closed {i : Instr} {s : State} (hi : i ∈ [.hser, .pack, .unpack, .compress, .decompress]) :
    ∃ v, commandVerdict i s = closeOutWriter v := by
  cases i with
  | hser | pack | unpack | compress | decompress => exact ⟨_, rfl⟩
  | nop | clear | fcount | tbuild | cgen | hdeser | trecon => simp at hi

theorem outWriter_error_outLen {i : Instr} {s : State} (hi : i ∈ [.hser, .pack, .unpack, .compress, .decompress])
    (he : (commandVerdict i s).err ≠ .none) : (commandVerdict i s).st.outLen = 0 := by
  obtain ⟨v, hv⟩ := outWriter_closed (s := s) hi
  rw [hv, closeOutWriter_kind] at he
  rw [hv, closeOutWriter_err he, loseOutput_outLen]

/-! ### Error kinds -/

theorem runUnpack_ne_sequenceError {s : State} (hv : s.valid.trie = true) : runUnpack s ≠ .error .sequenceError := by
  intro h
  rw [runUnpack, if_neg (by simp [hv])] at h
  split at h
  · cases h
  · split at h
    next k hk =>
      cases h
      have := unpackLoop_error hk
      simp at this
    next =>
      split at h <;> cases h

theorem runStage_err_mem {i : Instr} {s : State} {r : Except ErrKind State} {ks : List ErrKind} (hok : .none ∈ ks)
    (he : ∀ e, r = .error e → e ∈ ks) : (runStage i s r).err ∈ ks := by
  cases r with
  | ok t => exact hok
  | error e => exact he e rfl

section
variable (s : State)

theorem stageFcount_err : (stageFcount s).err ∈ [ErrKind.none, .ioError] :=
  runStage_err_mem (by decide) fun e h => by simp [runFcount_error h]

theorem stageTbuild_err : (stageTbuild s).err ∈ [ErrKind.none, .sequenceError] :=
  runStage_err_mem (by decide) fun e h => by simp [runTbuild_error h]

theorem stageCgen_err : (stageCgen s).err ∈ [ErrKind.none, .ioError, .sequenceError] :=
  runStage_err_mem (by decide) fun e h => by simpa using Or.inr (runCgen_error h)

theorem stageHser_err : (stageHser s).err ∈ [ErrKind.none, .ioError, .sequenceError] :=
  runStage_err_mem (by decide) fun e h => by simpa using Or.inr (runHser_error h)

theorem stagePack_err : (stagePack s).err ∈ [ErrKind.none, .ioError, .unknownSymbol, .sequenceError] :=
  runStage_err_mem (by decide) fun e h => by simpa using Or.inr (runPack_error h)

theorem stageHdeser_err : (stageHdeser s).err ∈ [ErrKind.none, .ioError, .corruptHeader, .truncatedInput] :=
  runStage_err_mem (by decide) fun e h => by simpa using Or.inr (runHdeser_error h)

theorem stageTrecon_err : (stageTrecon s).err ∈ [ErrKind.none, .corruptHeader, .sequenceError] :=
  runStage_err_mem (by decide) fun e h => by simpa using Or.inr (runTrecon_error h).symm

theorem stageUnpack_err :
    (stageUnpack s).err ∈ [ErrKind.none, .ioError, .corruptPayload, .truncatedInput, .sequenceError] :=
  runStage_err_mem (by decide) fun e h => by rcases runUnpack_error h with rfl | rfl | rfl | rfl <;> decide

end

/-- Under HD_V the pseudocode of TRECON raises CORRUPT_HEADER only. -/
theorem stageTrecon_ne_sequenceError {s : State} (hv : s.valid.hd = true) : (stageTrecon s).err ≠ .sequenceError := by
  rcases stageTrecon_cases s with ⟨t, -, -, -, -, -, h⟩ | ⟨-, -, h⟩ | ⟨hno, -⟩
  · rw [h]; exact ErrKind.noConfusion
  · rw [h]; exact ErrKind.noConfusion
  · rw [hv] at hno; cases hno

/-- Under TRIE_V the pseudocode of UNPACK raises the errors of its loop only. -/
theorem stageUnpack_ne_sequenceError {s : State} (hv : s.valid.trie = true) : (stageUnpack s).err ≠ .sequenceError := by
  unfold stageUnpack
  cases h : runUnpack s with
  | ok t => exact ErrKind.noConfusion
  | error e => exact fun he => runUnpack_ne_sequenceError hv (h.trans (congrArg Except.error he))

theorem compressStages_err (s : State) : (compressStages s).err ∈ [ErrKind.none, .ioError] := by
  rcases compressStages_spec s with ⟨-, -, -, h, -⟩ | ⟨-, h, -⟩ <;> simp [h]

theorem andThen_err_mem {v : Verdict} {f : State → Verdict} {ks : List ErrKind} (hv : v.err ∈ ks)
    (hf : v.err = .none → (f v.st).err ∈ ks) : (v.andThen f).err ∈ ks := by
  unfold Verdict.andThen
  split
  next h => exact hf h
  next => exact hv

/-- HDESER sets the bit TRECON needs and TRECON the one UNPACK needs, so no stage of DECOMPRESS raises SEQUENCE_ERROR
(48_composite.md R306). -/
theorem decompressStages_err (s : State) :
    (decompressStages s).err ∈ [ErrKind.none, .ioError, .corruptHeader, .corruptPayload, .truncatedInput] := by
  refine andThen_err_mem (andThen_err_mem ?parse fun hok => ?build) fun hok => ?unpack
  case parse =>
    have hmem := stageHdeser_err (clearHs s)
    simp only [List.mem_cons] at hmem ⊢
    tauto
  case build =>
    have hhd : (stageHdeser (clearHs s)).st.valid.hd = true := by rw [stageHdeser_valid, decide_eq_true hok]; rfl
    have hne := stageTrecon_ne_sequenceError hhd
    have hmem := stageTrecon_err (stageHdeser (clearHs s)).st
    simp only [List.mem_cons] at hmem ⊢
    tauto
  case unpack =>
    obtain ⟨-, hbuild⟩ := andThen_success hok
    rw [hbuild] at hok ⊢
    have htrie : (stageTrecon (stageHdeser (clearHs s)).st).st.valid.trie = true := by
      rw [stageTrecon_valid, decide_eq_true hok]; rfl
    have hne := stageUnpack_ne_sequenceError htrie
    have hmem := stageUnpack_err (stageTrecon (stageHdeser (clearHs s)).st).st
    simp only [List.mem_cons] at hmem ⊢
    tauto

/-! ### Input beyond IN_CAP -/

theorem runFcount_of_overlong {s : State} (h : inCap s < s.inLen.toNat) : runFcount s = .error .ioError := if_pos h

theorem runHdeser_of_overlong {s : State} (h : inCap s < s.inLen.toNat) : runHdeser s = .error .ioError := if_pos h

theorem runPack_of_overlong {s : State} (hct : s.valid.ct = true) (hhs : s.valid.hs = true) (h : inCap s < s.inLen.toNat) :
    runPack s = .error .ioError := by
  rw [runPack, if_neg (not_not.2 ⟨hct, hhs⟩), if_pos h]

theorem runUnpack_of_overlong {s : State} (hv : s.valid.trie = true) (h : inCap s < s.inLen.toNat) :
    runUnpack s = .error .ioError := by
  rw [runUnpack, if_neg (by simp [hv]), if_pos h]

/-! ### Commands whose pseudocode raises an error -/

section
variable {s : State} {e : ErrKind} (hd : dutiful s) (he : e ≠ .none)
include hd he

theorem exec_fcount_error (h : runFcount s = .error e) :
    ∃ t, exec .fcount s = .next t ∧ finished t e ∧ t.valid = validRow .fcount false s.valid :=
  exec_error (by decide) hd he (by rw [commandVerdict, stageFcount, h, runStage_error])

theorem exec_tbuild_error (h : runTbuild s = .error e) :
    ∃ t, exec .tbuild s = .next t ∧ finished t e ∧ t.valid = validRow .tbuild false s.valid :=
  exec_error (by decide) hd he (by rw [commandVerdict, stageTbuild, h, runStage_error])

theorem exec_cgen_error (h : runCgen s = .error e) :
    ∃ t, exec .cgen s = .next t ∧ finished t e ∧ t.valid = validRow .cgen false s.valid :=
  exec_error (by decide) hd he (by rw [commandVerdict, stageCgen, h, runStage_error])

theorem exec_hser_error (h : runHser s = .error e) :
    ∃ t, exec .hser s = .next t ∧ finished t e ∧ t.valid = validRow .hser false s.valid :=
  exec_error (by decide) hd he (by rw [commandVerdict, closeOutWriter_kind, stageHser, h, runStage_error])

theorem exec_pack_error (h : runPack s = .error e) :
    ∃ t, exec .pack s = .next t ∧ finished t e ∧ t.valid = validRow .pack false s.valid :=
  exec_error (by decide) hd he (by rw [commandVerdict, closeOutWriter_kind, stagePack, h, runStage_error])

theorem exec_hdeser_error (h : runHdeser s = .error e) :
    ∃ t, exec .hdeser s = .next t ∧ finished t e ∧ t.valid = validRow .hdeser false s.valid :=
  exec_error (by decide) hd he (by rw [commandVerdict, stageHdeser, h, runStage_error])

theorem exec_trecon_error (h : runTrecon s = .error e) :
    ∃ t, exec .trecon s = .next t ∧ finished t e ∧ t.valid = validRow .trecon false s.valid :=
  exec_error (by decide) hd he (by rw [commandVerdict, stageTrecon, h, runStage_error])

theorem exec_unpack_error (h : runUnpack s = .error e) :
    ∃ t, exec .unpack s = .next t ∧ finished t e ∧ t.valid = validRow .unpack false s.valid :=
  exec_error (by decide) hd he (by rw [commandVerdict, closeOutWriter_kind, stageUnpack, h, runStage_error])

end

/-- The error a command completes with, its valid bits apart. -/
theorem finished_of_error {o : Host.Outcome State Fault Refusal} {e : ErrKind} {P : State → Prop}
    (h : ∃ t, o = .next t ∧ finished t e ∧ P t) : ∃ t, o = .next t ∧ finished t e :=
  h.imp fun _ ⟨ht, hfin, _⟩ => ⟨ht, hfin⟩

end Sys2Proof.Machine

open Sys2Proof Sys2Proof.Machine

/-- Settles O11: the stages' rows one by one; a composite's success leaves what its last stages set. -/
theorem validBitsFollowKillAndGen : Obligations.ValidBitsFollowKillAndGen := by
  intro i s t hd h
  cases i with
  | compress => exact exec_compress_valid hd h
  | decompress => exact exec_decompress_valid hd h
  | nop | clear | fcount | tbuild | cgen | hser | pack | hdeser | trecon | unpack => exact exec_valid (by decide) hd h

/-- Settles O12: an OUT-writer's error loses OUT, and HS_V is in the kill set of a stage it ran. -/
theorem failedOutWriterLosesOutput : Obligations.FailedOutWriterLosesOutput := by
  intro i s t hd hi h hne
  rw [exec_errcode hd h] at hne
  rw [exec_dutiful i hd] at h
  cases h
  exact ⟨outWriter_error_outLen hi hne, outWriter_error_hs hi hne⟩

/-- Settles O13: each stage's errors, and the composites' stages in their order. -/
theorem errorKindsPerCommand : Obligations.ErrorKindsPerCommand := by
  intro i s t hd _ h
  rw [exec_errcode hd h]
  cases i with
  | nop | clear => exact List.mem_singleton.2 rfl
  | fcount => exact stageFcount_err s
  | tbuild => exact stageTbuild_err s
  | cgen => exact stageCgen_err s
  | hdeser => exact stageHdeser_err s
  | trecon => exact stageTrecon_err s
  | hser => rw [commandVerdict, closeOutWriter_kind]; exact stageHser_err s
  | pack => rw [commandVerdict, closeOutWriter_kind]; exact stagePack_err s
  | unpack => rw [commandVerdict, closeOutWriter_kind]; exact stageUnpack_err s
  | compress => rw [commandVerdict, closeOutWriter_kind]; exact compressStages_err s
  | decompress => rw [commandVerdict, closeOutWriter_kind]; exact decompressStages_err s

/-- Settles O14: each pseudocode tests its precondition first. -/
theorem failedPreconditionIsSequenceError : Obligations.FailedPreconditionIsSequenceError := by
  refine fun s hd => ⟨fun hno => ?tbuild, fun htree hno => ?cgen, fun hct => ?hser, fun hno => ?pack, fun hhd => ?trecon,
    fun htrie => ?unpack⟩
  case tbuild => exact exec_tbuild_error hd (by decide) (if_pos hno)
  case cgen => exact exec_cgen_error hd (by decide) (by rw [runCgen, if_neg (by simp [htree]), if_neg hno])
  case hser => exact exec_hser_error hd (by decide) (if_pos hct)
  case pack => exact exec_pack_error hd (by decide) (if_pos hno)
  case trecon => exact exec_trecon_error hd (by decide) (if_pos hhd)
  case unpack => exact exec_unpack_error hd (by decide) (if_pos htrie)

/-- Settles O15: every pseudocode that reads IN tests IN_LEN before any byte. -/
theorem overlongInputIsIoError : Obligations.OverlongInputIsIoError := by
  intro i s hd h hi
  have hio : ErrKind.ioError ≠ .none := by decide
  rcases hi with rfl | rfl | rfl | rfl | ⟨rfl, hct, hhs⟩ | ⟨rfl, htrie⟩
  · exact finished_of_error (exec_fcount_error hd hio (runFcount_of_overlong h))
  · exact finished_of_error (exec_hdeser_error hd hio (runHdeser_of_overlong h))
  · exact exec_compress_of_not_fits hd fun hfits => Nat.not_le.2 h hfits.1
  · exact exec_decompress_of_hdeser_error hd hio (runHdeser_of_overlong (s := clearHs s) h)
  · exact finished_of_error (exec_pack_error hd hio (runPack_of_overlong hct hhs h))
  · exact finished_of_error (exec_unpack_error hd hio (runUnpack_of_overlong htrie h))

/-- Settles O17: CLEAR succeeds on its reset values, and kills every valid bit. -/
theorem clearResetsTheEngine : Obligations.ClearResetsTheEngine := by
  intro s hd
  have ht := exec_clear hd
  have hvalid := exec_valid_of_success (by decide) hd ht rfl
  refine ⟨_, ht, ⟨rfl, rfl, rfl⟩, statusWord_of_success ⟨rfl, rfl, rfl⟩ hvalid rfl, exec_keepsInputSide ht, fun a => rfl,
    fun b => ?_, rfl, rfl, rfl, rfl, rfl, rfl, rfl, rfl, hvalid⟩
  simp [clearState, clen, dclen]

end

section
/-! PROOFS. What the valid bits mean, and that every step of a host that keeps its duty keeps it (10_state.md R34, R36;
40_command_model.md R154). -/

namespace Sys2Proof.Machine

/-! ### The meaning of each bit -/

/-- FT_V: NSYM counts the counted symbols, whose ranks are distinct. -/
def CountsMean (s : State) : Prop :=
  s.nsym.toNat = (allSymbols.filter fun b => s.freq.read b != 0).length ∧ ranksDistinct s

/-- TREE_V: the counts stand, and TREE is their merge. -/
def TreeMeans (s : State) : Prop := s.valid.ft = true ∧ ∀ q, leavesOf s q → MergesTo 0 q s.tree

/-- CT_V: the counts stand, and CODE and VBC are the code table of TREE, or of no symbols. -/
def CodesMean (s : State) : Prop :=
  s.valid.ft = true ∧ (∀ b, s.freq.read b ≠ 0 ↔ s.code.read b ≠ []) ∧
    s.vbc.toNat = (allSymbols.map fun b => (s.freq.read b).toNat * (s.code.read b).length).sum ∧ prefixFree s.code ∧
    (s.valid.tree = true → codesOfTree s.tree s.code) ∧ (s.valid.tree = false → s.nsym = 0)

/-- HS_V: the code table stands, and OUT holds its header. -/
def HeaderMeans (s : State) : Prop := s.valid.ct = true ∧ keptHeader s = encoderHeader s

/-- TRIE_V: the parsed header stands, and TRIE holds its codes. -/
def TrieMeans (s : State) : Prop := s.valid.hd = true ∧ trieHolds s.trie s.dcode ∧ prefixFree s.dcode

/-- `Current`, bit by bit. -/
structure BitsMean (s : State) : Prop where
  outLen : s.outLen.toNat ≤ outCap s
  ft : s.valid.ft = true → CountsMean s
  tree : s.valid.tree = true → TreeMeans s
  ct : s.valid.ct = true → CodesMean s
  hs : s.valid.hs = true → HeaderMeans s
  trie : s.valid.trie = true → TrieMeans s

theorem current_iff_bitsMean (s : State) : Current s ↔ BitsMean s := by
  constructor
  · intro h
    exact
      { outLen := h.outLen
        ft := h.ftCounts
        tree := fun hb => ⟨h.treeNeedsFt hb, h.treeMerged hb⟩
        ct := fun hb => ⟨h.ctNeedsFt hb, h.ctCoded hb, h.ctVbc hb, h.ctPrefixFree hb, h.ctTree hb, h.ctEmpty hb⟩
        hs := fun hb => ⟨h.hsNeedsCt hb, h.hsHeader hb⟩
        trie := fun hb => ⟨h.trieNeedsHd hb, h.trieCodes hb⟩ }
  · rintro ⟨outLen, ftCounts, htree, hct, hhs, htrie⟩
    simp only [TreeMeans, CodesMean, HeaderMeans, TrieMeans, imp_and] at htree hct hhs htrie
    obtain ⟨treeNeedsFt, treeMerged⟩ := htree
    obtain ⟨ctNeedsFt, ctCoded, ctVbc, ctPrefixFree, ctTree, ctEmpty⟩ := hct
    obtain ⟨hsNeedsCt, hsHeader⟩ := hhs
    obtain ⟨trieNeedsHd, trieHeld, trieFree⟩ := htrie
    exact ⟨outLen, ftCounts, treeNeedsFt, treeMerged, ctNeedsFt, ctCoded, ctVbc, ctPrefixFree, ctTree, ctEmpty, hsNeedsCt,
      hsHeader, trieNeedsHd, fun hb => ⟨trieHeld hb, trieFree hb⟩⟩

/-- A bit that is clear means nothing. -/
theorem means_of_clear {P : Prop} {b : Bool} (hb : b = false) : b = true → P := fun h => absurd (hb ▸ h) Bool.false_ne_true

/-- With every bit clear there is nothing to mean. -/
theorem bitsMean_of_empty {s : State} (hout : s.outLen = 0) (hv : s.valid = ValidBits.empty) : BitsMean s := by
  refine ⟨?_, means_of_clear ?_, means_of_clear ?_, means_of_clear ?_, means_of_clear ?_, means_of_clear ?_⟩
  · rw [hout]; exact Nat.zero_le _
  all_goals rw [hv]; rfl

/-- A stage that succeeds sets the bits of its row. -/
theorem stageOk_eq (i : Instr) (s t : State) : stageOk i s t = { t with valid := validRow i true s.valid } := by
  rw [stageOk, diff_union_genSet]

/-- A stage that fails clears the bits of its row. -/
theorem stageErr_eq (i : Instr) (s : State) : stageErr i s = { spoil i s with valid := validRow i false s.valid } := by
  rw [stageErr, diff_killSet]

/-! ### Trees and their codes -/

/-- The merges keep the leaves. -/
theorem MergesTo.leaves {j : Nat} {q : List Node} {r : Node} (h : MergesTo j q r) :
    (nodeLeaves r).Perm (q.flatMap nodeLeaves) := by
  induction h with
  | root j n => rw [List.flatMap_singleton]
  | merge j q rest x y root split _ _ _ ih =>
    refine ih.trans (List.Perm.trans ?_ (split.flatMap_right nodeLeaves).symm)
    simp [nodeLeaves]

/-- TBUILD's loop on leaves of distinct ranks follows the merge rule from any list of them. -/
theorem mergesTo_of_built {s : State} {r : Node} (hranks : ranksDistinct s)
    (hr : mergeAll (countedLeaves s).length 0 (countedLeaves s) = some r) : ∀ q, leavesOf s q → MergesTo 0 q r := by
  intro q hq
  have hne : countedLeaves s ≠ [] := fun hnil => by rw [hnil] at hr; cases hr
  obtain ⟨r', hr', hm⟩ := mergeAll_mergesTo _ 0 _ hne (Nat.le_succ _) (keysOk_countedLeaves hranks)
  obtain rfl : r = r' := Option.some.inj (hr.symm.trans hr')
  exact hm.perm (leavesOf_perm hq)

/-- The symbols at the leaves of a merged tree: the counted ones, each once. -/
theorem TreeMeans.symbols {s : State} (h : TreeMeans s) :
    (nodeSymbols s.tree).Perm (allSymbols.filter fun b => s.freq.read b != 0) := by
  have hleaves := (h.2 _ (leavesOf_countedLeaves s)).leaves
  rw [nodeLeaves_countedLeaves] at hleaves
  rw [nodeSymbols_eq, ← symbols_countedLeaves]
  exact hleaves.flatMap_right _

theorem TreeMeans.nodup_symbols {s : State} (h : TreeMeans s) : (nodeSymbols s.tree).Nodup :=
  h.symbols.nodup_iff.2 (nodup_allSymbols.filter _)

theorem TreeMeans.mem_symbols {s : State} (h : TreeMeans s) (b : Byte) : b ∈ nodeSymbols s.tree ↔ s.freq.read b ≠ 0 := by
  simp [h.symbols.mem_iff]

/-- On a tree with distinct symbols, CGEN's table is the table of its leaves' paths. -/
theorem codesOfTree_codesOf {n : Node} (h : (nodeSymbols n).Nodup) : codesOfTree n (codesOf n) := by
  cases n with
  | leaf b f k => intro x; simp [codesOf, Table.read_write]
  | internal f k l r => exact codesOf_internal h

/-- With NSYM = 0 no symbol is counted. -/
theorem CountsMean.freq_eq_zero {s : State} (h : CountsMean s) (hn : s.nsym = 0) (b : Byte) : s.freq.read b = 0 := by
  have hnil : (allSymbols.filter fun b => s.freq.read b != 0) = [] := by
    rw [← List.length_eq_zero_iff, ← h.1, hn]
    rfl
  simpa using List.filter_eq_nil_iff.1 hnil b (mem_allSymbols b)

/-! ### The header PACK keeps -/

@[simp] theorem length_keptHeader (s : State) : (keptHeader s).length = s.hdrLen.toNat := by simp [keptHeader]

/-- PACK's result begins with the bytes OUT held below HDR_LEN. -/
theorem outByte_writeOut_keptHeader (s : State) (pay : List Byte) {a : Nat} (ha : a < s.hdrLen.toNat) :
    outByte (writeOut (keptHeader s ++ pay) s) a = outByte s a := by
  have hlt : a < (keptHeader s).length := by rw [length_keptHeader]; exact ha
  rw [outByte_writeOut _ _ (by rw [List.length_append]; omega), List.getElem_append_left hlt]
  simp [keptHeader]

/-! ### Stages -/

namespace BitsMean

section
variable {s : State}

theorem stageFcount (h : BitsMean s) : BitsMean (stageFcount s).st := by
  rcases stageFcount_cases s with ⟨hfits, hst⟩ | ⟨-, hst⟩
  · obtain ⟨-, hc⟩ := stageFcount_counted hfits
    have hl := length_inputBytes_lt s
    have hcounts : CountsMean (Machine.stageFcount s).st :=
      ⟨hc.nsym_eq_length_filter hl, ranksDistinct_of_counts hl hc.freq hc.rank⟩
    rw [hst, stageOk_eq] at hcounts ⊢
    exact ⟨h.outLen, fun _ => hcounts, means_of_clear rfl, means_of_clear rfl, means_of_clear rfl, h.trie⟩
  · rw [hst, stageErr_eq]
    exact ⟨h.outLen, means_of_clear rfl, means_of_clear rfl, means_of_clear rfl, means_of_clear rfl, h.trie⟩

theorem stageTbuild (h : BitsMean s) : BitsMean (stageTbuild s).st := by
  rcases stageTbuild_cases s with ⟨r, hft, -, hr, hst⟩ | ⟨hft, hpos, hq, -⟩ | ⟨-, hst⟩
  · have hmerge := mergesTo_of_built (h.ft hft).2 hr
    rw [hst, stageOk_eq]
    exact ⟨h.outLen, h.ft, fun _ => ⟨hft, hmerge⟩, means_of_clear rfl, means_of_clear rfl, h.trie⟩
  · have hn := (h.ft hft).1
    rw [← length_countedLeaves, hq] at hn
    simp [hn] at hpos
  · rw [hst, stageErr_eq]
    exact ⟨h.outLen, h.ft, means_of_clear rfl, means_of_clear rfl, means_of_clear rfl, h.trie⟩

/-- The code table CGEN makes in either mode codes exactly the counted symbols, prefix-free. -/
theorem cgenTable (h : BitsMean s) {c : Table Bits}
    (hc : (s.valid.tree = true ∧ c = codesOf s.tree) ∨
      (s.valid.tree = false ∧ s.valid.ft = true ∧ s.nsym = 0 ∧ c = Table.fill [])) :
    s.valid.ft = true ∧ (∀ b, s.freq.read b ≠ 0 ↔ c.read b ≠ []) ∧ prefixFree c ∧
      (s.valid.tree = true → codesOfTree s.tree c) ∧ (s.valid.tree = false → s.nsym = 0) := by
  rcases hc with ⟨htree, rfl⟩ | ⟨htree, hft, hn, rfl⟩
  · have hmeans := h.tree htree
    refine ⟨hmeans.1, fun b => ?_, prefixFree_codesOf _, fun _ => codesOfTree_codesOf hmeans.nodup_symbols,
      fun hb => by rw [htree] at hb; cases hb⟩
    rw [codesOf_ne_nil, hmeans.mem_symbols]
  · refine ⟨hft, fun b => ?_, prefixFree_fill, means_of_clear htree, fun _ => hn⟩
    simp [(h.ft hft).freq_eq_zero hn b]

theorem stageCgen (h : BitsMean s) : BitsMean (stageCgen s).st := by
  rcases stageCgen_cases s with ⟨c, hc, hw, hst⟩ | ⟨c, -, -, hst⟩ | ⟨-, -, hst⟩
  · obtain ⟨hft, hcoded, hfree, htree, hempty⟩ := h.cgenTable hc
    rw [hst, stageOk_eq]
    exact ⟨h.outLen, h.ft, h.tree,
      fun _ => ⟨hft, hcoded, toNat_ofNat_of_lt (Nat.lt_of_le_of_lt hw (by decide)), hfree, htree, hempty⟩,
      means_of_clear rfl, h.trie⟩
  · rw [hst, stageErr_eq]
    exact ⟨h.outLen, h.ft, h.tree, means_of_clear rfl, means_of_clear rfl, h.trie⟩
  · rw [hst, stageErr_eq]
    exact ⟨h.outLen, h.ft, h.tree, means_of_clear rfl, means_of_clear rfl, h.trie⟩

theorem stageHser (h : BitsMean s) : BitsMean (stageHser s).st := by
  have hfail : BitsMean (Machine.stageErr .hser s) := by
    rw [stageErr_eq]
    exact ⟨h.outLen, h.ft, h.tree, h.ct, means_of_clear rfl, h.trie⟩
  rcases stageHser_cases s with ⟨hct, hfits, hst⟩ | ⟨-, -, hst⟩ | ⟨-, hst⟩
  · have hlt : (encoderHeader s).length < 2 ^ 32 := Nat.lt_of_le_of_lt hfits s.outCapR.isLt
    have hout : (writeOut (encoderHeader s) s).outLen.toNat ≤ outCap s := by rw [toNat_outLen_writeOut hfits]; exact hfits
    have hkept : (List.range (BitVec.ofNat 32 (encoderHeader s).length).toNat).map (outByte (writeOut (encoderHeader s) s)) =
        encoderHeader s := by
      rw [toNat_ofNat_of_lt hlt]
      exact range_outByte_writeOut _ s
    rw [hst, stageOk_eq]
    exact ⟨hout, h.ft, h.tree, h.ct, fun _ => ⟨hct, hkept⟩, h.trie⟩
  · rw [hst]; exact hfail
  · rw [hst]; exact hfail

theorem stagePack (h : BitsMean s) : BitsMean (stagePack s).st := by
  rcases stagePack_cases s with ⟨hct, hhs, -, -, hbits, hfits, hst⟩ | ⟨e, -, hst⟩
  · generalize hpay : packMsb (codeStream s.code (inputBytes s)) = pay at hst
    have hlen : (keptHeader s ++ pay).length ≤ outCap s := by
      rw [List.length_append, length_keptHeader, ← hpay, length_packMsb, hbits]
      exact hfits
    have hout : (writeOut (keptHeader s ++ pay) s).outLen.toNat ≤ outCap s := by rw [toNat_outLen_writeOut hlen]; exact hlen
    have hkept : keptHeader (writeOut (keptHeader s ++ pay) s) = keptHeader s :=
      List.map_congr_left fun a ha => outByte_writeOut_keptHeader s pay (List.mem_range.1 ha)
    rw [hst, stageOk_eq]
    exact ⟨hout, h.ft, h.tree, h.ct, fun _ => ⟨hct, hkept.trans (h.hs hhs).2⟩, h.trie⟩
  · rw [hst, stageErr_eq]
    exact ⟨h.outLen, h.ft, h.tree, h.ct, means_of_clear rfl, h.trie⟩

theorem stageHdeser (h : BitsMean s) : BitsMean (stageHdeser s).st := by
  rcases stageHdeser_cases s with ⟨es, v, pay, -, -, -, -, -, hst⟩ | ⟨e, -, hst⟩
  · rw [hst, stageOk_eq]
    exact ⟨h.outLen, h.ft, h.tree, h.ct, h.hs, means_of_clear rfl⟩
  · rw [hst, stageErr_eq]
    exact ⟨h.outLen, h.ft, h.tree, h.ct, h.hs, means_of_clear rfl⟩

theorem stageTrecon (h : BitsMean s) : BitsMean (stageTrecon s).st := by
  rcases stageTrecon_cases s with ⟨t, hhd, hfree, hholds, -, -, hst⟩ | ⟨-, -, hst⟩ | ⟨-, hst⟩
  · rw [hst, stageOk_eq]
    exact ⟨h.outLen, h.ft, h.tree, h.ct, h.hs, fun _ => ⟨hhd, hholds, hfree⟩⟩
  · rw [hst, stageErr_eq]
    exact ⟨h.outLen, h.ft, h.tree, h.ct, h.hs, means_of_clear rfl⟩
  · rw [hst, stageErr_eq]
    exact ⟨h.outLen, h.ft, h.tree, h.ct, h.hs, means_of_clear rfl⟩

theorem stageUnpack (h : BitsMean s) : BitsMean (stageUnpack s).st := by
  rcases stageUnpack_cases s with ⟨out, -, -, hloop, hst⟩ | ⟨e, -, hst⟩
  · have hlen : out.length ≤ outCap s := (unpackLoop_length hloop).2 (Nat.zero_le _)
    have hout : (writeOut out s).outLen.toNat ≤ outCap s := by rw [toNat_outLen_writeOut hlen]; exact hlen
    rw [hst, stageOk_eq]
    exact ⟨hout, h.ft, h.tree, h.ct, means_of_clear rfl, h.trie⟩
  · rw [hst, stageErr_eq]
    exact ⟨h.outLen, h.ft, h.tree, h.ct, means_of_clear rfl, h.trie⟩

/-! ### Commands -/

/-- Losing OUT takes nothing but a header in it. -/
theorem loseOutput (h : BitsMean s) (hhs : s.valid.hs = false) : BitsMean (loseOutput s) :=
  ⟨Nat.zero_le _, h.ft, h.tree, h.ct, means_of_clear hhs, h.trie⟩

theorem closeOutWriter {v : Verdict} (h : BitsMean v.st) (hhs : v.err ≠ .none → v.st.valid.hs = false) :
    BitsMean (closeOutWriter v).st := by
  by_cases hv : v.err = .none
  · rw [closeOutWriter_ok hv]; exact h
  · rw [closeOutWriter_err hv]; exact h.loseOutput (hhs hv)

theorem stageTbuildUnlessEmpty (h : BitsMean s) : BitsMean (stageTbuildUnlessEmpty s).st := by
  unfold Machine.stageTbuildUnlessEmpty
  split
  · exact h.stageTbuild
  · exact h

theorem compressStages (h : BitsMean s) : BitsMean (compressStages s).st :=
  andThen_keeps (andThen_keeps (andThen_keeps (andThen_keeps h.stageFcount fun _ hs => hs.stageTbuildUnlessEmpty)
    fun _ hs => hs.stageCgen) fun _ hs => hs.stageHser) fun _ hs => hs.stagePack

theorem clearHs (h : BitsMean s) : BitsMean (clearHs s) :=
  ⟨h.outLen, h.ft, h.tree, h.ct, means_of_clear rfl, h.trie⟩

theorem decompressStages (h : BitsMean s) : BitsMean (decompressStages s).st :=
  andThen_keeps (andThen_keeps h.clearHs.stageHdeser fun _ hs => hs.stageTrecon) fun _ hs => hs.stageUnpack

/-- An OUT-writer's stages that fail have cleared HS_V. -/
theorem outWriter {i : Instr} {v : Verdict} (h : BitsMean v.st) (hi : i ∈ [.hser, .pack, .unpack, .compress, .decompress])
    (hv : commandVerdict i s = Machine.closeOutWriter v) : BitsMean (commandVerdict i s).st := by
  have hhs : v.err ≠ .none → v.st.valid.hs = false := by
    intro he
    rw [← closeOutWriter_valid, ← hv]
    exact outWriter_error_hs hi (by rw [hv, closeOutWriter_kind]; exact he)
  rw [hv]
  exact h.closeOutWriter hhs

theorem commandVerdict (h : BitsMean s) (i : Instr) : BitsMean (commandVerdict i s).st := by
  cases i with
  | nop => exact h
  | clear =>
    rw [Machine.commandVerdict, runStage_ok, stageOk_eq]
    exact bitsMean_of_empty rfl rfl
  | fcount => exact h.stageFcount
  | tbuild => exact h.stageTbuild
  | cgen => exact h.stageCgen
  | hdeser => exact h.stageHdeser
  | trecon => exact h.stageTrecon
  | hser => exact h.stageHser.outWriter (by decide) rfl
  | pack => exact h.stagePack.outWriter (by decide) rfl
  | unpack => exact h.stageUnpack.outWriter (by decide) rfl
  | compress => exact h.compressStages.outWriter (by decide) rfl
  | decompress => exact h.decompressStages.outWriter (by decide) rfl

end

end BitsMean

/-! ### Completion, and the host's accesses -/

/-- `s`, with all that the valid bits do not speak of as in `x`. -/
abbrev withRest (x s : State) : State :=
  { x with
    outCapR := s.outCapR
    valid := s.valid
    outLen := s.outLen
    nsym := s.nsym
    vbc := s.vbc
    hdrLen := s.hdrLen
    freq := s.freq
    rank := s.rank
    code := s.code
    tree := s.tree
    dcode := s.dcode
    trie := s.trie
    outBuf := s.outBuf }

theorem BitsMean.of_rest {s t : State} (h : BitsMean s) (ht : t = withRest t s) : BitsMean t := by
  rw [ht]
  exact ⟨h.outLen, h.ft, h.tree, h.ct, h.hs, h.trie⟩

theorem BitsMean.engineStep {s t : State} (h : BitsMean s) (hd : dutiful s) (hs : engineStep s = .next t) : BitsMean t := by
  rcases engineStep_cases s with ⟨i, -, hexec⟩ | ⟨e, -, hillegal⟩
  · rw [hexec, exec_dutiful i hd] at hs
    cases hs
    exact (h.commandVerdict i).of_rest rfl
  · rw [hillegal, completeIllegal, complete_dutiful _ _ hd] at hs
    cases hs
    exact h.of_rest rfl

theorem breakDuty_rest (s t : State) (h : t = withRest t s) : breakDuty t = withRest (breakDuty t) s := by
  unfold breakDuty
  split
  · rw [h]
  · exact h

theorem writeReg_rest (s : State) (v : Word) (r : Reg) : writeReg s v r = withRest (writeReg s v r) s := by
  cases r with
  | cmd =>
    rw [writeReg, writeCmd]
    split <;> rfl
  | inLen => exact breakDuty_rest s { s with inLen := v } rfl
  | _ => rfl

/-- No host access but reset touches what the valid bits speak of. -/
theorem hostAccess_rest {e : HostEvent} (he : e ≠ .reset) (s : State) : hostAccess e s = withRest (hostAccess e s) s := by
  cases e with
  | reset => exact absurd rfl he
  | regRead | inRead | outRead | outWrite | wait => rfl
  | regWrite off bits v =>
    rw [hostAccess]
    split
    · exact writeReg_rest s v _
    · rfl
  | inWrite i v =>
    rw [hostAccess, writeIn]
    refine breakDuty_rest s _ ?_
    split <;> rfl

theorem BitsMean.hostStep {s : State} (h : BitsMean s) (e : HostEvent) (rest : List HostEvent) :
    BitsMean (hostStep e rest s) := by
  by_cases he : e = .reset
  · rw [he]; exact bitsMean_of_empty rfl rfl
  · exact BitsMean.of_rest (s := { s with host := remaining e s.busy rest, latency := s.latency - 1 }) (h.of_rest rfl)
      (hostAccess_rest he _)

/-! ### Reset -/

theorem inv_reset : Inv State.reset :=
  StoreOk.inv (storeOk_resetAt (d := 0) capsOk_reset) (fun hb => absurd hb Bool.false_ne_true) fun _ => ⟨rfl, rfl⟩

end Sys2Proof.Machine

open Sys2Proof.Machine

/-- Settles O50: the capacities lie in their ranges, the free values are well formed, and no bit is set. -/
theorem resetMeetsTheInvariants : Obligations.ResetMeetsTheInvariants :=
  ⟨inv_reset, (current_iff_bitsMean _).2 (bitsMean_of_empty rfl rfl)⟩

/-- Settles O51: each stage keeps the meaning of the bits it leaves set, and the host's accesses write none of what they
speak of. -/
theorem stepKeepsTheMeaningOfTheValidBits : Obligations.StepKeepsTheMeaningOfTheValidBits := by
  intro s t hd _ h hstep
  rw [current_iff_bitsMean] at h ⊢
  rcases step_cases hstep with ⟨-, -, hengine⟩ | ⟨e, rest, -, -, rfl⟩ | ⟨-, -, rfl⟩
  · exact h.engineStep hd hengine
  · exact h.hostStep e rest
  · exact h

end

section
/-! PROOFS. What each command leaves unchanged, whatever its outcome, a broken duty included (30_encoding.md R113,
40_command_model.md R155 (e), 70_reset_and_hazards.md R370). -/

namespace Sys2Proof.Machine

/-! ### OUT-writers -/

/-- The registers, tables and bits that lie outside OUT. -/
abbrev tableSide (s : State) := (countSide s, codeSide s, headerSide s, s.tree, s.trie, s.lost, s.hdrLen)

theorem tableSide_closeOutWriter (v : Verdict) : tableSide (closeOutWriter v).st = tableSide v.st := by
  unfold closeOutWriter
  split <;> rfl

/-- What HSER, PACK and UNPACK all keep, and HDR_LEN but for HSER. -/
def KeptByOutWriter (i : Instr) (s t : State) : Prop :=
  countSide t = countSide s ∧ codeSide t = codeSide s ∧ headerSide t = headerSide s ∧ t.tree = s.tree ∧ t.trie = s.trie ∧
    t.lost = s.lost ∧ (i ≠ .hser → t.hdrLen = s.hdrLen)

theorem KeptByOutWriter.closeOutWriter {i : Instr} {s : State} {v : Verdict} (h : KeptByOutWriter i s v.st) :
    KeptByOutWriter i s (closeOutWriter v).st := by
  have hside := tableSide_closeOutWriter v
  simp only [Prod.mk.injEq] at hside
  simp only [KeptByOutWriter, Prod.mk.injEq, hside] at h ⊢
  exact h

theorem commandVerdict_keptByOutWriter {i : Instr} (hi : i ∈ [.hser, .pack, .unpack]) (s : State) :
    KeptByOutWriter i s (commandVerdict i s).st := by
  simp only [List.mem_cons, List.not_mem_nil, or_false] at hi
  rcases hi with rfl | rfl | rfl
  · obtain ⟨-, hcounts, hcodes, hheader, htree, htrie, hlost, -⟩ := stageHser_frame s
    exact KeptByOutWriter.closeOutWriter ⟨hcounts, hcodes, hheader, htree, htrie, hlost, fun h => absurd rfl h⟩
  · obtain ⟨-, hcounts, hcodes, hheader, htree, htrie, hhdr, hlost, -⟩ := stagePack_frame s
    exact KeptByOutWriter.closeOutWriter ⟨hcounts, hcodes, hheader, htree, htrie, hlost, fun _ => hhdr⟩
  · obtain ⟨-, hcounts, hcodes, hheader, htree, htrie, hhdr, hlost, -⟩ := stageUnpack_frame s
    exact KeptByOutWriter.closeOutWriter ⟨hcounts, hcodes, hheader, htree, htrie, hlost, fun _ => hhdr⟩

/-- A successful PACK keeps OUT below HDR_LEN. -/
theorem exec_pack_outByte {s t : State} (hd : dutiful s) (h : exec .pack s = .next t) (hok : t.errcode = .none) {a : Nat}
    (ha : a < s.hdrLen.toNat) : outByte t a = outByte s a := by
  rw [exec_pack hd] at h
  cases h
  rcases stagePack_cases s with ⟨-, -, -, -, -, -, hst⟩ | ⟨e, he, hst⟩
  · rw [hst, closeOutWriter_ok rfl]
    exact outByte_writeOut_keptHeader s _ ha
  · rw [hst] at hok
    obtain rfl : e = .none := (closeOutWriter_kind _).symm.trans hok
    simp at he

/-! ### Composites -/

theorem decompressSide_settled_closeOutWriter (v : Verdict) :
    decompressSide (settled (closeOutWriter v)) = decompressSide v.st := by
  unfold closeOutWriter
  split <;> rfl

theorem exec_decompress_keeps {s t : State} (hd : dutiful s) (h : exec .decompress s = .next t) :
    decompressSide t = decompressSide (clearHs s) := by
  rw [exec_decompress hd] at h
  cases h
  rw [decompressSide_settled_closeOutWriter, decompressStages_frame]

/-! ### A broken duty -/

theorem breakDuty_of_busy {s : State} (h : s.busy = true) : breakDuty s = { s with tainted := true } := if_pos h

theorem writeIn_below_of_busy {s : State} {a : Nat} (v : Byte) (hb : s.busy = true) (ha : a < inCap s) :
    writeIn s a v = { s with inBuf := s.inBuf.write a v, tainted := true } := by
  rw [writeIn, if_pos ha]
  exact breakDuty_of_busy hb

theorem writeIn_beyond_of_busy {s : State} {a : Nat} (v : Byte) (hb : s.busy = true) (ha : inCap s ≤ a) :
    writeIn s a v = { s with tainted := true } := by
  rw [writeIn, if_neg (Nat.not_lt.2 ha)]
  exact breakDuty_of_busy hb

end Sys2Proof.Machine

open Sys2Proof Sys2Proof.Machine

/-- Settles O45: by the frame of each stage. -/
theorem encoderStagesFrame : Obligations.EncoderStagesFrame := by
  intro i s t hd hi h
  have hinput := exec_keepsInputSide h
  simp only [List.mem_cons, List.not_mem_nil, or_false] at hi
  rcases hi with rfl | rfl | rfl
  · have hvalid := exec_valid (by decide) hd h
    rw [exec_fcount hd] at h
    cases h
    obtain ⟨-, hout, hcodes, hheader, htree, htrie, hhdr, hlost, -⟩ := stageFcount_frame s
    exact ⟨hinput, keepsOut_of hout, hlost, hhdr, keepsHeader_of hheader, htrie, by rw [keepsDecoderBits, hvalid]; exact ⟨rfl, rfl⟩,
      fun hne => absurd rfl hne, fun _ => htree, fun _ => keepsCodes_of hcodes⟩
  · have hvalid := exec_valid (by decide) hd h
    rw [exec_tbuild hd] at h
    cases h
    obtain ⟨-, hout, hcounts, hcodes, hheader, htrie, hhdr, hlost, -⟩ := stageTbuild_frame s
    exact ⟨hinput, keepsOut_of hout, hlost, hhdr, keepsHeader_of hheader, htrie, by rw [keepsDecoderBits, hvalid]; exact ⟨rfl, rfl⟩,
      fun _ => keepsCounts_of hcounts, fun hne => absurd rfl hne, fun _ => keepsCodes_of hcodes⟩
  · have hvalid := exec_valid (by decide) hd h
    rw [exec_cgen hd] at h
    cases h
    obtain ⟨-, hout, hcounts, hheader, htree, htrie, hhdr, hlost, -⟩ := stageCgen_frame s
    exact ⟨hinput, keepsOut_of hout, hlost, hhdr, keepsHeader_of hheader, htrie, by rw [keepsDecoderBits, hvalid]; exact ⟨rfl, rfl⟩,
      fun _ => keepsCounts_of hcounts, fun _ => htree, fun hne => absurd rfl hne⟩

/-- Settles O46: by the frame of each stage. -/
theorem decoderStagesFrame : Obligations.DecoderStagesFrame := by
  intro i s t hd hi h
  have hinput := exec_keepsInputSide h
  simp only [List.mem_cons, List.not_mem_nil, or_false] at hi
  rcases hi with rfl | rfl
  · have hvalid := exec_valid (by decide) hd h
    rw [exec_hdeser hd] at h
    cases h
    obtain ⟨-, hout, hcounts, hcodes, htree, htrie, hhdr, hlost, -⟩ := stageHdeser_frame s
    exact ⟨hinput, keepsOut_of hout, hlost, keepsCounts_of hcounts, htree, keepsCodes_of hcodes, hhdr,
      by rw [keepsEncoderBits, hvalid]; exact ⟨rfl, rfl, rfl, rfl⟩, fun hne => absurd rfl hne, fun _ => htrie⟩
  · have hvalid := exec_valid (by decide) hd h
    rw [exec_trecon hd] at h
    cases h
    obtain ⟨-, hout, hcounts, hcodes, hheader, htree, hhdr, hlost, -⟩ := stageTrecon_frame s
    exact ⟨hinput, keepsOut_of hout, hlost, keepsCounts_of hcounts, htree, keepsCodes_of hcodes, hhdr,
      by rw [keepsEncoderBits, hvalid]; exact ⟨rfl, rfl, rfl, rfl⟩,
      fun _ => ⟨keepsHeader_of hheader, by rw [hvalid]; rfl⟩, fun hne => absurd rfl hne⟩

/-- Settles O47: by the common frame of the OUT-writers; PACK's result begins with the bytes it keeps. -/
theorem outWritersFrame : Obligations.OutWritersFrame := by
  intro i s t hd hi h
  have hinput := exec_keepsInputSide h
  have hpack : i = .pack → t.errcode = .none → ∀ a, a < s.hdrLen.toNat → outByte t a = outByte s a := by
    rintro rfl hok a ha
    exact exec_pack_outByte hd h hok ha
  have hvalid : t.valid.hd = s.valid.hd ∧ t.valid.trie = s.valid.trie ∧ t.valid.ft = s.valid.ft ∧
      t.valid.tree = s.valid.tree ∧ t.valid.ct = s.valid.ct := by
    simp only [List.mem_cons, List.not_mem_nil, or_false] at hi
    rcases hi with rfl | rfl | rfl <;> rw [exec_valid (by decide) hd h] <;> exact ⟨rfl, rfl, rfl, rfl, rfl⟩
  obtain ⟨hhd, htrieBit, hft, htreeBit, hct⟩ := hvalid
  obtain ⟨hcounts, hcodes, hheader, htree, htrie, hlost, hhdr⟩ := commandVerdict_keptByOutWriter hi s
  rw [exec_dutiful i hd] at h
  cases h
  exact ⟨hinput, hlost, keepsCounts_of hcounts, htree, keepsCodes_of hcodes, keepsHeader_of hheader, htrie, ⟨hhd, htrieBit⟩,
    hft, htreeBit, hct, hhdr, hpack⟩

/-- Settles O48: what every stage of a composite keeps, the composite keeps. -/
theorem compositesFrame : Obligations.CompositesFrame := by
  refine fun s t hd => ⟨fun h => ?compress, fun h => ?decompress⟩
  case compress =>
    have hkeep := exec_compress_keeps hd h
    simp only [Prod.mk.injEq] at hkeep
    obtain ⟨-, hheader, hbits, htrie, hlost⟩ := hkeep
    exact ⟨exec_keepsInputSide h, hlost, hheader, htrie, hbits⟩
  case decompress =>
    have hkeep := exec_decompress_keeps hd h
    simp only [Prod.mk.injEq] at hkeep
    obtain ⟨-, hcounts, hcodes, ⟨hft, htreeBit, hct, hhs⟩, htree, hhdr, hlost⟩ := hkeep
    exact ⟨exec_keepsInputSide h, hlost, hcounts, htree, hcodes, hhdr, hft, htreeBit, hct, hhs⟩

/-- Settles O60: the write is taken and marks the command, whose completion frees its write set, STATUS and OUT only. -/
theorem brokenDutyStillCompletes : Obligations.BrokenDutyStillCompletes := by
  refine ⟨fun s v hb => breakDuty_of_busy (s := { s with inLen := v }) hb,
    fun s a v hb => ⟨fun ha => ⟨_, writeIn_below_of_busy v hb ha, fun j => ?byte⟩, writeIn_beyond_of_busy v hb⟩,
    fun i s ht => ?completes⟩
  case byte =>
    rw [hostAccess, writeIn_below_of_busy v hb ha]
    exact inByte_write_inBuf s a j v
  case completes =>
    have h := exec_commandVerdict i s
    have hinput := exec_keepsInputSide h
    rw [complete_tainted _ _ ht] at h hinput
    exact ⟨_, h, ⟨rfl, rfl, rfl⟩, rfl, hinput, spoil_frame i s⟩

end

section
/-! PROOFS. The register port: the map, STATUS and IRQ, writes, and the values after reset (10_state.md R32 to R54,
60_exceptions.md R331, 70_reset_and_hazards.md R360). -/

namespace Sys2Proof.Machine

/-! ### The register map -/

/-- The offset of symbol b's word in a table of one word per symbol at `base`, as a number. -/
theorem toNat_symbolOffset {base : Nat} (b : Byte) (hb : base ≤ 0x3000) :
    (BitVec.ofNat 15 (base + 4 * b.toNat)).toNat = base + 4 * b.toNat := by
  have := b.isLt
  rw [BitVec.toNat_ofNat, Nat.mod_eq_of_lt (by omega)]

theorem symbolOffset_symbol {base : Nat} (b : Byte) : BitVec.ofNat 8 ((base + 4 * b.toNat - base) / 4) = b := by
  rw [show (base + 4 * b.toNat - base) / 4 = b.toNat by omega, BitVec.ofNat_toNat, BitVec.setWidth_eq]

theorem regAt_freq (b : Byte) : regAt (BitVec.ofNat 15 (0x400 + 4 * b.toNat)) = .freq b := by
  have := b.isLt
  simp only [regAt, toNat_symbolOffset b (show 0x400 ≤ 0x3000 by decide), symbolOffset_symbol b]
  simp (disch := omega) only [if_pos, if_neg]

theorem regAt_rank (b : Byte) : regAt (BitVec.ofNat 15 (0x800 + 4 * b.toNat)) = .rank b := by
  have := b.isLt
  simp only [regAt, toNat_symbolOffset b (show 0x800 ≤ 0x3000 by decide), symbolOffset_symbol b]
  simp (disch := omega) only [if_pos, if_neg]

theorem regAt_clen (b : Byte) : regAt (BitVec.ofNat 15 (0xC00 + 4 * b.toNat)) = .clen b := by
  have := b.isLt
  simp only [regAt, toNat_symbolOffset b (show 0xC00 ≤ 0x3000 by decide), symbolOffset_symbol b]
  simp (disch := omega) only [if_pos, if_neg]

theorem regAt_dclen (b : Byte) : regAt (BitVec.ofNat 15 (0x3000 + 4 * b.toNat)) = .dclen b := by
  have := b.isLt
  simp only [regAt, toNat_symbolOffset b (Nat.le_refl 0x3000), symbolOffset_symbol b]
  simp (disch := omega) only [if_pos, if_neg]

theorem regAt_reserved {off : BitVec 15}
    (h : 0x038 ≤ off.toNat ∧ off.toNat ≤ 0x3FC ∨ 0x3400 ≤ off.toNat ∧ off.toNat ≤ 0x3FFC ∨ 0x6000 ≤ off.toNat)
    (ha : off.toNat % 4 = 0) : regAt off = .reserved := by
  rcases h with h | h | h
  · simp only [regAt, if_pos (show off.toNat < 0x400 by omega)]
    split
    case h_15 => rfl
    all_goals omega
  · simp only [regAt]
    simp (disch := omega) only [if_pos, if_neg]
  · simp only [regAt]
    simp (disch := omega) only [if_neg]

theorem regReadValue_symbol {s : State} {base : Nat} {r : Reg} (b : Byte) (hs : s.busy = false) (hb : base ≤ 0x3000)
    (ha : base % 4 = 0) (hr : regAt (BitVec.ofNat 15 (base + 4 * b.toNat)) = r) :
    regReadValue s (BitVec.ofNat 15 (base + 4 * b.toNat)) 32 = regValue s r := by
  rw [regReadValue_of_idle hs (by rw [toNat_symbolOffset b hb]; omega), hr]

/-- The length registers show a length modulo 256. -/
theorem toNat_lengthValue (n : Nat) : ((BitVec.ofNat 8 n).setWidth 32).toNat = n % 256 := by
  rw [BitVec.toNat_setWidth, BitVec.toNat_ofNat]
  omega

theorem mod_length_of_codesOk {t : Table Bits} (h : codesOk t) (b : Byte) : (t.read b).length % 256 = (t.read b).length := by
  have hlen : (t.read b).length ≤ 255 := by simpa [codeWf] using h b
  omega

theorem regReadValue_clen {s : State} (hs : s.busy = false) (b : Byte) :
    (regReadValue s (BitVec.ofNat 15 (0xC00 + 4 * b.toNat)) 32).toNat = (s.code.read b).length % 256 := by
  rw [regReadValue_symbol b hs (by decide) rfl (regAt_clen b)]
  exact toNat_lengthValue _

theorem regReadValue_dclen {s : State} (hs : s.busy = false) (b : Byte) :
    (regReadValue s (BitVec.ofNat 15 (0x3000 + 4 * b.toNat)) 32).toNat = (s.dcode.read b).length % 256 := by
  rw [regReadValue_symbol b hs (by decide) rfl (regAt_dclen b)]
  exact toNat_lengthValue _

/-! ### STATUS -/

/-- The fields of STATUS[7:0]. -/
theorem statusLow_fields (e : BitVec 4) (lost err done busy : Bool) :
    let w : BitVec 8 := e ++ bit lost ++ bit err ++ bit done ++ bit busy
    w.getLsbD 0 = busy ∧ w.getLsbD 1 = done ∧ w.getLsbD 2 = err ∧ w.getLsbD 3 = lost ∧ w.extractLsb' 4 4 = e := by
  revert e lost err done busy
  decide

/-- The fields of STATUS[13:8]. -/
theorem validField_fields (v : ValidBits) :
    (validField v).getLsbD 0 = v.ft ∧ (validField v).getLsbD 1 = v.tree ∧ (validField v).getLsbD 2 = v.ct ∧
      (validField v).getLsbD 3 = v.hs ∧ (validField v).getLsbD 4 = v.hd ∧ (validField v).getLsbD 5 = v.trie := by
  obtain ⟨ft, tree, ct, hs, hd, trie⟩ := v
  revert ft tree ct hs hd trie
  decide

section
variable (s : State)

theorem statusWord_low {k : Nat} (h : k < 8) : (statusWord s).getLsbD k = (statusLow s).getLsbD k := by
  rw [statusWord, statusWith, BitVec.getLsbD_append, if_pos h]

theorem statusWord_validField {k : Nat} (h : k < 6) : (statusWord s).getLsbD (8 + k) = (validField s.valid).getLsbD k := by
  rw [statusWord, statusWith, BitVec.getLsbD_append, if_neg (by omega), BitVec.getLsbD_append, Nat.add_sub_cancel_left,
    if_pos h]

theorem statusWord_errField : (statusWord s).extractLsb' 4 4 = errCode s.errcode := by
  rw [statusWord, statusWith, BitVec.extractLsb'_append_eq_of_add_le (by decide)]
  exact (statusLow_fields ..).2.2.2.2

theorem statusWord_reservedField : (statusWord s).extractLsb' 14 18 = 0#18 := by
  rw [statusWord, statusWith, BitVec.extractLsb'_append_eq_of_le (by decide), BitVec.extractLsb'_append_eq_of_le (by decide)]
  rfl

end

theorem errBit_iff (s : State) : errBit s = true ↔ s.errcode ≠ .none := by
  rw [errBit, bne_iff_ne, ne_eq, errCode_eq_zero]

/-- IRQ is STATUS[1] and CTRL[0], both as the port shows them. -/
theorem regReadValue_ctrl (s : State) : regReadValue s 0x004 32 = if s.ie then 1 else 0 := by
  cases hb : s.busy with
  | false => exact (regReadValue_of_idle hb rfl).trans (regValue_ctrl s)
  | true => exact (regReadValue_of_busy hb rfl).trans (regValue_ctrl s)

/-! ### Register writes -/

/-- CTRL and IN_LEN have one offset each, as CMD and STATUS have. -/
theorem toNat_of_regAt_control (off : BitVec 15) :
    (regAt off = .ctrl → off.toNat = 0x004) ∧ (regAt off = .inLen → off.toNat = 0x010) := by
  by_cases hlow : off.toNat < 0x400
  · simp only [regAt, if_pos hlow]
    split <;> simp [*]
  · simp only [regAt, if_neg hlow]
    split_ifs <;> simp

/-- Only CTRL, CMD, STATUS and IN_LEN take a write. -/
theorem writeReg_readOnly {r : Reg} (hr : r ∉ [.ctrl, .cmd, .status, .inLen]) (s : State) (v : Word) : writeReg s v r = s := by
  cases r with
  | ctrl | cmd | status | inLen => simp at hr
  | _ => rfl

theorem regAt_readOnly {off : BitVec 15} (h : off ∉ [0x004#15, 0x008#15, 0x00C#15, 0x010#15]) :
    regAt off ∉ [.ctrl, .cmd, .status, .inLen] := by
  obtain ⟨hctrl, hinLen⟩ := toNat_of_regAt_control off
  intro hmem
  apply h
  simp only [List.mem_cons, List.not_mem_nil, or_false] at hmem ⊢
  rcases hmem with hr | hr | hr | hr
  · exact .inl (BitVec.eq_of_toNat_eq (hctrl hr))
  · exact .inr (.inl (regAt_eq_cmd hr))
  · exact .inr (.inr (.inl (regAt_eq_status hr)))
  · exact .inr (.inr (.inr (BitVec.eq_of_toNat_eq (hinLen hr))))

theorem hostAccess_regWrite_unaligned {s : State} {off : BitVec 15} {bits : Nat} (v : Word)
    (h : bits ≠ 32 ∨ off.toNat % 4 ≠ 0) : hostAccess (.regWrite off bits v) s = s := by
  have hunaligned : aligned32 off bits = false := by
    rcases h with h | h <;> simp [aligned32, h]
  rw [hostAccess, hunaligned]
  rfl

theorem hostAccess_regWrite_aligned {s : State} {off : BitVec 15} (v : Word) (h : off.toNat % 4 = 0) :
    hostAccess (.regWrite off 32 v) s = writeReg s v (regAt off) := by
  rw [hostAccess, aligned32, h]
  rfl

/-! ### Reset -/

theorem tables_hostReset (s : State) (b : Byte) :
    (hostReset s).freq.read b = 0 ∧ (hostReset s).rank.read b = 0 ∧ (hostReset s).code.read b = [] ∧
      (hostReset s).dcode.read b = [] :=
  ⟨Table.read_fill .., Table.read_fill .., Table.read_fill .., Table.read_fill ..⟩

theorem statusWord_hostReset (s : State) : statusWord (hostReset s) = 0 := by
  simp only [statusWord, statusWith, statusLow, errBit, hostReset, State.resetAt]
  decide

theorem clen_of_nil {s : State} {b : Byte} (h : s.code.read b = []) : clen s b = 0 := by rw [clen, h]; rfl

theorem dclen_of_nil {s : State} {b : Byte} (h : s.dcode.read b = []) : dclen s b = 0 := by rw [dclen, h]; rfl

theorem codeWord_of_nil {s : State} {b : Byte} (h : s.code.read b = []) (w : Nat) : codeWord s b w = 0 := by
  rw [codeWord, h, msbValue_nil]
  rfl

theorem dcodeWord_of_nil {s : State} {b : Byte} (h : s.dcode.read b = []) (w : Nat) : dcodeWord s b w = 0 := by
  rw [dcodeWord, h, msbValue_nil]
  rfl

end Sys2Proof.Machine

open Sys2Proof Sys2Proof.Machine

/-- Settles O53: each offset names its register, and the port shows that register's value. -/
theorem registerMapReads : Obligations.RegisterMapReads := by
  intro s hs
  refine ⟨regReadValue_of_idle hs rfl, regReadValue_ctrl s, regReadValue_of_idle hs rfl, regReadValue_of_idle hs rfl,
    regReadValue_of_idle hs rfl, regReadValue_of_idle hs rfl, regReadValue_of_idle hs rfl, regReadValue_of_idle hs rfl,
    regReadValue_of_idle hs rfl, regReadValue_of_idle hs rfl, regReadValue_of_idle hs rfl, regReadValue_of_idle hs rfl,
    regReadValue_of_idle hs rfl, regReadValue_of_idle hs rfl, fun b => ⟨?freq, ?rank, ?clen, fun h => ?code, ?dclen,
      fun h => ?dcode, fun w hw => ⟨regReadValue_codew b hs hw, regReadValue_dcodew b hs hw⟩⟩, fun off ha h => ?reserved⟩
  case freq => exact regReadValue_symbol b hs (by decide) rfl (regAt_freq b)
  case rank => exact regReadValue_symbol b hs (by decide) rfl (regAt_rank b)
  case clen => exact regReadValue_clen hs b
  case code => rw [regReadValue_clen hs b, mod_length_of_codesOk h]
  case dclen => exact regReadValue_dclen hs b
  case dcode => rw [regReadValue_dclen hs b, mod_length_of_codesOk h]
  case reserved => rw [regReadValue_of_idle hs ha, regAt_reserved h ha, regValue]

/-- Settles O54: the STATUS word's fields one by one; a completion sets DONE and keeps IE. -/
theorem statusFieldsAndIrq : Obligations.StatusFieldsAndIrq := by
  refine ⟨fun s => ?fields, fun i s t h => ?irq⟩
  case fields =>
    obtain ⟨hbusy, hdone, herr, hlost, -⟩ :=
      statusLow_fields (errCode s.errcode) s.lost (errBit s) s.done s.busy
    obtain ⟨hft, htree, hct, hhs, hhd, htrie⟩ := validField_fields s.valid
    refine ⟨(statusWord_low s (by decide)).trans hbusy, (statusWord_low s (by decide)).trans hdone, ?err,
      (statusWord_low s (by decide)).trans hlost, ?code, (statusWord_validField s (by decide)).trans hft,
      (statusWord_validField s (by decide)).trans htree, (statusWord_validField s (by decide)).trans hct,
      (statusWord_validField s (by decide)).trans hhs, (statusWord_validField s (by decide)).trans hhd,
      (statusWord_validField s (by decide)).trans htrie, statusWord_reservedField s, ?irqBit⟩
    case err => rw [statusWord_low s (by decide), statusLow, herr, errBit_iff]
    case code => rw [statusWord_errField]; cases s.errcode <;> rfl
    case irqBit => rw [(statusWord_low s (by decide)).trans hdone, regReadValue_ctrl, irq]; cases s.ie <;> rfl
  case irq =>
    obtain ⟨-, -, hie, -⟩ := exec_keepsInputSide h
    rw [exec_commandVerdict] at h
    cases h
    rw [irq, complete_done, hie, Bool.true_and]

/-- Settles O52: the host's reset access sets every field but the parameters to its reset value. -/
theorem resetGivesTheResetValues : Obligations.ResetGivesTheResetValues := by
  intro s rest hh hd
  refine ⟨_, step_host hh hd, statusWord_hostReset _, regReadValue_ctrl _, rfl, rfl, rfl, rfl, rfl, rfl, rfl, rfl, rfl, rfl, rfl, rfl,
    fun b => ?tables, fun b w => ?windows⟩
  all_goals
    obtain ⟨hfreq, hrank, hcode, hdcode⟩ :=
      tables_hostReset { s with host := remaining .reset s.busy rest, latency := s.latency - 1 } b
  case tables => exact ⟨hfreq, hrank, clen_of_nil hcode, hcode, dclen_of_nil hdcode, hdcode⟩
  case windows => exact ⟨codeWord_of_nil hcode w, dcodeWord_of_nil hdcode w⟩

/-- Settles O56: each writable register's effect; every other offset is read-only, and an unaligned or narrower write none. -/
theorem registerWritesTakeTheirEffect : Obligations.RegisterWritesTakeTheirEffect := by
  refine fun s v => ⟨rfl, fun hb => breakDuty_of_idle (s := { s with inLen := v }) hb, rfl,
    fun off bits h => hostAccess_regWrite_unaligned v h, fun off ha h => ?_⟩
  rw [hostAccess_regWrite_aligned v ha, writeReg_readOnly (regAt_readOnly h)]

end

section
/-! PROOFS. FCOUNT, TBUILD and CGEN on what their preconditions promise, and the code table they make one after the other
(41_frequency_counter.md R171, 42_tree_builder.md R181, 43_code_table_generator.md R200 to R204). -/

namespace Sys2Proof.Machine

/-! ### FCOUNT -/

theorem Counted.rank_of_absent {bs : List Byte} {s : State} (h : Counted bs s) (hl : bs.length < 2 ^ 32) {b : Byte}
    (hb : b ∉ bs) : s.rank.read b = 0 := by
  apply BitVec.eq_of_toNat_eq
  rw [h.rank, (countAll_spec bs hl).2.2, if_neg hb]
  rfl

theorem Counted.of_keepsCounts {bs : List Byte} {s t : State} (h : Counted bs s) (hk : keepsCounts s t)
    (hft : t.valid.ft = true) : Counted bs t :=
  ⟨hk.1.trans h.freq, hk.2.1.trans h.rank, hk.2.2.trans h.nsym, hft⟩

/-! ### CGEN -/

theorem setCodes_of_fits {s : State} {c : Table Bits} (h : weightedLength s.freq c ≤ 2 ^ 32 - 1) :
    setCodes s c = .ok { s with code := c, vbc := BitVec.ofNat 32 (weightedLength s.freq c) } :=
  if_neg (Nat.not_lt.2 h)

theorem runCgen_of_tree {s : State} (h : s.valid.tree = true) : runCgen s = setCodes s (codesOf s.tree) := if_pos h

theorem runCgen_of_empty {s : State} (htree : s.valid.tree = false) (hft : s.valid.ft = true) (hn : s.nsym = 0) :
    runCgen s = setCodes s (Table.fill []) := by
  rw [runCgen, if_neg (by simp [htree]), if_pos ⟨hft, hn⟩]

/-- CGEN on a code table whose weighted length fits VBC. -/
theorem exec_cgen_of_fits {s : State} {c : Table Bits} (hd : dutiful s) (hrun : runCgen s = setCodes s c)
    (hw : weightedLength s.freq c ≤ 2 ^ 32 - 1) :
    ∃ t, exec .cgen s = .next t ∧ finished t .none ∧ t.code = c ∧ t.vbc.toNat = weightedLength s.freq c ∧
      t.valid = validRow .cgen true s.valid := by
  have ht := exec_cgen hd
  rw [stageCgen, hrun, setCodes_of_fits hw, runStage_ok] at ht
  exact ⟨_, ht, ⟨rfl, rfl, rfl⟩, rfl, toNat_ofNat_of_lt (Nat.lt_of_le_of_lt hw (by decide)),
    exec_valid_of_success (by decide) hd ht rfl⟩

/-- A successful CGEN leaves the table of its mode, and the counts as they were. -/
theorem exec_cgen_success {s t : State} (hd : dutiful s) (h : exec .cgen s = .next t) (hok : t.errcode = .none) :
    keepsCounts s t ∧ t.vbc.toNat = weightedLength s.freq t.code ∧ (s.valid.tree = true → t.code = codesOf s.tree) ∧
      (s.valid.tree = false → t.code = Table.fill []) := by
  rw [exec_cgen hd] at h
  cases h
  rcases stageCgen_cases s with ⟨c, hc, hw, hst⟩ | ⟨c, -, -, hst⟩ | ⟨-, -, hst⟩
  · rw [hst]
    refine ⟨⟨rfl, rfl, rfl⟩, toNat_ofNat_of_lt (Nat.lt_of_le_of_lt hw (by decide)), fun hb => ?_, fun hb => ?_⟩
    · rcases hc with ⟨-, rfl⟩ | ⟨hno, -⟩
      · rfl
      · rw [hb] at hno; cases hno
    · rcases hc with ⟨hno, -⟩ | ⟨-, -, -, rfl⟩
      · rw [hb] at hno; cases hno
      · rfl
  · rw [hst] at hok; cases hok
  · rw [hst] at hok; cases hok

theorem exec_tbuild_keepsCounts {s t : State} (hd : dutiful s) (h : exec .tbuild s = .next t) : keepsCounts s t := by
  rw [exec_tbuild hd] at h
  cases h
  obtain ⟨-, -, hcounts, -⟩ := stageTbuild_frame s
  exact keepsCounts_of hcounts

theorem exec_dutiful_next {i : Instr} {s t : State} (h : exec i s = .next t) : dutiful t := by
  rw [exec_commandVerdict] at h
  cases h
  exact complete_tainted_clear ..

theorem length_nodeSymbols (n : Node) : (nodeSymbols n).length = internalCount n + 1 := by
  induction n with
  | leaf => rfl
  | internal f k l r ihl ihr => rw [nodeSymbols, List.length_append, ihl, ihr, internalCount]; omega

/-! ### The codes of a tree whose leaves are the counted symbols -/

section
variable {freq : Table Word} {r : Node} (hsym : (nodeSymbols r).Perm (allSymbols.filter fun b => freq.read b != 0))
include hsym

theorem codesOf_counted (b : Byte) : (codesOf r).read b ≠ [] ↔ freq.read b ≠ 0 := by
  rw [codesOf_ne_nil, hsym.mem_iff]
  simp

/-- Two or more counted symbols fill the code space (43_code_table_generator.md R204 (d)). -/
theorem kraft_counted (hdepth : nodeDepth r ≤ 255) (hn : 2 ≤ (allSymbols.filter fun b => freq.read b != 0).length) :
    ((allSymbols.filter fun b => freq.read b != 0).map fun b => 2 ^ (255 - ((codesOf r).read b).length)).sum = 2 ^ 255 := by
  rw [← (hsym.map _).sum_eq]
  cases r with
  | leaf b f k =>
    rw [← hsym.length_eq] at hn
    simp [nodeSymbols] at hn
  | internal f k l r => exact kraft_codesOf (hsym.nodup_iff.2 (nodup_allSymbols.filter _)) 255 hdepth

/-- A lone counted symbol has the code "0" (43_code_table_generator.md R202). -/
theorem codesOf_lone (hn : (allSymbols.filter fun b => freq.read b != 0).length = 1) {b : Byte} (hb : freq.read b ≠ 0) :
    (codesOf r).read b = [false] := by
  have hmem : b ∈ nodeSymbols r := by rw [hsym.mem_iff]; simpa using hb
  rw [← hsym.length_eq] at hn
  cases r with
  | leaf b' f k =>
    obtain rfl : b = b' := List.mem_singleton.1 hmem
    exact Table.read_write_self ..
  | internal f k l r =>
    rw [length_nodeSymbols, internalCount] at hn
    omega

end

/-- The code of at most 255 bits has its length in CLEN. -/
theorem toNat_clen {s : State} {b : Byte} (h : (s.code.read b).length ≤ 255) : (clen s b).toNat = (s.code.read b).length :=
  toNat_ofNat_of_lt (by omega)

/-- What FCOUNT, TBUILD and CGEN leave in turn: the counts of the input, and the codes of a tree with its symbols. -/
theorem exec_table_stages {s t u v : State} (hd : dutiful s) (hcount : exec .fcount s = .next t) (htok : t.errcode = .none)
    (hbuild : exec .tbuild t = .next u) (huok : u.errcode = .none) (hgen : exec .cgen u = .next v) (hvok : v.errcode = .none) :
    Counted (inputBytes s) v ∧ v.code = codesOf u.tree ∧ v.vbc.toNat = weightedLength v.freq v.code ∧
      (nodeSymbols u.tree).Perm (allSymbols.filter fun b => v.freq.read b != 0) ∧ nodeDepth u.tree ≤ 255 := by
  have hdt := exec_dutiful_next hcount
  have hdu := exec_dutiful_next hbuild
  obtain ⟨hct, -⟩ := exec_fcount_success hd hcount htok
  obtain ⟨-, hpos, hmerge⟩ := exec_tbuild_success hdt hbuild huok
  have hne : countedLeaves t ≠ [] := by
    rw [hct.nsym_eq_length_countedLeaves (length_inputBytes_lt s)] at hpos
    exact List.ne_nil_of_length_pos hpos
  obtain ⟨-, hsym, -, hdepth⟩ := built_shape (hmerge hne)
  have hkeepT := exec_tbuild_keepsCounts hdt hbuild
  have hvalidT := exec_valid_of_success (by decide) hdt hbuild huok
  obtain ⟨hkeepU, hvbc, htree, -⟩ := exec_cgen_success hdu hgen hvok
  have hvalidU := exec_valid_of_success (by decide) hdu hgen hvok
  have hcu : Counted (inputBytes s) u := hct.of_keepsCounts hkeepT (by rw [hvalidT]; exact hct.ft)
  refine ⟨hcu.of_keepsCounts hkeepU (by rw [hvalidU]; exact hcu.ft), htree (by rw [hvalidT]; rfl), ?_, ?_, hdepth⟩
  · rw [hkeepU.1]; exact hvbc
  · rw [hkeepU.1, hkeepT.1]; exact hsym

end Sys2Proof.Machine

open Sys2Proof Sys2Proof.Machine

/-- Settles O18: FCOUNT's loop leaves each symbol's count and first-occurrence rank. -/
theorem fcountCountsAndRanks : Obligations.FcountCountsAndRanks := by
  intro s hd hfits
  have hl := length_inputBytes_lt s
  obtain ⟨hok, hc⟩ := stageFcount_counted hfits
  have ht := exec_fcount hd
  exact ⟨_, ht, ⟨rfl, rfl, hok⟩, hc.count hl, hc.nsym_toNat hl, fun b hb => hc.rank_toNat hl hb,
    fun b hb => hc.rank_of_absent hl hb, exec_valid_of_success (by decide) hd ht hok⟩

/-- Settles O21: with distinct ranks TBUILD's loop takes the two ≺-least nodes out each time. -/
theorem tbuildFollowsTheMergeRule : Obligations.TbuildFollowsTheMergeRule := by
  intro s hd hft hpos hranks ⟨b, hb⟩
  have ht := exec_tbuild hd
  rcases stageTbuild_cases s with ⟨r, -, -, hr, hst⟩ | ⟨-, -, hq, -⟩ | ⟨hno, -⟩
  · rw [hst] at ht
    refine ⟨_, ht, ⟨rfl, rfl, rfl⟩, mergesTo_of_built hranks hr, (exec_valid_of_success (by decide) hd ht rfl).trans ?_⟩
    rw [validRow, hft]
  · exact absurd hq (countedLeaves_ne_nil hb)
  · exact absurd ⟨hft, hpos⟩ hno

/-- Settles O24: in mode TREE the table of the leaves' paths, in mode EMPTY the empty one. -/
theorem cgenGivesEachLeafItsPath : Obligations.CgenGivesEachLeafItsPath := by
  refine ⟨fun s hd htree hnodup hw => ?tree, fun s hd htree hft hn => ?empty⟩
  case tree =>
    obtain ⟨t, ht, hfin, hcode, hvbc, hvalid⟩ := exec_cgen_of_fits hd (runCgen_of_tree htree) hw
    refine ⟨t, ht, hfin, ?_, ?_, hvalid.trans ?_⟩
    · rw [hcode]; exact codesOfTree_codesOf hnodup
    · rw [hcode]; exact hvbc
    · rw [validRow, htree]
  case empty =>
    obtain ⟨t, ht, hfin, hcode, hvbc, hvalid⟩ := exec_cgen_of_fits hd (runCgen_of_empty htree hft hn) (by simp)
    rw [weightedLength_fill] at hvbc
    refine ⟨t, ht, hfin, fun x => by rw [hcode, Table.read_fill], BitVec.eq_of_toNat_eq hvbc, hvalid.trans ?_⟩
    rw [validRow, hft, htree]

/-- Settles O25: the codes are those of a tree whose leaves are the counted symbols, and VBC is their weighted length under exact
counts. -/
theorem cgenLaws : Obligations.CgenLaws := by
  refine ⟨fun s t u v hd hcount htok hbuild huok hgen hvok => ?tree, fun s t v hd hcount htok hn hgen hvok => ?empty⟩
  case tree =>
    have hl := length_inputBytes_lt s
    obtain ⟨hc, hcode, hvbc, hsym, hdepth⟩ := exec_table_stages hd hcount htok hbuild huok hgen hvok
    have hn := hc.nsym_eq_length_filter hl
    have hcoded : ∀ b, v.code.read b ≠ [] ↔ v.freq.read b ≠ 0 := fun b => by rw [hcode]; exact codesOf_counted hsym b
    have hlength : ∀ b, (v.code.read b).length ≤ 255 := fun b => by
      have := codesOf_length u.tree b
      rw [hcode]
      omega
    refine ⟨fun b => ?_, fun b hb => ⟨List.length_pos_iff.2 ((hcoded b).2 hb), hlength b⟩, ?_, fun h2 => ?_, fun h1 b hb => ?_,
      ?_⟩
    · rw [toNat_clen (hlength b), List.length_pos_iff, hcoded]
    · rw [hcode]; exact prefixFree_codesOf _
    · rw [hcode]; exact kraft_counted hsym hdepth (hn ▸ h2)
    · rw [hcode]; exact codesOf_lone hsym (hn ▸ h1) hb
    · rw [hvbc, weightedLength_counted hc hl]
  case empty =>
    have hdt := exec_dutiful_next hcount
    have hvalid := exec_valid_of_success (by decide) hd hcount htok
    obtain ⟨-, hvbc, -, hempty⟩ := exec_cgen_success hdt hgen hvok
    have hcode := hempty (by rw [hvalid]; rfl)
    rw [hcode, weightedLength_fill] at hvbc
    exact ⟨fun b => by rw [hcode, Table.read_fill], BitVec.eq_of_toNat_eq hvbc⟩

end

section
/-! PROOFS. HSER and HDESER: the header written and read back, and what HDESER refuses
(44_artifact_serializer.md R216, R231, 60_exceptions.md R322, R323). -/

namespace Sys2Proof.Machine

/-! ### HSER -/

theorem runHser_of_overlong {s : State} (hct : s.valid.ct = true) (h : outCap s < (encoderHeader s).length) :
    runHser s = .error .ioError := by
  rw [runHser, if_neg (by simp [hct]), headerBytes_eq]
  exact if_pos h

theorem runHser_of_fits {s : State} (hct : s.valid.ct = true) (h : (encoderHeader s).length ≤ outCap s) :
    runHser s = .ok { writeOut (encoderHeader s) s with hdrLen := BitVec.ofNat 32 (encoderHeader s).length } := by
  rw [runHser, if_neg (by simp [hct]), headerBytes_eq]
  exact if_neg (Nat.not_lt.2 h)

/-! ### An entry HDESER does not accept -/

/-- What stands at the place of the next entry is cut (R323 (c), (e)), has the length 0 (d) or a symbol of the table so far (f). -/
def badEntry (t : Table Bits) (rest : List Byte) : Prop :=
  rest.length < 2 ∨ ∃ b l post, rest = b :: l :: post ∧ (l = 0 ∨ post.length < ceil8 l.toNat ∨ t.read b ≠ [])

theorem parseEntries_bad {s : State} {k p : Nat} {t : Table Bits} {rest : List Byte} (hp : p ≤ s.inLen.toNat)
    (h : inputFrom s p = rest) (hbad : badEntry t rest) : parseEntries s (k + 1) p t = .error .corruptHeader := by
  have hl := length_inputFrom h hp
  rcases hbad with hcut | ⟨b, l, post, rfl, hentry⟩
  · rw [parseEntries, if_pos (by omega)]
  · have hw : inputFrom s p = [b, l] ++ post := h
    have hb : inByte s p = b := inByte_of_inputFrom (j := 0) hw (by simp)
    have hn : inByte s (p + 1) = l := inByte_of_inputFrom (j := 1) hw (by simp)
    simp only [List.length_cons] at hl
    rw [parseEntries, if_neg (by omega)]
    simp only [hb, hn]
    rcases hentry with rfl | hpost | hsym
    · exact if_pos rfl
    · split
      · rfl
      · exact if_pos (by omega)
    · split
      · rfl
      · split
        · rfl
        · exact if_pos ((hasCode_iff t b).2 hsym)

/-- HDESER on whole entries that are followed by no good one, or by a cut valid-bit count. -/
theorem runHdeser_bad {s : State} {n : Nat} {es : List Entry} {rest : List Byte} (hc : s.inLen.toNat ≤ inCap s)
    (hn : n ≤ 256) (he : entriesOk es) (h : inputBytes s = be16 n ++ es.flatMap entryWord ++ rest)
    (hbad : es.length < n ∧ badEntry (addEntries (Table.fill []) es) rest ∨ es.length = n ∧ rest.length < 4) :
    runHdeser s = .error .corruptHeader := by
  have h0 : inputFrom s 0 = be16 n ++ (es.flatMap entryWord ++ rest) := by rw [← List.append_assoc]; exact h
  have hl := length_inputFrom h0 (Nat.zero_le _)
  simp only [List.length_append, length_be16] at hl
  have he16 : rdBe16 s 0 = n :=
    rdBe16_of_bytes s 0 _ (by omega) fun j hj => inByte_of_inputFrom h0 (by simpa using hj)
  have h2 : inputFrom s 2 = es.flatMap entryWord ++ rest := by simpa using inputFrom_add h0
  have hmore := fun k => parseEntries_more (k := k) (t := Table.fill []) he.1 he.2 (by simp) (by omega) h2
  rw [runHdeser, if_neg (by omega), if_neg (by omega)]
  simp only [he16]
  rw [if_neg (by omega)]
  rcases hbad with ⟨hlt, hentry⟩ | ⟨rfl, hcut⟩
  · obtain ⟨k, rfl⟩ : ∃ k, n = es.length + (k + 1) := ⟨n - es.length - 1, by omega⟩
    rw [hmore, parseEntries_bad (by omega) (inputFrom_add h2) hentry]
  · rw [show es.length = es.length + 0 from rfl, hmore]
    exact if_pos (by omega)

theorem runHdeser_of_count {s : State} (hc : s.inLen.toNat ≤ inCap s)
    (h : s.inLen.toNat < 2 ∨ 2 ≤ s.inLen.toNat ∧ 256 < rdBe16 s 0) : runHdeser s = .error .corruptHeader := by
  rw [runHdeser, if_neg (by omega)]
  rcases h with hcut | ⟨hlen, hcount⟩
  · exact if_pos hcut
  · rw [if_neg (by omega)]
    exact if_pos hcount

end Sys2Proof.Machine

open Sys2Proof Sys2Proof.Machine

/-- Settles O26, by the fits of the header: HSER then writes it, and else raises IO_ERROR. -/
theorem hserWritesTheHeader : Obligations.HserWritesTheHeader := by
  intro s hd hct
  refine ⟨fun hfits => ?_, fun hlong => ?_⟩
  · have ht := exec_hser hd
    rw [stageHser, runHser_of_fits hct hfits, runStage_ok, closeOutWriter_ok rfl] at ht
    exact ⟨_, ht, ⟨rfl, rfl, rfl⟩, outBytes_eq _ _ (toNat_outLen_writeOut hfits) rfl, toNat_outLen_writeOut hfits, rfl,
      length_encoderHeader s, (exec_valid_of_success (by decide) hd ht rfl).trans (by rw [validRow, hct])⟩
  · exact finished_of_error (exec_hser_error hd (by decide) (runHser_of_overlong hct hlong))

/-- Settles O27: the parse of the header's entries makes the decoded table. -/
theorem hdeserReadsTheLayout : Obligations.HdeserReadsTheLayout := by
  intro s es v pay hd hcap hes hv hpay hin
  obtain ⟨t, ht, hfin, hread⟩ := exec_hdeser_of_artifact hd hcap hin hes hv hpay
  refine ⟨t, ht, hfin, hread.dnent, hread.dvbc, hread.payOff, fun e he => ?_, fun b hb => ?_,
    exec_valid_of_success (by decide) hd ht hfin.errcode⟩
  · rw [hread.dcode, addEntries_mem hes.2 he]
  · rw [hread.dcode, addEntries_not_mem hb, Table.read_fill]

/-- Settles O28: the payload's size after a whole header, the entry count, and the first entry that is not good. -/
theorem hdeserJudgesThePayloadSize : Obligations.HdeserJudgesThePayloadSize := by
  refine ⟨fun s es v pay hd hcap hes hv hin => ?size, fun s hd hcap hcount => ?count,
    fun s n es rest hd hcap hn hes hin hbad => ?entry⟩
  case size =>
    have hrun := runHdeser_header hcap hes hv hin
    refine ⟨fun hshort => finished_of_error (exec_hdeser_error hd (by decide) ?_),
      fun hlong => finished_of_error (exec_hdeser_error hd (by decide) ?_)⟩
    · rw [hrun, if_pos hshort]
    · rw [hrun, if_neg (by omega), if_pos hlong]
  case count => exact finished_of_error (exec_hdeser_error hd (by decide) (runHdeser_of_count hcap hcount))
  case entry =>
    refine finished_of_error (exec_hdeser_error hd (by decide) (runHdeser_bad hcap hn hes hin ?_))
    rcases hbad with ⟨hlt, hcut⟩ | ⟨hlt, b, post, hrest⟩ | ⟨hlt, b, l, post, hrest, hpost⟩ | ⟨hlt, b, l, post, hrest, hsym⟩ | hcount
    · exact .inl ⟨hlt, .inl hcut⟩
    · exact .inl ⟨hlt, .inr ⟨b, 0, post, hrest, .inl rfl⟩⟩
    · exact .inl ⟨hlt, .inr ⟨b, l, post, hrest, .inr (.inl hpost)⟩⟩
    · obtain ⟨e, he, rfl⟩ := List.mem_map.1 hsym
      refine .inl ⟨hlt, .inr ⟨_, l, post, hrest, .inr (.inr ?_)⟩⟩
      rw [addEntries_mem hes.2 he]
      exact entryCode_ne_nil (hes.1 e he)
    · exact .inr hcount

end

section
/-! PROOFS. PACK, TRECON and UNPACK: the payload written and read back, the trie between them, and the inputs they refuse
(45_bit_packer.md R251, 46_tree_reconstructor.md R265, 47_bit_unpacker.md R281, R284). -/

namespace Sys2Proof.Machine

/-! ### PACK -/

/-- PACK's result goes on with the payload right after the header. -/
theorem outByte_writeOut_payload (s : State) {pay : List Byte} {j : Nat} (hj : j < pay.length) :
    outByte (writeOut (keptHeader s ++ pay) s) (s.hdrLen.toNat + j) = pay.getD j 0 := by
  rw [outByte_writeOut _ _ (by simpa using hj), List.getElem_append_right (by simp), List.getD_eq_getElem _ _ hj]
  simp

theorem length_pack (s : State) (p : Bits) : (keptHeader s ++ packMsb p).length = s.hdrLen.toNat + ceil8 p.length := by simp

section
variable {s : State} (hct : s.valid.ct = true) (hhs : s.valid.hs = true) (hc : s.inLen.toNat ≤ inCap s)
include hct hhs hc

theorem runPack_of_loop_error {e : ErrKind} (h : packLoop s (inputBytes s) [] = .error e) : runPack s = .error e := by
  rw [runPack, if_neg (by simp [hct, hhs]), if_neg (by omega), h]

theorem runPack_of_count {p : Bits} (h : packLoop s (inputBytes s) [] = .ok p) (hne : p.length ≠ s.vbc.toNat) :
    runPack s = .error .sequenceError := by
  rw [runPack, if_neg (by simp [hct, hhs]), if_neg (by omega), h]
  exact if_pos hne

end

/-! ### UNPACK -/

section
variable {s : State} (hv : s.valid.trie = true) (hc : s.inLen.toNat ≤ inCap s)
include hv hc

theorem runUnpack_of_loop_error {e : ErrKind} (h : unpackLoop s s.dvbc.toNat 0 0 [] = .error e) : runUnpack s = .error e := by
  rw [runUnpack, if_neg (by simp [hv]), if_neg (by omega), h]

theorem runUnpack_of_inside_code {n : Nat} {out : List Byte} (h : unpackLoop s s.dvbc.toNat 0 0 [] = .ok (n, out)) (hn : n ≠ 0) :
    runUnpack s = .error .corruptPayload := by
  rw [runUnpack, if_neg (by simp [hv]), if_neg (by omega), h]
  exact if_pos hn

end

/-- Reading whole codes and then a path on which no symbol lies. -/
theorem unpackLoop_codes_path {s : State} {c : Table Bits} {xs : List Byte} {p : Bits} {r n : Nat} (hfree : prefixFree c)
    (hholds : trieHolds s.trie c) (hcoded : ∀ x ∈ xs, c.read x ≠ []) (hfits : xs.length ≤ outCap s)
    (hnone : ∀ q, q.IsPrefix p → trieSymbol s.trie q = none) (hw : trieWalk s.trie 0 p = some n)
    (hbits : (List.range (codeStream c xs ++ p).length).map (bitMsb s s.payOff.toNat) = codeStream c xs ++ p)
    (hlen : s.payOff.toNat + ceil8 (codeStream c xs ++ p).length ≤ s.inLen.toNat) :
    unpackLoop s ((codeStream c xs ++ p).length + r) 0 0 [] = unpackLoop s r (codeStream c xs ++ p).length n xs := by
  have hbit : ∀ j, j < (codeStream c xs ++ p).length → bitMsb s s.payOff.toNat j = (codeStream c xs ++ p).getD j false := by
    intro j hj
    rw [← hbits, List.getD_eq_getElem _ _ (by simpa using hj)]
    simp
  have hbyte : ∀ j, j < (codeStream c xs ++ p).length → s.payOff.toNat + j / 8 < s.inLen.toNat := by
    intro j hj
    unfold ceil8 at hlen
    omega
  have hcodes := unpackLoop_codes (r := p.length + r) (k := 0) (out := []) hfree hholds hcoded
    (fun j hj => by rw [Nat.zero_add, hbit j (by rw [List.length_append]; omega), List.getD_append _ _ _ _ hj])
    (fun j hj => by rw [Nat.zero_add]; exact hbyte j (by rw [List.length_append]; omega)) (by simpa using hfits)
  have hpath := unpackLoop_path (r := r) (k := (codeStream c xs).length) (out := xs) hw
    (fun q hq _ n' hn' => by rw [← trieSymbol_of_walk hn']; exact hnone q hq)
    (fun j hj => by
      rw [hbit _ (by rw [List.length_append]; omega), List.getD_append_right _ _ _ _ (Nat.le_add_right _ _),
        Nat.add_sub_cancel_left])
    (fun j hj => hbyte _ (by rw [List.length_append]; omega))
  rw [List.length_append, Nat.add_assoc, hcodes, Nat.zero_add, List.nil_append, hpath]

/-! ### One more bit of UNPACK -/

section
variable {s : State} {r k n m : Nat} {out : List Byte}

theorem unpackLoop_truncated (h : s.inLen.toNat ≤ s.payOff.toNat + k / 8) :
    unpackLoop s (r + 1) k n out = .error .truncatedInput := if_pos h

theorem unpackLoop_no_child (hk : s.payOff.toNat + k / 8 < s.inLen.toNat)
    (h : trieChild (trieNode s.trie n) (bitMsb s s.payOff.toNat k) = none) :
    unpackLoop s (r + 1) k n out = .error .corruptPayload := by
  rw [unpackLoop, if_neg (Nat.not_le.2 hk), h]

theorem unpackLoop_no_room (hk : s.payOff.toNat + k / 8 < s.inLen.toNat)
    (h : trieChild (trieNode s.trie n) (bitMsb s s.payOff.toNat k) = some m) (hm : (trieNode s.trie m).sym ≠ none)
    (hfull : out.length = outCap s) : unpackLoop s (r + 1) k n out = .error .ioError := by
  obtain ⟨b, hb⟩ := Option.ne_none_iff_exists'.1 hm
  rw [unpackLoop, if_neg (Nat.not_le.2 hk), h]
  simp only [hb]
  exact if_pos hfull

end

end Sys2Proof.Machine

open Sys2Proof Sys2Proof.Machine

/-- Settles O31: OUT is the kept header and then the packed codes of the input. -/
theorem packWritesThePayload : Obligations.PackWritesThePayload := by
  intro s hd hct hhs hcap hcoded hcount hfits
  have hlen := length_pack s (codeStream s.code (inputBytes s))
  rw [hcount] at hlen
  have ht := exec_pack hd
  rw [stagePack, runPack_ok hct hhs hcap hcoded hcount hfits, runStage_ok, closeOutWriter_ok rfl] at ht
  refine ⟨_, ht, ⟨rfl, rfl, rfl⟩, (toNat_outLen_writeOut (hlen ▸ hfits)).trans hlen,
    fun a ha => outByte_writeOut_keptHeader s _ ha, fun k hk => ?bits, (exec_valid_of_success (by decide) hd ht rfl).trans ?valid⟩
  case bits =>
    rw [← getLsbD_packMsb]
    refine congrArg (BitVec.getLsbD · _) (outByte_writeOut_payload s ?_)
    rw [length_packMsb, hcount]
    omega
  case valid => rw [validRow, ← hhs]

/-- Settles O32, by what ends PACK's scan of the input: a byte without a code, no room, or another bit count than VBC. -/
theorem packRejectsAChangedInput : Obligations.PackRejectsAChangedInput := by
  intro s hd hct hhs hcap
  refine ⟨fun pre b post hin hcoded hfits hb => ?unknown, fun pre b post hin hcoded hlong => ?full,
    fun hcoded hfits hcount => ?count⟩
  case unknown =>
    refine finished_of_error (exec_pack_error hd (by decide) (runPack_of_loop_error hct hhs hcap ?_))
    rw [hin]
    exact packLoop_unknown hcoded hfits hb
  case full =>
    refine finished_of_error (exec_pack_error hd (by decide) (runPack_of_loop_error hct hhs hcap ?_))
    rw [hin]
    exact packLoop_full hcoded hlong
  case count =>
    exact finished_of_error (exec_pack_error hd (by decide) (runPack_of_count hct hhs hcap (packLoop_ok hcoded hfits) hcount))

/-- Settles O34: with prefix-free codes every insertion succeeds. -/
theorem treconTrieHoldsTheCodes : Obligations.TreconTrieHoldsTheCodes := by
  intro s hd hhd hfree
  obtain ⟨trie, hholds, hst⟩ := stageTrecon_of_prefixFree hhd hfree
  have ht := exec_trecon hd
  rw [hst] at ht
  refine ⟨_, ht, ⟨rfl, rfl, rfl⟩, hholds, (exec_valid_of_success (by decide) hd ht rfl).trans ?_⟩
  rw [validRow, hhd]

/-- Settles O36: each output byte takes a payload bit and a place in OUT; a failed UNPACK leaves no output. -/
theorem unpackBoundsItsOutput : Obligations.UnpackBoundsItsOutput := by
  intro s t hd h
  rw [exec_unpack hd] at h
  cases h
  rcases stageUnpack_cases s with ⟨out, -, -, hloop, hst⟩ | ⟨e, he, hst⟩
  · obtain ⟨hbits, hroom⟩ := unpackLoop_length hloop
    have hout := hroom (Nat.zero_le _)
    rw [hst, closeOutWriter_ok rfl]
    have hlen : (writeOut out s).outLen.toNat = out.length := toNat_outLen_writeOut hout
    exact ⟨hlen.trans_le hout, hlen.trans_le (by simpa using hbits)⟩
  · have hne : e ≠ .none := by rintro rfl; simp at he
    rw [hst, closeOutWriter_err hne]
    exact ⟨Nat.zero_le _, Nat.zero_le _⟩

/-- Settles O37: the walk reads the whole codes and the path; then the bit count ends, or the next bit decides. -/
theorem unpackRejectsBadPayloads : Obligations.UnpackRejectsBadPayloads := by
  intro s c xs p hd hv hcap hfree hholds hcoded hfits hnone hbits hlen n hw
  have hread := fun r => unpackLoop_codes_path (r := r) hfree hholds hcoded hfits hnone hw hbits hlen
  have herror : ∀ {e : ErrKind}, e ≠ .none → (codeStream c xs ++ p).length < s.dvbc.toNat →
      (∀ r, unpackLoop s (r + 1) (codeStream c xs ++ p).length n xs = .error e) →
      ∃ t, exec .unpack s = .next t ∧ finished t e := by
    intro e he hlt hnext
    refine finished_of_error (exec_unpack_error hd he (runUnpack_of_loop_error hv hcap ?_))
    obtain ⟨r, hr⟩ := Nat.exists_eq_add_of_lt hlt
    rw [hr, Nat.add_assoc, hread, hnext]
  refine ⟨fun hend hn => ?inside, fun hlt hcut => ?truncated, fun hlt hbyte hchild => ?child,
    fun m hlt hbyte hchild hm hfull => ?room⟩
  case inside =>
    have hloop : unpackLoop s s.dvbc.toNat 0 0 [] = .ok (n, xs) := by rw [hend]; exact hread 0
    exact finished_of_error (exec_unpack_error hd (by decide) (runUnpack_of_inside_code hv hcap hloop hn))
  case truncated => exact herror (by decide) hlt fun r => unpackLoop_truncated hcut
  case child => exact herror (by decide) hlt fun r => unpackLoop_no_child hbyte hchild
  case room => exact herror (by decide) hlt fun r => unpackLoop_no_room hbyte hchild hm hfull

end

section
/-! PROOFS. The composites: their stages run as commands of their own, DECOMPRESS of an artifact, and both as functions of their
input (48_composite.md R299, R305, R309). -/

namespace Sys2Proof.Machine

/-! ### A composite is its stages -/

/-- The command `i` run on its own does what the stage does in a composite, and neither reads nor writes the tags. -/
structure StageOf (i : Instr) (stage : State → Verdict) : Prop where
  runs : ∀ s, dutiful s → exec i s = .next (settled (stage s)) ∨ exec i s = .next (settled (closeOutWriter (stage s)))
  tags : ∀ x s, stage (withTags x s) = (stage s).withTags x

theorem StageOf.lost {i : Instr} {stage : State → Verdict} (h : StageOf i stage) (s : State) : (stage s).st.lost = s.lost :=
  congrArg (fun v : Verdict => v.st.lost) (h.tags s s)

theorem stageOf_tbuild : StageOf .tbuild stageTbuild := ⟨fun _ hd => .inl (exec_tbuild hd), stageTbuild_withTags⟩

theorem stageOf_cgen : StageOf .cgen stageCgen := ⟨fun _ hd => .inl (exec_cgen hd), stageCgen_withTags⟩

theorem stageOf_hser : StageOf .hser stageHser := ⟨fun _ hd => .inr (exec_hser hd), stageHser_withTags⟩

theorem stageOf_pack : StageOf .pack stagePack := ⟨fun _ hd => .inr (exec_pack hd), stagePack_withTags⟩

theorem stageOf_hdeser : StageOf .hdeser stageHdeser := ⟨fun _ hd => .inl (exec_hdeser hd), stageHdeser_withTags⟩

theorem stageOf_trecon : StageOf .trecon stageTrecon := ⟨fun _ hd => .inl (exec_trecon hd), stageTrecon_withTags⟩

theorem stageOf_unpack : StageOf .unpack stageUnpack := ⟨fun _ hd => .inr (exec_unpack hd), stageUnpack_withTags⟩

/-- Stages in sequence after the verdict `v`. -/
def thenStages (v : Verdict) (stages : List (State → Verdict)) : Verdict := stages.foldl Verdict.andThen v

theorem thenStages_err {v : Verdict} (h : v.err ≠ .none) (stages : List (State → Verdict)) : thenStages v stages = v := by
  induction stages with
  | nil => rfl
  | cons f stages ih => rw [thenStages, List.foldl_cons, andThen_err f h]; exact ih

theorem thenStages_cons {v : Verdict} (h : v.err = .none) (f : State → Verdict) (stages : List (State → Verdict)) :
    thenStages v (f :: stages) = thenStages (f v.st) stages := by
  rw [thenStages, List.foldl_cons, andThen_ok f h, thenStages]

/-- Commands run one after the other on what a successful stage left are the stages in sequence (48_composite.md R299). -/
theorem runStages_thenStages {l : List (Instr × (State → Verdict))} (hl : ∀ p ∈ l, StageOf p.1 p.2) {v : Verdict}
    (hv : v.err = .none) :
    runStages (l.map Prod.fst) (settled v) (settled (closeOutWriter (thenStages v (l.map Prod.snd)))) := by
  induction l generalizing v with
  | nil => exact congrArg settled (closeOutWriter_ok hv)
  | cons p l ih =>
    obtain ⟨hp, hl⟩ := List.forall_mem_cons.1 hl
    rw [List.map_cons, List.map_cons, thenStages_cons hv]
    exact runStages_settled hp.runs hp.tags hp.lost (fun hok => ih hl hok) fun hfail => by rw [thenStages_err hfail]

theorem compressStages_eq (s : State) :
    compressStages s = thenStages (stageFcount s) [stageTbuildUnlessEmpty, stageCgen, stageHser, stagePack] := rfl

theorem decompressStages_eq (s : State) :
    decompressStages s = thenStages (stageHdeser (clearHs s)) [stageTrecon, stageUnpack] := rfl

/-- COMPRESS's stages from CGEN on, each with its command (48_composite.md R300). -/
def codeStages : List (Instr × (State → Verdict)) := [(.cgen, stageCgen), (.hser, stageHser), (.pack, stagePack)]

theorem stageOf_codeStages : ∀ p ∈ codeStages, StageOf p.1 p.2 :=
  List.forall_mem_cons.2 ⟨stageOf_cgen, List.forall_mem_cons.2 ⟨stageOf_hser, List.forall_mem_singleton.2 stageOf_pack⟩⟩

/-- The stages after FCOUNT are the commands that make the code table, then HSER and PACK (48_composite.md R300, R302). -/
theorem runStages_afterCount {v : Verdict} (hv : v.err = .none) :
    runStages (tableStages (settled v) ++ [.hser, .pack]) (settled v)
      (settled (closeOutWriter (thenStages v [stageTbuildUnlessEmpty, stageCgen, stageHser, stagePack]))) := by
  obtain ⟨e, w⟩ := v
  obtain rfl : e = .none := hv
  rw [thenStages_cons rfl, stageTbuildUnlessEmpty]
  by_cases hn : w.nsym = 0
  · rw [tableStages, if_pos hn, if_neg (by simp [hn])]
    exact runStages_thenStages stageOf_codeStages (v := ⟨.none, w⟩) rfl
  · have hpos : 1 ≤ w.nsym.toNat := Nat.pos_of_ne_zero fun h => hn (BitVec.eq_of_toNat_eq h)
    rw [tableStages, if_neg hn, if_pos hpos, ← thenStages_cons (v := ⟨.none, w⟩) rfl]
    have hstages : ∀ p ∈ (.tbuild, stageTbuild) :: codeStages, StageOf p.1 p.2 :=
      List.forall_mem_cons.2 ⟨stageOf_tbuild, stageOf_codeStages⟩
    have hrun := runStages_thenStages hstages (v := ⟨.none, w⟩) rfl
    simpa only [codeStages, List.map_cons, List.map_nil, List.cons_append, List.nil_append] using hrun

/-! ### DECOMPRESS of an artifact -/

theorem addEntries_eq {es : List Entry} {c : Table Bits} (hes : entriesOk es) (hc : ∀ e ∈ es, c.read e.sym = entryCode e)
    (hno : ∀ b, b ∉ es.map Entry.sym → c.read b = []) : addEntries (Table.fill []) es = c := by
  apply Table.ext_read
  intro b
  by_cases hb : b ∈ es.map Entry.sym
  · obtain ⟨e, he, rfl⟩ := List.mem_map.1 hb
    rw [addEntries_mem hes.2 he, hc e he]
  · rw [addEntries_not_mem hb, Table.read_fill, hno b hb]

/-! ### COMPRESS as a function of its input -/

theorem SameInput.inCap {s u : State} (h : SameInput s u) : inCap s = inCap u := congrArg BitVec.toNat h.inCapR

theorem SameInput.outCap {s u : State} (h : SameInput s u) : outCap s = outCap u := congrArg BitVec.toNat h.outCapR

/-- COMPRESS of equal inputs ends with the same error and valid bits, and on success with the same tree. -/
theorem compressStages_congr {s u : State} (h : SameInput s u) :
    (compressStages s).err = (compressStages u).err ∧
      encoderBits (compressStages s).st = encoderBits (compressStages u).st ∧
      ((compressStages s).err = .none → inputBytes s ≠ [] → (compressStages s).st.tree = (compressStages u).st.tree) := by
  have hspec := compressStages_spec u
  rw [← h.len, ← h.inCap, ← h.outCap, ← h.bytes] at hspec
  rcases compressStages_spec s with ⟨hi, hv, ho, herr, hp, hvt, ht⟩ | ⟨hno, herr, hbits⟩
  · rcases hspec with ⟨-, -, -, herr', hp', hvt', ht'⟩ | ⟨hno, -⟩
    · refine ⟨herr.trans herr'.symm, ?_, fun _ hne => (ht hne).trans (ht' hne).symm⟩
      simp only [encoderBits, hp.ft, hp'.ft, hvt, hvt', hp.ct, hp'.ct, hp.hs, hp'.hs]
    · exact absurd ⟨hi, hv, ho⟩ hno
  · rcases hspec with ⟨hi, hv, ho, -⟩ | ⟨-, herr', hbits'⟩
    · exact absurd ⟨hi, hv, ho⟩ hno
    · exact ⟨herr.trans herr'.symm, hbits.trans hbits'.symm, fun hok => by rw [herr] at hok; cases hok⟩

/-! ### DECOMPRESS as a function of its input -/

/-- HS_V, HD_V and TRIE_V: the valid bits DECOMPRESS writes. -/
def decompressBits (v : ValidBits) : Bool × Bool × Bool := (v.hs, v.hd, v.trie)

/-- Two verdicts with the same error and the same of DECOMPRESS's valid bits; on success their states are related. -/
structure SameVerdict (R : State → State → Prop) (v w : Verdict) : Prop where
  err : v.err = w.err
  bits : decompressBits v.st.valid = decompressBits w.st.valid
  result : v.err = .none → R v.st w.st

theorem SameVerdict.andThen {R R' : State → State → Prop} {v w : Verdict} {f : State → Verdict} (h : SameVerdict R v w)
    (hf : ∀ s u, R s u → decompressBits s.valid = decompressBits u.valid → SameVerdict R' (f s) (f u)) :
    SameVerdict R' (v.andThen f) (w.andThen f) := by
  by_cases hok : v.err = .none
  · rw [andThen_ok f hok, andThen_ok f (h.err ▸ hok)]
    exact hf _ _ (h.result hok) h.bits
  · rw [andThen_err f hok, andThen_err f (h.err ▸ hok)]
    exact ⟨h.err, h.bits, fun hne => absurd hne hok⟩

theorem decompressBits_diff {v w : ValidBits} (k : ValidBits) (h : decompressBits v = decompressBits w) :
    decompressBits (v.diff k) = decompressBits (w.diff k) := by
  simp only [decompressBits, Prod.mk.injEq] at h
  obtain ⟨hhs, hhd, htrie⟩ := h
  simp only [decompressBits, ValidBits.diff, hhs, hhd, htrie]

theorem decompressBits_union {v w : ValidBits} (g : ValidBits) (h : decompressBits v = decompressBits w) :
    decompressBits (v.union g) = decompressBits (w.union g) := by
  simp only [decompressBits, Prod.mk.injEq] at h
  obtain ⟨hhs, hhd, htrie⟩ := h
  simp only [decompressBits, ValidBits.union, hhs, hhd, htrie]

/-- Two runs of a stage whose pseudocode fails with the same error or succeeds with related states. -/
theorem sameVerdict_runStage {i : Instr} {s u : State} {r r' : Except ErrKind State} {R : State → State → Prop}
    (hbits : decompressBits (s.valid.diff (killSet i)) = decompressBits (u.valid.diff (killSet i)))
    (h : (∃ k, k ≠ .none ∧ r = .error k ∧ r' = .error k) ∨
      ∃ a b, r = .ok a ∧ r' = .ok b ∧ R (stageOk i s a) (stageOk i u b)) :
    SameVerdict R (runStage i s r) (runStage i u r') := by
  rcases h with ⟨k, hk, rfl, rfl⟩ | ⟨a, b, rfl, rfl, hR⟩
  · exact ⟨rfl, hbits, fun hne => absurd hne hk⟩
  · exact ⟨rfl, decompressBits_union _ hbits, fun _ => hR⟩

/-- The same input, and the same decoded header. -/
structure SameHeader (s u : State) : Prop extends SameInput s u where
  dcode : s.dcode = u.dcode
  dnent : s.dnent = u.dnent
  dvbc : s.dvbc = u.dvbc
  payOff : s.payOff = u.payOff

/-- … and the same trie. -/
structure SameTrie (s u : State) : Prop extends SameHeader s u where
  trie : s.trie = u.trie

/-- … and the same output. -/
structure SameOutput (s u : State) : Prop extends SameTrie s u where
  outLen : s.outLen = u.outLen
  outBytes : outBytes s = outBytes u

theorem stageHdeser_congr {s u : State} (h : SameInput s u) (hhs : s.valid.hs = u.valid.hs) :
    SameVerdict SameHeader (stageHdeser s) (stageHdeser u) := by
  refine sameVerdict_runStage ?_ ?_
  · rw [diff_killSet, diff_killSet]
    exact congrArg (·, false, false) hhs
  · rcases runHdeser_congr h with ⟨k, hs, hu⟩ | ⟨c, e, v, p, hs, hu⟩
    · have hk : k ≠ .none := by rintro rfl; simpa using runHdeser_error hs
      exact .inl ⟨k, hk, hs, hu⟩
    · exact .inr ⟨_, _, hs, hu, ⟨h.len, h.bytes, h.inCapR, h.outCapR⟩, rfl, rfl, rfl, rfl⟩

theorem stageTrecon_congr {s u : State} (h : SameHeader s u) (hbits : decompressBits s.valid = decompressBits u.valid) :
    SameVerdict SameTrie (stageTrecon s) (stageTrecon u) := by
  refine sameVerdict_runStage (decompressBits_diff _ hbits) ?_
  have hhd : s.valid.hd = u.valid.hd := congrArg (fun b => b.2.1) hbits
  by_cases hno : s.valid.hd = false
  · exact .inl ⟨_, by decide, if_pos hno, if_pos (hhd.symm.trans hno)⟩
  · rw [runTrecon, runTrecon, if_neg hno, if_neg (hhd ▸ hno)]
    rcases insertAll_all s.dcode with ⟨t, ht, -⟩ | ⟨ht, -⟩
    · have ht' := h.dcode ▸ ht
      rw [ht, ht']
      exact .inr ⟨_, _, rfl, rfl, ⟨⟨h.len, h.bytes, h.inCapR, h.outCapR⟩, h.dcode, h.dnent, h.dvbc, h.payOff⟩, rfl⟩
    · have ht' := h.dcode ▸ ht
      rw [ht, ht']
      exact .inl ⟨_, by decide, rfl, rfl⟩

@[simp] theorem length_cellsFrom (i : Nat) (bs : List Byte) : (cellsFrom i bs).length = bs.length := by
  induction bs generalizing i with
  | nil => rfl
  | cons b bs ih => rw [cellsFrom, List.length_cons, List.length_cons, ih]

/-- What UNPACK writes fits OUT (47_bit_unpacker.md R284). -/
theorem length_of_runUnpack {s : State} {out : List Byte} (h : runUnpack s = .ok (writeOut out s)) : out.length ≤ outCap s := by
  rcases stageUnpack_cases s with ⟨out', -, -, hloop, hst⟩ | ⟨e, he, hst⟩
  · rw [stageUnpack, h] at hst
    have hcells : cellsFrom 0 out = cellsFrom 0 out' := congrArg (fun v : Verdict => v.st.outBuf.cells) hst
    have hlen := congrArg List.length hcells
    rw [length_cellsFrom, length_cellsFrom] at hlen
    rw [hlen]
    exact (unpackLoop_length hloop).2 (Nat.zero_le _)
  · rw [stageUnpack, h] at hst
    obtain rfl : .none = e := congrArg Verdict.err hst
    simp at he

theorem stageUnpack_congr {s u : State} (h : SameTrie s u) (hbits : decompressBits s.valid = decompressBits u.valid) :
    SameVerdict SameOutput (stageUnpack s) (stageUnpack u) := by
  refine sameVerdict_runStage (decompressBits_diff _ hbits) ?_
  have hvalid : s.valid.trie = u.valid.trie := congrArg (fun b => b.2.2) hbits
  rcases runUnpack_congr h.toSameInput h.payOff h.trie h.dvbc hvalid with ⟨k, hs, hu⟩ | ⟨out, hs, hu⟩
  · have hk : k ≠ .none := by rintro rfl; simpa using runUnpack_error hs
    exact .inl ⟨k, hk, hs, hu⟩
  · have hout := length_of_runUnpack hs
    have hout' := length_of_runUnpack hu
    refine .inr ⟨_, _, hs, hu, ⟨⟨⟨h.len, h.bytes, h.inCapR, h.outCapR⟩, h.dcode, h.dnent, h.dvbc, h.payOff⟩, h.trie⟩, rfl, ?_⟩
    exact (outBytes_eq _ out (toNat_outLen_writeOut hout) rfl).trans (outBytes_eq _ out (toNat_outLen_writeOut hout') rfl).symm

/-- DECOMPRESS of equal inputs ends with the same error and valid bits, and on success with the same registers, tables and
output. -/
theorem decompressStages_congr {s u : State} (h : SameInput s u) :
    SameVerdict SameOutput (decompressStages s) (decompressStages u) :=
  ((stageHdeser_congr (s := clearHs s) (u := clearHs u) ⟨h.len, h.bytes, h.inCapR, h.outCapR⟩ rfl).andThen
    fun _ _ => stageTrecon_congr).andThen fun _ _ => stageUnpack_congr

/-! ### The composites' completions -/

theorem SameOutput.settled {v w : Verdict} (h : SameOutput v.st w.st) : SameOutput (settled v) (settled w) :=
  ⟨⟨⟨⟨h.len, h.bytes, h.inCapR, h.outCapR⟩, h.dcode, h.dnent, h.dvbc, h.payOff⟩, h.trie⟩, h.outLen, h.outBytes⟩

section
variable {s u t v : State} (h : SameInput s u) (hd : dutiful s) (hdu : dutiful u)
include h hd hdu

theorem exec_compress_congr (ht : exec .compress s = .next t) (hv : exec .compress u = .next v) :
    t.errcode = v.errcode ∧ encoderBits t = encoderBits v ∧ (t.errcode = .none → inputBytes s ≠ [] → t.tree = v.tree) := by
  obtain rfl := Host.Outcome.next.inj ((exec_compress hd).symm.trans ht)
  obtain rfl := Host.Outcome.next.inj ((exec_compress hdu).symm.trans hv)
  obtain ⟨herr, hbits, htree⟩ := compressStages_congr h
  generalize compressStages s = a at *
  generalize compressStages u = b at *
  refine ⟨(closeOutWriter_kind a).trans (herr.trans (closeOutWriter_kind b).symm), ?_, fun hok hne => ?_⟩
  · simp only [encoderBits, closeOutWriter_valid]
    exact hbits
  · have hok : a.err = .none := (closeOutWriter_kind a).symm.trans hok
    rw [closeOutWriter_ok hok, closeOutWriter_ok (herr ▸ hok)]
    exact htree hok hne

theorem exec_decompress_congr (ht : exec .decompress s = .next t) (hv : exec .decompress u = .next v) :
    t.errcode = v.errcode ∧ decompressBits t.valid = decompressBits v.valid ∧ (t.errcode = .none → SameOutput t v) := by
  obtain rfl := Host.Outcome.next.inj ((exec_decompress hd).symm.trans ht)
  obtain rfl := Host.Outcome.next.inj ((exec_decompress hdu).symm.trans hv)
  have hsame := decompressStages_congr h
  generalize decompressStages s = a at *
  generalize decompressStages u = b at *
  refine ⟨(closeOutWriter_kind a).trans (hsame.err.trans (closeOutWriter_kind b).symm), ?_, fun hok => ?_⟩
  · rw [closeOutWriter_valid, closeOutWriter_valid]
    exact hsame.bits
  · have hok : a.err = .none := (closeOutWriter_kind a).symm.trans hok
    rw [closeOutWriter_ok hok, closeOutWriter_ok (hsame.err ▸ hok)]
    exact (hsame.result hok).settled

end

end Sys2Proof.Machine

open Sys2Proof Sys2Proof.Machine

/-- Settles O38: each stage neither reads nor writes what completion sets, so run as a command it does what it does in the
composite. -/
theorem compositesRunTheirStages : Obligations.CompositesRunTheirStages := by
  intro s hd
  refine ⟨⟨_, _, exec_fcount hd, exec_compress hd, fun hok => ?compress, fun hfail => ?count⟩,
    ⟨_, exec_decompress hd, ?decompress⟩⟩
  case compress =>
    rw [compressStages_eq]
    exact runStages_afterCount hok
  case count =>
    have hfail : (stageFcount s).err ≠ .none := hfail
    rw [compressStages_eq, thenStages_err hfail]
    exact failedAs_closeOutWriter hfail
  case decompress =>
    have hstages : ∀ p ∈ [(Instr.trecon, stageTrecon), (.unpack, stageUnpack)], StageOf p.1 p.2 :=
      List.forall_mem_cons.2 ⟨stageOf_trecon, List.forall_mem_singleton.2 stageOf_unpack⟩
    refine runStages_cons (s := clearHs s) hd stageOf_hdeser.runs (fun hok => runStages_thenStages hstages hok) fun hfail => ?_
    rw [decompressStages_eq, thenStages_err hfail]
    exact failedAs_closeOutWriter hfail

/-- Settles O41: the header's entries make the prefix-free table that decodes the payload. -/
theorem decompressDecodesAnArtifact : Obligations.DecompressDecodesAnArtifact := by
  intro s es c xs v pay hd hcap hes hc hno hfree hxs hv hlt hpay hbits hin hout
  subst hv
  have hcoded : ∀ x ∈ xs, c.read x ≠ [] := by
    intro x hx
    obtain ⟨e, he, rfl⟩ := List.mem_map.1 (hxs x hx)
    rw [hc e he]
    exact entryCode_ne_nil (hes.1 e he)
  have hdec : Decodable es c xs pay s := ⟨hcap, hin, hes, addEntries_eq hes hc hno, hfree, hcoded, hlt, hpay, hbits⟩
  obtain ⟨t, ht, hfin, hbytes, hlen⟩ := hdec.exec_decompress hd hout
  exact ⟨t, ht, hfin, hbytes, hlen, exec_decompress_valid hd ht hfin.errcode⟩

/-- Settles O44: COMPRESS leaves the artifact of its input, and DECOMPRESS's stages read nothing but the input and what the stages
before them decoded. -/
theorem compositesAreFunctionsOfTheirInput : Obligations.CompositesAreFunctionsOfTheirInput := by
  intro s u t v hd hdu hlen hbytes hin hout
  have hsame : SameInput s u := ⟨hlen, hbytes, hin, hout⟩
  refine ⟨fun ht hv => ?compress, fun ht hv => ?decompress⟩
  case compress =>
    obtain ⟨herr, hbits, htree⟩ := exec_compress_congr hsame hd hdu ht hv
    simp only [encoderBits, Prod.mk.injEq] at hbits
    obtain ⟨hft, htreeV, hct, hhs⟩ := hbits
    by_cases hok : t.errcode = .none
    · obtain ⟨hc, -⟩ := exec_compress_success hd ht hok
      obtain ⟨hc', -⟩ := exec_compress_success hdu hv (herr ▸ hok)
      rw [← hbytes] at hc'
      have hne : 1 ≤ t.nsym.toNat → inputBytes s ≠ [] := fun hn => distinct_pos.1 (hc.nsym_toNat hc.bound ▸ hn)
      exact ⟨herr, hc.outLen.trans hc'.outLen.symm, hft, htreeV, hct, hhs, fun _ => ⟨hc.outBytes.trans hc'.outBytes.symm,
        hc.freq.trans hc'.freq.symm, hc.rank.trans hc'.rank.symm, hc.nsym.trans hc'.nsym.symm, fun hn => htree hok (hne hn),
        hc.code.trans hc'.code.symm, hc.vbc.trans hc'.vbc.symm, hc.hdrLen.trans hc'.hdrLen.symm⟩⟩
    · have hlost := (failedOutWriterLosesOutput .compress s t hd (by decide) ht hok).1
      have hlost' := (failedOutWriterLosesOutput .compress u v hdu (by decide) hv (herr ▸ hok)).1
      exact ⟨herr, hlost.trans hlost'.symm, hft, htreeV, hct, hhs, fun h => absurd h hok⟩
  case decompress =>
    obtain ⟨herr, hbits, hresult⟩ := exec_decompress_congr hsame hd hdu ht hv
    simp only [decompressBits, Prod.mk.injEq] at hbits
    obtain ⟨hhs, hhd, htrie⟩ := hbits
    by_cases hok : t.errcode = .none
    · have h := hresult hok
      exact ⟨herr, h.outLen, hhs, hhd, htrie, fun _ => ⟨h.outBytes, h.dcode, h.dnent, h.dvbc, h.payOff, h.trie⟩⟩
    · have hlost := (failedOutWriterLosesOutput .decompress s t hd (by decide) ht hok).1
      have hlost' := (failedOutWriterLosesOutput .decompress u v hdu (by decide) hv (herr ▸ hok)).1
      exact ⟨herr, hlost.trans hlost'.symm, hhs, hhd, htrie, fun h => absurd h hok⟩

end
